-- ==== Sys2Proof/Word.lean ====
section
/-! DEFINITION. Word types of the part, and nothing else. -/

namespace Sys2Proof

/-- A byte is 8 bits (00_scope, Numbers and sizes). -/
abbrev Byte := BitVec 8
abbrev U16 := BitVec 16
/-- Sequence numbers, batch numbers, binding numbers and host addresses are 32-bit (00_scope). -/
abbrev U32 := BitVec 32
/-- A module serial number (R205). -/
abbrev U64 := BitVec 64
/-- The bytes of a payload, a tag or a data transfer, in order. -/
abbrev Payload := List Byte
/-- A reading of the millisecond time base (R1). -/
abbrev Time := Nat

end Sys2Proof
end

