-- ==== Sys2Proof/Syntax.lean ====
section
/-! DEFINITION. The commands of the block: one constructor for each row of the table of operations and events. -/

namespace Sys2Proof

/-- Host access sizes: 1, 2, 4 and 8 bytes, and bursts of 1 to 64 bytes within one line (R46). -/
inductive AccessSize where
  | single (bytes : Nat)
  | burst (len : Nat)
  deriving DecidableEq, Repr

/-- Number of bytes an access of this size touches. -/
def AccessSize.bytes : AccessSize → Nat
  | .single n => n
  | .burst n => n

/-- A request on the host side port (R46): data and byte enables stand for writes only. -/
structure HostReq where
  tag : Fin 16
  write : Bool
  addr : U32
  size : AccessSize
  data : Payload
  enables : List Bool
  deriving DecidableEq, Repr

/-- An answer frame as received on MIO (R148, R206): echoed code, module status, argument, check, and the
level of the stop marker. -/
structure AnswerFrame where
  code : Byte
  status : Byte
  arg : U32
  check : Byte
  stop : Bool
  deriving DecidableEq, Repr

/-- A read burst as received on MD0 to MD3 (R149, R206): blank nibble, payload, tag, transfer check, and the
nibble of the stop clock. -/
structure ReadBurst where
  blank : BitVec 4
  payload : Payload
  tag : Payload
  check : U16
  stop : BitVec 4
  deriving DecidableEq, Repr

/-- The operations and events of the part, one constructor for each row of the table. Management commands carry
their argument fields at the byte widths of R203. -/
inductive Instr where
  | powerOnReset (addr1 addr0 mpres pfw : Bool)
  | hostRequestAccepted (req : HostReq)
  | holdLimitExpiry (tag : Fin 16)
  | memoryPortGrant
  | hostMemoryResponse (tag : Fin 32) (ok : Bool) (data : Payload)
  | captureReadResponse (part : Fin 4) (ok : Bool) (data : Payload)
  | fillWriteResponse (group : Fin 2) (part : Fin 4) (ok : Bool)
  | ageTimerExpiry
  | batchStart
  | backoffExpiry
  | recoveryRetryExpiry
  | recoveryStart
  | linkGrant
  | requestFrameSent
  | mioContention
  | answerTaken (frame : AnswerFrame)
  | answerTimeout
  | readBurstEnd (burst : ReadBurst)
  | dataTimeout
  | writeBurstSent
  | writeAckTaken (code : BitVec 2) (stop : Bool)
  | busyEnd
  | busyTimeout
  | mpresRise
  | mpresFall
  | settleTimerExpiry
  | pfwAsserted
  | pfwWithdrawn
  | finalDeadlineExpiry
  | windowWrite (address : BitVec 7) (bytes : List Byte)
  | badCommand (code : Byte)
  | setRegion (region : Byte) (ramBase : U32) (size : U16) (homeBase : U32)
  | attach (region mode : Byte)
  | detach (region : Byte)
  | checkpoint
  | pause
  | resume
  | setBinding (binding : U32)
  | setLimits (selector : Byte) (value : U16)
  | setEventMasks (kind capture alert : Byte)
  | clearFault
  | queryBlock (region : Byte) (index : U16)
  | queryRegion (region : Byte)
  | readEvent
  | cancel
  | sync
  | format (mode : Byte)
  | resetLink
  | resetEngine
  | resetAll
  | readAcknowledgeSent
  deriving DecidableEq, Repr

end Sys2Proof
end

