-- ==== Sys2Proof/Decode.lean ====
section
/-! DEFINITION. The table gives no row any bits (its operations and events are not words), so no word spells a
command. What management software writes into the mailbox is decoded in Machine/Commands.lean (R203). -/

namespace Sys2Proof

/-- The command that a word of the table's bits spells: no row of the table gives bits, so none. -/
def decodeTableWord (_nbits _w : Nat) : Option Instr := none

end Sys2Proof
end

