-- ==== Sys2Proof/Config.lean ====
section
/-! DEFINITION. What the implementation fixes, and the free value of the model. -/

namespace Sys2Proof.Config

/-- The time base is a 48-bit count of milliseconds (R1). -/
def timeEnd : Nat := 2 ^ 48
/-- The held access list never holds more than 8 entries (R50). -/
def heldMax : Nat := 8
/-- The demand list holds up to 8 block ids (R118). -/
def demandMax : Nat := 8
/-- The event queue never holds more than 32 records (R181). -/
def eventMax : Nat := 32
/-- Answers and write acknowledges must begin within 80 link clocks (R148, R149). -/
def answerClocks : Nat := 80
/-- The block table holds at most 4096 block records (R36). -/
def recordMax : Nat := 4096
/-- Module blocks are numbered below 16,777,216 (R34, R98). -/
def moduleMax : Nat := 16777216
/-- Module block 67 is the first home (R98). -/
def homeStart : Nat := 67
/-- The format version the part supports (R172). -/
def formatVersion : Nat := 1
/-- Part identity bytes: vendor, family, part, design revision (R202). -/
def identityBytes : List Byte := [0x56#8, 0x52#8, 0x01#8, 0x01#8]

/-- FREE VALUE (log 6). When one link loss gives the requester both a failure report and a change of module
status, R91 lets either be taken first: whether the report is taken first the n-th time this comes up. -/
opaque lossReportFirst : Nat → Bool

end Sys2Proof.Config
end

