-- ==== Sys2Proof/Machine/State.lean ====
section
/-! DEFINITION. The state of the part as plain data, block by block, and its value after power-on reset. -/

namespace Sys2Proof.Machine

/-- Why a step stops with a fault. -/
inductive Fault where
  /-- Raised by the idle step when the 48-bit time base is at its last value: the spec says the count does not
  wrap in service (R1) and gives no effect beyond it. Safe: the model stops, no claim is made (log 3). -/
  | timeBaseEnd
  deriving DecidableEq, Repr

/-- Why a step is refused. -/
inductive Refusal where
  /-- The command has no meaning in the model yet. No arm of `exec` answers it. Safe. -/
  | notModelled (mnemonic : String)
  deriving DecidableEq, Repr

/-! ### Regions and block records -/

/-- A block id: region number and block index (00_scope, Addresses and blocks). -/
structure BlockId where
  region : Fin 8
  index : Nat
  deriving DecidableEq, Repr

/-- Suspend reasons, in the order of R30. -/
inductive SuspendReason where
  | noModule | moduleNotReady | capacity
  deriving DecidableEq, Repr

/-- Region states (R30); the suspend reason is present in SUSPENDED only. -/
inductive RegionState where
  | off | restoring | mirrored
  | suspended (why : SuspendReason)
  deriving DecidableEq, Repr

/-- A region record (R30). The absent count is kept by the block table (R23) and computed from its records. -/
structure Region where
  state : RegionState
  ramBase : U32
  size : Nat
  homeBase : Nat
  deriving DecidableEq, Repr

/-- Sync marks (R1, R24). -/
inductive Mark where
  | pending | carry
  deriving DecidableEq, Repr

/-- Block states (R1), each with the fields present in it: dirty since in DIRTY and REDIRTIED, the staging slot
in CAPTURING, CAPTURED and REDIRTIED, the unreadable flag on ABSENT. -/
inductive BlockState where
  | absent (unreadable : Bool)
  | filling
  | clean
  | dirty (since : Time)
  | capturing (slot : Nat)
  | captured (slot : Nat)
  | redirtied (since : Time) (slot : Nat)
  deriving DecidableEq, Repr

/-- A block record (R1). -/
structure BlockRec where
  state : BlockState
  mark : Option Mark
  deriving DecidableEq, Repr

/-- A dirty queue entry (R8). -/
structure QEntry where
  id : BlockId
  joined : Time
  deriving DecidableEq, Repr

/-- The age timer of the leading entry and the *age reached* input it raises (R11). `lead` is the entry it was set for and
`target` that entry's joined time plus the interval; both absent when the interval is 0 or nothing leads. -/
structure AgeTimer where
  lead : Option QEntry
  target : Option Time
  reached : Bool
  deriving DecidableEq, Repr

/-- The block table (chapter 1). -/
structure BlockTable where
  recs : Vector (List BlockRec) 8
  queue : List QEntry
  budget : Nat
  thresholds : Vector Nat 4
  trigger : Nat
  interval : Nat
  age : AgeTimer
  deriving DecidableEq, Repr

/-! ### Path unit -/

/-- Hold reasons, in the order of R50. -/
inductive HoldReason where
  | fill | capture | budget | freeze | order
  deriving DecidableEq, Repr

/-- An entry of the held access list (R50). -/
structure Held where
  req : HostReq
  id : BlockId
  reason : HoldReason
  since : Time
  deriving DecidableEq, Repr

/-- Where the access of a host tag stands (chapter 3 opening): not outstanding, held, in the host lane, or issued to memory. -/
inductive TagState where
  | idle | held | lane
  | memory (write : Bool)
  deriving DecidableEq, Repr

/-- The three lanes of the downstream arbiter (R61). -/
inductive Lane where
  | host | capture | fill
  deriving DecidableEq, Repr

/-- A capture read asked for and not yet issued (R60, R61): part k uses memory tag 16 + k. `ahead` counts the host lane entries
forwarded before it and still waiting (R62). -/
structure CaptureReq where
  part : Fin 4
  addr : Nat
  ahead : Nat
  deriving DecidableEq, Repr

/-- A fill write asked for and not yet issued (R60, R122): part k of group g uses memory tag 20 + 4 g + k. `ahead` counts the
host lane entries forwarded before it and still waiting (R62). -/
structure FillReq where
  group : Fin 2
  part : Fin 4
  addr : Nat
  data : Payload
  ahead : Nat
  deriving DecidableEq, Repr

/-- An own memory tag: free, outstanding, or outstanding with its response to be discarded (R60, R130). -/
inductive TagUse where
  | free | live | stale
  deriving DecidableEq, Repr

/-- The path unit (chapter 3). `port` holds the requests presented and not yet accepted (R46, R51). -/
structure Path where
  tags : Vector TagState 16
  held : List Held
  port : List HostReq
  hostLane : List HostReq
  captureLane : List CaptureReq
  fillLane : List FillReq
  priority : List Lane
  own : Vector TagUse 16
  holdLimit : Nat
  deriving DecidableEq, Repr

/-! ### Checkpoint engine and recovery -/

/-- Remembered points of a pause, in the order of R202. -/
inductive Point where
  | idle | backoff | nextCapture | journalNext | applyStart | applyNext
  deriving DecidableEq, Repr

/-- Halt reasons (R68). -/
inductive HaltReason where
  | abortLimit | applyFailed
  deriving DecidableEq, Repr

/-- Engine states (R68); the remembered point is present in PAUSED and the halt reason in HALTED. -/
inductive EngineState where
  | idle | capture | journal | commit | verify | apply | retire | recover | backoff
  | paused (point : Point)
  | inDoubt
  | halted (why : HaltReason)
  deriving DecidableEq, Repr

/-- The two journal status slots: module blocks 1 and 2 (R98). -/
inductive StatusSlot where
  | a | b
  deriving DecidableEq, Repr

/-- States of a status record (R101). -/
inductive RecordState where
  | empty | committed | applied
  deriving DecidableEq, Repr

/-- A valid journal status record (R101), less its record check. -/
structure StatusRecord where
  seq : U32
  state : RecordState
  batch : U32
  count : Nat
  check : U32
  binding : U32
  deriving DecidableEq, Repr

/-- A filled staging slot: payload and descriptor (R68). A slot filled by recovery has no joined time and no
mark (R111). -/
structure Staged where
  id : BlockId
  payload : Payload
  joined : Option Time
  mark : Option Mark
  deriving DecidableEq, Repr

/-- The batch in progress (R68): limit as read at CAPTURE start, capture starts taken, N once JOURNAL has
started, n once CAPTURE has ended, the entry check once computed; whether its commit point has been reached; the
next slot and the next home not yet sent (R76, R85). Its entries are the filled staging slots. -/
structure Batch where
  limit : Nat
  starts : Nat
  number : Option U32
  count : Option Nat
  check : Option U32
  committed : Bool
  sent : Nat
  applied : Nat
  deriving DecidableEq, Repr

/-- A capture read in progress (R16, R72). -/
structure CaptureRead where
  id : BlockId
  slot : Nat
  taken : Nat
  error : Bool
  deriving DecidableEq, Repr

/-- Where recovery stands (R109 to R113): reading slot A, reading slot B, reading entries (with the entry
tags received so far, whose bytes the entry check covers), writing homes, writing the APPLIED record. -/
inductive RecoveryStep where
  | readA
  | readB (a : Option StatusRecord)
  | entries (tags : List Payload)
  | homes (sent : Nat)
  | applied
  deriving DecidableEq, Repr

/-- A recovery in progress: whether an in-doubt batch is still to be settled (R110), whether it was confirmed,
whether recovery was entered from PAUSED (R94), the newest valid record found (R109), and the step. -/
structure Recovery where
  unsettled : Bool
  confirmed : Bool
  fromPaused : Bool
  newest : Option (StatusSlot × StatusRecord)
  step : RecoveryStep
  deriving DecidableEq, Repr

/-- The checkpoint engine (R68, R108). -/
structure Engine where
  state : EngineState
  batch : Option Batch
  staging : List Staged
  capture : Option CaptureRead
  lastCommitted : Option U32
  knowledge : Option (U32 × StatusSlot)
  aborts : Nat
  backoff : Option Time
  pauseReq : Bool
  checkpointReq : Bool
  batchLimit : Nat
  backoffInterval : Nat
  journalHold : Bool
  retryTimer : Option Time
  abortWaiting : Bool
  resetWaiting : Bool
  verifyA : Option (Option StatusRecord)
  recovery : Option Recovery
  deriving DecidableEq, Repr

/-! ### Fill engine -/

/-- A fill buffer slot (R118). A WRITING slot also counts the responses taken and keeps whether one was an
error (R128, R129). -/
inductive FillSlot where
  | free
  | reserved (id : BlockId)
  | loaded (id : BlockId) (payload : Payload)
  | writing (id : BlockId) (payload : Payload) (group : Fin 2) (taken : Nat) (error : Bool)
  deriving DecidableEq, Repr

/-- A block of the background run, its slot, and whether its own fill has already ended (R130: only blocks
still FILLING fail with the run). -/
structure RunBlock where
  id : BlockId
  slot : Fin 8
  ended : Bool
  deriving DecidableEq, Repr

/-- The background run (R118): its blocks in home order, the position of the next block not yet received, and
its phase, OPEN or YIELDED. -/
structure BackgroundRun where
  blocks : List RunBlock
  next : Nat
  yielded : Bool
  deriving DecidableEq, Repr

/-- The fill engine (R118). `arrivals` lists the LOADED slots in the order their bursts arrived (R122);
`lastBlock` is the last block of a run whose END RUN has not ended yet (R156). -/
structure Fill where
  queue : List BlockId
  demand : List BlockId
  slots : Vector FillSlot 8
  arrivals : List (Fin 8)
  demandRun : Option (BlockId × Fin 8)
  background : Option BackgroundRun
  lastBlock : Option BlockId
  deriving DecidableEq, Repr

/-! ### Link controller -/

/-- Link states, in the order of R146. -/
inductive LinkState where
  | off | identifying | ready | request | run | busy | lost
  deriving DecidableEq, Repr

inductive Rate where
  | slow | normal
  deriving DecidableEq, Repr

/-- Requesters, in the order of R162. -/
inductive Requester where
  | identification | format | recovery | demand | checkpoint | background
  deriving DecidableEq, Repr

/-- Request codes (R206). -/
inductive ReqCode where
  | identify | query | readBlock | readRun | writeBlock | writeRun | endRun
  deriving DecidableEq, Repr

/-- Module statuses other than OK in an answer (R148). -/
inductive LinkStatus where
  | range | writeProtected | worn | illegal
  deriving DecidableEq, Repr

/-- Transport error classes, in the order of R158. -/
inductive ErrClass where
  | answerTimeout | answerCheck | echoMismatch | framing | contention | burstReject | dataTimeout | busyTimeout
  deriving DecidableEq, Repr

/-- The current request (R146): requester, request code, argument, first module block and number of bursts of
the run as granted, position of the next burst; whether its requester withdrew it (R160), and whether its outcome
is to be discarded though it runs to its own end (R116, R161). -/
structure LinkReq where
  requester : Requester
  code : ReqCode
  arg : Nat
  first : Nat
  count : Nat
  pos : Nat
  withdrawn : Bool
  discard : Bool
  deriving DecidableEq, Repr

/-- The frames the part sends on MIO: the request itself, or the controller's own QUERY and END RUN. -/
inductive FrameKind where
  | request | query | endRun
  deriving DecidableEq, Repr

/-- What is moving or awaited on the link lines (R148 to R150). -/
inductive Phase where
  | idle
  | frame (k : FrameKind)
  | answer (k : FrameKind)
  | readBurst
  | readAck
  | writeBurst
  | writeAck
  | busy
  deriving DecidableEq, Repr

/-- Why END RUN is sent: after the last burst, at a yield, for a withdrawn or an abandoned request, or in step 4
of the run close procedure (R155, R157, R160, R161, R164). -/
inductive CloseWhy where
  | last | yield | withdrawn | abandoned | procedure
  deriving DecidableEq, Repr

/-- A run close procedure in progress (R157): the class of the error that began it, and whether END RUN may
no longer be sent. -/
structure CloseProc where
  cls : ErrClass
  noEnd : Bool
  deriving DecidableEq, Repr

/-- The link controller (R146). `wait` is the limit, in link clocks, of the wait now running. -/
structure Link where
  state : LinkState
  rate : Rate
  current : Option LinkReq
  runOpen : Bool
  retries : Nat
  retryCount : Nat
  waitExp : Nat
  attempts : Nat
  phase : Phase
  wait : Option Nat
  close : Option CloseWhy
  proc : Option CloseProc
  deriving DecidableEq, Repr

/-! ### Presence monitor -/

/-- Presence states (R167); the return flag is present in ARRIVING. -/
inductive PresenceState where
  | empty
  | arriving (returning : Bool)
  | present
  | leaving
  deriving DecidableEq, Repr

/-- Module status values, in the order of R202. -/
inductive ModStatus where
  | none | identifying | failed | unformatted | mismatched | unverified | ready
  deriving DecidableEq, Repr

/-- The identity record (R172, R205). -/
structure Identity where
  versions : U16
  capacity : Nat
  grade : Nat
  runLimit : Nat
  serial : U64
  deriving DecidableEq, Repr

/-- The header copy with its validity (R100, R171). -/
structure HeaderCopy where
  version : Nat
  binding : U32
  homeStart : Nat
  valid : Bool
  deriving DecidableEq, Repr

/-- What the journal summary keeps of the newest valid status record (R167). -/
structure Newest where
  slot : StatusSlot
  state : RecordState
  batch : U32
  deriving DecidableEq, Repr

/-- The next request of an identification attempt, or the one in flight (R171). -/
inductive IdentStep where
  | identify | header | slotA
  | slotB (a : Option StatusRecord)
  deriving DecidableEq, Repr

/-- The presence monitor (R167). -/
structure Presence where
  state : PresenceState
  settle : Option Time
  settleInterval : Nat
  status : ModStatus
  binding : U32
  identity : Option Identity
  header : Option HeaderCopy
  summary : Option (Option Newest)
  serial : Option U64
  ident : Option IdentStep
  deriving DecidableEq, Repr

/-! ### Power-fail control -/

/-- Final-checkpoint states, in the order of R135. -/
inductive FinalState where
  | none | running | late | done
  deriving DecidableEq, Repr

/-- Power-fail control (R135). -/
structure Power where
  freeze : Bool
  final : FinalState
  deadline : Option Time
  finalDeadline : Nat
  deriving DecidableEq, Repr

/-! ### Events -/

/-- Abort reasons, in the order of R179. -/
inductive AbortReason where
  | link | moduleStatus | moduleLost | reset | verify
  deriving DecidableEq, Repr

/-- FILL_FAILED details, in the order of R179. -/
inductive FillFail where
  | memory | link | moduleStatus | moduleLost | notReady
  deriving DecidableEq, Repr

/-- JOURNAL_CORRUPT causes, in the order of R115, with the slot position or the block they carry. -/
inductive CorruptCause where
  | blankEntry (slot : Nat)
  | entryTag (slot : Nat)
  | payload (slot : Nat)
  | entryCheck
  | unplaced (id : BlockId)
  deriving DecidableEq, Repr

/-- MODULE_STATUS details (R172 to R177, R204). -/
inductive StatusDetail where
  | badIdentity | noAnswer | first | sameSerial | newSerial
  | linkStatus (st : LinkStatus)
  | newest (slot : StatusSlot) (state : RecordState)
  deriving DecidableEq, Repr

/-- FINAL_LATE details, in the order of R141. -/
inductive LateDetail where
  | noModule | notReady | halted | inDoubt | ineligible | slow
  deriving DecidableEq, Repr

/-- The long commands (R190). -/
inductive LongCmd where
  | sync | format
  deriving DecidableEq, Repr

/-- Outcomes of a long command (R189). -/
inductive LongOutcome where
  | running | done | cancelled | failed
  deriving DecidableEq, Repr

/-- Why a request of FORMAT failed (R199, R204). -/
inductive FormatCause where
  | cls (c : ErrClass)
  | status (st : LinkStatus)
  | moduleLost
  | resetLink
  deriving DecidableEq, Repr

/-- What a RUN_CLOSE_ERROR names (R157). -/
inductive CloseError where
  | cls (c : ErrClass)
  | status (st : LinkStatus)
  deriving DecidableEq, Repr

/-- The 24 event kinds posted by the blocks, each with the fields R179 gives it. -/
inductive Event where
  | commandDone (cmd : LongCmd) (outcome : LongOutcome) (failure : Option (ReqCode × FormatCause))
  | batchCommitted (batch : Option U32) (count : Nat)
  | batchAborted (batch : Option U32) (why : AbortReason)
  | engineHalted (batch : Option U32) (why : HaltReason) (status : Option LinkStatus)
  | batchInDoubt (batch : Option U32) (count : Nat)
  | paused (point : Point)
  | resumed (byFreeze : Bool)
  | watermark (n : Fin 4) (id : BlockId)
  | holdExpired (id : BlockId) (reason : HoldReason) (write : Bool)
  | captureFailed (id : BlockId)
  | fillFailed (id : BlockId) (why : FillFail)
  | homeCorrupt (id : BlockId) (tagged : Bool)
  | restoreDone (region : Fin 8)
  | recoveryDone (batch : U32) (count : Nat)
  | journalCorrupt (batch : U32) (cause : CorruptCause)
  | moduleArrived (returning : Bool)
  | moduleLeft
  | moduleStatus (status : ModStatus) (detail : Option StatusDetail)
  | linkError (cls : ErrClass) (code : ReqCode)
  | runCloseError (sent : Bool) (what : CloseError)
  | linkLost (sent : Bool)
  | finalDone (batch : Option U32)
  | finalLate (why : LateDetail)
  | powerRestored (state : FinalState)
  deriving DecidableEq, Repr

/-- An event record (R178): one of a posted event, or OVERFLOW with its dropped count. -/
inductive EventRec where
  | event (e : Event) (seq : Byte) (time : U16)
  | overflow (seq : Byte) (time : U16) (dropped : Nat)
  deriving DecidableEq, Repr

/-- The event queue (R178). Enables are indexed by kind code less one. -/
structure EventQueue where
  records : List EventRec
  seq : Byte
  capture : Vector Bool 25
  alert : Vector Bool 25
  deriving DecidableEq, Repr

/-! ### Management port -/

/-- Mailbox status values (R189). -/
inductive MailStatus where
  | idle | running | done | refused | cancelled | failed
  deriving DecidableEq, Repr

/-- Refusal codes, in the order of 11.3. -/
inductive RefusalCode where
  | badCommand | badArgument | busy | wrongState | noModule | notBound | overlap | capacity | notPaused
  deriving DecidableEq, Repr

/-- The writes of FORMAT, in order (R198). -/
inductive FormatStep where
  | clearA | clearB
  | homes (sent : Nat)
  | header | slotA | slotB
  deriving DecidableEq, Repr

/-- A home of the home list (R197). -/
structure HomeTarget where
  home : Nat
  id : BlockId
  deriving DecidableEq, Repr

/-- FORMAT in progress: the binding fixed at acceptance, the home list sorted by home, and the step (R197, R198). -/
structure FormatRun where
  binding : U32
  homes : List HomeTarget
  step : FormatStep
  deriving DecidableEq, Repr

/-- The management port (R186 to R190). -/
structure Mailbox where
  address : BitVec 7
  offset : Byte
  code : Byte
  args : Vector Byte 15
  status : MailStatus
  refusal : Option RefusalCode
  results : List Byte
  long : Option (LongCmd × LongOutcome)
  lastLong : Bool
  completing : Bool
  sclHeld : List (List Byte)
  format : Option FormatRun
  deriving DecidableEq, Repr

/-! ### Pins, outputs, and the whole -/

/-- Input levels (00_scope, External signals). -/
structure Pins where
  mpres : Bool
  pfw : Bool
  addr1 : Bool
  addr0 : Bool
  deriving DecidableEq, Repr

/-- A response on the host side port (R47). -/
structure HostResp where
  tag : Fin 16
  ok : Bool
  data : Payload
  deriving DecidableEq, Repr

/-- A request issued on the memory side port (R60). -/
inductive MemReq where
  | host (req : HostReq)
  | capture (tag : Nat) (addr : Nat)
  | fill (tag : Nat) (addr : Nat) (data : Payload)
  deriving DecidableEq, Repr

/-- What the part puts on the module link (R148, R149). -/
inductive LinkOut where
  | frame (code : ReqCode) (arg : Nat)
  | burst (payload tag : Payload)
  | readAck
  deriving DecidableEq, Repr

/-- The model's record of what the part has put on its ports, in order (log 11). -/
structure Outputs where
  host : List HostResp
  mem : List MemReq
  link : List LinkOut
  deriving DecidableEq, Repr

/-- The part: everything but the queue of commands. -/
structure Part where
  now : Time
  pins : Pins
  tbl : BlockTable
  regs : Vector Region 8
  path : Path
  eng : Engine
  fill : Fill
  link : Link
  pres : Presence
  pwr : Power
  evq : EventQueue
  mbox : Mailbox
  out : Outputs
  choices : Nat
  deriving DecidableEq, Repr

/-- The machine: the part, and the commands waiting for it, first in first out. -/
structure State where
  part : Part
  pending : List Instr
  deriving DecidableEq, Repr

/-! ### Reset values -/

/-- R29. -/
def BlockTable.reset : BlockTable where
  recs := Vector.replicate 8 []
  queue := []
  budget := 4096
  thresholds := Vector.replicate 4 0
  trigger := 64
  interval := 1000
  age := ⟨none, none, false⟩

/-- R30. -/
def Region.reset : Region := ⟨.off, 0#32, 0, 0⟩

/-- R61, R66. -/
def Path.reset : Path where
  tags := Vector.replicate 16 .idle
  held := []
  port := []
  hostLane := []
  captureLane := []
  fillLane := []
  priority := [.host, .capture, .fill]
  own := Vector.replicate 16 .free
  holdLimit := 50

/-- R68, R108. -/
def Engine.reset : Engine where
  state := .idle
  batch := none
  staging := []
  capture := none
  lastCommitted := none
  knowledge := none
  aborts := 0
  backoff := none
  pauseReq := false
  checkpointReq := false
  batchLimit := 64
  backoffInterval := 10
  journalHold := false
  retryTimer := none
  abortWaiting := false
  resetWaiting := false
  verifyA := none
  recovery := none

/-- R118. -/
def Fill.reset : Fill where
  queue := []
  demand := []
  slots := Vector.replicate 8 .free
  arrivals := []
  demandRun := none
  background := none
  lastBlock := none

/-- R146. -/
def Link.reset : Link where
  state := .off
  rate := .slow
  current := none
  runOpen := false
  retries := 0
  retryCount := 2
  waitExp := 20
  attempts := 0
  phase := .idle
  wait := none
  close := none
  proc := none

/-- R167. -/
def Presence.reset : Presence where
  state := .empty
  settle := none
  settleInterval := 8
  status := .none
  binding := 0#32
  identity := none
  header := none
  summary := none
  serial := none
  ident := none

/-- R135. -/
def Power.reset : Power := ⟨false, .none, none, 200⟩

/-- R178, R180: every capture-enable set; alert-enables set for ENGINE_HALTED, BATCH_IN_DOUBT, HOME_CORRUPT,
JOURNAL_CORRUPT, LINK_LOST, FINAL_LATE and OVERFLOW. -/
def EventQueue.reset : EventQueue where
  records := []
  seq := 0#8
  capture := Vector.replicate 25 true
  alert := #v[false, false, false, true, true, false, false, false, false, false, false, true, false, false, true,
    false, false, false, false, false, true, false, true, false, true]

/-- The target address: 4Ch plus twice ADDR1 plus ADDR0 (R186). -/
def targetAddress (addr1 addr0 : Bool) : BitVec 7 :=
  BitVec.ofNat 7 (0x4C + 2 * addr1.toNat + addr0.toNat)

/-- R186, R188, R189, R201. -/
def Mailbox.reset (address : BitVec 7) : Mailbox where
  address := address
  offset := 0#8
  code := 0#8
  args := Vector.replicate 15 0#8
  status := .idle
  refusal := none
  results := List.replicate 28 0#8
  long := none
  lastLong := false
  completing := false
  sclHeld := []
  format := none

/-- The part right after power-on reset, with straps, MPRES and PFW low (log 10), before anything has arrived. -/
def Part.reset : Part where
  now := 0
  pins := ⟨false, false, false, false⟩
  tbl := BlockTable.reset
  regs := Vector.replicate 8 Region.reset
  path := Path.reset
  eng := Engine.reset
  fill := Fill.reset
  link := Link.reset
  pres := Presence.reset
  pwr := Power.reset
  evq := EventQueue.reset
  mbox := Mailbox.reset (targetAddress false false)
  out := ⟨[], [], []⟩
  choices := 0

/-- The machine right after reset, nothing waiting. -/
def State.reset : State := ⟨Part.reset, []⟩

end Sys2Proof.Machine
end

