-- ==== Sys2Proof/Machine/Wire.lean ====
section
/-! DEFINITION. Checks, byte order and layouts: what the module and the link see (R99, R205, R206). -/

namespace Sys2Proof.Machine

/-! ### Bytes and fields -/

/-- `n` bytes of `v`, least significant byte first (R202, R205). -/
def leBytes : Nat → Nat → List Byte
  | 0, _ => []
  | n + 1, v => BitVec.ofNat 8 v :: leBytes n (v / 256)

/-- The number that bytes stored least significant first hold. -/
def ofLe : List Byte → Nat
  | [] => 0
  | b :: bs => b.toNat + 256 * ofLe bs

/-- The `n`-byte field at an offset of a payload or tag. -/
def field (p : Payload) (off n : Nat) : Nat := ofLe ((p.drop off).take n)

def zeros (n : Nat) : Payload := List.replicate n 0#8

/-- Fill up with zero bytes to a length (R205: bytes after the last field are zero). -/
def padTo (n : Nat) (p : Payload) : Payload := p ++ zeros (n - p.length)

/-- Replace the bytes from 64k on by the part's data (R72: part k to bytes 64k to 64k+63). -/
def putPart (p : Payload) (k : Nat) (d : Payload) : Payload :=
  p.take (64 * k) ++ d ++ p.drop (64 * k + d.length)

/-- The k-th 64-byte part of a payload. -/
def partOf (p : Payload) (k : Nat) : Payload := (p.drop (64 * k)).take 64

/-! ### Checks -/

/-- The bits of a value, most significant first. -/
def bitsMsb (w n : Nat) (v : BitVec w) : List Bool := (List.range n).map fun i => v.getLsbD (n - 1 - i)

/-- One bit of a CRC taken most significant bit first, without reflection (R206). -/
def crcStep {w : Nat} (gen : BitVec w) (c : BitVec w) (b : Bool) : BitVec w :=
  if c.msb != b then (c <<< 1) ^^^ gen else c <<< 1

/-- The frame check: CRC-8, generator 07h, starting value 00h (R206). -/
def crc8 (bits : List Bool) : Byte := bits.foldl (crcStep 0x07#8) 0x00#8

/-- The transfer check: CRC-16, generator 1021h, starting value FFFFh (R206). -/
def crc16 (bits : List Bool) : U16 := bits.foldl (crcStep 0x1021#16) 0xFFFF#16

/-- One bit of CRC-32 with bits taken least significant first: generator 04C11DB7h in reflected form (R99, log 27). -/
def crc32Step (c : U32) (b : Bool) : U32 :=
  if c.getLsbD 0 != b then (c >>> 1) ^^^ 0xEDB88320#32 else c >>> 1

def crc32Byte (c : U32) (x : Byte) : U32 :=
  (List.range 8).foldl (fun c i => crc32Step c (x.getLsbD i)) c

/-- CRC-32 over bytes: starting value FFFFFFFFh, result inverted (R99). -/
def crc32 (p : Payload) : U32 := ~~~ (p.foldl crc32Byte 0xFFFFFFFF#32)

/-! ### Codes (R206) -/

def ReqCode.toByte : ReqCode → Byte
  | .identify => 0x01#8
  | .query => 0x02#8
  | .readBlock => 0x03#8
  | .readRun => 0x04#8
  | .writeBlock => 0x05#8
  | .writeRun => 0x06#8
  | .endRun => 0x07#8

def LinkStatus.toByte : LinkStatus → Byte
  | .range => 0x01#8
  | .writeProtected => 0x02#8
  | .worn => 0x03#8
  | .illegal => 0x04#8

/-- The module status an answer's status byte carries; `none` for 05h to FFh, which is treated as FRAMING. -/
def answerStatus (b : Byte) : Option (Option LinkStatus) :=
  match b.toNat with
  | 0 => some none
  | 1 => some (some .range)
  | 2 => some (some .writeProtected)
  | 3 => some (some .worn)
  | 4 => some (some .illegal)
  | _ => none

def RecordState.code : RecordState → Nat
  | .empty => 0
  | .committed => 1
  | .applied => 2

def RecordState.ofCode : Nat → Option RecordState
  | 0 => some .empty
  | 1 => some .committed
  | 2 => some .applied
  | _ => none

/-! ### Frames and bursts on the lines (R206) -/

/-- The frame check of a request: over code and argument. -/
def requestCheck (code : Byte) (arg : U32) : Byte := crc8 (bitsMsb 8 8 code ++ bitsMsb 32 32 arg)

/-- The frame check of an answer: over echoed code, module status and argument. -/
def answerCheck (code status : Byte) (arg : U32) : Byte :=
  crc8 (bitsMsb 8 8 code ++ bitsMsb 8 8 status ++ bitsMsb 32 32 arg)

/-- A request frame on MIO, bit by bit: start (low), code, argument, check, stop (high); 50 link clocks. -/
def requestFrameBits (code : ReqCode) (arg : Nat) : List Bool :=
  let a := BitVec.ofNat 32 arg
  [false] ++ bitsMsb 8 8 code.toByte ++ bitsMsb 32 32 a ++ bitsMsb 8 8 (requestCheck code.toByte a) ++ [true]

/-- A read acknowledge on MIO: start, code 11, stop; 4 link clocks. -/
def readAckBits : List Bool := [false, true, true, true]

/-- The nibbles of a byte in the order sent: low nibble first. -/
def byteNibbles (b : Byte) : List (BitVec 4) := [b.extractLsb' 0 4, b.extractLsb' 4 4]

/-- The bits of nibbles in the order the transfer check takes them: each from MD3 to MD0. -/
def nibbleBits (ns : List (BitVec 4)) : List Bool := ns.flatMap (bitsMsb 4 4)

/-- The transfer check of a burst: over the blank nibble, when present, and payload and tag. -/
def transferCheck (blank : List (BitVec 4)) (payload tag : Payload) : U16 :=
  crc16 (nibbleBits (blank ++ (payload ++ tag).flatMap byteNibbles))

/-- A write burst on MD3 to MD0, clock by clock: start, payload and tag, transfer check low byte first, stop (R206). Each byte of the
check goes low nibble first like the others (log 43). -/
def writeBurstNibbles (payload tag : Payload) : List (BitVec 4) :=
  [0x0#4] ++ (payload ++ tag).flatMap byteNibbles ++
    (leBytes 2 (transferCheck [] payload tag).toNat).flatMap byteNibbles ++ [0xF#4]

/-! ### Module blocks (R205) -/

/-- An identity record read from a payload. -/
def parseIdentity (p : Payload) : Identity where
  versions := BitVec.ofNat 16 (field p 0 2)
  capacity := field p 2 4
  grade := field p 6 1
  runLimit := field p 7 2
  serial := BitVec.ofNat 64 (field p 9 8)

/-- The identity record passes (R172). -/
def Identity.passes (i : Identity) : Bool :=
  decide (68 ≤ i.capacity ∧ i.capacity ≤ Config.moduleMax) && i.versions.getLsbD 0 &&
    (i.grade == 1 || i.grade == 2) && decide (1 ≤ i.runLimit ∧ i.runLimit ≤ 256)

/-- The format header's fields before its check, in layout order. -/
def headerBody (binding : U32) : Payload :=
  leBytes 2 Config.formatVersion ++ leBytes 4 binding.toNat ++ leBytes 4 Config.homeStart

/-- The payload of a format header with this binding (R104, R205). -/
def headerPayload (binding : U32) : Payload :=
  padTo 256 (headerBody binding ++ leBytes 4 (crc32 (headerBody binding)).toNat)

/-- The header copy of what was read from module block 0: its fields, and whether it is valid (R100); a blank
header is invalid. The format version must also be one the identity record lists. -/
def parseHeader (id : Option Identity) (blank : Bool) (p : Payload) : HeaderCopy :=
  let version := field p 0 2
  let binding := field p 2 4
  let home := field p 6 4
  let listed := match id with
    | some i => i.versions.getLsbD (version - 1)
    | none => false
  { version := version, binding := BitVec.ofNat 32 binding, homeStart := home,
    valid := !blank && field p 10 4 == (crc32 (p.take 10)).toNat && version == Config.formatVersion && listed &&
      binding != 0 && home == Config.homeStart }

/-- A status record's fields before its check, in layout order. -/
def statusBody (r : StatusRecord) : Payload :=
  leBytes 4 r.seq.toNat ++ leBytes 1 r.state.code ++ leBytes 4 r.batch.toNat ++ leBytes 1 r.count ++
    leBytes 4 r.check.toNat ++ leBytes 4 r.binding.toNat

/-- The payload of a status slot (R205). -/
def statusPayload (r : StatusRecord) : Payload :=
  padTo 256 (statusBody r ++ leBytes 4 (crc32 (statusBody r)).toNat)

/-- The valid status record a slot holds, judged against the header's binding number; `none` when the slot is
blank or its record invalid (R101). -/
def parseStatus (headerBinding : U32) (blank : Bool) (p : Payload) : Option StatusRecord :=
  match RecordState.ofCode (field p 4 1) with
  | none => none
  | some st =>
    if !blank && field p 18 4 == (crc32 (p.take 18)).toNat && field p 14 4 == headerBinding.toNat &&
        decide (field p 9 1 ≤ 64) then
      some { seq := BitVec.ofNat 32 (field p 0 4), state := st, batch := BitVec.ofNat 32 (field p 5 4),
             count := field p 9 1, check := BitVec.ofNat 32 (field p 10 4), binding := headerBinding }
    else none

/-- One sequence number is ahead of another: their difference modulo 2^32 is above 0 and below 2^31 (R102). -/
def seqAhead (x y : U32) : Bool := decide (0 < (x - y).toNat ∧ (x - y).toNat < 2 ^ 31)

/-- The newest valid record of the two slots (R102). -/
def newestValid (a b : Option StatusRecord) : Option (StatusSlot × StatusRecord) :=
  match a, b with
  | none, none => none
  | some x, none => some (.a, x)
  | none, some y => some (.b, y)
  | some x, some y => if seqAhead y.seq x.seq then some (.b, y) else some (.a, x)

def StatusSlot.other : StatusSlot → StatusSlot
  | .a => .b
  | .b => .a

/-- Slot A is module block 1 and slot B module block 2 (R98). -/
def StatusSlot.block : StatusSlot → Nat
  | .a => 1
  | .b => 2

/-- The tag of an entry slot (R75, R205). -/
def entryTag (batch : U32) (pos : Nat) (e : Staged) : Payload :=
  leBytes 4 batch.toNat ++ leBytes 1 pos ++ leBytes 1 e.id.region.val ++ leBytes 2 e.id.index ++
    leBytes 4 (crc32 e.payload).toNat ++ zeros 4

/-- The tag of a home (R85, R106, R205). -/
def homeTag (id : BlockId) (batch : Nat) (payload : Payload) : Payload :=
  leBytes 1 id.region.val ++ leBytes 2 id.index ++ leBytes 4 batch ++ leBytes 4 (crc32 payload).toNat ++ zeros 5

/-- The entry check over given tags and payloads, slot 0 first (R99). -/
def entryCheckOf (es : List (Payload × Payload)) : U32 := crc32 (es.flatMap fun e => e.1 ++ e.2)

/-- The entries of a batch as their slots hold them: tag and payload, slot by slot. -/
def entriesFrom (batch : U32) : Nat → List Staged → List (Payload × Payload)
  | _, [] => []
  | i, e :: es => (entryTag batch i e, e.payload) :: entriesFrom batch (i + 1) es

/-- The entry check of a staged batch (R75). -/
def entryCheck (batch : U32) (es : List Staged) : U32 := entryCheckOf (entriesFrom batch 0 es)

end Sys2Proof.Machine
end

