-- ==== Sys2Proof/Machine/Ops.lean ====
section
/-! DEFINITION. Named operations every block uses: posting events, reading and writing block records, region and
module facts, and answers on the host side port. -/

namespace Sys2Proof.Machine

/-! ### Posting events (chapter 10) -/

/-- The kind of an event: its code of R204 less one, in the order of R179. -/
def Event.kind : Event → Fin 25
  | .commandDone _ _ _ => 0
  | .batchCommitted _ _ => 1
  | .batchAborted _ _ => 2
  | .engineHalted _ _ _ => 3
  | .batchInDoubt _ _ => 4
  | .paused _ => 5
  | .resumed _ => 6
  | .watermark _ _ => 7
  | .holdExpired _ _ _ => 8
  | .captureFailed _ => 9
  | .fillFailed _ _ => 10
  | .homeCorrupt _ _ => 11
  | .restoreDone _ => 12
  | .recoveryDone _ _ => 13
  | .journalCorrupt _ _ => 14
  | .moduleArrived _ => 15
  | .moduleLeft => 16
  | .moduleStatus _ _ => 17
  | .linkError _ _ => 18
  | .runCloseError _ _ => 19
  | .linkLost _ => 20
  | .finalDone _ => 21
  | .finalLate _ => 22
  | .powerRestored _ => 23

def EventRec.kind : EventRec → Fin 25
  | .event e _ _ => e.kind
  | .overflow _ _ _ => 24

/-- Place a captured event by the first case of R181 that applies. -/
def placeEvent (e : Event) (seq : Byte) (time : U16) (recs : List EventRec) : List EventRec :=
  match recs.getLast? with
  | some (.overflow sq t d) =>
    if recs.length < Config.eventMax then recs.dropLast ++ [.event e seq time, .overflow sq t d]
    else recs.dropLast ++ [.overflow sq t (min 255 (d + 1))]
  | _ =>
    if recs.length < Config.eventMax - 1 then recs ++ [.event e seq time]
    else recs ++ [.overflow seq time 1]

/-- The queue takes an event posted at a time (R180): dropped without trace when its capture-enable is clear,
else it takes the sequence counter and the low 16 bits of the time base and is placed. -/
def EventQueue.post (e : Event) (now : Time) (q : EventQueue) : EventQueue :=
  if q.capture[e.kind] then
    { q with records := placeEvent e q.seq (BitVec.ofNat 16 now) q.records, seq := q.seq + 1 }
  else q

/-- Post an event (R185: one step, and the poster never waits). -/
def post (e : Event) (s : Part) : Part := { s with evq := s.evq.post e s.now }

/-! ### Block records (chapter 1) -/

def recOf (s : Part) (id : BlockId) : Option BlockRec := (s.tbl.recs[id.region])[id.index]?

def stateOf (s : Part) (id : BlockId) : Option BlockState := (recOf s id).map (·.state)

/-- Write one block record; a block without a record has none to write. -/
def setRec (id : BlockId) (r : BlockRec) (s : Part) : Part :=
  { s with tbl.recs := s.tbl.recs.set id.region ((s.tbl.recs[id.region]).set id.index r) }

/-- Change the state of a block, keeping its mark. -/
def setState (id : BlockId) (st : BlockState) (s : Part) : Part :=
  match recOf s id with
  | some r => setRec id { r with state := st } s
  | none => s

/-- Blocks in DIRTY, CAPTURING, CAPTURED and REDIRTIED count as dirty (1.2, R4). -/
def BlockState.dirtyCounting : BlockState → Bool
  | .absent _ => false
  | .filling => false
  | .clean => false
  | .dirty _ => true
  | .capturing _ => true
  | .captured _ => true
  | .redirtied _ _ => true

/-- A member of the current batch: CAPTURING, CAPTURED or REDIRTIED (R15). -/
def BlockState.isMember : BlockState → Bool
  | .absent _ => false
  | .filling => false
  | .clean => false
  | .dirty _ => false
  | .capturing _ => true
  | .captured _ => true
  | .redirtied _ _ => true

/-- ABSENT or FILLING: counted in the absent count (R23). -/
def BlockState.notBack : BlockState → Bool
  | .absent _ => true
  | .filling => true
  | .clean => false
  | .dirty _ => false
  | .capturing _ => false
  | .captured _ => false
  | .redirtied _ _ => false

/-- How many records of the whole table satisfy a test. -/
def countRecs (p : BlockRec → Bool) (s : Part) : Nat := (s.tbl.recs.toList.map fun l => l.countP p).sum

/-- The dirty count (R4). -/
def dirtyCount (s : Part) : Nat := countRecs (fun r => r.state.dirtyCounting) s

/-- The sync-mark count (R27). -/
def markCount (s : Part) : Nat := countRecs (fun r => r.mark.isSome) s

/-- The absent count of a region (R23). -/
def absentCount (s : Part) (r : Fin 8) : Nat := (s.tbl.recs[r]).countP fun b => b.state.notBack

/-- A block joins the dirty queue at the tail (R9). -/
def joinTail (id : BlockId) (joined : Time) (s : Part) : Part :=
  { s with tbl.queue := s.tbl.queue ++ [⟨id, joined⟩] }

/-- Post WATERMARK for each watermark whose threshold the dirty count has just risen to, the lower-numbered
first (R7). -/
def postWatermarks (id : BlockId) (s : Part) : Part :=
  (List.finRange 4).foldl
    (fun t n => if s.tbl.thresholds[n] ≠ 0 ∧ s.tbl.thresholds[n] = dirtyCount s then post (.watermark n id) t else t) s

/-- A CLEAN block becomes DIRTY by a host write performed now (R13). -/
def dirtyByWrite (id : BlockId) (s : Part) : Part :=
  postWatermarks id (joinTail id s.now (setState id (.dirty s.now) s))

/-! ### Regions and module -/

def regionSuspended (s : Part) (r : Fin 8) : Bool :=
  match s.regs[r].state with
  | .suspended _ => true
  | .off => false
  | .restoring => false
  | .mirrored => false

/-- The home of a block: home base of its region plus its index (2.3). -/
def homeOf (s : Part) (id : BlockId) : Nat := (s.regs[id.region]).homeBase + id.index

/-- The RAM address of a block's first byte. -/
def ramOf (s : Part) (id : BlockId) : Nat := (s.regs[id.region]).ramBase.toNat + 256 * id.index

/-- The identity copy, when it holds a record that passed R172: only then is a capacity or run limit handed on
(R175). -/
def usableIdentity (s : Part) : Option Identity :=
  match s.pres.identity with
  | some i => if i.passes then some i else none
  | none => none

/-- A home lies below the module's capacity; with no capacity handed on every home does (R31, R175). -/
def belowCapacity (s : Part) (block : Nat) : Bool :=
  match usableIdentity s with
  | some i => decide (block < i.capacity)
  | none => true

/-- The module's run limit (R154); 1 when no identity is known (log 30). -/
def runLimit (s : Part) : Nat :=
  match usableIdentity s with
  | some i => i.runLimit
  | none => 1

/-- The binding number of the format header, against which status records are judged (R101). -/
def headerBinding (s : Part) : U32 :=
  match s.pres.header with
  | some h => h.binding
  | none => 0#32

/-! ### Host side port -/

def setTag (t : Fin 16) (st : TagState) (s : Part) : Part := { s with path.tags := s.path.tags.set t st }

/-- A response is delivered on the host side port and its tag stops being outstanding (R47). -/
def respond (t : Fin 16) (ok : Bool) (data : Payload) (s : Part) : Part :=
  { setTag t .idle s with out.host := s.out.host ++ [⟨t, ok, data⟩] }

/-- The part's own error response carries no data (R47). -/
def respondError (t : Fin 16) (s : Part) : Part := respond t false [] s

/-- An access is forwarded to the host lane (R48, R61, R63). -/
def forward (r : HostReq) (s : Part) : Part :=
  { setTag r.tag .lane s with path.hostLane := s.path.hostLane ++ [r] }

/-- The entry with this tag leaves the held access list. -/
def dropHeld (t : Fin 16) (s : Part) : Part :=
  { s with path.held := s.path.held.filter fun e => e.req.tag ≠ t }

/-- A re-held entry keeps its place and its held-since and takes the new reason (R52). -/
def reHold (t : Fin 16) (why : HoldReason) (s : Part) : Part :=
  { s with path.held := s.path.held.map fun e => if e.req.tag = t then { e with reason := why } else e }

/-- The oldest held entry of a block (R49). -/
def oldestOf (s : Part) (id : BlockId) : Option Held := s.path.held.find? fun e => e.id = id

def heldByTag (s : Part) (t : Fin 16) : Option Held := s.path.held.find? fun e => e.req.tag = t

end Sys2Proof.Machine
end

