-- ==== Sys2Proof/Machine/Operands.lean ====
section
/-! DEFINITION. What an operand names: the block a host address lies in, the bytes an access touches, the argument
bytes of a command, the selector and range of a limit. -/

namespace Sys2Proof.Machine

/-- The RAM range of a region holds an address: it is not OFF, and the address is at or after its RAM base and
below RAM base plus 256 times its size (R30, R33). -/
def regionHolds (g : Region) (a : Nat) : Bool :=
  g.state != .off && decide (g.ramBase.toNat ≤ a ∧ a < g.ramBase.toNat + 256 * g.size)

/-- Address decode: the block id of an address, or `none` for *outside* (R33). -/
def decodeAddr (s : Part) (a : U32) : Option BlockId :=
  ((List.finRange 8).find? fun r => regionHolds s.regs[r] a.toNat).map fun r =>
    ⟨r, (a.toNat - (s.regs[r]).ramBase.toNat) / 256⟩

/-- The 64-byte line of an address (R46, R62). -/
def lineOf (a : Nat) : Nat := a / 64

/-- The addresses of the bytes an access touches, in order: a burst that would run past the end of its 64-byte line
continues at the start of the same line (R46). -/
def touched (r : HostReq) : List Nat :=
  (List.range r.size.bytes).map fun i => 64 * lineOf r.addr.toNat + (r.addr.toNat % 64 + i) % 64

/-- The region a region byte names: 0..7 (R203). -/
def regionArg (b : Byte) : Option (Fin 8) := if h : b.toNat < 8 then some ⟨b.toNat, h⟩ else none

/-- A limit of SET LIMITS (R191). -/
inductive Limit where
  | budget
  | watermark (n : Fin 4)
  | trigger | interval | batchLimit | backoffInterval | holdLimit | finalDeadline | retryCount | waitExp | settleInterval
  deriving DecidableEq, Repr

/-- The selectors of SET LIMITS (R203). -/
def Limit.ofSelector (b : Byte) : Option Limit :=
  match b.toNat with
  | 0x00 => some .budget
  | 0x01 => some (.watermark 0)
  | 0x02 => some (.watermark 1)
  | 0x03 => some (.watermark 2)
  | 0x04 => some (.watermark 3)
  | 0x05 => some .trigger
  | 0x06 => some .interval
  | 0x07 => some .batchLimit
  | 0x08 => some .backoffInterval
  | 0x09 => some .holdLimit
  | 0x0A => some .finalDeadline
  | 0x0B => some .retryCount
  | 0x0C => some .waitExp
  | 0x0D => some .settleInterval
  | _ => none

/-- The range of each limit (R191). -/
def Limit.inRange : Limit → Nat → Bool
  | .budget, v => decide (1 ≤ v ∧ v ≤ 4096)
  | .watermark _, v => decide (v ≤ 4096)
  | .trigger, v => decide (1 ≤ v ∧ v ≤ 4096)
  | .interval, v => decide (v ≤ 65535)
  | .batchLimit, v => decide (1 ≤ v ∧ v ≤ 64)
  | .backoffInterval, v => decide (1 ≤ v ∧ v ≤ 255)
  | .holdLimit, v => decide (v ≤ 255)
  | .finalDeadline, v => decide (1 ≤ v ∧ v ≤ 1000)
  | .retryCount, v => decide (v ≤ 7)
  | .waitExp, v => decide (12 ≤ v ∧ v ≤ 26)
  | .settleInterval, v => v == 1 || v == 2 || v == 8 || v == 32

/-- What a limit holds. -/
def getLimit (s : Part) : Limit → Nat
  | .budget => s.tbl.budget
  | .watermark n => s.tbl.thresholds[n]
  | .trigger => s.tbl.trigger
  | .interval => s.tbl.interval
  | .batchLimit => s.eng.batchLimit
  | .backoffInterval => s.eng.backoffInterval
  | .holdLimit => s.path.holdLimit
  | .finalDeadline => s.pwr.finalDeadline
  | .retryCount => s.link.retryCount
  | .waitExp => s.link.waitExp
  | .settleInterval => s.pres.settleInterval

/-- Write a limit. Watermark states follow from the thresholds (R7); running timers keep their expiry (R89, R135,
R167). -/
def putLimit (l : Limit) (v : Nat) (s : Part) : Part :=
  match l with
  | .budget => { s with tbl.budget := v }
  | .watermark n => { s with tbl.thresholds := s.tbl.thresholds.set n v }
  | .trigger => { s with tbl.trigger := v }
  | .interval => { s with tbl.interval := v }
  | .batchLimit => { s with eng.batchLimit := v }
  | .backoffInterval => { s with eng.backoffInterval := v }
  | .holdLimit => { s with path.holdLimit := v }
  | .finalDeadline => { s with pwr.finalDeadline := v }
  | .retryCount => { s with link.retryCount := v }
  | .waitExp => { s with link.waitExp := v }
  | .settleInterval => { s with pres.settleInterval := v }

end Sys2Proof.Machine
end

