-- ==== Sys2Proof/Machine/Flags.lean ====
section
/-! DEFINITION. Values the part shows that are computed from its state: trigger inputs, watermark states, ALERT,
MCK, request conditions. -/

namespace Sys2Proof.Machine

/-- Entries of SUSPENDED regions are passed over (R11). -/
def eligibleQueue (s : Part) : List QEntry := s.tbl.queue.filter fun e => !regionSuspended s e.id.region

/-- The leading entry (R11). -/
def leading (s : Part) : Option QEntry := (eligibleQueue s).head?

/-- The eligible length (R11). -/
def eligibleLength (s : Part) : Nat := (eligibleQueue s).length

/-- *length reached* (R11). -/
def lengthReached (s : Part) : Bool := decide (s.tbl.trigger ≤ eligibleLength s)

/-- *marks remain* (R11). -/
def marksRemain (s : Part) : Bool := decide (0 < markCount s)

/-- A watermark is REACHED while its threshold is nonzero and the dirty count is at or above it (R7). -/
def watermarkReached (s : Part) (n : Fin 4) : Bool :=
  decide (s.tbl.thresholds[n] ≠ 0 ∧ s.tbl.thresholds[n] ≤ dirtyCount s)

/-- ALERT is asserted while the queue holds a record whose kind is alert-enabled; OVERFLOW always is (R180, R183). -/
def alertOf (q : EventQueue) : Bool := q.records.any fun r => q.alert[r.kind] || r.kind == 24

/-- MCK runs while the link is in any state other than OFF (R145). -/
def mckRuns (l : Link) : Bool := decide (l.state ≠ .off)

/-- The entry the age timer is for: the leading entry; none with an interval of 0 (R11). -/
def ageLead (s : Part) : Option QEntry := if s.tbl.interval = 0 then none else leading s

/-- What the age timer must stand at: the leading entry's joined time plus the interval (R11). -/
def ageTarget (s : Part) : Option Time := (ageLead s).map fun e => e.joined + s.tbl.interval

/-- The age timer is set for the leading entry, at its time. -/
abbrev AgeStands (s : Part) : Prop := ageLead s = s.tbl.age.lead ∧ ageTarget s = s.tbl.age.target

/-- The age timer is set again when the leading entry has changed, or the interval or a region's state has changed what it must
stand at; an entry already older raises *age reached* at once (R11). -/
def retime (s : Part) : Part :=
  if AgeStands s then s
  else
    { s with tbl.age := { lead := ageLead s, target := ageTarget s, reached := match ageTarget s with
        | some t => decide (t ≤ s.now)
        | none => false } }

/-- FREE slots of the fill buffer, lowest-numbered first (R122). -/
def freeSlots (s : Part) : List (Fin 8) := (List.finRange 8).filter fun i => s.fill.slots[i] == .free

/-- Entries of the fill queue whose region is RESTORING, in queue order: the eligible head is the first (R119). -/
def eligibleFill (s : Part) : List BlockId := s.fill.queue.filter fun id => s.regs[id.region].state == .restoring

/-- The demand request is ready (R123). -/
def demandReady (s : Part) : Bool :=
  s.pres.status == .ready && !s.pwr.freeze && s.fill.demandRun.isNone && !s.fill.demand.isEmpty &&
    !(freeSlots s).isEmpty

/-- The background request for a new run is ready (R123). -/
def newRunReady (s : Part) : Bool :=
  s.pres.status == .ready && !s.pwr.freeze && s.fill.background.isNone && !s.eng.pauseReq &&
    !(eligibleFill s).isEmpty && !(freeSlots s).isEmpty

/-- The background request continuing a YIELDED run is ready (R123). -/
def continueReady (s : Part) : Bool :=
  s.pres.status == .ready && !s.pwr.freeze &&
    match s.fill.background with
    | some b => b.yielded
    | none => false

/-- A batch may start (R69). -/
def batchMayStart (s : Part) : Bool :=
  s.pres.status == .ready && !s.eng.pauseReq && s.eng.state == .idle && decide (0 < eligibleLength s) &&
    (lengthReached s || s.tbl.age.reached || s.eng.checkpointReq || marksRemain s || s.pwr.freeze)

/-- Recovery may start (R108). -/
def recoveryMayStart (s : Part) : Bool :=
  s.pres.status == .unverified && s.link.state == .ready &&
    (match s.eng.state with
      | .idle => true
      | .backoff => true
      | .inDoubt => true
      | .paused .idle => true
      | .paused .backoff => true
      | .paused _ => false
      | .capture => false
      | .journal => false
      | .commit => false
      | .verify => false
      | .apply => false
      | .retire => false
      | .recover => false
      | .halted _ => false) &&
    !s.eng.journalHold && s.eng.retryTimer.isNone

/-- The staging buffer holds a committed entry of the region not yet applied: of a batch past its commit point, or
of a replay (R34, R36, R111, log 28). -/
def committedStaged (s : Part) (r : Fin 8) : Bool :=
  (match s.eng.batch with
    | some b => b.committed
    | none => true) &&
    s.eng.staging.any fun e => e.id.region == r

end Sys2Proof.Machine
end

