-- ==== Sys2Proof/Machine/Signals.lean ====
section
/-! DEFINITION. Signals that several blocks give: the end of a long command, the last sync mark gone, the dirty
count at 0 under the freeze. -/

namespace Sys2Proof.Machine

def LongOutcome.mail : LongOutcome → MailStatus
  | .running => .running
  | .done => .done
  | .cancelled => .cancelled
  | .failed => .failed

/-- The long command ends: the record takes its outcome, COMMAND_DONE is posted, and the mailbox status takes the
outcome when the long command is still the last command taken (R189). -/
def endLong (cmd : LongCmd) (o : LongOutcome) (failure : Option (ReqCode × FormatCause)) (s : Part) : Part :=
  post (.commandDone cmd o failure)
    { s with
      mbox.long := some (cmd, o)
      mbox.status := if s.mbox.lastLong then o.mail else s.mbox.status
      mbox.lastLong := false }

/-- SYNC ends DONE when no block carries a mark (R27, R195). -/
def syncCheck (s : Part) : Part :=
  if s.mbox.long = some (.sync, .running) ∧ markCount s = 0 then endLong .sync .done none s else s

/-- Under the freeze, a dirty count of 0 in RUNNING or LATE makes the final checkpoint DONE and posts FINAL_DONE with
the last committed batch number, when known (R140). -/
def finalCheck (s : Part) : Part :=
  if s.pwr.freeze = true ∧ (s.pwr.final = .running ∨ s.pwr.final = .late) ∧ dirtyCount s = 0 then
    post (.finalDone s.eng.lastCommitted) { s with pwr.final := .done }
  else s

/-- An ATTACH in adopt-RAM under the freeze raises the count from 0: DONE goes back to RUNNING while the deadline
timer runs, else to LATE without an event (R140). -/
def finalRise (s : Part) : Part :=
  if s.pwr.freeze = true ∧ s.pwr.final = .done ∧ dirtyCount s ≠ 0 then
    { s with pwr.final := if s.pwr.deadline.isSome then .running else .late }
  else s

end Sys2Proof.Machine
end

