-- ==== Sys2Proof/Machine/Path.lean ====
section
/-! DEFINITION. The path unit: claims on blocks, the held access list, releases, acceptance, and the downstream
arbiter (chapter 3, with the claims of 1.5). -/

namespace Sys2Proof.Machine

/-! ### Claims (R12, R13) -/

/-- The block table's answer to a claim. -/
inductive Answer where
  | pass
  | hold (why : HoldReason)
  | error
  deriving DecidableEq, Repr

/-- The answer to a host read claim, by the first case of R12 that applies. -/
def readAnswer (s : Part) (id : BlockId) : Answer :=
  match stateOf s id with
  | some (.absent true) => .error
  | some (.absent false) => if regionSuspended s id.region then .error else .hold .fill
  | some .filling => .hold .fill
  | some .clean => .pass
  | some (.dirty _) => .pass
  | some (.capturing _) => .pass
  | some (.captured _) => .pass
  | some (.redirtied _ _) => .pass
  | none => .pass

/-- The answer to a host write claim, by the first case of R13 that applies. -/
def writeAnswer (s : Part) (id : BlockId) : Answer :=
  match stateOf s id with
  | some (.absent true) => .error
  | some (.absent false) =>
    if regionSuspended s id.region then .error else if s.pwr.freeze then .hold .freeze else .hold .fill
  | some .filling => if s.pwr.freeze then .hold .freeze else .hold .fill
  | some .clean =>
    if s.pwr.freeze then .hold .freeze
    else if s.tbl.budget ≤ dirtyCount s then .hold .budget
    else .pass
  | some (.dirty _) => if s.pwr.freeze then .hold .freeze else .pass
  | some (.capturing _) => if s.pwr.freeze then .hold .freeze else .hold .capture
  | some (.captured _) => if s.pwr.freeze then .hold .freeze else .pass
  | some (.redirtied _ _) => if s.pwr.freeze then .hold .freeze else .pass
  | none => .pass

def answerOf (s : Part) (r : HostReq) (id : BlockId) : Answer :=
  if r.write then writeAnswer s id else readAnswer s id

/-- The record change of a write performed (last column of R13). -/
def performWrite (id : BlockId) (s : Part) : Part :=
  match stateOf s id with
  | some .clean => dirtyByWrite id s
  | some (.captured slot) => setState id (.redirtied s.now slot) s
  | some (.absent _) => s
  | some .filling => s
  | some (.dirty _) => s
  | some (.capturing _) => s
  | some (.redirtied _ _) => s
  | none => s

/-- A demand fill is asked for a block (R120): it moves from the fill queue to the demand list's tail when it is
not there already and there is room. -/
def demandAsk (id : BlockId) (s : Part) : Part :=
  if id ∈ s.fill.demand then s
  else if s.fill.demand.length < Config.demandMax then
    { s with fill.queue := s.fill.queue.filter (· ≠ id), fill.demand := s.fill.demand ++ [id] }
  else s

/-- A FILL hold on an ABSENT block of a RESTORING region asks for a demand fill (R12, R13, R120). -/
def askIfAbsent (id : BlockId) (s : Part) : Part :=
  if stateOf s id = some (.absent false) ∧ (s.regs[id.region]).state = .restoring then demandAsk id s else s

/-- What a claim answered PASS does: the access is forwarded, and a write is performed in the same claim (R48, R58). -/
def passAccess (r : HostReq) (id : BlockId) (s : Part) : Part :=
  forward r (if r.write then performWrite id s else s)

/-! ### Releases (3.4) -/

/-- A held entry is claimed again (R52). Returns the part after it and whether the entry left the list. -/
def reclaim (e : Held) (s : Part) : Part × Bool :=
  match answerOf s e.req e.id with
  | .pass => (passAccess e.req e.id (dropHeld e.req.tag s), true)
  | .error => (respondError e.req.tag (dropHeld e.req.tag s), true)
  | .hold .fill => (reHold e.req.tag .fill (askIfAbsent e.id s), false)
  | .hold why => (reHold e.req.tag why s, false)

/-- Walk a block's held entries in arrival order (R49, R53): claim the oldest; while entries leave, claim the next;
stop at the first that is held. The first argument bounds the number of entries. -/
def walkBlock : Nat → BlockId → Part → Part
  | 0, _, s => s
  | n + 1, id, s =>
    match oldestOf s id with
    | none => s
    | some e =>
      match reclaim e s with
      | (t, true) => walkBlock n id t
      | (t, false) => t

/-- The block release (R53), and the claim of the entries behind one that has left (R49). -/
def releaseBlock (id : BlockId) (s : Part) : Part := walkBlock s.path.held.length id s

/-- An entry that is still held for the reason of a release walk is claimed, with its successors (R54, R55). -/
def releaseEntry (why : HoldReason) (s : Part) (tag : Fin 16) : Part :=
  match heldByTag s tag with
  | none => s
  | some e => if e.reason = why then releaseBlock e.id s else s

/-- The entry with this tag is held for a reason. -/
def heldAs (s : Part) (why : HoldReason) (tag : Fin 16) : Bool :=
  match heldByTag s tag with
  | none => false
  | some e => e.reason == why

/-- Tags of the entries held for a reason, in arrival order. -/
def heldFor (s : Part) (why : HoldReason) : List (Fin 16) :=
  (s.path.held.filter fun e => e.reason == why).map fun e => e.req.tag

/-- The walk of a budget release over the entries that were held BUDGET: it stops at the first whose claim is held BUDGET
again (R54). -/
def budgetWalk : List (Fin 16) → Part → Part
  | [], s => s
  | tag :: more, s =>
    let t := releaseEntry .budget s tag
    if heldAs t .budget tag then t else budgetWalk more t

/-- The budget release (R54). -/
def budgetRelease (s : Part) : Part := budgetWalk (heldFor s .budget) s

/-- The freeze release, which does not stop (R55). -/
def freezeRelease (s : Part) : Part := (heldFor s .freeze).foldl (releaseEntry .freeze) s

/-- The block table signals a budget release when the dirty count has gone from at or above the budget to below it
(R6); the arguments are the count and budget before. -/
def budgetCheck (countBefore budgetBefore : Nat) (s : Part) : Part :=
  if budgetBefore ≤ countBefore ∧ dirtyCount s < s.tbl.budget then budgetRelease s else s

/-- The FILL-held access of a block whose fill failed is answered with an error response, and the entries behind it
are claimed (R21, R127, R129, R130). -/
def failFillHolds (id : BlockId) (s : Part) : Part :=
  match oldestOf s id with
  | none => s
  | some e =>
    if e.reason = .fill then releaseBlock id (respondError e.req.tag (dropHeld e.req.tag s)) else s

/-- A held entry expires (R56): error response, HOLD_EXPIRED, and the next entry of its block is claimed when the
expired one was the oldest. -/
def expireEntry (e : Held) (s : Part) : Part :=
  let oldest := oldestOf s e.id = some e
  let t := post (.holdExpired e.id e.reason e.req.write) (respondError e.req.tag (dropHeld e.req.tag s))
  if oldest then releaseBlock e.id t else t

/-- An entry has reached its limit (R56). -/
def holdReached (s : Part) (e : Held) : Bool :=
  decide (s.path.holdLimit ≠ 0 ∧ e.since + s.path.holdLimit ≤ s.now)

/-- Expire the entry with this tag when it has reached its limit. -/
def expireTag (s : Part) (tag : Fin 16) : Part :=
  match heldByTag s tag with
  | none => s
  | some e => if holdReached s e then expireEntry e s else s

/-- A changed hold limit measures every entry anew; those that have reached it expire in arrival order (R56). -/
def expireAll (s : Part) : Part := (s.path.held.map fun e => e.req.tag).foldl expireTag s

/-! ### Acceptance (R46, R48, R51) -/

/-- The host side port can accept a request: its tag is not outstanding and the held list has room (R46). -/
def canAccept (s : Part) (r : HostReq) : Bool :=
  s.path.tags[r.tag] == .idle && decide (s.path.held.length < Config.heldMax)

/-- An access is entered at the tail of the held access list (R48, R50). -/
def joinHeld (r : HostReq) (id : BlockId) (why : HoldReason) (s : Part) : Part :=
  { setTag r.tag .held s with path.held := s.path.held ++ [⟨r, id, why, s.now⟩] }

/-- An accepted access is decoded and handled by the first case of R48 that applies. -/
def acceptAccess (r : HostReq) (s : Part) : Part :=
  match decodeAddr s r.addr with
  | none => forward r s
  | some id =>
    if (oldestOf s id).isSome then joinHeld r id .order s
    else
      match answerOf s r id with
      | .pass => passAccess r id s
      | .error => respondError r.tag s
      | .hold .fill => joinHeld r id .fill (askIfAbsent id s)
      | .hold why => joinHeld r id why s

/-- Accept the requests waiting at the port, in order, while the first can be accepted (R46, R51). -/
def drainPort : List HostReq → Part → Part
  | [], s => { s with path.port := [] }
  | r :: rest, s =>
    if canAccept s r then drainPort rest (acceptAccess r s) else { s with path.port := r :: rest }

/-! ### Settling a step -/

/-- The oldest entry that may refill the demand list (R120): held FILL, the oldest of its block, the block ABSENT
and readable in a RESTORING region and not on the list. -/
def refillCandidate (s : Part) : Option Held :=
  s.path.held.find? fun e =>
    e.reason == .fill && oldestOf s e.id == some e && stateOf s e.id == some (.absent false) &&
      (s.regs[e.id.region]).state == .restoring && !s.fill.demand.contains e.id

/-- Refill the demand list from the held access list while a place is free (R120). -/
def refillDemand : Nat → Part → Part
  | 0, s => s
  | n + 1, s =>
    if s.fill.demand.length < Config.demandMax then
      match refillCandidate s with
      | none => s
      | some e => refillDemand n (demandAsk e.id s)
    else s

/-- What a step brings about at once in other blocks: the demand list is refilled (R120), requests waiting at the
port are accepted (R51), and the age timer follows the leading entry (R11). -/
def settle (s : Part) : Part :=
  let t := refillDemand Config.demandMax s
  retime (drainPort t.path.port t)

/-- The meaning of a command as a change of the part. -/
def onPart (f : Part → Part) (s : State) : Host.Outcome State Fault Refusal := .next { s with part := f s.part }

/-! ### Region changes seen by the path unit -/

/-- When a region goes to SUSPENDED, each entry held FILL for one of its ABSENT blocks is answered with error, and the
entries behind it are claimed (R65). -/
def suspendHolds (r : Fin 8) (s : Part) : Part :=
  (s.path.held.filter fun e => e.id.region == r && e.reason == .fill).foldl
    (fun t e =>
      match stateOf t e.id with
      | some (.absent _) => failFillHolds e.id t
      | some .filling => t
      | some .clean => t
      | some (.dirty _) => t
      | some (.capturing _) => t
      | some (.captured _) => t
      | some (.redirtied _ _) => t
      | none => t) s

/-- At DETACH each held entry of the region leaves the list in arrival order: FILL with an error response, the others
forwarded without a claim (R64). -/
def detachHolds (r : Fin 8) (s : Part) : Part :=
  (s.path.held.filter fun e => e.id.region == r).foldl
    (fun t e =>
      if e.reason = .fill then respondError e.req.tag (dropHeld e.req.tag t)
      else forward e.req (dropHeld e.req.tag t)) s

/-- At power-on reset and RESET ALL every held entry is answered with error, in arrival order (R66). -/
def errorAllHolds (s : Part) : Part :=
  s.path.held.foldl (fun t e => respondError e.req.tag (dropHeld e.req.tag t)) s

/-! ### The downstream arbiter (R60 to R62) -/

/-- Index of an own memory tag 16..31 in the table of own tags. -/
def captureOwn (k : Fin 4) : Fin 16 := ⟨k.val, by omega⟩

def fillOwn (g : Fin 2) (k : Fin 4) : Fin 16 := ⟨4 + 4 * g.val + k.val, by omega⟩

def setOwn (i : Fin 16) (u : TagUse) (s : Part) : Part := { s with path.own := s.path.own.set i u }

/-- No host lane entry forwarded before the own request lies in the same 64-byte line (R62): the first `ahead` of them, since
the host lane keeps its order. -/
def lineClear (s : Part) (ahead addr : Nat) : Bool :=
  (s.path.hostLane.take ahead).all fun r => lineOf r.addr.toNat != lineOf addr

/-- The oldest request of a lane is grantable (R61, R62). -/
def laneReady (s : Part) : Lane → Bool
  | .host => !s.path.hostLane.isEmpty
  | .capture =>
    match s.path.captureLane with
    | [] => false
    | c :: _ => s.path.own[captureOwn c.part] == .free && lineClear s c.ahead c.addr
  | .fill =>
    match s.path.fillLane with
    | [] => false
    | f :: _ => s.path.own[fillOwn f.group f.part] == .free && lineClear s f.ahead f.addr

/-- A host access has been issued: one fewer is ahead of an own request that waits (R62). -/
def CaptureReq.passed (c : CaptureReq) : CaptureReq := { c with ahead := c.ahead - 1 }

def FillReq.passed (f : FillReq) : FillReq := { f with ahead := f.ahead - 1 }

/-- Issue the oldest request of a lane to memory: its tag becomes outstanding there (R60, R61, R63). -/
def issueLane (l : Lane) (s : Part) : Part :=
  match l with
  | .host =>
    match s.path.hostLane with
    | [] => s
    | r :: rest =>
      { setTag r.tag (.memory r.write) s with
        path.hostLane := rest
        path.captureLane := s.path.captureLane.map CaptureReq.passed
        path.fillLane := s.path.fillLane.map FillReq.passed
        out.mem := s.out.mem ++ [.host r] }
  | .capture =>
    match s.path.captureLane with
    | [] => s
    | c :: rest =>
      { setOwn (captureOwn c.part) .live s with
        path.captureLane := rest, out.mem := s.out.mem ++ [.capture (16 + c.part.val) c.addr] }
  | .fill =>
    match s.path.fillLane with
    | [] => s
    | f :: rest =>
      { setOwn (fillOwn f.group f.part) .live s with
        path.fillLane := rest,
        out.mem := s.out.mem ++ [.fill (20 + 4 * f.group.val + f.part.val) f.addr f.data] }

/-- A grant of the arbiter: the first lane in priority order with a grantable request issues its oldest and moves to
the end of the order; no lane, no change (R61). -/
def arbiterGrant (s : Part) : Part :=
  match s.path.priority.find? (laneReady s) with
  | none => s
  | some l =>
    let t := issueLane l s
    { t with path.priority := s.path.priority.filter (· ≠ l) ++ [l] }

/-! ### The rows -/

/-- HOST_REQUEST_ACCEPTED (R46, R48): the request joins those waiting at the port, which are accepted in order while
the conditions of R46 hold (log 5). -/
def execHostRequestAccepted (req : HostReq) (s : State) : Host.Outcome State Fault Refusal :=
  onPart (fun p => settle { p with path.port := p.path.port ++ [req] }) s

/-- HOLD_LIMIT_EXPIRY (R56) of the held entry with this tag; none held, or its limit not reached, no effect. -/
def execHoldLimitExpiry (tag : Fin 16) (s : State) : Host.Outcome State Fault Refusal :=
  onPart (fun p => settle (expireTag p tag)) s

/-- MEMORY_PORT_GRANT (R61). -/
def execMemoryPortGrant (s : State) : Host.Outcome State Fault Refusal := onPart arbiterGrant s

/-- HOST_MEMORY_RESPONSE (R59): relayed with its data to the host side port; a response whose tag names no
outstanding request is discarded. A write's response carries no data. -/
def execHostMemoryResponse (tag : Fin 32) (ok : Bool) (data : Payload) (s : State) :
    Host.Outcome State Fault Refusal :=
  onPart (fun p =>
    if h : tag.val < 16 then
      match p.path.tags[(⟨tag.val, h⟩ : Fin 16)] with
      | .memory write => settle (respond ⟨tag.val, h⟩ ok (if ok && !write then data else []) p)
      | .idle => p
      | .held => p
      | .lane => p
    else p) s

end Sys2Proof.Machine
end

