-- ==== Sys2Proof/Machine/Regions.lean ====
section
/-! DEFINITION. The region table following the module: the region evaluation, suspension, the end of a restore
(chapter 2). -/

namespace Sys2Proof.Machine

/-- The home range is within the module's capacity; with no capacity handed on, every range is (R31, R175). -/
def withinCapacity (s : Part) (r : Fin 8) : Bool :=
  match usableIdentity s with
  | some i => decide ((s.regs[r]).homeBase + (s.regs[r]).size ≤ i.capacity)
  | none => true

/-- The region evaluation: the state of a region that is not OFF, by the first line of R31 that applies. -/
def evalState (s : Part) (r : Fin 8) : RegionState :=
  match s.pres.status with
  | .none => .suspended .noModule
  | .identifying => .suspended .moduleNotReady
  | .failed => .suspended .moduleNotReady
  | .unformatted => if withinCapacity s r then .suspended .moduleNotReady else .suspended .capacity
  | .mismatched => if withinCapacity s r then .suspended .moduleNotReady else .suspended .capacity
  | .unverified => if withinCapacity s r then .suspended .moduleNotReady else .suspended .capacity
  | .ready =>
    if withinCapacity s r then (if absentCount s r = 0 then .mirrored else .restoring) else .suspended .capacity

def setRegionState (r : Fin 8) (st : RegionState) (s : Part) : Part :=
  { s with regs := s.regs.set r { s.regs[r] with state := st } }

def RegionState.isSuspended : RegionState → Bool
  | .suspended _ => true
  | .off => false
  | .restoring => false
  | .mirrored => false

/-- The region's blocks on the demand list go back to the head of the fill queue, in list order (R121). -/
def demandToQueue (r : Fin 8) (s : Part) : Part :=
  { s with
    fill.queue := (s.fill.demand.filter fun id => id.region == r) ++ s.fill.queue
    fill.demand := s.fill.demand.filter fun id => id.region != r }

/-- A region evaluation takes effect (R31, R39): a state already held changes nothing; a region that goes from RESTORING
or MIRRORED to SUSPENDED has its FILL-held accesses to ABSENT blocks answered (R65) and its demand list blocks put
back in the fill queue (R121). An OFF region is passed by. -/
def applyEval (s : Part) (r : Fin 8) : Part :=
  let old := (s.regs[r]).state
  let new := evalState s r
  if old = .off ∨ new = old then s
  else
    let t := setRegionState r new s
    if new.isSuspended && !old.isSuspended then demandToQueue r (suspendHolds r t) else t

/-- Every region that is not OFF is evaluated, in region number order (R39). -/
def evalAll (s : Part) : Part := (List.finRange 8).foldl applyEval s

/-- A region's absent count has fallen to 0 (R40, R132): RESTORING becomes MIRRORED, SUSPENDED keeps its state, and
RESTORE_DONE is posted in both. -/
def absentZero (r : Fin 8) (s : Part) : Part :=
  match (s.regs[r]).state with
  | .restoring => post (.restoreDone r) (setRegionState r .mirrored s)
  | .suspended _ => post (.restoreDone r) s
  | .off => s
  | .mirrored => s

/-- The block table reports a fall of the absent count to 0 (R23). -/
def absentCheck (r : Fin 8) (s : Part) : Part := if absentCount s r = 0 then absentZero r s else s

end Sys2Proof.Machine
end

