-- ==== Sys2Proof/Machine/Fill.lean ====
section
/-! DEFINITION. The fill engine: slots, runs, home bursts, fill writes, run failures and its reset (chapter 6). -/

namespace Sys2Proof.Machine

/-! ### Slots and tag groups (R122) -/

def FillSlot.group : FillSlot → Option (Fin 2)
  | .free => none
  | .reserved _ => none
  | .loaded _ _ => none
  | .writing _ _ g _ _ => some g

def FillSlot.block : FillSlot → Option BlockId
  | .free => none
  | .reserved id => some id
  | .loaded id _ => some id
  | .writing id _ _ _ _ => some id

def setSlot (i : Fin 8) (f : FillSlot) (s : Part) : Part := { s with fill.slots := s.fill.slots.set i f }

/-- The slot that holds a block. -/
def slotOf (s : Part) (id : BlockId) : Option (Fin 8) :=
  (List.finRange 8).find? fun i => (s.fill.slots[i]).block == some id

/-- The WRITING slot that holds a tag group. -/
def slotOfGroup (s : Part) (g : Fin 2) : Option (Fin 8) :=
  (List.finRange 8).find? fun i => (s.fill.slots[i]).group == some g

/-- A tag group is free when no WRITING slot holds it and none of its tags is outstanding, to be discarded or not: at most two
blocks are at memory at once (R60, R122). -/
def groupFree (s : Part) (g : Fin 2) : Bool :=
  (slotOfGroup s g).isNone && (List.finRange 4).all fun k => s.path.own[fillOwn g k] == .free

/-- The first free tag group: tags 20..23, then tags 24..27 (R122). -/
def freeGroup (s : Part) : Option (Fin 2) := (List.finRange 2).find? (groupFree s)

/-- The four fill writes of a block, part k at tag 20 + 4 g + k, asked for behind the host lane as it stands (R60, R62, R122). -/
def fillReqs (ahead : Nat) (g : Fin 2) (addr : Nat) (p : Payload) : List FillReq :=
  (List.finRange 4).map fun k => ⟨g, k, addr + 64 * k.val, partOf p k.val, ahead⟩

/-- The LOADED slot whose burst arrived first takes a free tag group and asks for its four fill writes (R122). -/
def takeGroup (s : Part) : Part :=
  match s.fill.arrivals with
  | [] => s
  | i :: rest =>
    match freeGroup s with
    | none => s
    | some g =>
      match s.fill.slots[i] with
      | .loaded id p =>
        { setSlot i (.writing id p g 0 false) s with
          fill.arrivals := rest, path.fillLane := s.path.fillLane ++ fillReqs s.path.hostLane.length g (ramOf s id) p }
      | .free => { s with fill.arrivals := rest }
      | .reserved _ => { s with fill.arrivals := rest }
      | .writing _ _ _ _ _ => { s with fill.arrivals := rest }

/-- There are two tag groups, so at most two slots take one. -/
def takeGroups (s : Part) : Part := takeGroup (takeGroup s)

/-- A block's own fill has ended while its background run goes on. -/
def endInRun (id : BlockId) (s : Part) : Part :=
  { s with fill.background := s.fill.background.map fun b =>
      { b with blocks := b.blocks.map fun x => if x.id = id then { x with ended := true } else x } }

/-! ### Run starts (R124 to R126) -/

/-- Fill run start: the blocks become FILLING and one slot is reserved for each (R21, R122). -/
def reserve : List (BlockId × Fin 8) → Part → Part
  | [], s => s
  | (id, i) :: rest, s => reserve rest (setSlot i (.reserved id) (setState id .filling s))

/-- A demand run takes the head of the demand list and the lowest FREE slot (R124). -/
def startDemand (s : Part) : Part :=
  match s.fill.demand, freeSlots s with
  | id :: rest, i :: _ =>
    { reserve [(id, i)] s with fill.demand := rest, fill.demandRun := some (id, i) }
  | [], _ => s
  | _ :: _, [] => s

/-- The entries that follow the last block taken, of the same region with the next block index, at most `n` (R125). -/
def extendRun : Nat → BlockId → List BlockId → List BlockId
  | 0, _, _ => []
  | _ + 1, _, [] => []
  | n + 1, last, id :: rest =>
    if id.region = last.region ∧ id.index = last.index + 1 then id :: extendRun n id rest else []

/-- The blocks of a new background run (R125, log 20): the eligible head and what follows it, at most the least of 8,
the run limit and the number of FREE slots. -/
def runBlocks (s : Part) : List BlockId :=
  match eligibleFill s with
  | [] => []
  | id :: rest => id :: extendRun (min (min 8 (runLimit s)) (freeSlots s).length - 1) id rest

/-- A background run starts: its blocks leave the fill queue, become FILLING and take slots; it is OPEN at its first
block (R125). -/
def startBackground (s : Part) : Part :=
  let pairs := (runBlocks s).zip (freeSlots s)
  let t := reserve pairs s
  { t with
    fill.queue := s.fill.queue.filter fun id => !(runBlocks s).contains id
    fill.background := some ⟨pairs.map fun p => ⟨p.1, p.2, false⟩, 0, false⟩ }

/-- A YIELDED run becomes OPEN again (R126). -/
def continueBackground (s : Part) : Part :=
  { s with fill.background := s.fill.background.map fun b => { b with yielded := false } }

/-! ### What arrives from a home (R127) -/

inductive HomeCheck where
  | load (payload : Payload)
  | corrupt (tagged : Bool)
  deriving DecidableEq, Repr

/-- A home burst checked against the block it is for, by the first case of R127 that applies. -/
def homeCheck (id : BlockId) (b : ReadBurst) : HomeCheck :=
  if b.blank = 1#4 then .load (zeros 256)
  else if field b.tag 7 4 ≠ (crc32 b.payload).toNat then .corrupt false
  else if field b.tag 0 1 ≠ id.region.val ∨ field b.tag 1 2 ≠ id.index then .corrupt true
  else .load b.payload

/-- A home burst lands in its block's slot: LOADED, or the block ends unreadable with HOME_CORRUPT and its held accesses
answered with error (R127). -/
def landBurst (i : Fin 8) (id : BlockId) (b : ReadBurst) (s : Part) : Part :=
  match homeCheck id b with
  | .load p => takeGroups { setSlot i (.loaded id p) s with fill.arrivals := s.fill.arrivals ++ [i] }
  | .corrupt t =>
    failFillHolds id
      (post (.homeCorrupt id t) (endInRun id (setSlot i .free (setState id (.absent true) s))))

/-- The burst of a demand run arrives, and the run ends (R124). -/
def demandBurst (b : ReadBurst) (s : Part) : Part :=
  match s.fill.demandRun with
  | none => s
  | some (id, i) => landBurst i id b { s with fill.demandRun := none }

/-- A burst of the background run arrives for the block at its next position; with the last one the run ends (R125,
R127). -/
def backgroundBurst (b : ReadBurst) (s : Part) : Part :=
  match s.fill.background with
  | none => s
  | some run =>
    match run.blocks[run.next]? with
    | none => s
    | some x =>
      if run.next + 1 < run.blocks.length then
        landBurst x.slot x.id b { s with fill.background := some { run with next := run.next + 1 } }
      else landBurst x.slot x.id b { s with fill.background := none, fill.lastBlock := some x.id }

/-! ### Failures (R129, R130) -/

/-- Live tags of a tag group: their responses will be discarded (R130). -/
def staleGroup (g : Fin 2) (s : Part) : Part :=
  (List.finRange 4).foldl
    (fun t k => if t.path.own[fillOwn g k] = .live then setOwn (fillOwn g k) .stale t else t) s

/-- A slot is given up: its fill writes not yet issued are withdrawn and responses to those issued will be discarded
(R130). -/
def dropSlot (i : Fin 8) (s : Part) : Part :=
  let t :=
    match (s.fill.slots[i]).group with
    | none => s
    | some g => staleGroup g { s with path.fillLane := s.path.fillLane.filter fun f => f.group != g }
  { setSlot i .free t with fill.arrivals := t.fill.arrivals.filter (· ≠ i) }

/-- A FILLING block goes back to ABSENT, readable, and its slot is given up (R21, R130). -/
def revertBlock (id : BlockId) (i : Fin 8) (s : Part) : Part := dropSlot i (setState id (.absent false) s)

/-- Blocks of a run fail: all go back to ABSENT and to the fill queue's tail in home order; their FILL-held accesses are
answered with error and the entries behind them claimed, block by block in home order (log 52); one FILL_FAILED names the first of
them (R130). -/
def failBlocks (xs : List (BlockId × Fin 8)) (why : FillFail) (s : Part) : Part :=
  match xs with
  | [] => s
  | first :: _ =>
    let t := xs.foldl (fun t x => revertBlock x.1 x.2 t) s
    let u := { t with fill.queue := t.fill.queue ++ xs.map (·.1) }
    let v := xs.foldl (fun t x => failFillHolds x.1 t) u
    takeGroups (post (.fillFailed first.1 why) v)

/-- The demand run fails (R130). -/
def failDemand (why : FillFail) (s : Part) : Part :=
  match s.fill.demandRun with
  | none => s
  | some x => failBlocks [x] why { s with fill.demandRun := none }

/-- Blocks of the background run that are still FILLING, from a position on. -/
def stillFilling (run : BackgroundRun) (start : Nat) : List (BlockId × Fin 8) :=
  ((run.blocks.drop start).filter fun x => !x.ended).map fun x => (x.id, x.slot)

/-- The background run fails with every block still FILLING (R130); nothing to fail once its last burst has arrived. -/
def failBackground (why : FillFail) (s : Part) : Part :=
  match s.fill.background with
  | none => { s with fill.lastBlock := none }
  | some run => failBlocks (stillFilling run 0) why { s with fill.background := none, fill.lastBlock := none }

/-- An END RUN of the background run was answered with a module status: its blocks not yet received fail, or its last
block when all were handed (R156, log 22). -/
def failUnreceived (why : FillFail) (s : Part) : Part :=
  match s.fill.background with
  | some run => failBlocks (stillFilling run run.next) why { s with fill.background := none, fill.lastBlock := none }
  | none =>
    match s.fill.lastBlock with
    | none => s
    | some id =>
      match slotOf s id with
      | none => { s with fill.lastBlock := none }
      | some i => failBlocks [(id, i)] why { s with fill.lastBlock := none }

/-- The module status has changed away from READY: a YIELDED run fails (R130, log 20). -/
def failYielded (s : Part) : Part :=
  match s.fill.background with
  | none => s
  | some run => if run.yielded then failBackground .notReady s else s

/-! ### Fill writes (R128, R129) -/

/-- Every fill write of a block was OK: CLEAN, slot FREE, and the block's held entries are claimed (R128). -/
def fillComplete (id : BlockId) (i : Fin 8) (s : Part) : Part :=
  releaseBlock id (absentCheck id.region (endInRun id (setSlot i .free (setState id .clean s))))

/-- A fill write of a block was answered with error: back to ABSENT at the fill queue's tail (R129). -/
def fillWriteFailed (id : BlockId) (i : Fin 8) (s : Part) : Part :=
  let t := endInRun id (setSlot i .free (setState id (.absent false) s))
  post (.fillFailed id .memory) (failFillHolds id { t with fill.queue := t.fill.queue ++ [id] })

/-- The response to a fill write that its block's slot waits for (R128, R129). -/
def fillTaken (g : Fin 2) (ok : Bool) (s : Part) : Part :=
  match slotOfGroup s g with
  | none => s
  | some i =>
    match s.fill.slots[i] with
    | .writing id p h n e =>
      if n + 1 < 4 then setSlot i (.writing id p h (n + 1) (e || !ok)) s
      else if e || !ok then takeGroups (fillWriteFailed id i s)
      else takeGroups (fillComplete id i s)
    | .free => s
    | .reserved _ => s
    | .loaded _ _ => s

/-- A response to a fill write: its tag is freed; one to be discarded changes nothing else, but the group whose last tag it
frees may be taken (R60, R122, R130). -/
def fillResponse (g : Fin 2) (k : Fin 4) (ok : Bool) (s : Part) : Part :=
  match s.path.own[fillOwn g k] with
  | .free => s
  | .stale => takeGroups (setOwn (fillOwn g k) .free s)
  | .live => settle (fillTaken g ok (setOwn (fillOwn g k) .free s))

/-! ### Reset of the fill engine (R134) -/

/-- FILLING blocks in the order R134 gives their places at the queue's head: the demand run's, the background run's in home
order, then blocks whose runs have ended, in slot order (log 21). -/
def fillingOrder (s : Part) : List BlockId :=
  let d := match s.fill.demandRun with
    | none => []
    | some x => [x.1]
  let b := match s.fill.background with
    | none => []
    | some run => (stillFilling run 0).map (·.1)
  let rest := ((List.finRange 8).filterMap fun i => (s.fill.slots[i]).block).filter fun id => !(d ++ b).contains id
  d ++ b ++ rest

/-- Own fill tags that are live will have their responses discarded. -/
def staleFills (s : Part) : Part := staleGroup 1 (staleGroup 0 s)

/-- RESET ENGINE at the fill engine (R134). The link request in flight is withdrawn by the caller. The held accesses are answered block
by block, in the order in which the blocks join the fill queue (log 52). -/
def fillReset (s : Part) : Part :=
  let ids := fillingOrder s
  let t := ids.foldl (fun t id => setState id (.absent false) t) s
  let u := staleFills { t with
    path.fillLane := []
    fill.queue := ids ++ s.fill.demand ++ s.fill.queue
    fill.demand := []
    fill.slots := Vector.replicate 8 .free
    fill.arrivals := []
    fill.demandRun := none
    fill.background := none
    fill.lastBlock := none }
  ids.foldl (fun t id => failFillHolds id t) u

/-! ### The row -/

/-- FILL_WRITE_RESPONSE (R128, R129): the response to part k of tag group g. -/
def execFillWriteResponse (group : Fin 2) (part : Fin 4) (ok : Bool) (s : State) :
    Host.Outcome State Fault Refusal :=
  onPart (fillResponse group part ok) s

end Sys2Proof.Machine
end

