-- ==== Sys2Proof/Machine/Status.lean ====
section
/-! DEFINITION. The module status and its neighbours but the checkpoint engine (R175, R177), and what a requester does to
its link request: withdrawing it (R160) or giving up its outcome (R116, R161). -/

namespace Sys2Proof.Machine

/-- The module status changes: MODULE_STATUS is posted, the regions are evaluated, and a YIELDED run fails away from
READY; at NONE the journal hold is cleared and the recovery retry timer stopped (R175, R108). A status already held
changes nothing. The checkpoint engine's part is `engineLoss`. -/
def changeStatus (new : ModStatus) (detail : Option StatusDetail) (s : Part) : Part :=
  if new = s.pres.status then s
  else
    let t := post (.moduleStatus new detail) { s with pres.status := new }
    let u :=
      if new = .none then { t with eng.journalHold := false, eng.retryTimer := none } else t
    let v := evalAll u
    if new = .ready then v else failYielded v

/-- The serial detail of READY (R177). -/
def serialDetail (s : Part) : StatusDetail :=
  match s.pres.serial with
  | none => .first
  | some old =>
    match s.pres.identity with
    | some i => if i.serial = old then .sameSerial else .newSerial
    | none => .newSerial

/-- The module becomes READY: the serial is compared and remembered (R177). -/
def becomeReady (s : Part) : Part :=
  changeStatus .ready (some (serialDetail s))
    { s with pres.serial := match s.pres.identity with
        | some i => some i.serial
        | none => s.pres.serial }

/-- A requester withdraws its request (R160). -/
def withdraw (r : Requester) (s : Part) : Part :=
  { s with link.current := s.link.current.map fun q =>
      if q.requester = r then { q with withdrawn := true } else q }

/-- A requester's request runs on to its own end with its outcome discarded (R116, R161). -/
def disown (r : Requester) (s : Part) : Part :=
  { s with link.current := s.link.current.map fun q =>
      if q.requester = r then { q with discard := true } else q }

/-- A request of this requester whose outcome is still wanted is in flight. -/
def inFlight (s : Part) (r : Requester) : Bool :=
  match s.link.current with
  | none => false
  | some q => q.requester == r && !q.withdrawn && !q.discard

/-- Identification starts afresh (R170): no attempt made yet, the slow rate, IDENTIFY first. -/
def startIdent (s : Part) : Part :=
  { s with link.attempts := 0, link.rate := .slow, pres.ident := some .identify }

end Sys2Proof.Machine
end

