-- ==== Sys2Proof/Machine/Engine.lean ====
section
/-! DEFINITION. The checkpoint engine: captures, the commit and abort claims, the phases of a batch, loss of the module
(chapter 4). -/

namespace Sys2Proof.Machine

def setEngine (e : EngineState) (s : Part) : Part := { s with eng.state := e }

/-- The pause takes effect at a point: PAUSED, with its event (R92). -/
def pauseAt (p : Point) (s : Part) : Part := post (.paused p) (setEngine (.paused p) s)

/-- The engine enters IDLE with no batch; a waiting pause request takes effect at once (R92). -/
def enterIdle (s : Part) : Part :=
  let t := setEngine .idle { s with eng.batch := none }
  if s.eng.pauseReq then pauseAt .idle t else t

/-- The number of members of the current batch (R15). -/
def memberCount (s : Part) : Nat := countRecs (fun r => r.state.isMember) s

/-! ### CAPTURE (4.3) -/

/-- A CARRY mark becomes PENDING at capture start (R15, R25). -/
def captureMark : Option Mark → Option Mark
  | some _ => some .pending
  | none => none

/-- The four capture reads of a block, asked for behind the host lane as it stands (R62, R72). -/
def captureReqs (ahead addr : Nat) : List CaptureReq :=
  (List.finRange 4).map fun k => ⟨k, addr + 64 * k.val, ahead⟩

/-- Capture start of an entry: it leaves the queue, its block becomes CAPTURING in the next staging slot, the descriptor is
written, and the four capture reads are asked for (R15, R72, R73, log 26). -/
def captureEntry (e : QEntry) (s : Part) : Part :=
  let slot := s.eng.staging.length
  let mark := match recOf s e.id with
    | some r => captureMark r.mark
    | none => none
  let t := setRec e.id ⟨.capturing slot, mark⟩ s
  { t with
    tbl.queue := t.tbl.queue.filter fun x => x.id ≠ e.id
    eng.staging := t.eng.staging ++ [⟨e.id, zeros 256, some e.joined, mark⟩]
    eng.capture := some ⟨e.id, slot, 0, false⟩
    eng.batch := t.eng.batch.map fun b => { b with starts := b.starts + 1 }
    path.captureLane := t.path.captureLane ++ captureReqs s.path.hostLane.length (ramOf t e.id) }

/-- The batch number to come: the last committed batch number plus 1 (R75). -/
def nextBatchNumber (s : Part) : U32 :=
  match s.eng.lastCommitted with
  | some n => n + 1
  | none => 1

/-- CAPTURE ends: with no members the engine returns to IDLE without an event, else JOURNAL starts with N and n fixed
(R73, R75). -/
def endCapture (s : Part) : Part :=
  if s.eng.staging.length = 0 then enterIdle s
  else
    setEngine .journal { s with eng.batch := s.eng.batch.map fun b =>
      { b with number := some (nextBatchNumber s), count := some s.eng.staging.length } }

/-- The next capture start is taken while the batch's limit and the eligible queue allow one; otherwise CAPTURE ends
(R73). -/
def nextCapture (s : Part) : Part :=
  match s.eng.batch with
  | none => s
  | some b =>
    if b.starts < b.limit then
      match leading s with
      | some e => captureEntry e s
      | none => endCapture s
    else endCapture s

/-- A batch starts (R69 to R71): CAPTURE, the batch limit in force is kept, the checkpoint request is cleared. -/
def startBatch (s : Part) : Part :=
  nextCapture (setEngine .capture { s with
    eng.checkpointReq := false
    eng.batch := some ⟨s.eng.batchLimit, 0, none, none, none, false, 0, 0⟩ })

/-! ### Claims on all members (R18, R19) -/

/-- The mark of a member after the commit (R26). -/
def commitMark (redirtied : Bool) : Option Mark → Option Mark
  | some .carry => if redirtied then some .pending else none
  | some .pending => none
  | none => none

/-- The commit of one member (R18, R26). -/
def commitMember (s : Part) (e : Staged) : Part :=
  match recOf s e.id with
  | none => s
  | some r =>
    match r.state with
    | .captured _ => setRec e.id ⟨.clean, commitMark false r.mark⟩ s
    | .redirtied since _ => joinTail e.id since (setRec e.id ⟨.dirty since, commitMark true r.mark⟩ s)
    | .absent _ => s
    | .filling => s
    | .clean => s
    | .dirty _ => s
    | .capturing _ => s

/-- The commit claim on all members, in staging slot order (R18). -/
def commitClaim (s : Part) : Part := s.eng.staging.foldl commitMember s

/-- The dirty queue entry a staged block had when its capture started. -/
def Staged.entry (now : Time) (e : Staged) : QEntry := ⟨e.id, e.joined.getD now⟩

/-- The abort claim: every member becomes DIRTY at the queue's head, in slot order, with its original joined time (R19). -/
def abortClaim (s : Part) : Part :=
  let t := s.eng.staging.foldl (fun t e => setState e.id (.dirty (e.entry s.now).joined) t) s
  { t with tbl.queue := s.eng.staging.map (Staged.entry s.now) ++ t.tbl.queue }

/-! ### Abort, backoff and halt (4.10) -/

/-- The batch number, once JOURNAL has started. -/
def batchNumber (s : Part) : Option U32 := s.eng.batch.bind fun b => b.number

/-- The entry count, once CAPTURE has ended. -/
def batchCount (s : Part) : Nat :=
  match s.eng.batch with
  | some b => b.count.getD s.eng.staging.length
  | none => 0

def dropBatch (s : Part) : Part := { s with eng.staging := [], eng.batch := none }

/-- An abort: the abort claim, staging emptied, the batch ended; BATCH_ABORTED when it had members (R88). What the engine
enters is the caller's. -/
def abortBatch (why : AbortReason) (s : Part) : Part :=
  let t := dropBatch (abortClaim { s with path.captureLane := [] })
  if s.eng.staging.length = 0 then t else post (.batchAborted (batchNumber s) why) t

/-- HALTED: a waiting pause request is cleared without an event (R92), and ENGINE_HALTED is posted. -/
def halt (why : HaltReason) (batch : Option U32) (status : Option LinkStatus) (s : Part) : Part :=
  post (.engineHalted batch why status) (setEngine (.halted why) { s with eng.pauseReq := false })

/-- A counted abort: HALTED(ABORT_LIMIT) at 3, else BACKOFF, where a waiting pause takes effect (R89, R92). -/
def countedAbort (why : AbortReason) (s : Part) : Part :=
  let t := abortBatch why s
  let n := s.eng.aborts + 1
  let u := { t with eng.aborts := n }
  if 3 ≤ n then halt .abortLimit none none u
  else
    let v := setEngine .backoff { u with eng.backoff := some (u.now + u.eng.backoffInterval) }
    if v.eng.pauseReq then pauseAt .backoff v else v

/-! ### The commit point (R79) and doubt (R82) -/

/-- What the commit point records: the last committed batch number, the status knowledge, the counter (R79). -/
def recordCommit (slot : StatusSlot) (seq : U32) (s : Part) : Part :=
  { s with
    eng.lastCommitted := batchNumber s
    eng.knowledge := some (seq, slot)
    eng.aborts := 0
    eng.batch := s.eng.batch.map fun b => { b with committed := true } }

/-- Where the engine goes at the commit point: APPLY, or PAUSED before it (R79, R92); within recovery it stays in RECOVER
(R84, R110). -/
def enterApply (s : Part) : Part :=
  if s.eng.state = .recover then s
  else if s.eng.pauseReq then pauseAt .applyStart s
  else setEngine .apply s

/-- The commit point, with the status record it is known by (R79, R81, R84); then SYNC's end (R27), the end of a final
checkpoint (R140) and the budget release (R6). -/
def commitPoint (slot : StatusSlot) (seq : U32) (s : Part) : Part :=
  let t := recordCommit slot seq (commitClaim s)
  let u := post (.batchCommitted (batchNumber s) (batchCount s)) t
  budgetCheck (dirtyCount s) s.tbl.budget (finalCheck (syncCheck (enterApply u)))

/-- IN_DOUBT is entered: batch and staging kept, a waiting pause request cleared without an event, a READY module made
UNVERIFIED, BATCH_IN_DOUBT posted (R82). -/
def enterInDoubt (s : Part) : Part :=
  let t := setEngine .inDoubt { s with eng.pauseReq := false, eng.verifyA := none }
  let u := if s.pres.status = .ready then changeStatus .unverified none t else t
  post (.batchInDoubt (batchNumber s) (batchCount s)) u

/-- An APPLY or RETIRE failure: staging emptied, a READY module made UNVERIFIED, HALTED(APPLY_FAILED) (R86, R87). -/
def applyFailed (s : Part) : Part :=
  let t := setEngine (.halted .applyFailed) (dropBatch { s with eng.pauseReq := false })
  let u := if s.pres.status = .ready then changeStatus .unverified none t else t
  post (.engineHalted (batchNumber s) .applyFailed none) u

/-! ### Homes of a staged batch (R85) -/

/-- Insert an entry into a list sorted by home, behind the entries of the same home. -/
def insertHome {α : Type} (key : α → Nat) (x : α) : List α → List α
  | [] => [x]
  | y :: ys => if key y ≤ key x then y :: insertHome key x ys else x :: y :: ys

/-- Sorted by home block number, lowest first. -/
def sortHomes {α : Type} (key : α → Nat) (xs : List α) : List α := xs.foldl (fun acc x => insertHome key x acc) []

/-- How many homes follow a home without a gap, at most `n`. -/
def followers : Nat → Nat → List Nat → Nat
  | 0, _, _ => 0
  | _ + 1, _, [] => 0
  | n + 1, last, h :: rest => if h = last + 1 then followers n h rest + 1 else 0

/-- Length of the run that begins a sorted home list: homes that follow one another without a gap, at most the run
limit (R85). -/
def homeRun (limit : Nat) : List Nat → Nat
  | [] => 0
  | h :: rest => followers (limit - 1) h rest + 1

/-- The staged entries in the order APPLY and the replay send them (R85, R113). -/
def sortedStaging (s : Part) : List Staged := sortHomes (fun e => homeOf s e.id) s.eng.staging

/-- The homes not yet sent, from a position of the sorted list. -/
def homesFrom (s : Part) (start : Nat) : List Nat := ((sortedStaging s).drop start).map fun e => homeOf s e.id

/-! ### The engine's requests and bursts -/

def request (r : Requester) (c : ReqCode) (first count : Nat) : LinkReq :=
  { requester := r, code := c, arg := first, first := first, count := count, pos := 0, withdrawn := false,
    discard := false }

/-- The slot of the next status record: the one that does not hold the newest valid record (R78, R87, R103). -/
def nextStatusSlot (s : Part) : StatusSlot :=
  match s.eng.knowledge with
  | some (_, slot) => slot.other
  | none => .a

/-- The status record to be written: sequence one beyond the newest, for the current batch (R78, R87). -/
def batchRecord (st : RecordState) (s : Part) : StatusRecord where
  seq := match s.eng.knowledge with
    | some (seq, _) => seq + 1
    | none => 0
  state := st
  batch := (batchNumber s).getD 0
  count := batchCount s
  check := (s.eng.batch.bind fun b => b.check).getD 0
  binding := s.pres.binding

/-- The next link request of the checkpoint engine outside recovery (R76, R78, R81, R85, R87). -/
def engineRequest (s : Part) : Option LinkReq :=
  match s.eng.state, s.eng.batch with
  | .journal, some b =>
    some (request .checkpoint .writeRun (3 + b.sent) (min (runLimit s) (s.eng.staging.length - b.sent)))
  | .commit, some _ => some (request .checkpoint .writeBlock (nextStatusSlot s).block 1)
  | .verify, some _ =>
    some (request .checkpoint .readBlock (if s.eng.verifyA.isNone then StatusSlot.a.block else StatusSlot.b.block) 1)
  | .apply, some b =>
    some (request .checkpoint .writeRun ((homesFrom s b.applied).headD 0) (homeRun (runLimit s) (homesFrom s b.applied)))
  | .retire, some _ => some (request .checkpoint .writeBlock (nextStatusSlot s).block 1)
  | .idle, _ => none
  | .capture, _ => none
  | .recover, _ => none
  | .backoff, _ => none
  | .paused _, _ => none
  | .inDoubt, _ => none
  | .halted _, _ => none
  | .journal, none => none
  | .commit, none => none
  | .verify, none => none
  | .apply, none => none
  | .retire, none => none

/-- The burst of an entry slot (R75, R105). -/
def entryBurst (s : Part) (i : Nat) : Payload × Payload :=
  match s.eng.staging[i]? with
  | some e => (e.payload, entryTag ((batchNumber s).getD 0) i e)
  | none => (zeros 256, zeros 16)

/-- The burst of a home: staged payload and home tag with the batch number applied (R85, R106, R113). -/
def homeBurst (s : Part) (batch : U32) (i : Nat) : Payload × Payload :=
  match (sortedStaging s)[i]? with
  | some e => (e.payload, homeTag e.id batch.toNat e.payload)
  | none => (zeros 256, zeros 16)

/-- The burst at a position of the engine's run in flight. -/
def engineBurst (s : Part) (pos : Nat) : Payload × Payload :=
  match s.eng.batch with
  | none => (zeros 256, zeros 16)
  | some b =>
    match s.eng.state with
    | .journal => entryBurst s (b.sent + pos)
    | .commit => (statusPayload (batchRecord .committed s), zeros 16)
    | .apply => homeBurst s (b.number.getD 0) (b.applied + pos)
    | .retire => (statusPayload (batchRecord .applied s), zeros 16)
    | .idle => (zeros 256, zeros 16)
    | .capture => (zeros 256, zeros 16)
    | .verify => (zeros 256, zeros 16)
    | .recover => (zeros 256, zeros 16)
    | .backoff => (zeros 256, zeros 16)
    | .paused _ => (zeros 256, zeros 16)
    | .inDoubt => (zeros 256, zeros 16)
    | .halted _ => (zeros 256, zeros 16)

/-- A JOURNAL burst has been sent: with the last slot's the entry check is complete (R75). -/
def journalSent (pos : Nat) (s : Part) : Part :=
  match s.eng.batch with
  | none => s
  | some b =>
    if s.eng.state = .journal ∧ b.sent + pos + 1 = s.eng.staging.length then
      { s with eng.batch := some { b with check := some (entryCheck (b.number.getD 0) s.eng.staging) } }
    else s

/-! ### How the engine takes the end of a request -/

/-- `n` more slots or homes have been sent and are durable. -/
def advanceSent (n : Nat) (s : Part) : Part :=
  { s with eng.batch := s.eng.batch.map fun b => { b with sent := b.sent + n } }

def advanceApplied (n : Nat) (s : Part) : Part :=
  { s with eng.batch := s.eng.batch.map fun b => { b with applied := b.applied + n } }

/-- A JOURNAL run has ended after `n` more slots: COMMIT after the last, else the next run or the pause (R76, R77, R92). -/
def journalRunEnd (n : Nat) (s : Part) : Part :=
  let t := advanceSent n s
  let sent := match t.eng.batch with
    | some b => b.sent
    | none => 0
  if t.eng.staging.length ≤ sent then setEngine .commit t
  else if t.eng.pauseReq then pauseAt .journalNext t
  else t

/-- An APPLY run has ended after `n` more homes: RETIRE after the last, else the next run or the pause (R85, R92). -/
def applyRunEnd (n : Nat) (s : Part) : Part :=
  let t := advanceApplied n s
  let applied := match t.eng.batch with
    | some b => b.applied
    | none => 0
  if t.eng.staging.length ≤ applied then setEngine .retire t
  else if t.eng.pauseReq then pauseAt .applyNext t
  else t

/-- The status knowledge after a status write: one sequence on, in the slot just written (R79, R87). -/
def knowledgeAfterWrite (s : Part) : StatusSlot × U32 := (nextStatusSlot s, (batchRecord .applied s).seq)

/-- The RETIRE write has ended without error (R87). -/
def retireEnd (s : Part) : Part :=
  let k := knowledgeAfterWrite s
  enterIdle (dropBatch { s with eng.knowledge := some (k.2, k.1) })

/-- This batch is the one a status record names: COMMITTED, with its number, count and entry check (R81, R84). -/
def namesBatch (s : Part) (r : StatusRecord) : Bool :=
  r.state == .committed && some r.batch == batchNumber s && r.count == batchCount s &&
    some r.check == s.eng.batch.bind fun b => b.check

/-- What the two VERIFY reads show (R81). -/
def verifyResult (a b : Option StatusRecord) (s : Part) : Part :=
  let t := { s with eng.verifyA := none }
  match newestValid a b with
  | none => enterInDoubt t
  | some (slot, r) =>
    if namesBatch s r then commitPoint slot r.seq t
    else if s.eng.knowledge = some (r.seq, slot) then countedAbort .verify t
    else enterInDoubt t

/-- A VERIFY read's burst (R81). -/
def verifyBurst (b : ReadBurst) (s : Part) : Part :=
  let r := parseStatus (headerBinding s) (b.blank == 1#4) b.payload
  match s.eng.verifyA with
  | none => { s with eng.verifyA := some r }
  | some a => verifyResult a r s

/-! ### Loss of the module (R91) -/

/-- The batch of a phase past its commit point is dropped; it stays committed on the module (R91). A pause request that waited
takes effect at once with remembered point IDLE, and PAUSED is posted, as after an abort (R92 for aborts only, log 45). -/
def leaveApplied (s : Part) : Part := enterIdle (dropBatch (withdraw .checkpoint s))

/-- The module stops being READY, by the phase the engine is in (R91). A PAUSED engine stays PAUSED. -/
def engineLoss (s : Part) : Part :=
  match s.eng.state with
  | .capture => { s with eng.abortWaiting := true }
  | .journal => enterIdle (abortBatch .moduleLost (withdraw .checkpoint s))
  | .commit => enterInDoubt (withdraw .checkpoint s)
  | .verify => enterInDoubt (disown .checkpoint s)
  | .apply => leaveApplied s
  | .retire => leaveApplied s
  | .paused .nextCapture => setEngine (.paused .idle) (abortBatch .moduleLost s)
  | .paused .journalNext => setEngine (.paused .idle) (abortBatch .moduleLost s)
  | .paused .applyStart => setEngine (.paused .idle) (dropBatch s)
  | .paused .applyNext => setEngine (.paused .idle) (dropBatch s)
  | .paused .idle => s
  | .paused .backoff => s
  | .idle => s
  | .backoff => s
  | .inDoubt => s
  | .halted _ => s
  | .recover => s

/-! ### Pause, resume and the remembered points (4.12) -/

/-- The engine continues from a remembered point (R94). -/
def continueFrom (p : Point) (s : Part) : Part :=
  match p with
  | .idle => setEngine .idle s
  | .backoff => setEngine .backoff s
  | .nextCapture => nextCapture (setEngine .capture s)
  | .journalNext => setEngine .journal s
  | .applyStart => setEngine .apply s
  | .applyNext => setEngine .apply s

/-- Recovery was entered from PAUSED and its pause request still stands (R93, R94). -/
def recoverPaused (s : Part) : Bool :=
  s.eng.pauseReq &&
    match s.eng.recovery with
    | some r => r.fromPaused
    | none => false

/-- The end of a pause: PAUSED continues from its point with RESUMED posted; so does a recovery entered from PAUSED,
which then ends in IDLE; a request not yet in effect is cleared without an event (R94, R95, log 24). -/
def endPause (byFreeze : Bool) (s : Part) : Part :=
  let t := { s with eng.pauseReq := false }
  match s.eng.state with
  | .paused p => continueFrom p (post (.resumed byFreeze) t)
  | .recover =>
    if recoverPaused s then
      post (.resumed byFreeze)
        { t with eng.recovery := s.eng.recovery.map fun r => { r with fromPaused := false } }
    else t
  | .idle => t
  | .capture => t
  | .journal => t
  | .commit => t
  | .verify => t
  | .apply => t
  | .retire => t
  | .backoff => t
  | .inDoubt => t
  | .halted _ => t

/-- PAUSE sets the pause request; IDLE and BACKOFF are paused at once, and so are JOURNAL and APPLY while no run of theirs
is in flight (R92). -/
def pauseEngine (s : Part) : Part :=
  let t := { s with eng.pauseReq := true }
  match s.eng.state with
  | .idle => pauseAt .idle t
  | .backoff => pauseAt .backoff t
  | .journal => if inFlight s .checkpoint then t else pauseAt .journalNext t
  | .apply => if inFlight s .checkpoint then t else pauseAt .applyNext t
  | .capture => t
  | .commit => t
  | .verify => t
  | .retire => t
  | .recover => t
  | .paused _ => t
  | .inDoubt => t
  | .halted _ => t

/-! ### The end of a capture read (R16, R74) -/

/-- The data of a capture read goes into its slot (R72). -/
def storePart (slot : Nat) (k : Fin 4) (data : Payload) (s : Part) : Part :=
  { s with eng.staging := s.eng.staging.modify slot fun e => { e with payload := putPart e.payload k.val data } }

/-- The block's side of a capture read's end: CAPTURED, or DIRTY at the queue tail with CAPTURE_FAILED and the slot handed
back; then the block's held entries are claimed (R16, R53, R74). -/
def captureEnd (c : CaptureRead) (s : Part) : Part :=
  let t := { s with eng.capture := none }
  if c.error then
    releaseBlock c.id
      (post (.captureFailed c.id)
        (joinTail c.id t.now
          (setState c.id (.dirty t.now) { t with eng.staging := t.eng.staging.take c.slot })))
  else releaseBlock c.id (setState c.id (.captured c.slot) t)

/-- What follows the end of a capture read: an abort that waited for it, nothing when RESET ENGINE waits, the pause, or the
next capture start (R73, R88, R92, log 32). -/
def afterCapture (s : Part) : Part :=
  if s.eng.abortWaiting then
    enterIdle (abortBatch .moduleLost { s with eng.abortWaiting := false })
  else if s.eng.resetWaiting then s
  else if s.eng.pauseReq then pauseAt .nextCapture s
  else nextCapture s

/-- A response of the capture read in progress (R16, R72). -/
def captureTaken (k : Fin 4) (ok : Bool) (data : Payload) (s : Part) : Part :=
  match s.eng.capture with
  | none => s
  | some c =>
    let d : CaptureRead := { c with taken := c.taken + 1, error := c.error || !ok }
    let t := if ok && !c.error then storePart c.slot k data s else s
    if d.taken < 4 then { t with eng.capture := some d } else afterCapture (captureEnd d t)

/-- A response to a capture read: its tag is freed; one to be discarded changes nothing else (R59, R60). -/
def captureResponse (k : Fin 4) (ok : Bool) (data : Payload) (s : Part) : Part :=
  match s.path.own[captureOwn k] with
  | .free => s
  | .stale => setOwn (captureOwn k) .free s
  | .live => captureTaken k ok data (setOwn (captureOwn k) .free s)

/-! ### RESET ENGINE (4.13) -/

/-- The engine was past JOURNAL start, in doubt or halted, or recovery was stopped by JOURNAL_CORRUPT (R96). -/
def pastJournal (s : Part) : Bool :=
  s.eng.journalHold ||
    match s.eng.state with
    | .journal => true
    | .commit => true
    | .verify => true
    | .apply => true
    | .retire => true
    | .inDoubt => true
    | .halted _ => true
    | .paused .journalNext => true
    | .paused .applyStart => true
    | .paused .applyNext => true
    | .paused .idle => false
    | .paused .backoff => false
    | .paused .nextCapture => false
    | .idle => false
    | .capture => false
    | .recover => false
    | .backoff => false

/-- The batch has not reached its commit point. -/
def beforeCommit (s : Part) : Bool :=
  match s.eng.batch with
  | some b => !b.committed
  | none => false

/-- The items RESET ENGINE returns to their reset values; the last committed batch number, the status knowledge and the limits
are kept (R96, R108). -/
def clearEngine (s : Part) : Part :=
  { s with eng := { s.eng with
      state := .idle, batch := none, staging := [], capture := none, aborts := 0, backoff := none,
      pauseReq := false, checkpointReq := false, journalHold := false, retryTimer := none, abortWaiting := false,
      resetWaiting := false, verifyA := none, recovery := none } }

/-- RESET ENGINE at the checkpoint engine, with no capture read in flight (R96, R97). BATCH_ABORTED is posted before MODULE_STATUS
(log 7). -/
def engineReset (s : Part) : Part :=
  let t := withdraw .recovery (withdraw .checkpoint s)
  let u := if beforeCommit s then abortBatch .reset t else t
  let v := clearEngine u
  if pastJournal s && s.pres.status == .ready then changeStatus .unverified none v else v

end Sys2Proof.Machine
end

