-- ==== Sys2Proof/Machine/Recovery.lean ====
section
/-! DEFINITION. Journal recovery (chapter 5), and what the checkpoint engine makes of each change of module status. -/

namespace Sys2Proof.Machine

/-! ### Start and end -/

/-- The engine enters RECOVER: the backoff timer stops, from PAUSED with remembered point BACKOFF as well (log 51), a pause request is
kept, an in-doubt batch keeps its staging (R108). -/
def startRecovery (s : Part) : Part :=
  let paused := match s.eng.state with
    | .paused _ => true
    | .idle => false
    | .capture => false
    | .journal => false
    | .commit => false
    | .verify => false
    | .apply => false
    | .retire => false
    | .recover => false
    | .backoff => false
    | .inDoubt => false
    | .halted _ => false
  setEngine .recover { s with
    eng.backoff := none
    eng.recovery := some ⟨s.eng.state == .inDoubt, false, paused, none, .readA⟩ }

/-- The in-doubt batch has not been settled yet (R110). -/
def unsettled (s : Part) : Bool :=
  match s.eng.recovery with
  | some r => r.unsettled
  | none => false

/-- Where the engine goes when recovery ends: back to IN_DOUBT with a batch not settled (log 25), else staging emptied and
IDLE or PAUSED with remembered point IDLE; no second PAUSED for a recovery entered from PAUSED (R93, R114, R116). -/
def leaveRecovery (s : Part) : Part :=
  let t := { s with eng.recovery := none }
  if unsettled s then setEngine .inDoubt { t with eng.pauseReq := false }
  else if recoverPaused s then setEngine (.paused .idle) (dropBatch t)
  else enterIdle (dropBatch t)

/-- A recovery fails with its retry timer started (R116, first line). -/
def recoveryFailed (s : Part) : Part :=
  leaveRecovery { s with eng.retryTimer := some (s.now + s.eng.backoffInterval) }

/-- The batch number of the newest valid record recovery works on. -/
def recoveredBatch (s : Part) : Option U32 := (s.eng.recovery.bind fun r => r.newest).map fun x => x.2.batch

/-- A batch is applying in recovery, so that ENGINE_HALTED names it (R116, R179): from the last entry burst on, while the READ RUN it
came in is still to be closed included, and not while entries are read (log 46). -/
def recoveryApplying (s : Part) : Bool :=
  match s.eng.recovery with
  | none => false
  | some r =>
    match r.step with
    | .homes _ => true
    | .applied => true
    | .readA => false
    | .readB _ => false
    | .entries _ => false

/-- A module status stops recovery: HALTED(APPLY_FAILED) with the status as detail (R116, third line). -/
def recoveryHalted (st : LinkStatus) (s : Part) : Part :=
  halt .applyFailed (if recoveryApplying s then recoveredBatch s else none) (some st)
    (dropBatch { s with eng.recovery := none })

/-- Recovery ends with success: numbers set, RECOVERY_DONE, the module READY, and the engine IDLE or PAUSED (R114). The
status knowledge has been set by the step before. -/
def recoverySucceeded (batch : U32) (replayed : Nat) (s : Part) : Part :=
  let t := dropBatch { s with eng.lastCommitted := some batch }
  leaveRecovery (becomeReady (post (.recoveryDone batch replayed) t))

/-- A replay is stopped: the journal hold is set, staging emptied, JOURNAL_CORRUPT posted; a read run in flight goes on to
its end with its outcome discarded (R115, log 18). -/
def journalCorrupt (cause : CorruptCause) (s : Part) : Part :=
  let t := disown .recovery { s with eng.journalHold := true }
  leaveRecovery (post (.journalCorrupt ((recoveredBatch s).getD 0) cause) (dropBatch t))

/-! ### Steps -/

def setStep (st : RecoveryStep) (s : Part) : Part :=
  { s with eng.recovery := s.eng.recovery.map fun r => { r with step := st } }

/-- An entry is placed: its region is set, its index below the size, its home below the capacity (R112). -/
def placed (s : Part) (id : BlockId) : Bool :=
  decide ((s.regs[id.region]).size ≠ 0 ∧ id.index < (s.regs[id.region]).size) && belowCapacity s (homeOf s id)

/-- With every entry received: the entry check, then placement, then the homes, or the APPLIED record at once when there
are none (R111 to R113). UNPLACED names the entry in the lowest slot of those that cannot be placed (log 49). -/
def finishEntries (r : StatusRecord) (tags : List Payload) (s : Part) : Part :=
  if entryCheckOf (tags.zip (s.eng.staging.map fun e => e.payload)) ≠ r.check then journalCorrupt .entryCheck s
  else
    match s.eng.staging.find? fun e => !placed s e.id with
    | some e => journalCorrupt (.unplaced e.id) s
    | none => setStep (if s.eng.staging.length = 0 then .applied else .homes 0) s

/-- What recovery does with the newest valid record, no batch being in doubt (R109, lines 3 to 5). -/
def followRecord (newest : Option (StatusSlot × StatusRecord)) (s : Part) : Part :=
  match newest with
  | none =>
    leaveRecovery (changeStatus .unformatted none { s with eng.lastCommitted := none, eng.knowledge := none })
  | some (_, r) =>
    match r.state with
    | .empty => recoverySucceeded r.batch 0 s
    | .applied => recoverySucceeded r.batch 0 s
    | .committed =>
      let t := setStep (.entries []) s
      if r.count = 0 then finishEntries r [] t else t

/-- The in-doubt batch is settled from the records read: a commit within recovery, followed by its homes, or an abort with
reason VERIFY, uncounted, followed by the ordinary course (R84, R110). -/
def settleDoubt (newest : Option (StatusSlot × StatusRecord)) (s : Part) : Part :=
  let confirmed := match newest with
    | some (_, r) => namesBatch s r
    | none => false
  let t := { s with eng.recovery := s.eng.recovery.map fun r => { r with unsettled := false, confirmed := confirmed } }
  match confirmed, newest with
  | true, some (slot, r) => setStep (.homes 0) (commitPoint slot r.seq t)
  | true, none => t
  | false, _ => followRecord newest (abortBatch .verify t)

/-- Both status slots have been read (R109). -/
def slotsRead (a b : Option StatusRecord) (s : Part) : Part :=
  let newest := newestValid a b
  let t := { s with
    eng.knowledge := newest.map fun x => (x.2.seq, x.1)
    eng.recovery := s.eng.recovery.map fun r => { r with newest := newest } }
  if unsettled s then settleDoubt newest t else followRecord newest t

/-- An entry slot's burst, checked in the order of R111: blank, tag, payload check; a good entry goes into the next staging
slot. -/
def entryArrived (r : StatusRecord) (tags : List Payload) (b : ReadBurst) (s : Part) : Part :=
  let k := s.eng.staging.length
  if b.blank = 1#4 then journalCorrupt (.blankEntry k) s
  else if field b.tag 0 4 ≠ r.batch.toNat ∨ field b.tag 4 1 ≠ k then journalCorrupt (.entryTag k) s
  else if h : field b.tag 5 1 < 8 then
    if field b.tag 8 4 ≠ (crc32 b.payload).toNat then journalCorrupt (.payload k) s
    else
      let e : Staged := ⟨⟨⟨field b.tag 5 1, h⟩, field b.tag 6 2⟩, b.payload, none, none⟩
      let t := setStep (.entries (tags ++ [b.tag])) { s with eng.staging := s.eng.staging ++ [e] }
      if k + 1 < r.count then t else finishEntries r (tags ++ [b.tag]) t
  else journalCorrupt (.entryTag k) s

/-- A read burst handed to recovery (R109, R111). -/
def recoveryBurst (b : ReadBurst) (s : Part) : Part :=
  match s.eng.recovery with
  | none => s
  | some rec =>
    match rec.step with
    | .readA => setStep (.readB (parseStatus (headerBinding s) (b.blank == 1#4) b.payload)) s
    | .readB a => slotsRead a (parseStatus (headerBinding s) (b.blank == 1#4) b.payload) s
    | .entries tags =>
      match rec.newest with
      | some (_, r) => entryArrived r tags b s
      | none => s
    | .homes _ => s
    | .applied => s

/-- The next link request of recovery (R109, R111, R113). -/
def recoveryRequest (s : Part) : Option LinkReq :=
  match s.eng.recovery with
  | none => none
  | some rec =>
    match rec.step with
    | .readA => some (request .recovery .readBlock StatusSlot.a.block 1)
    | .readB _ => some (request .recovery .readBlock StatusSlot.b.block 1)
    | .entries _ =>
      match rec.newest with
      | some (_, r) =>
        some (request .recovery .readRun (3 + s.eng.staging.length)
          (min (runLimit s) (r.count - s.eng.staging.length)))
      | none => none
    | .homes sent =>
      some (request .recovery .writeRun ((homesFrom s sent).headD 0) (homeRun (runLimit s) (homesFrom s sent)))
    | .applied => some (request .recovery .writeBlock (nextStatusSlot s).block 1)

/-- The APPLIED record recovery writes: the newest record's batch, count and entry check, one sequence on (R113). -/
def appliedRecord (r : StatusRecord) (s : Part) : StatusRecord :=
  { r with seq := r.seq + 1, state := .applied, binding := s.pres.binding }

/-- The burst at a position of recovery's run in flight (R106, R113). -/
def recoveryWrite (s : Part) (pos : Nat) : Payload × Payload :=
  match s.eng.recovery with
  | none => (zeros 256, zeros 16)
  | some rec =>
    match rec.newest with
    | none => (zeros 256, zeros 16)
    | some (_, r) =>
      match rec.step with
      | .homes sent => homeBurst s r.batch (sent + pos)
      | .applied => (statusPayload (appliedRecord r s), zeros 16)
      | .readA => (zeros 256, zeros 16)
      | .readB _ => (zeros 256, zeros 16)
      | .entries _ => (zeros 256, zeros 16)

/-- A write of recovery has ended without error, `n` blocks on: the next homes, then the APPLIED record, then the end
(R113, R114). -/
def recoveryWritten (n : Nat) (s : Part) : Part :=
  match s.eng.recovery with
  | none => s
  | some rec =>
    match rec.step, rec.newest with
    | .homes sent, _ => setStep (if s.eng.staging.length ≤ sent + n then .applied else .homes (sent + n)) s
    | .applied, some (slot, r) =>
      recoverySucceeded r.batch (if rec.confirmed then 0 else r.count)
        { s with eng.knowledge := some (r.seq + 1, slot.other) }
    | .applied, none => s
    | .readA, _ => s
    | .readB _, _ => s
    | .entries _, _ => s

/-- A request of recovery was answered with a module status (R116, second and third lines). -/
def recoveryStatus (st : LinkStatus) (s : Part) : Part :=
  if unsettled s then recoveryFailed s else recoveryHalted st s

/-! ### The change of module status at the checkpoint engine -/

/-- The module status has left UNVERIFIED while recovery runs: recovery ends without its timer, and its request in flight
has its outcome discarded (R116, fourth line). -/
def recoveryLoss (s : Part) : Part := leaveRecovery (disown .recovery s)

/-- The checkpoint engine takes a change of module status (R91, R116). Recovery's own success makes the module READY without
coming here. -/
def engineStatus (old new : ModStatus) (s : Part) : Part :=
  if s.eng.state = .recover then
    if new = .unverified then s else recoveryLoss s
  else if old = .ready ∧ new ≠ .ready then engineLoss s
  else s

/-- A change of module status that reaches all four neighbours (R175). A status already held is no change and hands on nothing (R31,
log 39). -/
def setStatus (new : ModStatus) (detail : Option StatusDetail) (s : Part) : Part :=
  if new = s.pres.status then s else engineStatus s.pres.status new (changeStatus new detail s)

end Sys2Proof.Machine
end

