-- ==== Sys2Proof/Machine/Ident.lean ====
section
/-! DEFINITION. Identification of a module (9.2), and FORMAT's writes and ends (11.8). -/

namespace Sys2Proof.Machine

/-! ### Identification -/

/-- The next request of an identification attempt (R171). -/
def identRequest (s : Part) : Option LinkReq :=
  match s.pres.ident with
  | none => none
  | some .identify => some (request .identification .identify 0 1)
  | some .header => some (request .identification .readBlock 0 1)
  | some .slotA => some (request .identification .readBlock StatusSlot.a.block 1)
  | some (.slotB _) => some (request .identification .readBlock StatusSlot.b.block 1)

/-- Identification ends with module status FAILED, and the link goes OFF (R172, R173). A FORMAT that still waits for its grant goes on
waiting, RUNNING, until RESET LINK or a removal ends it (log 47). -/
def identDead (detail : StatusDetail) (s : Part) : Part :=
  setStatus .failed (some detail) { s with pres.ident := none, link.state := .off }

/-- The module status a completed attempt finds, by the first line of R174 that applies. -/
def identVerdict (s : Part) : ModStatus :=
  match s.pres.header, s.pres.summary with
  | some h, some (some _) =>
    if !h.valid then .unformatted
    else if h.binding ≠ s.pres.binding ∨ s.pres.binding = 0 then .mismatched
    else .unverified
  | some _, some none => .unformatted
  | some _, none => .unformatted
  | none, _ => .unformatted

/-- The newest slot and state as detail, when the header is valid (R174). -/
def summaryDetail (s : Part) : Option StatusDetail :=
  match s.pres.summary with
  | some (some n) => some (.newest n.slot n.state)
  | some none => none
  | none => none

/-- Identification has found a module status (R174, R175). A new one is handed to the four neighbours; where the status stands as it
was, the regions alone are evaluated, against the capacity just read (R39, R41, log 39). -/
def identDecided (found : ModStatus) (detail : Option StatusDetail) (s : Part) : Part :=
  if found = s.pres.status then evalAll s else setStatus found detail s

/-- An attempt has ended without failure: the link goes READY and the status is decided (R174). -/
def identEnd (s : Part) : Part :=
  identDecided (identVerdict s) (summaryDetail s) { s with pres.ident := none, link.state := .ready }

/-- What a newest valid record leaves in the journal summary (R167, R171). -/
def summaryOf (newest : Option (StatusSlot × StatusRecord)) : Option Newest :=
  newest.map fun x => ⟨x.1, x.2.state, x.2.batch⟩

/-- The identity record has arrived: a bad identity ends identification; a good one sets the rate by its speed grade (R145,
R171, R172). The copy holds what the module reported in both cases. -/
def identityArrived (b : ReadBurst) (s : Part) : Part :=
  let i := parseIdentity b.payload
  let t := { s with pres.identity := some i }
  if i.passes then
    { t with link.rate := if i.grade = 2 then .normal else .slow, pres.ident := some .header }
  else identDead .badIdentity t

/-- The format header has arrived (R100, R171): with a valid one the slots are read next. -/
def headerArrived (b : ReadBurst) (s : Part) : Part :=
  let h := parseHeader s.pres.identity (b.blank == 1#4) b.payload
  let t := { s with pres.header := some h }
  if h.valid then { t with pres.ident := some .slotA }
  else identEnd { t with pres.summary := none }

/-- A burst handed to identification (R171). -/
def identBurst (b : ReadBurst) (s : Part) : Part :=
  let record := parseStatus (headerBinding s) (b.blank == 1#4) b.payload
  match s.pres.ident with
  | none => s
  | some .identify => identityArrived b s
  | some .header => headerArrived b s
  | some .slotA => { s with pres.ident := some (.slotB record) }
  | some (.slotB a) => identEnd { s with pres.summary := some (summaryOf (newestValid a record)) }

/-- An attempt has failed: the next one starts at once at the slow rate, or after the third identification ends FAILED
(R173). -/
def identFailed (detail : StatusDetail) (s : Part) : Part :=
  if s.link.attempts < 3 then { s with link.rate := .slow, pres.ident := some .identify }
  else identDead detail s

/-! ### FORMAT -/

/-- The homes not yet written, from a position of the home list. -/
def formatHomesFrom (f : FormatRun) (start : Nat) : List Nat := (f.homes.drop start).map fun h => h.home

/-- The next request of FORMAT (R198). -/
def formatRequestOf (s : Part) (f : FormatRun) : LinkReq :=
  match f.step with
  | .clearA => request .format .writeBlock StatusSlot.a.block 1
  | .clearB => request .format .writeBlock StatusSlot.b.block 1
  | .homes sent =>
    request .format .writeRun ((formatHomesFrom f sent).headD 0) (homeRun (runLimit s) (formatHomesFrom f sent))
  | .header => request .format .writeBlock 0 1
  | .slotA => request .format .writeBlock StatusSlot.a.block 1
  | .slotB => request .format .writeBlock StatusSlot.b.block 1

def formatRequest (s : Part) : Option LinkReq := s.mbox.format.map (formatRequestOf s)

/-- An EMPTY status record of FORMAT (R104). -/
def emptyRecord (seq : U32) (binding : U32) : StatusRecord where
  seq := seq
  state := .empty
  batch := 0
  count := 0
  check := 0
  binding := binding

/-- The burst at a position of FORMAT's write in flight (R104, R198). -/
def formatBurst (s : Part) (pos : Nat) : Payload × Payload :=
  match s.mbox.format with
  | none => (zeros 256, zeros 16)
  | some f =>
    match f.step with
    | .clearA => (zeros 256, zeros 16)
    | .clearB => (zeros 256, zeros 16)
    | .homes sent =>
      match f.homes[sent + pos]? with
      | some h => (zeros 256, homeTag h.id 0 (zeros 256))
      | none => (zeros 256, zeros 16)
    | .header => (headerPayload f.binding, zeros 16)
    | .slotA => (statusPayload (emptyRecord 0 f.binding), zeros 16)
    | .slotB => (statusPayload (emptyRecord 1 f.binding), zeros 16)

def setFormatStep (st : FormatStep) (s : Part) : Part :=
  { s with mbox.format := s.mbox.format.map fun f => { f with step := st } }

/-- FORMAT ends with success (R199): header copy, journal summary, batch number and knowledge, READY, then COMMAND_DONE. The
engine takes the change as any other: a recovery entered meanwhile ends (R116). -/
def formatDone (f : FormatRun) (s : Part) : Part :=
  let t := becomeReady { s with
    mbox.format := none
    pres.header := some ⟨Config.formatVersion, f.binding, Config.homeStart, true⟩
    pres.summary := some (some ⟨.b, .empty, 0⟩)
    eng.lastCommitted := some 0
    eng.knowledge := some (1, .b) }
  endLong .format .done none (engineStatus s.pres.status .ready t)

/-- A write of FORMAT has ended with outcome DONE, `n` blocks on (R198). -/
def formatWritten (n : Nat) (s : Part) : Part :=
  match s.mbox.format with
  | none => s
  | some f =>
    match f.step with
    | .clearA => setFormatStep .clearB s
    | .clearB => setFormatStep (if f.homes.isEmpty then .header else .homes 0) s
    | .homes sent => setFormatStep (if f.homes.length ≤ sent + n then .header else .homes (sent + n)) s
    | .header => setFormatStep .slotA s
    | .slotA => setFormatStep .slotB s
    | .slotB => formatDone f s

/-- FORMAT fails with the request that failed and its cause (R199), COMMAND_DONE before MODULE_STATUS (log 7). The module is
identified afresh here, as UNFORMATTED (R170), unless the link has gone LOST, been reset or gone OFF, where that has been seen to;
after LOST the status is the one R159 leaves (log 48). -/
def formatFailed (code : ReqCode) (cause : FormatCause) (s : Part) : Part :=
  match s.mbox.format with
  | none => s
  | some _ =>
    let t := endLong .format .failed (some (code, cause)) { s with mbox.format := none }
    if s.link.state = .ready then { startIdent (setStatus .unformatted none t) with link.state := .identifying } else t

end Sys2Proof.Machine
end

