-- ==== Sys2Proof/Machine/Link.lean ====
section
/-! DEFINITION. The link controller: frames, bursts, outcomes, retries, the run close procedure, the scheduler
(chapter 8). -/

namespace Sys2Proof.Machine

/-- Outcomes of a request (R156). A module status also says whether it came on the END RUN. -/
inductive LinkOutcome where
  | done
  | yielded (pos : Nat)
  | status (st : LinkStatus) (atEnd : Bool)
  | failed (cls : Option ErrClass)
  | moduleLost
  | abandoned
  | withdrawn
  deriving DecidableEq, Repr

def ReqCode.isWrite : ReqCode → Bool
  | .writeBlock => true
  | .writeRun => true
  | .identify => false
  | .query => false
  | .readBlock => false
  | .readRun => false
  | .endRun => false

def ReqCode.isRun : ReqCode → Bool
  | .writeRun => true
  | .readRun => true
  | .identify => false
  | .query => false
  | .readBlock => false
  | .writeBlock => false
  | .endRun => false

/-! ### Outcomes handed to requesters (R156) -/

/-- Identification takes the outcome of its request (R173); bursts have been handed before. -/
def identOutcome (o : LinkOutcome) (s : Part) : Part :=
  match o with
  | .status st _ => identFailed (.linkStatus st) s
  | .failed _ => identFailed .noAnswer s
  | .done => s
  | .yielded _ => s
  | .moduleLost => s
  | .abandoned => s
  | .withdrawn => s

/-- FORMAT takes the outcome of its request (R198, R199). -/
def formatOutcome (q : LinkReq) (o : LinkOutcome) (s : Part) : Part :=
  match o with
  | .done => formatWritten q.count s
  | .status st _ => formatFailed q.code (.status st) s
  | .failed (some c) => formatFailed q.code (.cls c) s
  | .failed none => formatFailed q.code .resetLink s
  | .moduleLost => formatFailed q.code .moduleLost s
  | .yielded _ => s
  | .abandoned => s
  | .withdrawn => s

/-- Recovery takes the outcome of its request (R113, R116). A loss of the module reaches it as the change of status. -/
def recoveryOutcome (q : LinkReq) (o : LinkOutcome) (s : Part) : Part :=
  match o with
  | .done => if q.code = .writeRun ∨ q.code = .writeBlock then recoveryWritten q.count s else s
  | .status st _ => recoveryStatus st s
  | .failed _ => recoveryFailed s
  | .yielded _ => s
  | .moduleLost => s
  | .abandoned => s
  | .withdrawn => s

/-- The demand run takes the outcome of its request (R130). -/
def demandOutcome (o : LinkOutcome) (s : Part) : Part :=
  match o with
  | .status _ _ => failDemand .moduleStatus s
  | .failed _ => failDemand .link s
  | .moduleLost => failDemand .moduleLost s
  | .done => s
  | .yielded _ => s
  | .abandoned => s
  | .withdrawn => s

/-- The background run becomes YIELDED (R126). -/
def yieldBackground (s : Part) : Part :=
  { s with fill.background := s.fill.background.map fun b => { b with yielded := true } }

/-- The background run takes the outcome of its request (R126, R130, R156). -/
def backgroundOutcome (o : LinkOutcome) (s : Part) : Part :=
  match o with
  | .done => { s with fill.lastBlock := none }
  | .yielded _ => yieldBackground s
  | .status _ atEnd => if atEnd then failUnreceived .moduleStatus s else failBackground .moduleStatus s
  | .failed _ => failBackground .link s
  | .moduleLost => failBackground .moduleLost s
  | .abandoned => s
  | .withdrawn => s

/-- The end of a write that went well, or went well up to a boundary, by the engine's phase. -/
def engineWritten (n : Nat) (s : Part) : Part :=
  match s.eng.state with
  | .journal => journalRunEnd n s
  | .commit => commitPoint (knowledgeAfterWrite s).1 (knowledgeAfterWrite s).2 s
  | .apply => applyRunEnd n s
  | .retire => retireEnd s
  | .idle => s
  | .capture => s
  | .verify => s
  | .recover => s
  | .backoff => s
  | .paused _ => s
  | .inDoubt => s
  | .halted _ => s

/-- A transport failure of the engine's request (R77, R80, R81, R86, R87). With no class it was abandoned by RESET LINK, and
a commit write is then IN_DOUBT, since VERIFY needs a READY module (R91). -/
def engineFailed (cls : Option ErrClass) (s : Part) : Part :=
  match s.eng.state with
  | .journal => countedAbort .link s
  | .commit =>
    if s.pres.status = .ready ∧ cls.isSome then setEngine .verify { s with eng.verifyA := none } else enterInDoubt s
  | .verify => enterInDoubt s
  | .apply => applyFailed s
  | .retire => applyFailed s
  | .idle => s
  | .capture => s
  | .recover => s
  | .backoff => s
  | .paused _ => s
  | .inDoubt => s
  | .halted _ => s

/-- A module status answered to the engine's request (R77, R80, R81, R86, R87). -/
def engineRefused (s : Part) : Part :=
  match s.eng.state with
  | .journal => countedAbort .moduleStatus s
  | .commit => countedAbort .moduleStatus s
  | .verify => enterInDoubt s
  | .apply => applyFailed s
  | .retire => applyFailed s
  | .idle => s
  | .capture => s
  | .recover => s
  | .backoff => s
  | .paused _ => s
  | .inDoubt => s
  | .halted _ => s

/-- The checkpoint engine takes the outcome of its request. A loss of the module reaches it as the change of status
(R91). -/
def engineOutcome (q : LinkReq) (o : LinkOutcome) (s : Part) : Part :=
  match o with
  | .done => if q.code.isWrite then engineWritten q.count s else s
  | .yielded pos => engineWritten pos s
  | .status _ _ => engineRefused s
  | .failed cls => engineFailed cls s
  | .moduleLost => s
  | .abandoned => s
  | .withdrawn => s

/-- An outcome is handed to its requester, who discards that of a request withdrawn or given up (R160, R116, R161). -/
def deliver (q : LinkReq) (o : LinkOutcome) (s : Part) : Part :=
  if q.withdrawn || q.discard then s
  else
    match q.requester with
    | .identification => identOutcome o s
    | .format => formatOutcome q o s
    | .recovery => recoveryOutcome q o s
    | .demand => demandOutcome o s
    | .checkpoint => engineOutcome q o s
    | .background => backgroundOutcome o s

/-- A read burst is handed to its requester (R149, R156). -/
def handBurst (q : LinkReq) (b : ReadBurst) (s : Part) : Part :=
  if q.withdrawn || q.discard then s
  else
    match q.requester with
    | .identification => identBurst b s
    | .recovery => recoveryBurst b s
    | .demand => demandBurst b s
    | .checkpoint => verifyBurst b s
    | .background => backgroundBurst b s
    | .format => s

/-! ### The end of a request -/

/-- The link while identification holds it stays as it is; otherwise the end of a request leaves it READY (R147). -/
def LinkState.afterRequest : LinkState → LinkState
  | .off => .off
  | .identifying => .identifying
  | .lost => .lost
  | .ready => .ready
  | .request => .ready
  | .run => .ready
  | .busy => .ready

/-- Nothing is moving and no request is in flight. -/
def clearRequest (s : Part) : Part :=
  { s with
    link.current := none
    link.phase := .idle
    link.wait := none
    link.close := none
    link.proc := none }

/-- The current request leaves the link. -/
def endRequest (s : Part) : Part :=
  { clearRequest s with link.state := s.link.state.afterRequest }

/-- The current request ends with an outcome (R156). -/
def finish (o : LinkOutcome) (s : Part) : Part :=
  match s.link.current with
  | none => s
  | some q => deliver q o (endRequest s)

/-! ### Frames and bursts sent -/

/-- A request frame begins on MIO (R148). -/
def sendFrame (k : FrameKind) (c : ReqCode) (arg : Nat) (s : Part) : Part :=
  { s with
    link.phase := .frame k
    link.wait := none
    out.link := s.out.link ++ [.frame c arg] }

/-- END RUN is sent (R155). -/
def sendEndRun (why : CloseWhy) (s : Part) : Part := sendFrame .endRun .endRun 0 { s with link.close := some why }

/-- What a write request sends at a position. -/
def writeContent (s : Part) (q : LinkReq) : Payload × Payload :=
  match q.requester with
  | .checkpoint => engineBurst s q.pos
  | .recovery => recoveryWrite s q.pos
  | .format => formatBurst s q.pos
  | .identification => (zeros 256, zeros 16)
  | .demand => (zeros 256, zeros 16)
  | .background => (zeros 256, zeros 16)

/-- A write burst begins (R149). -/
def sendBurst (q : LinkReq) (s : Part) : Part :=
  let c := writeContent s q
  { s with
    link.phase := .writeBurst
    link.wait := none
    out.link := s.out.link ++ [.burst c.1 c.2] }

/-- The data wait limit in link clocks (R146). -/
def dataWait (s : Part) : Nat := 2 ^ s.link.waitExp

/-- A read burst is awaited, within the data wait limit in force as the wait starts (R146, R149). -/
def awaitBurst (s : Part) : Part := { s with link.phase := .readBurst, link.wait := some (dataWait s) }

/-- The busy wait starts (R150). -/
def awaitBusy (s : Part) : Part :=
  { s with link.state := .busy, link.phase := .busy, link.wait := some (dataWait s) }

/-- The module status allows this write request (R107, R161). A write whose requester has given up its outcome is not carried
on (R116). -/
def writeAllowed (s : Part) (q : LinkReq) : Bool :=
  match q.requester with
  | .checkpoint => s.pres.status == .ready
  | .recovery => !q.discard && (s.pres.status == .ready || s.pres.status == .unverified)
  | .format => true
  | .identification => false
  | .demand => false
  | .background => false

/-! ### Burst boundaries (R164) -/

/-- A yield cause holds for the run (R164). -/
def yieldCause (s : Part) (q : LinkReq) : Bool :=
  match q.requester, q.code with
  | .checkpoint, .writeRun => demandReady s || s.eng.pauseReq
  | .background, .readRun => demandReady s || s.pwr.freeze
  | .checkpoint, .identify => false
  | .checkpoint, .query => false
  | .checkpoint, .readBlock => false
  | .checkpoint, .readRun => false
  | .checkpoint, .writeBlock => false
  | .checkpoint, .endRun => false
  | .background, .identify => false
  | .background, .query => false
  | .background, .readBlock => false
  | .background, .writeBlock => false
  | .background, .writeRun => false
  | .background, .endRun => false
  | .identification, _ => false
  | .format, _ => false
  | .recovery, _ => false
  | .demand, _ => false

/-- The run has moved a burst: END RUN for a withdrawn run, after the last burst, for a write run whose module status no
longer allows it, or at a yield; otherwise the next burst (R149, R155, R160, R161, R164). -/
def boundary (s : Part) : Part :=
  match s.link.current with
  | none => s
  | some q =>
    if q.withdrawn then sendEndRun .withdrawn s
    else if q.count ≤ q.pos then sendEndRun .last s
    else if q.code.isWrite && !writeAllowed s q then sendEndRun .abandoned s
    else if yieldCause s q then sendEndRun .yield s
    else if q.code.isWrite then sendBurst q s
    else { s with link.phase := .readAck, link.wait := none, out.link := s.out.link ++ [.readAck] }

def advancePos (s : Part) : Part :=
  { s with link.current := s.link.current.map fun q => { q with pos := q.pos + 1 } }

/-! ### Retries (R158) -/

/-- What is sent again: the whole request, a write run from its first block, a read run from the block whose burst failed, or
READ BLOCK when that block is its last (R158); the request code then is READ BLOCK, in the window and in LINK_ERROR (log
42). -/
def retried (q : LinkReq) : LinkReq :=
  match q.code with
  | .writeRun => { q with arg := q.first, pos := 0 }
  | .readRun =>
    if q.pos + 1 = q.count then { q with code := .readBlock, arg := q.first + q.pos }
    else { q with arg := q.first + q.pos }
  | .identify => q
  | .query => q
  | .readBlock => q
  | .writeBlock => q
  | .endRun => q

/-- A retry goes out without a grant; from BUSY the link goes back to REQUEST (R147, R158). -/
def resend (q : LinkReq) (s : Part) : Part :=
  let r := retried q
  sendFrame .request r.code r.arg { s with
    link.state := if s.link.state = .busy then .request else s.link.state
    link.current := some r
    link.retries := s.link.retries + 1
    link.close := none
    link.proc := none }

/-- A transport error of the current request: a withdrawn one ends, a write no longer allowed is abandoned (log 19), one with
a retry remaining is sent again, and otherwise it ends FAILED with LINK_ERROR (R158, R160), also with a counter that a lowered
retry count has left above it (log 41). LINK_ERROR names the request code last sent (log 42). -/
def attemptError (c : ErrClass) (s : Part) : Part :=
  match s.link.current with
  | none => s
  | some q =>
    if q.withdrawn then finish .withdrawn s
    else if q.code.isWrite && !writeAllowed s q then finish .abandoned s
    else if s.link.retries < s.link.retryCount then resend q s
    else finish (.failed (some c)) (post (.linkError c q.code) s)

/-! ### LOST (R159) -/

/-- Two reports of one link loss, taken in either order (R91, log 6). -/
def eitherOrder (report change : Part → Part) (s : Part) : Part :=
  let t := { s with choices := s.choices + 1 }
  if Config.lossReportFirst s.choices then change (report t) else report (change t)

/-- A link loss reaches the requester as its request's outcome and everyone as a change of module status. With no change,
or no outcome wanted, there is nothing to order. -/
def lossReports (q : Option LinkReq) (o : LinkOutcome) (changes : Bool) (change : Part → Part) (s : Part) : Part :=
  match q with
  | none => change s
  | some r =>
    if r.withdrawn || r.discard || !changes then change (deliver r o s) else eitherOrder (deliver r o) change s

/-- LOST makes a READY or UNVERIFIED module UNVERIFIED and leaves any other status (R159). -/
def lostStatus (s : Part) : Part := if s.pres.status = .ready then setStatus .unverified none s else s

/-- A run cannot be closed: RUN_CLOSE_ERROR, LINK_LOST, the request FAILED, the module UNVERIFIED, and identification
starts afresh (R157, R159). -/
def loseLink (sent : Bool) (c : ErrClass) (s : Part) : Part :=
  let t := post (.linkLost sent) (post (.runCloseError sent (.cls c)) s)
  let u := startIdent { clearRequest t with link.state := .lost }
  lossReports s.link.current (.failed (some c)) (s.pres.status == .ready) lostStatus u

/-! ### The run close procedure (R157) -/

/-- The procedure begins: QUERY, unless the error was CONTENTION, in which case END RUN cannot be sent. -/
def beginClose (c : ErrClass) (s : Part) : Part :=
  if c = .contention then loseLink false c s
  else sendFrame .query .query 0 { s with link.proc := some ⟨c, false⟩, link.close := none }

/-- The END RUN of the procedure ended with a transport error: a new beginning, which raises the retry counter, or has no END
RUN left once the counter has reached the retry count (R157, log 16). -/
def beginCloseAgain (c : ErrClass) (s : Part) : Part :=
  if s.link.retries < s.link.retryCount then beginClose c { s with link.retries := s.link.retries + 1 }
  else if c = .contention then loseLink false c s
  else sendFrame .query .query 0 { s with link.proc := some ⟨c, true⟩, link.close := none }

/-- An END RUN ended with a transport error. -/
def endRunError (c : ErrClass) (s : Part) : Part :=
  if s.link.proc.isSome then beginCloseAgain c s else beginClose c s

/-- The procedure has closed the run: a read run that had handed every burst is DONE, otherwise the error is taken as one error
of the run (R157, R158). -/
def closeEnded (c : ErrClass) (s : Part) : Part :=
  let t := { s with link.proc := none, link.close := none, link.runOpen := false }
  match s.link.current with
  | none => t
  | some q => if q.code = .readRun ∧ q.pos = q.count then finish .done t else attemptError c t

/-- QUERY's answer was not taken: END RUN is not sent, and the link goes LOST (R152, R157). -/
def queryUntaken (s : Part) : Part :=
  match s.link.proc with
  | none => s
  | some p => loseLink false p.cls s

/-- QUERY's answer: bit 31 says whether a run is open (R152, R157, R206). A run whose opening answer was lost is closed
with the link still in REQUEST (R147, log 40). -/
def queryAnswered (arg : U32) (s : Part) : Part :=
  match s.link.proc with
  | none => s
  | some p =>
    if arg.getLsbD 31 then
      let t := { s with link.runOpen := true }
      if p.noEnd then loseLink true p.cls t else sendEndRun .procedure t
    else closeEnded p.cls s

/-- A run has been closed, by why END RUN was sent (R155, R156). -/
def runClosed (s : Part) : Part :=
  match s.link.current, s.link.close with
  | some _, some .last => finish .done s
  | some q, some .yield => finish (.yielded q.pos) s
  | some _, some .withdrawn => finish .withdrawn s
  | some _, some .abandoned => finish .abandoned s
  | some _, some .procedure =>
    match s.link.proc with
    | some p => closeEnded p.cls s
    | none => s
  | some _, none => s
  | none, _ => s

/-- END RUN was answered OK: the run is closed; a write run's busy wait follows (R155). -/
def endRunAnswered (s : Part) : Part :=
  let t := { s with link.runOpen := false }
  match s.link.current with
  | none => t
  | some q => if q.code = .writeRun then awaitBusy t else runClosed t

/-- END RUN was answered with a module status: RUN_CLOSE_ERROR, and the run ends with outcome STATUS (R157). -/
def endRunStatus (st : LinkStatus) (s : Part) : Part :=
  finish (.status st true) (post (.runCloseError true (.status st)) { s with link.runOpen := false })

/-! ### Answers (R148) -/

/-- The first check of R148 and R206 that an answer fails. -/
def answerError (code : ReqCode) (f : AnswerFrame) : Option ErrClass :=
  if answerCheck f.code f.status f.arg ≠ f.check then some .answerCheck
  else if f.code ≠ code.toByte then some .echoMismatch
  else if !f.stop then some .framing
  else if (answerStatus f.status).isNone then some .framing
  else none

/-- The module status of a taken answer. -/
def takenStatus (f : AnswerFrame) : Option LinkStatus := (answerStatus f.status).getD none

/-- A transport error on the answer to the request frame: inside a run the close procedure comes first (R157). -/
def requestError (c : ErrClass) (s : Part) : Part :=
  match s.link.current with
  | none => s
  | some q => if q.code.isRun then beginClose c s else attemptError c s

/-- A run is answered OK: it is open, and its first burst is awaited or sent (R154, R160, R161). -/
def openRun (q : LinkReq) (s : Part) : Part :=
  let t := { s with link.state := .run, link.runOpen := true }
  if q.withdrawn then sendEndRun .withdrawn t
  else if q.code.isWrite then (if writeAllowed t q then sendBurst q t else sendEndRun .abandoned t)
  else awaitBurst t

/-- The request frame was answered OK (R151, R153, R154; log 13 for a withdrawn single-block request, log 19 for a write its
requester has given up). -/
def requestAnswered (s : Part) : Part :=
  match s.link.current with
  | none => s
  | some q =>
    match q.code with
    | .identify => awaitBurst { s with link.runOpen := false }
    | .readBlock => awaitBurst s
    | .writeBlock =>
      if q.withdrawn then finish .withdrawn s
      else if writeAllowed s q then sendBurst q s
      else finish .abandoned s
    | .readRun => openRun q s
    | .writeRun => openRun q s
    | .query => s
    | .endRun => s

/-- A transport error of the frame whose answer is awaited or that is being sent. -/
def frameError (k : FrameKind) (c : ErrClass) (s : Part) : Part :=
  match k with
  | .request => requestError c s
  | .query => queryUntaken s
  | .endRun => endRunError c s

/-- The code of the frame sent. -/
def frameCode (s : Part) : FrameKind → ReqCode
  | .query => .query
  | .endRun => .endRun
  | .request =>
    match s.link.current with
    | some q => q.code
    | none => .query

/-- IDENTIFY has been answered, whatever the status: no run is known to be open (R155). -/
def clearAnswered (s : Part) : Part :=
  if frameCode s .request = .identify then { s with link.runOpen := false } else s

/-- An answer frame has been received for the frame sent (R148; log 15 for a QUERY answered with a status). -/
def answerTaken (k : FrameKind) (f : AnswerFrame) (s : Part) : Part :=
  match answerError (frameCode s k) f with
  | some c => frameError k c s
  | none =>
    match k, takenStatus f with
    | .request, none => requestAnswered s
    | .request, some st => finish (.status st false) (clearAnswered s)
    | .query, none => queryAnswered f.arg s
    | .query, some _ => queryUntaken s
    | .endRun, none => endRunAnswered s
    | .endRun, some st => endRunStatus st s

/-! ### Read bursts (R149) -/

/-- The class of a read burst that fails (R149, R206). With both its transfer check, or blank nibble, and its stop marker wrong it is
ANSWER_CHECK (log 50). -/
def burstError (b : ReadBurst) : Option ErrClass :=
  if (b.blank ≠ 0#4 ∧ b.blank ≠ 1#4) ∨ transferCheck [b.blank] b.payload b.tag ≠ b.check then some .answerCheck
  else if b.stop ≠ 0xF#4 then some .framing
  else none

/-- A burst that passes is handed to the requester: a single-block request ends DONE with it; a run goes on (R149, R153,
R154). -/
def burstPassed (b : ReadBurst) (s : Part) : Part :=
  match s.link.current with
  | none => s
  | some q =>
    if q.code.isRun then boundary (handBurst q b (advancePos s))
    else deliver q .done (handBurst q b (endRequest s))

/-- A read burst has been received (R149). -/
def burstEnd (b : ReadBurst) (s : Part) : Part :=
  match burstError b with
  | some c => requestError c s
  | none => burstPassed b s

/-! ### Write acknowledges and the busy wait (R149, R150) -/

/-- The class of a write acknowledge that is not ACCEPTED; `none` for ACCEPTED (R149, R206, log 31). -/
def ackError (code : BitVec 2) (stop : Bool) : Option ErrClass :=
  if !stop then some .framing
  else if code = 1#2 then none
  else if code = 3#2 then some .framing
  else some .burstReject

/-- The module accepted the burst: the busy wait of a single write, or the run's next step (R149, R150). -/
def burstAccepted (s : Part) : Part :=
  match s.link.current with
  | none => s
  | some q => if q.code.isRun then boundary (advancePos s) else awaitBusy s

/-- A write acknowledge has been received. -/
def ackTaken (code : BitVec 2) (stop : Bool) (s : Part) : Part :=
  match ackError code stop with
  | some c => requestError c s
  | none => burstAccepted s

/-- MD0 has fallen: a single write is DONE, a run is closed (R150, R153, R155). -/
def busyEnded (s : Part) : Part :=
  match s.link.current with
  | none => s
  | some q =>
    if q.code.isRun then runClosed s
    else if q.withdrawn then finish .withdrawn s
    else finish .done s

/-- The data wait limit has passed with MD0 asserted: one error of the request; the run it followed is closed (R150, log
17). -/
def busyTimedOut (s : Part) : Part := attemptError .busyTimeout { s with link.proc := none, link.close := none }

/-- The part has finished sending a write burst (R75, R149). -/
def writeBurstDone (s : Part) : Part :=
  let t := { s with link.phase := .writeAck, link.wait := some Config.answerClocks }
  match s.link.current with
  | none => t
  | some q =>
    if q.requester = .checkpoint && q.code.isRun && !q.withdrawn then journalSent q.pos t else t

/-! ### The scheduler (R162, R163) -/

/-- A request is granted: the retry counter is 0 and its frame begins (R158, R162, log 12). -/
def grant (q : LinkReq) (s : Part) : Part :=
  sendFrame .request q.code q.arg { s with
    link.current := some q
    link.retries := 0
    link.state := if s.link.state = .ready then .request else s.link.state
    link.attempts := if q.code = .identify then s.link.attempts + 1 else s.link.attempts
    link.rate := if q.code = .identify then .slow else s.link.rate }

/-- A granted demand run (R124). -/
def grantDemand (s : Part) : Part :=
  match s.fill.demand with
  | [] => s
  | id :: _ => grant (request .demand .readBlock (homeOf s id) 1) (startDemand s)

/-- The read of the background run from its next position: READ RUN for two or more blocks, else READ BLOCK (R125, R126). -/
def backgroundRequest (s : Part) : Option LinkReq :=
  match s.fill.background with
  | none => none
  | some run =>
    match run.blocks[run.next]? with
    | none => none
    | some x =>
      let n := run.blocks.length - run.next
      some (request .background (if n = 1 then .readBlock else .readRun) (homeOf s x.id) n)

/-- A granted background request, for a new run or a continuation (R125, R126). -/
def grantBackground (s : Part) : Part :=
  match backgroundRequest s with
  | none => s
  | some q => grant q s

/-- A request granted to a requester that has one. -/
def grantOpt (q : Option LinkReq) (s : Part) : Part :=
  match q with
  | none => s
  | some r => grant r s

/-- A write request whose module status does not allow it is passed over at its grant (R107, R161). -/
def grantable (s : Part) (q : Option LinkReq) : Option LinkReq :=
  q.filter fun r => !r.code.isWrite || writeAllowed s r

/-- The checkpoint engine, outside recovery, has a request and the module is READY (R162). -/
def checkpointReady (s : Part) : Bool := s.pres.status == .ready && (engineRequest s).isSome

/-- A grant point with the link READY: the first ready requester in the order of R162; FORMAT and recovery hold the link
alone (R163). -/
def grantReady (s : Part) : Part :=
  if s.mbox.format.isSome then grantOpt (formatRequest s) s
  else if s.eng.state = .recover then grantOpt (grantable s (recoveryRequest s)) s
  else if demandReady s then grantDemand s
  else if checkpointReady s then grantOpt (grantable s (engineRequest s)) s
  else if continueReady s then grantBackground (continueBackground s)
  else if newRunReady s then grantBackground (startBackground s)
  else s

/-- A grant: with no request in flight, identification while the link is IDENTIFYING or LOST, and the scheduler's choice
while it is READY (R162). -/
def linkGrant (s : Part) : Part :=
  if s.link.current.isSome then s
  else
    match s.link.state with
    | .identifying => grantOpt (identRequest s) s
    | .lost => grantOpt (identRequest s) s
    | .ready => grantReady s
    | .off => s
    | .request => s
    | .run => s
    | .busy => s

end Sys2Proof.Machine
end

