-- ==== Sys2Proof/Machine/Pins.lean ====
section
/-! DEFINITION. The presence monitor's and power-fail control's steps: MPRES, the settle timer, PFW, the final deadline,
and RESET LINK's part of the link (chapters 7 and 9, R161, R165). -/

namespace Sys2Proof.Machine

/-- A timer has reached its expiry. -/
def expired (s : Part) (t : Option Time) : Bool :=
  match t with
  | some e => decide (e ≤ s.now)
  | none => false

/-! ### Abandoning the link (R161) -/

/-- FORMAT still running fails with the request it would send next (R161, R199, log 23). -/
def failWaitingFormat (cause : FormatCause) (s : Part) : Part :=
  match s.mbox.format with
  | none => s
  | some f => formatFailed (formatRequestOf s f).code cause s

/-- Presence has left PRESENT: the request in flight is abandoned with outcome MODULE_LOST and the link goes OFF (R161,
R169). -/
def abandonForLoss (s : Part) : Part :=
  let t := { clearRequest s with link.state := .off, pres.ident := none }
  failWaitingFormat .moduleLost
    (match s.link.current with
      | none => t
      | some q => deliver q .moduleLost t)

/-! ### MPRES and the settle timer (R168) -/

/-- The settle timer starts or restarts with the interval in force (R168). -/
def startSettle (st : PresenceState) (s : Part) : Part :=
  { s with pres.state := st, pres.settle := some (s.now + s.pres.settleInterval) }

/-- MPRES rises (R168). -/
def presenceRise (s : Part) : Part :=
  match s.pres.state with
  | .empty => startSettle (.arriving false) s
  | .leaving => startSettle (.arriving true) s
  | .arriving _ => s
  | .present => s

/-- The module becomes unusable at once (R169). The requester in flight takes MODULE_LOST first, so that its FILL_FAILED or
COMMAND_DONE is posted before MODULE_STATUS (log 7). -/
def moduleGone (s : Part) : Part :=
  let t := abandonForLoss s
  setStatus .none none { t with pres.identity := none, pres.header := none, pres.summary := none }

/-- MPRES falls (R168, R169). -/
def presenceFall (s : Part) : Part :=
  match s.pres.state with
  | .arriving false => { s with pres.state := .empty, pres.settle := none }
  | .arriving true => startSettle .leaving s
  | .present => startSettle .leaving (moduleGone s)
  | .empty => s
  | .leaving => s

/-- The settle timer expires (R168): a module has settled, and is identified, or has left. -/
def settleExpired (s : Part) : Part :=
  let t := { s with pres.settle := none }
  match s.pres.state with
  | .arriving returning =>
    let u := post (.moduleArrived returning) { t with pres.state := .present }
    startIdent (setStatus .identifying none { u with link.state := .identifying })
  | .leaving => post .moduleLeft { t with pres.state := .empty }
  | .empty => t
  | .present => t

/-- MPRES_RISE: an edge, so a level already high is no step (log 2). -/
def execMpresRise (s : State) : Host.Outcome State Fault Refusal :=
  onPart (fun p => if p.pins.mpres then p else presenceRise { p with pins.mpres := true }) s

/-- MPRES_FALL: an edge, so a level already low is no step (log 2). -/
def execMpresFall (s : State) : Host.Outcome State Fault Refusal :=
  onPart (fun p => if p.pins.mpres then settle (presenceFall { p with pins.mpres := false }) else p) s

/-- SETTLE_TIMER_EXPIRY, once the timer has reached its expiry (log 2). -/
def execSettleTimerExpiry (s : State) : Host.Outcome State Fault Refusal :=
  onPart (fun p => if expired p p.pres.settle then settle (settleExpired p) else p) s

/-! ### PFW (chapter 7) -/

/-- PFW is asserted with the freeze flag clear (R136, R95). -/
def assertFreeze (s : Part) : Part :=
  let t := { s with pwr.freeze := true, pwr.deadline := some (s.now + s.pwr.finalDeadline) }
  let u :=
    if dirtyCount s = 0 then post (.finalDone s.eng.lastCommitted) { t with pwr.final := .done }
    else { t with pwr.final := .running }
  endPause true u

/-- PFW is withdrawn (R142). -/
def withdrawFreeze (s : Part) : Part :=
  freezeRelease
    (post (.powerRestored s.pwr.final)
      { s with pwr.freeze := false, pwr.deadline := none, pwr.final := .none })

/-- No batch is in flight. -/
def noBatch (s : Part) : Bool := s.eng.batch.isNone

def isHalted : EngineState → Bool
  | .halted _ => true
  | .idle => false
  | .capture => false
  | .journal => false
  | .commit => false
  | .verify => false
  | .apply => false
  | .retire => false
  | .recover => false
  | .backoff => false
  | .paused _ => false
  | .inDoubt => false

/-- The detail of FINAL_LATE: the first condition of R141 that holds. -/
def lateDetail (s : Part) : LateDetail :=
  if s.pres.status = .none then .noModule
  else if s.pres.status ≠ .ready then .notReady
  else if isHalted s.eng.state then .halted
  else if s.eng.state = .inDoubt then .inDoubt
  else if eligibleLength s = 0 ∧ noBatch s = true then .ineligible
  else .slow

/-- The final deadline has been reached (R141): the timer stops, and RUNNING becomes LATE. -/
def deadlineExpired (s : Part) : Part :=
  let t := { s with pwr.deadline := none }
  if s.pwr.final = .running then post (.finalLate (lateDetail s)) { t with pwr.final := .late } else t

/-- PFW_ASSERTED: an assertion with the freeze already set changes nothing (R136). -/
def execPfwAsserted (s : State) : Host.Outcome State Fault Refusal :=
  onPart (fun p =>
    if p.pins.pfw || p.pwr.freeze then { p with pins.pfw := true }
    else settle (assertFreeze { p with pins.pfw := true })) s

/-- PFW_WITHDRAWN (R142): an edge, so a level already low is no step (log 2). -/
def execPfwWithdrawn (s : State) : Host.Outcome State Fault Refusal :=
  onPart (fun p =>
    if p.pins.pfw && p.pwr.freeze then settle (withdrawFreeze { p with pins.pfw := false })
    else { p with pins.pfw := false }) s

/-- FINAL_DEADLINE_EXPIRY, once the timer has reached its expiry (log 2). -/
def execFinalDeadlineExpiry (s : State) : Host.Outcome State Fault Refusal :=
  onPart (fun p => if expired p p.pwr.deadline then deadlineExpired p else p) s

/-! ### RESET LINK at the link controller (R165) -/

/-- The module status becomes UNVERIFIED with presence PRESENT (R165). -/
def resetLinkStatus (s : Part) : Part :=
  if s.pres.state = .present then setStatus .unverified none s else s

/-- The values RESET LINK gives the link (R146, R165). -/
def resetLinkState (s : Part) : Part :=
  let t := clearRequest s
  let u := startIdent { t with link.runOpen := false, link.retries := 0 }
  if s.pres.state = .present then { u with link.state := .identifying }
  else { u with link.state := .off, pres.ident := none }

/-- RESET LINK: the request in flight is abandoned with outcome FAILED and no class, FORMAT fails even while it waits for a
grant, and a present module is identified afresh as UNVERIFIED (R161, R165, R199, log 23). The COMMAND_DONE of a waiting FORMAT is
posted after MODULE_STATUS (log 7). -/
def resetLink (s : Part) : Part :=
  failWaitingFormat .resetLink
    (lossReports s.link.current (.failed none) (s.pres.state == .present && s.pres.status != .unverified)
      resetLinkStatus (resetLinkState s))

end Sys2Proof.Machine
end

