-- ==== Sys2Proof/Machine/Mailbox.lean ====
section
/-! DEFINITION. The mailbox: how a command is taken, completed and refused (11.2), and the codes of results (R202,
R204). -/

namespace Sys2Proof.Machine

/-! ### Codes -/

def ModStatus.code : ModStatus → Nat
  | .none => 0
  | .identifying => 1
  | .failed => 2
  | .unformatted => 3
  | .mismatched => 4
  | .unverified => 5
  | .ready => 6

def RegionState.code : RegionState → Nat
  | .off => 0
  | .restoring => 1
  | .mirrored => 2
  | .suspended _ => 3

def SuspendReason.code : SuspendReason → Nat
  | .noModule => 0
  | .moduleNotReady => 1
  | .capacity => 2

def RegionState.reason : RegionState → Option SuspendReason
  | .suspended w => some w
  | .off => none
  | .restoring => none
  | .mirrored => none

def HoldReason.code : HoldReason → Nat
  | .fill => 0
  | .capture => 1
  | .budget => 2
  | .freeze => 3
  | .order => 4

def Mark.code : Mark → Nat
  | .pending => 0
  | .carry => 1

def BlockState.code : BlockState → Nat
  | .absent _ => 0
  | .filling => 1
  | .clean => 2
  | .dirty _ => 3
  | .capturing _ => 4
  | .captured _ => 5
  | .redirtied _ _ => 6

def Point.code : Point → Nat
  | .idle => 0
  | .backoff => 1
  | .nextCapture => 2
  | .journalNext => 3
  | .applyStart => 4
  | .applyNext => 5

def HaltReason.code : HaltReason → Nat
  | .abortLimit => 0
  | .applyFailed => 1

def FinalState.code : FinalState → Nat
  | .none => 0
  | .running => 1
  | .late => 2
  | .done => 3

def StatusSlot.code : StatusSlot → Nat
  | .a => 0
  | .b => 1

def ErrClass.code : ErrClass → Nat
  | .answerTimeout => 0
  | .answerCheck => 1
  | .echoMismatch => 2
  | .framing => 3
  | .contention => 4
  | .burstReject => 5
  | .dataTimeout => 6
  | .busyTimeout => 7

def MailStatus.code : MailStatus → Nat
  | .idle => 0
  | .running => 1
  | .done => 2
  | .refused => 3
  | .cancelled => 4
  | .failed => 5

def RefusalCode.code : RefusalCode → Nat
  | .badCommand => 1
  | .badArgument => 2
  | .busy => 3
  | .wrongState => 4
  | .noModule => 5
  | .notBound => 6
  | .overlap => 7
  | .capacity => 8
  | .notPaused => 9

/-- The command codes of the long commands (R203). -/
def LongCmd.code : LongCmd → Nat
  | .sync => 0x12
  | .format => 0x13

/-- A status or transport error as a detail: the class, or 10h plus the module status (R204). -/
def statusCode (st : LinkStatus) : Nat := 0x10 + st.toByte.toNat

/-! ### Taking, completing, refusing -/

/-- Byte number i of a write transaction whose offset is `off` (R186): the command code and the argument bytes take it,
any other byte is discarded (R187). -/
def writeByte (off : Byte) (b : Byte) (m : Mailbox) : Mailbox :=
  if off.toNat = 0 then { m with code := b }
  else if h : off.toNat - 1 < 15 then { m with args := m.args.set (off.toNat - 1) b }
  else m

/-- The bytes of a write transaction after its offset byte; the offset rises after each and wraps (R186). -/
def writeBytes : List Byte → Mailbox → Mailbox
  | [], m => m
  | b :: rest, m => writeBytes rest { writeByte m.offset b m with offset := m.offset + 1 }

/-- Whether bytes written from an offset include the command code byte (R188). -/
def writesCode : List Byte → Byte → Bool
  | [], _ => false
  | _ :: rest, off => off == 0#8 || writesCode rest (off + 1)

/-- A write transaction's effect on the mailbox: the first byte is the offset (R186). -/
def writeTransaction (bytes : List Byte) (m : Mailbox) : Mailbox :=
  match bytes with
  | [] => m
  | off :: rest => writeBytes rest { m with offset := off }

/-- The command is done: status DONE, and the whole result area is written (R189, R203). -/
def complete (results : List Byte) (s : Part) : Part :=
  { s with mbox.status := .done, mbox.refusal := none, mbox.results := padTo 28 results }

/-- The command is refused: nothing of the part changes but the mailbox (R188, R189). -/
def refuse (c : RefusalCode) (s : Part) : Part :=
  { s with mbox.status := .refused, mbox.refusal := some c, mbox.results := padTo 28 [] }

/-- A long command is accepted: the record and the mailbox status take it with RUNNING (R189). -/
def acceptLong (c : LongCmd) (results : List Byte) (s : Part) : Part :=
  { s with
    mbox.status := .running
    mbox.refusal := none
    mbox.results := padTo 28 results
    mbox.long := some (c, .running)
    mbox.lastLong := true }

/-- A long command is running (R190). -/
def longRunning (s : Part) : Bool :=
  match s.mbox.long with
  | some (_, .running) => true
  | some (_, .done) => false
  | some (_, .cancelled) => false
  | some (_, .failed) => false
  | none => false

/-- A command overtakes the long command as the last one taken (R189). -/
def newCommand (s : Part) : Part := { s with mbox.lastLong := false }

end Sys2Proof.Machine
end

