-- ==== Sys2Proof/Machine/Results.lean ====
section
/-! DEFINITION. Result bytes: event records, block and region queries (R182, R194, R204). -/

namespace Sys2Proof.Machine

/-- The fields of an event record as READ EVENT returns them; absent ones are `none` (R179, R204). -/
structure EventFields where
  region : Option Nat
  block : Option Nat
  batch : Option U32
  detailA : Option Nat
  detailB : Option Nat
  detailsCD : Option (Nat × Nat)
  deriving DecidableEq, Repr

/-- Only a detail code, with an optional second part. -/
def detailOnly (a : Nat) (b : Option Nat) : EventFields := ⟨none, none, none, some a, b, none⟩

/-- A block id, with an optional detail. -/
def blockFields (id : BlockId) (a b : Option Nat) : EventFields := ⟨some id.region.val, some id.index, none, a, b, none⟩

def AbortReason.code : AbortReason → Nat
  | .link => 0
  | .moduleStatus => 1
  | .moduleLost => 2
  | .reset => 3
  | .verify => 4

def FillFail.code : FillFail → Nat
  | .memory => 0
  | .link => 1
  | .moduleStatus => 2
  | .moduleLost => 3
  | .notReady => 4

def LateDetail.code : LateDetail → Nat
  | .noModule => 0
  | .notReady => 1
  | .halted => 2
  | .inDoubt => 3
  | .ineligible => 4
  | .slow => 5

/-- Detail D of a COMMAND_DONE for a FORMAT that failed (R204). -/
def FormatCause.code : FormatCause → Nat
  | .cls c => c.code
  | .status st => statusCode st
  | .moduleLost => 0x20
  | .resetLink => 0x21

/-- Detail B of RUN_CLOSE_ERROR (R204). -/
def CloseError.code : CloseError → Nat
  | .cls c => c.code
  | .status st => statusCode st

/-- Detail B of MODULE_STATUS (R204). -/
def StatusDetail.code : StatusDetail → Nat
  | .badIdentity => 1
  | .noAnswer => 2
  | .first => 3
  | .sameSerial => 4
  | .newSerial => 5
  | .linkStatus st => statusCode st
  | .newest slot st => 0x20 + slot.code + 2 * st.code

/-- A JOURNAL_CORRUPT's fields: slot position for the first three causes, region and block for UNPLACED (R115, R204). UNPLACED carries
the entry tag's index whole, above 4095 too (log 53). -/
def corruptFields (batch : U32) : CorruptCause → EventFields
  | .blankEntry k => ⟨none, none, some batch, some 0, some k, none⟩
  | .entryTag k => ⟨none, none, some batch, some 1, some k, none⟩
  | .payload k => ⟨none, none, some batch, some 2, some k, none⟩
  | .entryCheck => ⟨none, none, some batch, some 3, none, none⟩
  | .unplaced id => ⟨some id.region.val, some id.index, some batch, some 4, none, none⟩

/-- The position of a final-checkpoint state in POWER_RESTORED's list RUNNING, LATE, DONE (R179, R204). -/
def restoredCode : FinalState → Nat
  | .none => 0
  | .running => 0
  | .late => 1
  | .done => 2

/-- The optional fields each kind carries (R179), with the codes of R204. -/
def Event.fields : Event → EventFields
  | .commandDone cmd o f =>
    ⟨none, none, none, some cmd.code, some o.mail.code, f.map fun x => (x.1.toByte.toNat, x.2.code)⟩
  | .batchCommitted n count => ⟨none, none, n, some count, none, none⟩
  | .batchAborted n why => ⟨none, none, n, some why.code, none, none⟩
  | .engineHalted n why st => ⟨none, none, n, some why.code, st.map fun x => x.toByte.toNat, none⟩
  | .batchInDoubt n count => ⟨none, none, n, some count, none, none⟩
  | .paused p => detailOnly p.code none
  | .resumed f => detailOnly f.toNat none
  | .watermark n id => blockFields id (some n.val) none
  | .holdExpired id why w => blockFields id (some why.code) (some w.toNat)
  | .captureFailed id => blockFields id none none
  | .fillFailed id why => blockFields id (some why.code) none
  | .homeCorrupt id t => blockFields id (some t.toNat) none
  | .restoreDone r => ⟨some r.val, none, none, none, none, none⟩
  | .recoveryDone n count => ⟨none, none, some n, some count, none, none⟩
  | .journalCorrupt n cause => corruptFields n cause
  | .moduleArrived r => detailOnly r.toNat none
  | .moduleLeft => ⟨none, none, none, none, none, none⟩
  | .moduleStatus st d => detailOnly st.code (d.map StatusDetail.code)
  | .linkError c code => detailOnly c.code (some code.toByte.toNat)
  | .runCloseError sent what => detailOnly sent.toNat (some what.code)
  | .linkLost sent => detailOnly sent.toNat none
  | .finalDone n => ⟨none, none, n, none, none, none⟩
  | .finalLate why => detailOnly why.code none
  | .powerRestored st => detailOnly (restoredCode st) none

/-- The presence byte of a record: bit 0 region, bit 1 block index, bit 2 batch number, bit 3 detail, bit 4 details C and D
(R204). -/
def EventFields.presence (f : EventFields) : Nat :=
  f.region.isSome.toNat + 2 * f.block.isSome.toNat + 4 * f.batch.isSome.toNat + 8 * f.detailA.isSome.toNat +
    16 * f.detailsCD.isSome.toNat

/-- A number that may be absent reads 0 when it is. -/
def optNat (x : Option Nat) : Nat := x.getD 0

/-- The result bytes of READ EVENT for a record (R204). -/
def recordBytes (r : EventRec) : List Byte :=
  let kind := leBytes 1 1 ++ leBytes 1 (r.kind.val + 1)
  match r with
  | .event e seq time =>
    let f := e.fields
    kind ++ [seq] ++ leBytes 2 time.toNat ++ leBytes 1 f.presence ++ leBytes 1 (optNat f.region) ++
      leBytes 2 (optNat f.block) ++ leBytes 4 (optNat (f.batch.map fun b => b.toNat)) ++ leBytes 1 (optNat f.detailA) ++
      leBytes 1 (optNat f.detailB) ++ leBytes 1 0 ++ leBytes 1 (optNat (f.detailsCD.map fun x => x.1)) ++
      leBytes 1 (optNat (f.detailsCD.map fun x => x.2))
  | .overflow seq time dropped =>
    kind ++ [seq] ++ leBytes 2 time.toNat ++ zeros 10 ++ leBytes 1 dropped

/-- The dirty since of a record (R1). -/
def BlockState.since : BlockState → Option Time
  | .dirty t => some t
  | .redirtied t _ => some t
  | .absent _ => none
  | .filling => none
  | .clean => none
  | .capturing _ => none
  | .captured _ => none

/-- The staging slot of a record (R1). -/
def BlockState.slot : BlockState → Option Nat
  | .capturing k => some k
  | .captured k => some k
  | .redirtied _ k => some k
  | .absent _ => none
  | .filling => none
  | .clean => none
  | .dirty _ => none

def BlockState.unreadable : BlockState → Bool
  | .absent u => u
  | .filling => false
  | .clean => false
  | .dirty _ => false
  | .capturing _ => false
  | .captured _ => false
  | .redirtied _ _ => false

/-- Where a block stands in the fill engine's lists: none, fill queue, demand list, demand run, background run (R194, R204). A run
holds its blocks to its end (R118). A block in two of them, one back in the fill queue after a failed fill write while its run
goes on, reads the first (log 44). -/
def fillPosition (s : Part) (id : BlockId) : Nat :=
  if s.fill.queue.contains id then 1
  else if s.fill.demand.contains id then 2
  else if (match s.fill.demandRun with
      | some x => x.1 == id
      | none => false) then 3
  else if (match s.fill.background with
      | some run => run.blocks.any fun x => x.id == id
      | none => false) then 4
  else 0

/-- The result bytes of QUERY BLOCK (R204). -/
def blockBytes (s : Part) (id : BlockId) (r : BlockRec) : List Byte :=
  leBytes 1 id.region.val ++ leBytes 2 id.index ++
    leBytes 1 (r.state.since.isSome.toNat + 2 * r.state.slot.isSome.toNat + 4 * r.mark.isSome.toNat) ++
    leBytes 1 r.state.code ++ leBytes 6 (optNat r.state.since) ++ leBytes 1 (optNat r.state.slot) ++
    leBytes 1 (optNat (r.mark.map Mark.code)) ++ leBytes 1 r.state.unreadable.toNat ++
    leBytes 1 (fillPosition s id)

/-- The dirty queue entries of a region, in queue order (R30). -/
def entriesOf (s : Part) (r : Fin 8) : List QEntry := s.tbl.queue.filter fun e => e.id.region == r

/-- The absent count, present while the region is not OFF (R30). -/
def absentField (s : Part) (r : Fin 8) : Option Nat := if (s.regs[r]).state = .off then none else some (absentCount s r)

/-- The result bytes of QUERY REGION (R204). -/
def regionBytes (s : Part) (r : Fin 8) : List Byte :=
  let g := s.regs[r]
  let es := entriesOf s r
  leBytes 1 r.val ++ leBytes 1 g.state.code ++ leBytes 1 (optNat (g.state.reason.map SuspendReason.code)) ++
    leBytes 1 (g.state.reason.isSome.toNat + 2 * (absentField s r).isSome.toNat + 4 * es.head?.isSome.toNat) ++
    leBytes 4 g.ramBase.toNat ++ leBytes 2 g.size ++ leBytes 4 g.homeBase ++ leBytes 2 (optNat (absentField s r)) ++
    leBytes 2 es.length ++ leBytes 6 (optNat (es.head?.map fun e => e.joined))

end Sys2Proof.Machine
end

