-- ==== Sys2Proof/Machine/Resets.lean ====
section
/-! DEFINITION. Power-on reset and RESET ALL (R29, R66, R166, R185, R201), and RESET ENGINE's taking (R200). -/

namespace Sys2Proof.Machine

/-- The tags of accesses forwarded and not yet answered stay outstanding across a reset (R66, log 37). -/
def keptTag : TagState → TagState
  | .idle => .idle
  | .held => .idle
  | .lane => .lane
  | .memory w => .memory w

/-- Responses to own requests already issued will be discarded (R66, log 38). -/
def staleTag : TagUse → TagUse
  | .free => .free
  | .live => .stale
  | .stale => .stale

/-- The reset of every block, held accesses having been answered: reset values everywhere but for accesses already forwarded,
own requests at memory, requests at the port, the pins, and the model's record of outputs (R66, R201). -/
def resetBlocks (m : Mailbox) (s : Part) : Part :=
  { Part.reset with
    pins := s.pins
    path := { Path.reset with
      tags := s.path.tags.map keptTag
      port := s.path.port
      hostLane := s.path.hostLane
      own := s.path.own.map staleTag }
    mbox := m
    out := s.out
    choices := s.choices }

/-- At the end of a reset MPRES and PFW are read: a high level is taken as a rise in EMPTY, and as an assertion (R135,
R167). -/
def readPins (s : Part) : Part :=
  let t := if s.pins.mpres then presenceRise s else s
  if t.pins.pfw then assertFreeze t else t

/-- A reset of the whole part: held accesses are answered with error, every block takes its reset values, the pins are read,
and requests waiting at the port are accepted (R66, R201). -/
def resetPart (m : Mailbox) (s : Part) : Part := settle (readPins (resetBlocks m (errorAllHolds s)))

/-- Power-on reset: the straps are sampled (R186) and the mailbox status is IDLE (R201). -/
def powerOn (addr1 addr0 mpres pfw : Bool) (s : Part) : Part :=
  resetPart (Mailbox.reset (targetAddress addr1 addr0)) { s with pins := ⟨mpres, pfw, addr1, addr0⟩ }

/-- RESET ALL keeps the target address and leaves the mailbox status DONE (R186, R201). -/
def resetAll (s : Part) : Part := resetPart { Mailbox.reset s.mbox.address with status := .done } s

/-- RESET ENGINE at its taking (R200): the fill engine's part at once (R134), the checkpoint engine's at once or at the end of the
capture read in flight, until when the command is completing (R97, R190). -/
def resetEngine (s : Part) : Part :=
  let t := fillReset (withdraw .background (withdraw .demand s))
  if t.eng.capture.isSome then
    settle { t with
      eng.resetWaiting := true
      mbox.status := .running
      mbox.refusal := none
      mbox.results := padTo 28 []
      mbox.completing := true }
  else settle (complete [] (engineReset t))

/-- POWER_ON_RESET with the levels found on the straps, MPRES and PFW. -/
def execPowerOnReset (addr1 addr0 mpres pfw : Bool) (s : State) : Host.Outcome State Fault Refusal :=
  onPart (powerOn addr1 addr0 mpres pfw) s

end Sys2Proof.Machine
end

