-- ==== Sys2Proof/Machine/Commands.lean ====
section
/-! DEFINITION. What each management command does, once it has been taken (chapter 11 and the owners' rules). -/

namespace Sys2Proof.Machine

/-! ### SET REGION (R34, R35) -/

/-- Two half-open ranges share a number. -/
def rangesMeet (a n b m : Nat) : Bool := decide (a < b + m ∧ b < a + n)

/-- The ranges overlap those of another region that is set, whatever its state (R35). -/
def overlapsOther (s : Part) (r : Fin 8) (ram size home : Nat) : Bool :=
  (List.finRange 8).any fun q =>
    let g := s.regs[q]
    q != r && g.size != 0 &&
      (rangesMeet ram (256 * size) g.ramBase.toNat (256 * g.size) || rangesMeet home size g.homeBase g.size)

/-- The record SET REGION writes: a size of 0 clears the bases too (R34). -/
def regionSettings (st : RegionState) (ram : U32) (size home : Nat) : Region :=
  if size = 0 then ⟨st, 0, 0, 0⟩ else ⟨st, ram, size, home⟩

/-- SET REGION (R34): the first check that fails refuses it. -/
def setRegion (region : Byte) (ram : U32) (size : U16) (home : U32) (s : Part) : Part :=
  match regionArg region with
  | none => refuse .badArgument s
  | some r =>
    if (s.regs[r]).state ≠ .off then refuse .wrongState s
    else if committedStaged s r then refuse .wrongState s
    else if 4096 < size.toNat then refuse .badArgument s
    else if size.toNat ≠ 0 ∧ ¬(ram.toNat % 256 = 0 ∧ ram.toNat + 256 * size.toNat ≤ 2 ^ 32) then
      refuse .badArgument s
    else if size.toNat ≠ 0 ∧
        ¬(Config.homeStart ≤ home.toNat ∧ home.toNat + size.toNat ≤ Config.moduleMax) then
      refuse .badArgument s
    else if size.toNat ≠ 0 ∧ overlapsOther s r ram.toNat size.toNat home.toNat = true then refuse .overlap s
    else complete [] { s with regs := s.regs.set r (regionSettings (s.regs[r]).state ram size.toNat home.toNat) }

/-! ### ATTACH (R3, R36) -/

/-- The sizes of the regions that are not OFF (R36). -/
def attachedBlocks (s : Part) : Nat :=
  ((List.finRange 8).map fun r => if (s.regs[r]).state = .off then 0 else (s.regs[r]).size).sum

/-- One record of adopt-RAM: DIRTY now, at the queue's tail, watermarks posted at the block that reaches them (R3). -/
def adoptDirty (r : Fin 8) (s : Part) (i : Nat) : Part :=
  postWatermarks ⟨r, i⟩
    (joinTail ⟨r, i⟩ s.now
      { s with tbl.recs := s.tbl.recs.set r (s.tbl.recs[r] ++ [⟨.dirty s.now, none⟩]) })

/-- The records ATTACH creates, in index order (R3). -/
def createRecords (r : Fin 8) (adoptRam : Bool) (s : Part) : Part :=
  let n := (s.regs[r]).size
  let t := { s with tbl.recs := s.tbl.recs.set r [] }
  if adoptRam then (List.range n).foldl (adoptDirty r) t
  else
    { t with
      tbl.recs := t.tbl.recs.set r (List.replicate n ⟨.absent false, none⟩)
      fill.queue := t.fill.queue ++ (List.range n).map fun i => ⟨r, i⟩ }

/-- The result of ATTACH: state, suspend reason, reason present (R204). -/
def attachBytes (st : RegionState) : List Byte :=
  leBytes 1 st.code ++ leBytes 1 (optNat (st.reason.map SuspendReason.code)) ++ leBytes 1 st.reason.isSome.toNat

/-- The claim ATTACH makes when its checks pass (R36): records, then the region evaluation. -/
def attachClaim (r : Fin 8) (adoptRam : Bool) (s : Part) : Part :=
  let t := createRecords r adoptRam s
  settle (finalRise (complete (attachBytes (evalState t r)) (setRegionState r (evalState t r) t)))

/-- The mode byte of ATTACH: adopt-RAM 0, adopt-module 1 (R203). -/
def attachMode (b : Byte) : Option Bool :=
  match b.toNat with
  | 0 => some true
  | 1 => some false
  | _ => none

/-- ATTACH (R36): the first check that fails refuses it. -/
def attach (region mode : Byte) (s : Part) : Part :=
  match regionArg region, attachMode mode with
  | some r, some adoptRam =>
    if (s.regs[r]).state ≠ .off then refuse .wrongState s
    else if (s.regs[r]).size = 0 then refuse .wrongState s
    else if committedStaged s r then refuse .wrongState s
    else if s.pres.binding = 0 then refuse .notBound s
    else if Config.recordMax < attachedBlocks s + (s.regs[r]).size then refuse .capacity s
    else attachClaim r adoptRam s
  | none, _ => refuse .badArgument s
  | some _, none => refuse .badArgument s

/-! ### DETACH (R28, R42, R64) -/

/-- A block of the region is a member of the current batch or FILLING (R28). -/
def regionBusy (s : Part) (r : Fin 8) : Bool :=
  (s.tbl.recs[r]).any fun b => b.state.isMember || b.state == .filling

/-- The region's records, marks, queue entries and fill entries are removed and the region is OFF (R28, R42). -/
def removeRegion (r : Fin 8) (s : Part) : Part :=
  setRegionState r .off { s with
    tbl.recs := s.tbl.recs.set r []
    tbl.queue := s.tbl.queue.filter fun e => e.id.region != r
    fill.queue := s.fill.queue.filter fun id => id.region != r
    fill.demand := s.fill.demand.filter fun id => id.region != r }

/-- The claim DETACH makes: removal, the region's held entries (R64), then the ends of SYNC (R27) and of a final checkpoint
(R140), and the budget release (R6). -/
def detachClaim (r : Fin 8) (s : Part) : Part :=
  let t := complete [] (detachHolds r (removeRegion r s))
  settle (budgetCheck (dirtyCount s) s.tbl.budget (finalCheck (syncCheck t)))

/-- DETACH (R42): the first check that fails refuses it. -/
def detach (region : Byte) (s : Part) : Part :=
  match regionArg region with
  | none => refuse .badArgument s
  | some r =>
    if (s.regs[r]).state = .off then refuse .wrongState s
    else if regionBusy s r then refuse .wrongState s
    else detachClaim r s

/-! ### The engine's commands -/

/-- CHECKPOINT (R70): taken in any state. -/
def checkpoint (s : Part) : Part := complete [] { s with eng.checkpointReq := true }

/-- PAUSE (R92): refused in HALTED, in IN_DOUBT and under the freeze; a request already set is left as it is. -/
def pause (s : Part) : Part :=
  if isHalted s.eng.state || s.eng.state == .inDoubt || s.pwr.freeze then refuse .wrongState s
  else if s.eng.pauseReq then complete [] s
  else complete [] (pauseEngine s)

/-- RESUME (R94): refused with no pause request. -/
def resume (s : Part) : Part :=
  if s.eng.pauseReq then settle (complete [] (endPause false s)) else refuse .notPaused s

/-- CLEAR FAULT (R90): HALTED goes to IDLE with the counter at 0. -/
def clearFault (s : Part) : Part :=
  if isHalted s.eng.state then complete [] (enterIdle { s with eng.aborts := 0 }) else refuse .wrongState s

/-! ### Settings -/

/-- The module status under a new configured binding number (R176, log 29). -/
def rebound (s : Part) (binding : U32) : ModStatus :=
  let bound := match s.pres.header with
    | some h => h.valid && h.binding == binding && binding != 0
    | none => false
  match s.pres.status with
  | .none => .none
  | .identifying => .identifying
  | .failed => .failed
  | .unformatted => .unformatted
  | .mismatched => if bound then .unverified else .mismatched
  | .unverified => if bound then .unverified else .mismatched
  | .ready => if bound then .ready else .mismatched

/-- SET BINDING (R176, R193): refused while FORMAT runs. -/
def setBinding (binding : U32) (s : Part) : Part :=
  if s.mbox.format.isSome then refuse .busy s
  else
    let t := setStatus (rebound s binding) none { s with pres.binding := binding }
    settle (complete (leBytes 1 t.pres.status.code) t)

/-- What a limit's new value brings about at once: a budget release (R6), expiries under a new hold limit (R56). -/
def limitEffect (l : Limit) (s old : Part) : Part :=
  match l with
  | .budget => budgetCheck (dirtyCount old) old.tbl.budget s
  | .holdLimit => expireAll s
  | .watermark _ => s
  | .trigger => s
  | .interval => s
  | .batchLimit => s
  | .backoffInterval => s
  | .finalDeadline => s
  | .retryCount => s
  | .waitExp => s
  | .settleInterval => s

/-- SET LIMITS (R191): a value the limit already holds changes no state. -/
def setLimits (selector : Byte) (value : U16) (s : Part) : Part :=
  match Limit.ofSelector selector with
  | none => refuse .badArgument s
  | some l =>
    if l.inRange value.toNat then
      if getLimit s l = value.toNat then complete [] s
      else settle (complete [] (limitEffect l (putLimit l value.toNat s) s))
    else refuse .badArgument s

/-- An enable byte: 0 clear, 1 set (R203). -/
def enableArg (b : Byte) : Option Bool :=
  match b.toNat with
  | 0 => some false
  | 1 => some true
  | _ => none

/-- An event kind code 01h to 19h (R203, R204). -/
def kindArg (b : Byte) : Option (Fin 25) :=
  if h : 1 ≤ b.toNat ∧ b.toNat ≤ 25 then some ⟨b.toNat - 1, by omega⟩ else none

/-- Write both enables of a kind; OVERFLOW's stay set (R180, R192). -/
def writeMasks (k : Fin 25) (capture alert : Bool) (q : EventQueue) : EventQueue :=
  if k = 24 then q else { q with capture := q.capture.set k capture, alert := q.alert.set k alert }

/-- SET EVENT MASKS (R184, R192). -/
def setEventMasks (kind capture alert : Byte) (s : Part) : Part :=
  match kindArg kind, enableArg capture, enableArg alert with
  | some k, some c, some a => complete [] { s with evq := writeMasks k c a s.evq }
  | none, _, _ => refuse .badArgument s
  | some _, none, _ => refuse .badArgument s
  | some _, some _, none => refuse .badArgument s

/-! ### Queries and READ EVENT -/

/-- QUERY BLOCK (R194): the first check that fails refuses it. -/
def queryBlock (region : Byte) (index : U16) (s : Part) : Part :=
  match regionArg region with
  | none => refuse .badArgument s
  | some r =>
    if (s.regs[r]).state = .off then refuse .wrongState s
    else
      match recOf s ⟨r, index.toNat⟩ with
      | none => refuse .badArgument s
      | some b => complete (blockBytes s ⟨r, index.toNat⟩ b) s

/-- QUERY REGION (R194). -/
def queryRegion (region : Byte) (s : Part) : Part :=
  match regionArg region with
  | none => refuse .badArgument s
  | some r => complete (regionBytes s r) s

/-- READ EVENT (R182): the oldest record is removed and returned, or the queue is reported empty. -/
def readEvent (s : Part) : Part :=
  match s.evq.records with
  | [] => complete (leBytes 1 0) s
  | r :: rest => complete (recordBytes r) { s with evq.records := rest }

/-! ### SYNC and CANCEL -/

/-- The mark a block gets at SYNC's acceptance (R24). -/
def syncMark : BlockState → Option Mark
  | .absent _ => none
  | .filling => none
  | .clean => none
  | .dirty _ => some .pending
  | .capturing _ => some .pending
  | .captured _ => some .pending
  | .redirtied _ _ => some .carry

/-- Every record's mark is written anew. -/
def mapMarks (f : BlockRec → Option Mark) (s : Part) : Part :=
  { s with tbl.recs := s.tbl.recs.map fun l => l.map fun b => { b with mark := f b } }

/-- SYNC (R24, R195): refused while a long command runs; done at once when no block is marked. -/
def sync (s : Part) : Part :=
  if longRunning s then refuse .busy s
  else
    let t := mapMarks (fun b => syncMark b.state) s
    syncCheck (acceptLong .sync (leBytes 2 (markCount t)) t)

/-- CANCEL (R27, R196): a running SYNC ends CANCELLED with its marks gone; otherwise refused. -/
def cancel (s : Part) : Part :=
  if s.mbox.long = some (.sync, .running) then
    let t := endLong .sync .cancelled none (mapMarks (fun _ => none) s)
    { t with mbox.status := .cancelled, mbox.refusal := none, mbox.results := padTo 28 [] }
  else refuse .wrongState s

/-! ### FORMAT (R197) -/

/-- The homes of a region that is set, in index order. -/
def regionHomes (s : Part) (r : Fin 8) : List HomeTarget :=
  (List.range (s.regs[r]).size).map fun i => ⟨(s.regs[r]).homeBase + i, ⟨r, i⟩⟩

/-- The home list of INITIALIZE HOMES, lowest home first: home ranges of set regions are disjoint (R35), so the regions are taken
by home base (R197, R198). -/
def homeList (s : Part) : List HomeTarget :=
  (sortHomes (fun r => (s.regs[r]).homeBase) (List.finRange 8)).flatMap (regionHomes s)

/-- Every set region has its home range within the capacity of the identity copy (R197). -/
def homesFit (s : Part) : Bool := (List.finRange 8).all fun r => (s.regs[r]).size == 0 || withinCapacity s r

/-- The mode byte of FORMAT: JOURNAL ONLY 0, INITIALIZE HOMES 1 (R203). -/
def formatMode (b : Byte) : Option Bool :=
  match b.toNat with
  | 0 => some false
  | 1 => some true
  | _ => none

/-- The engine keeps FORMAT out: IN_DOUBT, HALTED, or applying a committed batch (R197). -/
def engineBars (e : EngineState) : Bool :=
  match e with
  | .inDoubt => true
  | .halted _ => true
  | .apply => true
  | .retire => true
  | .paused .applyStart => true
  | .paused .applyNext => true
  | .paused .idle => false
  | .paused .backoff => false
  | .paused .nextCapture => false
  | .paused .journalNext => false
  | .idle => false
  | .capture => false
  | .journal => false
  | .commit => false
  | .verify => false
  | .recover => false
  | .backoff => false

/-- The module status allows FORMAT (R197). -/
def formattable : ModStatus → Bool
  | .unformatted => true
  | .mismatched => true
  | .unverified => true
  | .ready => true
  | .none => false
  | .identifying => false
  | .failed => false

/-- FORMAT's acceptance, in one step (R197). -/
def acceptFormat (homes : List HomeTarget) (s : Part) : Part :=
  let t := acceptLong .format (leBytes 2 homes.length) s
  let u := setStatus .unformatted none { t with mbox.format := some ⟨s.pres.binding, homes, .clearA⟩ }
  settle { u with eng.journalHold := false, eng.retryTimer := none }

/-- FORMAT (R197): the first check that fails refuses it. -/
def format (mode : Byte) (s : Part) : Part :=
  match formatMode mode with
  | none => refuse .badArgument s
  | some initHomes =>
    if longRunning s then refuse .busy s
    else if s.pres.binding = 0 then refuse .notBound s
    else if s.pres.status = .none then refuse .noModule s
    else if !formattable s.pres.status then refuse .wrongState s
    else if s.link.state = .identifying ∨ s.link.state = .lost then refuse .wrongState s
    else if engineBars s.eng.state then refuse .wrongState s
    else if initHomes && !homesFit s then refuse .capacity s
    else acceptFormat (if initHomes then homeList s else []) s

/-! ### Taking a command (R188, R190) -/

/-- An argument field of the mailbox: `n` bytes from argument byte `k`, least significant first (R202, R203). -/
def argField (s : Part) (k n : Nat) : Nat := field s.mbox.args.toList (k - 1) n

def argByte (s : Part) (k : Nat) : Byte := BitVec.ofNat 8 (argField s k 1)

/-- The command that the command code byte names, with its argument bytes (R203). -/
def runCommand (s : Part) : Part :=
  match s.mbox.code.toNat with
  | 0x01 =>
    setRegion (argByte s 1) (BitVec.ofNat 32 (argField s 2 4)) (BitVec.ofNat 16 (argField s 6 2))
      (BitVec.ofNat 32 (argField s 8 4)) s
  | 0x02 => attach (argByte s 1) (argByte s 2) s
  | 0x03 => detach (argByte s 1) s
  | 0x04 => checkpoint s
  | 0x05 => pause s
  | 0x06 => resume s
  | 0x07 => setBinding (BitVec.ofNat 32 (argField s 1 4)) s
  | 0x08 => setLimits (argByte s 1) (BitVec.ofNat 16 (argField s 2 2)) s
  | 0x09 => setEventMasks (argByte s 1) (argByte s 2) (argByte s 3) s
  | 0x0A => clearFault s
  | 0x0B => queryBlock (argByte s 1) (BitVec.ofNat 16 (argField s 2 2)) s
  | 0x0C => queryRegion (argByte s 1) s
  | 0x0D => readEvent s
  | 0x0E => cancel s
  | 0x0F => settle (complete [] (resetLink s))
  | 0x10 => resetEngine s
  | 0x11 => resetAll s
  | 0x12 => sync s
  | 0x13 => format (argByte s 1) s
  | _ => refuse .badCommand s

/-- A write transaction that the target has acknowledged: its bytes are written, and a command is taken at its end when it
wrote the command code byte (R186 to R188). -/
def windowTransaction (bytes : List Byte) (s : Part) : Part :=
  let t := { s with mbox := writeTransaction bytes s.mbox }
  match bytes with
  | [] => t
  | off :: rest => if writesCode rest off then runCommand (newCommand t) else t

/-- A transaction is held by SCL while RESET ENGINE is completing (R190, log 9). -/
def orHold (bytes : List Byte) (taken : Part → Part) (s : Part) : Part :=
  if s.mbox.completing then { s with mbox.sclHeld := s.mbox.sclHeld ++ [bytes] } else taken s

/-- RESET ENGINE has completed: the transactions SCL held are taken in order (R190, log 9). -/
def releaseScl (s : Part) : Part :=
  s.mbox.sclHeld.foldl (fun t bytes => orHold bytes (windowTransaction bytes) t)
    { s with mbox.sclHeld := [], mbox.completing := false }

/-- A management command as a whole transaction from offset 0: its code and argument bytes are written, and it is taken (log
8). -/
def takeCommand (code : Byte) (args : List Byte) (effect : Part → Part) (s : Part) : Part :=
  orHold (0#8 :: code :: args)
    (fun t => effect (newCommand { t with mbox := writeTransaction (0#8 :: code :: args) t.mbox })) s

end Sys2Proof.Machine
end

