-- ==== Sys2Proof/Machine/CommandRows.lean ====
section
/-! DEFINITION. The meanings of the management steps. -/

namespace Sys2Proof.Machine

/-- WINDOW_WRITE (R186 to R188): a write transaction to an address that is not the target's own is not acknowledged and has
no effect. -/
def execWindowWrite (address : BitVec 7) (bytes : List Byte) (s : State) : Host.Outcome State Fault Refusal :=
  onPart (fun p => if address = p.mbox.address then orHold bytes (windowTransaction bytes) p else p) s

/-- BAD_COMMAND (R188, R203). -/
def execBadCommand (code : Byte) (s : State) : Host.Outcome State Fault Refusal :=
  onPart (takeCommand code [] (refuse .badCommand)) s

/-- SET_REGION (R34). -/
def execSetRegion (region : Byte) (ramBase : U32) (size : U16) (homeBase : U32) (s : State) :
    Host.Outcome State Fault Refusal :=
  onPart (takeCommand 0x01#8
    ([region] ++ leBytes 4 ramBase.toNat ++ leBytes 2 size.toNat ++ leBytes 4 homeBase.toNat)
    (setRegion region ramBase size homeBase)) s

/-- ATTACH (R36). -/
def execAttach (region mode : Byte) (s : State) : Host.Outcome State Fault Refusal :=
  onPart (takeCommand 0x02#8 [region, mode] (attach region mode)) s

/-- DETACH (R42). -/
def execDetach (region : Byte) (s : State) : Host.Outcome State Fault Refusal :=
  onPart (takeCommand 0x03#8 [region] (detach region)) s

/-- CHECKPOINT (R70). -/
def execCheckpoint (s : State) : Host.Outcome State Fault Refusal := onPart (takeCommand 0x04#8 [] checkpoint) s

/-- PAUSE (R92). -/
def execPause (s : State) : Host.Outcome State Fault Refusal := onPart (takeCommand 0x05#8 [] pause) s

/-- RESUME (R94). -/
def execResume (s : State) : Host.Outcome State Fault Refusal := onPart (takeCommand 0x06#8 [] resume) s

/-- SET_BINDING (R193). -/
def execSetBinding (binding : U32) (s : State) : Host.Outcome State Fault Refusal :=
  onPart (takeCommand 0x07#8 (leBytes 4 binding.toNat) (setBinding binding)) s

/-- SET_LIMITS (R191). -/
def execSetLimits (selector : Byte) (value : U16) (s : State) : Host.Outcome State Fault Refusal :=
  onPart (takeCommand 0x08#8 ([selector] ++ leBytes 2 value.toNat) (setLimits selector value)) s

/-- SET_EVENT_MASKS (R192). -/
def execSetEventMasks (kind capture alert : Byte) (s : State) : Host.Outcome State Fault Refusal :=
  onPart (takeCommand 0x09#8 [kind, capture, alert] (setEventMasks kind capture alert)) s

/-- CLEAR_FAULT (R90). -/
def execClearFault (s : State) : Host.Outcome State Fault Refusal := onPart (takeCommand 0x0A#8 [] clearFault) s

/-- QUERY_BLOCK (R194). -/
def execQueryBlock (region : Byte) (index : U16) (s : State) : Host.Outcome State Fault Refusal :=
  onPart (takeCommand 0x0B#8 ([region] ++ leBytes 2 index.toNat) (queryBlock region index)) s

/-- QUERY_REGION (R194). -/
def execQueryRegion (region : Byte) (s : State) : Host.Outcome State Fault Refusal :=
  onPart (takeCommand 0x0C#8 [region] (queryRegion region)) s

/-- READ_EVENT (R182). -/
def execReadEvent (s : State) : Host.Outcome State Fault Refusal := onPart (takeCommand 0x0D#8 [] readEvent) s

/-- CANCEL (R196). -/
def execCancel (s : State) : Host.Outcome State Fault Refusal := onPart (takeCommand 0x0E#8 [] cancel) s

/-- RESET_LINK (R165, R200): it completes in the step in which it is taken. -/
def execResetLink (s : State) : Host.Outcome State Fault Refusal :=
  onPart (takeCommand 0x0F#8 [] fun p => settle (complete [] (resetLink p))) s

/-- RESET_ENGINE (R96, R200). -/
def execResetEngine (s : State) : Host.Outcome State Fault Refusal := onPart (takeCommand 0x10#8 [] resetEngine) s

/-- RESET_ALL (R201). -/
def execResetAll (s : State) : Host.Outcome State Fault Refusal := onPart (takeCommand 0x11#8 [] resetAll) s

/-- SYNC (R195). -/
def execSync (s : State) : Host.Outcome State Fault Refusal := onPart (takeCommand 0x12#8 [] sync) s

/-- FORMAT (R197). -/
def execFormat (mode : Byte) (s : State) : Host.Outcome State Fault Refusal :=
  onPart (takeCommand 0x13#8 [mode] (format mode)) s

end Sys2Proof.Machine
end

