-- ==== Sys2Proof/Machine/EngineRows.lean ====
section
/-! DEFINITION. The meanings of the engine's steps: capture responses, triggers and timers. A timer's step has an effect once
the timer has reached its expiry, and a start once its conditions hold (log 2). -/

namespace Sys2Proof.Machine

/-- A RESET ENGINE that waited for the capture read is taken at its end, the command completes, and the transactions SCL held
follow (R97, R190). -/
def finishReset (s : Part) : Part :=
  if s.eng.resetWaiting && s.eng.capture.isNone then releaseScl (settle (complete [] (engineReset s))) else s

/-- CAPTURE_READ_RESPONSE (R16): the response to part k of the capture read. -/
def execCaptureReadResponse (part : Fin 4) (ok : Bool) (data : Payload) (s : State) :
    Host.Outcome State Fault Refusal :=
  onPart (fun p => finishReset (settle (captureResponse part ok data p))) s

/-- AGE_TIMER_EXPIRY (R11): *age reached* is raised. -/
def execAgeTimerExpiry (s : State) : Host.Outcome State Fault Refusal :=
  onPart (fun p => if expired p p.tbl.age.target then { p with tbl.age.reached := true } else p) s

/-- BATCH_START (R69, R71). -/
def execBatchStart (s : State) : Host.Outcome State Fault Refusal :=
  onPart (fun p => if batchMayStart p then settle (startBatch p) else p) s

/-- The backoff timer expires (R89, R93). -/
def backoffExpired (s : Part) : Part :=
  let t := { s with eng.backoff := none }
  match s.eng.state with
  | .backoff => enterIdle t
  | .paused .backoff => setEngine (.paused .idle) t
  | .paused .idle => t
  | .paused .nextCapture => t
  | .paused .journalNext => t
  | .paused .applyStart => t
  | .paused .applyNext => t
  | .idle => t
  | .capture => t
  | .journal => t
  | .commit => t
  | .verify => t
  | .apply => t
  | .retire => t
  | .recover => t
  | .inDoubt => t
  | .halted _ => t

/-- BACKOFF_EXPIRY (R89). -/
def execBackoffExpiry (s : State) : Host.Outcome State Fault Refusal :=
  onPart (fun p => if expired p p.eng.backoff then backoffExpired p else p) s

/-- RECOVERY_RETRY_EXPIRY (R108, R116). -/
def execRecoveryRetryExpiry (s : State) : Host.Outcome State Fault Refusal :=
  onPart (fun p => if expired p p.eng.retryTimer then { p with eng.retryTimer := none } else p) s

/-- RECOVERY_START (R108). -/
def execRecoveryStart (s : State) : Host.Outcome State Fault Refusal :=
  onPart (fun p => if recoveryMayStart p then startRecovery p else p) s

end Sys2Proof.Machine
end

