-- ==== Sys2Proof/Machine/LinkRows.lean ====
section
/-! DEFINITION. The meanings of the module link's steps. A step that the link's phase does not allow has no effect (log 2). -/

namespace Sys2Proof.Machine

/-- LINK_GRANT (R162). -/
def execLinkGrant (s : State) : Host.Outcome State Fault Refusal := onPart (fun p => settle (linkGrant p)) s

/-- The answer timeout starts when the frame has been sent (R148). -/
def frameSent (p : Part) : Part :=
  match p.link.phase with
  | .frame k => { p with link.phase := .answer k, link.wait := some Config.answerClocks }
  | .idle => p
  | .answer _ => p
  | .readBurst => p
  | .readAck => p
  | .writeBurst => p
  | .writeAck => p
  | .busy => p

/-- REQUEST_FRAME_SENT (R148). -/
def execRequestFrameSent (s : State) : Host.Outcome State Fault Refusal := onPart frameSent s

/-- A frame abandoned for contention: the request's attempt ends without a close procedure, since its frame has opened no run
(log 14); a QUERY counts as unanswered (R152); END RUN is not sent (R157). -/
def contention (k : FrameKind) (p : Part) : Part :=
  match k with
  | .request => attemptError .contention p
  | .query => queryUntaken p
  | .endRun => endRunError .contention p

/-- MIO_CONTENTION (R148): found while a frame is being sent. -/
def execMioContention (s : State) : Host.Outcome State Fault Refusal :=
  onPart (fun p =>
    match p.link.phase with
    | .frame k => settle (contention k p)
    | .idle => p
    | .answer _ => p
    | .readBurst => p
    | .readAck => p
    | .writeBurst => p
    | .writeAck => p
    | .busy => p) s

/-- ANSWER_TAKEN (R148): an answer frame is received while one is awaited, and checked. -/
def execAnswerTaken (frame : AnswerFrame) (s : State) : Host.Outcome State Fault Refusal :=
  onPart (fun p =>
    match p.link.phase with
    | .answer k => settle (answerTaken k frame p)
    | .idle => p
    | .frame _ => p
    | .readBurst => p
    | .readAck => p
    | .writeBurst => p
    | .writeAck => p
    | .busy => p) s

/-- ANSWER_TIMEOUT (R148, R149): no answer frame, or no write acknowledge, has begun within 80 link clocks. -/
def execAnswerTimeout (s : State) : Host.Outcome State Fault Refusal :=
  onPart (fun p =>
    match p.link.phase with
    | .answer k => settle (frameError k .answerTimeout p)
    | .writeAck => settle (requestError .answerTimeout p)
    | .idle => p
    | .frame _ => p
    | .readBurst => p
    | .readAck => p
    | .writeBurst => p
    | .busy => p) s

/-- READ_BURST_END (R149): a read burst is received while one is awaited, and checked. -/
def execReadBurstEnd (burst : ReadBurst) (s : State) : Host.Outcome State Fault Refusal :=
  onPart (fun p =>
    match p.link.phase with
    | .readBurst => settle (burstEnd burst p)
    | .idle => p
    | .frame _ => p
    | .answer _ => p
    | .readAck => p
    | .writeBurst => p
    | .writeAck => p
    | .busy => p) s

/-- DATA_TIMEOUT (R149): a read burst has not begun within the data wait limit. -/
def execDataTimeout (s : State) : Host.Outcome State Fault Refusal :=
  onPart (fun p =>
    match p.link.phase with
    | .readBurst => settle (requestError .dataTimeout p)
    | .idle => p
    | .frame _ => p
    | .answer _ => p
    | .readAck => p
    | .writeBurst => p
    | .writeAck => p
    | .busy => p) s

/-- WRITE_BURST_SENT (R149): the acknowledge timeout starts. -/
def execWriteBurstSent (s : State) : Host.Outcome State Fault Refusal :=
  onPart (fun p =>
    match p.link.phase with
    | .writeBurst => writeBurstDone p
    | .idle => p
    | .frame _ => p
    | .answer _ => p
    | .readBurst => p
    | .readAck => p
    | .writeAck => p
    | .busy => p) s

/-- WRITE_ACK_TAKEN (R149): the module's write acknowledge, its code and stop marker. -/
def execWriteAckTaken (code : BitVec 2) (stop : Bool) (s : State) : Host.Outcome State Fault Refusal :=
  onPart (fun p =>
    match p.link.phase with
    | .writeAck => settle (ackTaken code stop p)
    | .idle => p
    | .frame _ => p
    | .answer _ => p
    | .readBurst => p
    | .readAck => p
    | .writeBurst => p
    | .busy => p) s

/-- BUSY_END (R150): MD0 has fallen in a busy wait. -/
def execBusyEnd (s : State) : Host.Outcome State Fault Refusal :=
  onPart (fun p =>
    match p.link.phase with
    | .busy => settle (busyEnded p)
    | .idle => p
    | .frame _ => p
    | .answer _ => p
    | .readBurst => p
    | .readAck => p
    | .writeBurst => p
    | .writeAck => p) s

/-- BUSY_TIMEOUT (R150): the data wait limit has passed in a busy wait. -/
def execBusyTimeout (s : State) : Host.Outcome State Fault Refusal :=
  onPart (fun p =>
    match p.link.phase with
    | .busy => settle (busyTimedOut p)
    | .idle => p
    | .frame _ => p
    | .answer _ => p
    | .readBurst => p
    | .readAck => p
    | .writeBurst => p
    | .writeAck => p) s

/-- READ_ACKNOWLEDGE_SENT (R149): the data wait for the next read burst starts. -/
def execReadAcknowledgeSent (s : State) : Host.Outcome State Fault Refusal :=
  onPart (fun p =>
    match p.link.phase with
    | .readAck => awaitBurst p
    | .idle => p
    | .frame _ => p
    | .answer _ => p
    | .readBurst => p
    | .writeBurst => p
    | .writeAck => p
    | .busy => p) s

end Sys2Proof.Machine
end

