-- ==== Sys2Proof/Machine/Window.lean ====
section
/-! DEFINITION. The management window as software reads it (R187, R202), and a read transaction (R186). The table has no row for a
read, so these are functions of the state and no step (log 34). -/

namespace Sys2Proof.Machine

def EngineState.code : EngineState → Nat
  | .idle => 0
  | .capture => 1
  | .journal => 2
  | .commit => 3
  | .verify => 4
  | .apply => 5
  | .retire => 6
  | .recover => 7
  | .backoff => 8
  | .paused _ => 9
  | .inDoubt => 10
  | .halted _ => 11

def EngineState.haltReason : EngineState → Option HaltReason
  | .halted w => some w
  | .idle => none
  | .capture => none
  | .journal => none
  | .commit => none
  | .verify => none
  | .apply => none
  | .retire => none
  | .recover => none
  | .backoff => none
  | .paused _ => none
  | .inDoubt => none

def EngineState.point : EngineState → Option Point
  | .paused p => some p
  | .halted _ => none
  | .idle => none
  | .capture => none
  | .journal => none
  | .commit => none
  | .verify => none
  | .apply => none
  | .retire => none
  | .recover => none
  | .backoff => none
  | .inDoubt => none

def LinkState.code : LinkState → Nat
  | .off => 0
  | .identifying => 1
  | .ready => 2
  | .request => 3
  | .run => 4
  | .busy => 5
  | .lost => 6

def Requester.code : Requester → Nat
  | .identification => 0
  | .format => 1
  | .recovery => 2
  | .demand => 3
  | .checkpoint => 4
  | .background => 5

def PresenceState.code : PresenceState → Nat
  | .empty => 0
  | .arriving _ => 1
  | .present => 2
  | .leaving => 3

def Rate.code : Rate → Nat
  | .slow => 0
  | .normal => 1

/-- Bits of a flags byte, bit 0 first. -/
def flagsByte (bs : List Bool) : List Byte := leBytes 1 (bs.foldr (fun b acc => b.toNat + 2 * acc) 0)

/-- A region and block index in three bytes; absent reads 0. -/
def idBytes (x : Option BlockId) : List Byte :=
  leBytes 1 (optNat (x.map fun i => i.region.val)) ++ leBytes 2 (optNat (x.map fun i => i.index))

/-- Offsets 00h to 2Fh: the mailbox. -/
def windowMailbox (m : Mailbox) : List Byte :=
  [m.code] ++ m.args.toList ++ leBytes 1 m.status.code ++ leBytes 1 (optNat (m.refusal.map RefusalCode.code)) ++
    leBytes 1 (optNat (m.long.map fun l => l.1.code)) ++ leBytes 1 (optNat (m.long.map fun l => l.2.mail.code)) ++
    m.results

/-- Offsets 30h to 4Fh: block table, held access list, power-fail control. -/
def windowTable (s : Part) : List Byte :=
  leBytes 2 (dirtyCount s) ++ flagsByte ((List.finRange 4).map (watermarkReached s)) ++
    leBytes 2 s.tbl.queue.length ++ idBytes (s.tbl.queue.head?.map fun e => e.id) ++
    leBytes 6 (optNat (s.tbl.queue.head?.map fun e => e.joined)) ++ leBytes 2 (markCount s) ++
    leBytes 1 s.path.held.length ++ leBytes 1 (optNat (s.path.held.head?.map fun e => e.reason.code)) ++
    leBytes 6 (optNat (s.path.held.head?.map fun e => e.since)) ++ leBytes 1 s.pwr.freeze.toNat ++
    leBytes 1 s.pwr.final.code ++ leBytes 6 (optNat s.pwr.deadline)

/-- Offsets 50h to 5Fh: checkpoint engine. -/
def windowEngine (s : Part) : List Byte :=
  let e := s.eng
  leBytes 1 e.state.code ++ leBytes 1 (optNat (e.state.haltReason.map HaltReason.code)) ++
    leBytes 1 (optNat (e.state.point.map Point.code)) ++
    flagsByte [e.pauseReq, e.checkpointReq, e.journalHold, e.retryTimer.isSome, e.lastCommitted.isSome,
      e.state.haltReason.isSome, e.state.point.isSome, (batchNumber s).isSome] ++
    leBytes 4 (optNat ((batchNumber s).map fun b => b.toNat)) ++ leBytes 1 (memberCount s) ++ leBytes 1 e.aborts ++
    leBytes 4 (optNat (e.lastCommitted.map fun b => b.toNat)) ++ zeros 2

/-- The blocks of the background run, none when there is no run. -/
def runOf (s : Part) : List RunBlock :=
  match s.fill.background with
  | some run => run.blocks
  | none => []

/-- Offsets 60h to 7Fh: fill engine. -/
def windowFill (s : Part) : List Byte :=
  leBytes 2 s.fill.queue.length ++ leBytes 1 s.fill.demand.length ++ leBytes 1 (freeSlots s).length ++
    idBytes ((runOf s).head?.map fun x => x.id) ++ leBytes 1 (runOf s).length ++
    padTo 24 (s.fill.demand.flatMap fun id => idBytes (some id))

/-- Offsets 80h to 8Fh: link, presence, event queue. -/
def windowLink (s : Part) : List Byte :=
  leBytes 1 s.link.state.code ++ leBytes 1 s.link.rate.code ++ leBytes 1 s.link.retries ++
    leBytes 1 (optNat (s.link.current.map fun q => q.code.toByte.toNat)) ++
    leBytes 1 ((s.link.current.map fun q => q.requester.code).getD 0xFF) ++ leBytes 1 s.pres.state.code ++
    leBytes 1 s.pres.settleInterval ++ leBytes 1 s.pres.status.code ++ leBytes 4 s.pres.binding.toNat ++
    leBytes 1 s.evq.records.length ++ leBytes 1 (alertOf s.evq).toNat ++ zeros 2

/-- The newest record of the journal summary, when one was found. -/
def summaryNewest (s : Part) : Option Newest := s.pres.summary.bind id

/-- Offsets 90h to AFh: copy flags, identity copy, remembered serial. -/
def windowIdentity (s : Part) : List Byte :=
  let p := s.pres
  flagsByte [p.identity.isSome, p.header.isSome, (p.header.map fun h => h.valid).getD false, p.summary.isSome,
      (summaryNewest s).isSome, p.serial.isSome] ++
    leBytes 2 (optNat (p.identity.map fun i => i.versions.toNat)) ++
    leBytes 4 (optNat (p.identity.map fun i => i.capacity)) ++ leBytes 1 (optNat (p.identity.map fun i => i.grade)) ++
    leBytes 2 (optNat (p.identity.map fun i => i.runLimit)) ++
    leBytes 8 (optNat (p.identity.map fun i => i.serial.toNat)) ++ leBytes 8 (optNat (p.serial.map fun x => x.toNat)) ++
    zeros 6

/-- Offsets B0h to FFh: header copy, journal summary, part identity. -/
def windowHeader (s : Part) : List Byte :=
  leBytes 2 (optNat (s.pres.header.map fun h => h.version)) ++
    leBytes 4 (optNat (s.pres.header.map fun h => h.binding.toNat)) ++
    leBytes 4 (optNat (s.pres.header.map fun h => h.homeStart)) ++
    leBytes 1 (optNat ((summaryNewest s).map fun n => n.slot.code + 2 * n.state.code)) ++
    leBytes 4 (optNat ((summaryNewest s).map fun n => n.batch.toNat)) ++ zeros 1 ++ Config.identityBytes ++ zeros 60

/-- The 256 bytes of the management window (R202). -/
def window (s : Part) : List Byte :=
  windowMailbox s.mbox ++ windowTable s ++ windowEngine s ++ windowFill s ++ windowLink s ++ windowIdentity s ++
    windowHeader s

/-- The byte at a window offset. -/
def windowByte (s : Part) (off : Byte) : Byte := (window s).getD off.toNat 0#8

/-- `n` bytes from the offset left by the last transaction, which rises after each and wraps (R186). Reading changes nothing
else (R187). -/
def readBytes : Nat → Part → List Byte × Part
  | 0, s => ([], s)
  | n + 1, s =>
    let r := readBytes n { s with mbox.offset := s.mbox.offset + 1 }
    (windowByte s s.mbox.offset :: r.1, r.2)

/-- A read transaction of `n` bytes. While RESET ENGINE is completing, SCL is held and no byte comes: the read is answered from
the part as it stands once SCL has been released (R190, log 34). -/
def readTransaction (n : Nat) (s : Part) : Option (List Byte × Part) :=
  if s.mbox.completing then none else some (readBytes n s)

/-- The target acknowledges its own address only (R186). -/
def acknowledges (s : Part) (address : BitVec 7) : Bool := address == s.mbox.address

end Sys2Proof.Machine
end

