-- ==== Sys2Proof/Machine/Dispatch.lean ====
section
/-! DEFINITION. One arm for each command: its meaning. -/

namespace Sys2Proof.Machine

def exec (i : Instr) (s : State) : Host.Outcome State Fault Refusal :=
  match i with
  | .powerOnReset addr1 addr0 mpres pfw => Sys2Proof.Machine.execPowerOnReset addr1 addr0 mpres pfw s
  | .hostRequestAccepted req => Sys2Proof.Machine.execHostRequestAccepted req s
  | .holdLimitExpiry tag => Sys2Proof.Machine.execHoldLimitExpiry tag s
  | .memoryPortGrant => Sys2Proof.Machine.execMemoryPortGrant s
  | .hostMemoryResponse tag ok data => Sys2Proof.Machine.execHostMemoryResponse tag ok data s
  | .captureReadResponse part ok data => Sys2Proof.Machine.execCaptureReadResponse part ok data s
  | .fillWriteResponse group part ok => Sys2Proof.Machine.execFillWriteResponse group part ok s
  | .ageTimerExpiry => Sys2Proof.Machine.execAgeTimerExpiry s
  | .batchStart => Sys2Proof.Machine.execBatchStart s
  | .backoffExpiry => Sys2Proof.Machine.execBackoffExpiry s
  | .recoveryRetryExpiry => Sys2Proof.Machine.execRecoveryRetryExpiry s
  | .recoveryStart => Sys2Proof.Machine.execRecoveryStart s
  | .linkGrant => Sys2Proof.Machine.execLinkGrant s
  | .requestFrameSent => Sys2Proof.Machine.execRequestFrameSent s
  | .mioContention => Sys2Proof.Machine.execMioContention s
  | .answerTaken frame => Sys2Proof.Machine.execAnswerTaken frame s
  | .answerTimeout => Sys2Proof.Machine.execAnswerTimeout s
  | .readBurstEnd burst => Sys2Proof.Machine.execReadBurstEnd burst s
  | .dataTimeout => Sys2Proof.Machine.execDataTimeout s
  | .writeBurstSent => Sys2Proof.Machine.execWriteBurstSent s
  | .writeAckTaken code stop => Sys2Proof.Machine.execWriteAckTaken code stop s
  | .busyEnd => Sys2Proof.Machine.execBusyEnd s
  | .busyTimeout => Sys2Proof.Machine.execBusyTimeout s
  | .mpresRise => Sys2Proof.Machine.execMpresRise s
  | .mpresFall => Sys2Proof.Machine.execMpresFall s
  | .settleTimerExpiry => Sys2Proof.Machine.execSettleTimerExpiry s
  | .pfwAsserted => Sys2Proof.Machine.execPfwAsserted s
  | .pfwWithdrawn => Sys2Proof.Machine.execPfwWithdrawn s
  | .finalDeadlineExpiry => Sys2Proof.Machine.execFinalDeadlineExpiry s
  | .windowWrite address bytes => Sys2Proof.Machine.execWindowWrite address bytes s
  | .badCommand code => Sys2Proof.Machine.execBadCommand code s
  | .setRegion region ramBase size homeBase => Sys2Proof.Machine.execSetRegion region ramBase size homeBase s
  | .attach region mode => Sys2Proof.Machine.execAttach region mode s
  | .detach region => Sys2Proof.Machine.execDetach region s
  | .checkpoint => Sys2Proof.Machine.execCheckpoint s
  | .pause => Sys2Proof.Machine.execPause s
  | .resume => Sys2Proof.Machine.execResume s
  | .setBinding binding => Sys2Proof.Machine.execSetBinding binding s
  | .setLimits selector value => Sys2Proof.Machine.execSetLimits selector value s
  | .setEventMasks kind capture alert => Sys2Proof.Machine.execSetEventMasks kind capture alert s
  | .clearFault => Sys2Proof.Machine.execClearFault s
  | .queryBlock region index => Sys2Proof.Machine.execQueryBlock region index s
  | .queryRegion region => Sys2Proof.Machine.execQueryRegion region s
  | .readEvent => Sys2Proof.Machine.execReadEvent s
  | .cancel => Sys2Proof.Machine.execCancel s
  | .sync => Sys2Proof.Machine.execSync s
  | .format mode => Sys2Proof.Machine.execFormat mode s
  | .resetLink => Sys2Proof.Machine.execResetLink s
  | .resetEngine => Sys2Proof.Machine.execResetEngine s
  | .resetAll => Sys2Proof.Machine.execResetAll s
  | .readAcknowledgeSent => Sys2Proof.Machine.execReadAcknowledgeSent s

end Sys2Proof.Machine
end

