-- ==== Sys2Proof/Machine/Time.lean ====
section
/-! DEFINITION. What a step does when no command waits: one millisecond of the time base passes (log 1). -/

namespace Sys2Proof.Machine

/-- One millisecond passes (R1). At the last value of the 48-bit count the step faults (log 3). Timers act at
their own expiry commands. -/
def idle (s : State) : Host.Outcome State Fault Refusal :=
  if s.part.now + 1 < Config.timeEnd then .next { s with part := { s.part with now := s.part.now + 1 } }
  else .fault .timeBaseEnd

end Sys2Proof.Machine
end

