-- ==== Sys2Proof/Safety.lean ====
section
/-! DEFINITION. What claims are stated in: the bounds that hold in every state a run reaches, when nothing in the part waits
to be brought about, what a command leaves in the mailbox, and the bytes each command is sent as. -/

namespace Sys2Proof.Machine

/-! ### Bounds -/

def EventRec.isOverflow : EventRec → Bool
  | .event _ _ _ => false
  | .overflow _ _ _ => true

/-- R181: at most 32 records, an OVERFLOW record only as the newest, and the 32nd place only for one; and R180:
OVERFLOW's enables stay set. -/
def EventQueue.Ok (q : EventQueue) : Prop :=
  q.records.length ≤ Config.eventMax ∧
  (∀ r ∈ q.records.dropLast, r.isOverflow = false) ∧
  (q.records.length = Config.eventMax → ∃ r, q.records.getLast? = some r ∧ r.isOverflow = true) ∧
  q.capture[24] = true ∧ q.alert[24] = true

/-- R50: the held access list never holds more than 8 entries. -/
def Path.HeldOk (p : Path) : Prop := p.held.length ≤ Config.heldMax

/-- R61: the priority order is a list of the three lanes. -/
def Path.PriorityOk (p : Path) : Prop := p.priority.Perm [.host, .capture, .fill]

/-- R191: every limit lies in its range. -/
def Part.LimitsOk (p : Part) : Prop := ∀ l : Limit, l.inRange (getLimit p l) = true

/-- R2: a region that is not OFF has one record for each of its blocks, and a region in OFF has none. -/
def Part.RecordsOk (p : Part) : Prop :=
  ∀ r : Fin 8, (p.tbl.recs[r]).length = if (p.regs[r]).state = .off then 0 else (p.regs[r]).size

/-! ### Nothing waits -/

/-- No request waits at the host side port, no place on the demand list waits to be refilled (R120), and the age timer stands
at the leading entry (R11): a step has nothing to bring about beyond its own effect. -/
abbrev Quiet (p : Part) : Prop :=
  p.path.port = [] ∧ (Config.demandMax ≤ p.fill.demand.length ∨ refillCandidate p = none) ∧
    AgeStands p

/-- The command's own effect takes the part to `t`; what waits in `t` is brought about in the same step, so the answer is
`settle t`, and `t` itself when nothing waits in it. The commands still waiting are untouched. -/
def AnswersNext (c : Instr) (p : Part) (rest : List Instr) (t : Part) : Prop :=
  exec c ⟨p, rest⟩ = .next ⟨settle t, rest⟩ ∧ (Quiet t → exec c ⟨p, rest⟩ = .next ⟨t, rest⟩)

/-- A demand fill has been asked for a block (R120): it is on the list already, or there is no room, or it leaves the fill queue
for the list's tail. -/
def Fill.asked (id : BlockId) (f : Fill) : Fill :=
  if id ∈ f.demand ∨ 8 ≤ f.demand.length then f
  else { f with queue := f.queue.filter (· ≠ id), demand := f.demand ++ [id] }

/-- The events of the watermarks a count has just reached, the lower-numbered first (R7). -/
def reachedAt (thresholds : Vector Nat 4) (count : Nat) (id : BlockId) : List Event :=
  ((List.finRange 4).filter fun n => decide (thresholds[n] ≠ 0 ∧ thresholds[n] = count)).map fun n => .watermark n id

/-! ### After a reset -/

/-- What power-on reset and RESET ALL leave of a part `p`, but for the mailbox (R29, R44, R66, R135, R144, R166, R167, R185,
R201): reset values everywhere, every held access answered with error, responses to own requests at memory to be discarded,
and MPRES and PFW read. Accesses already in the host lane or at memory stay there with their tags outstanding, and the tags of held
ones are free (log 37); requests waiting at the port are then taken in order, up to the first whose tag is outstanding. -/
def Part.AfterReset (t p : Part) : Prop :=
  t.now = 0 ∧ t.tbl = BlockTable.reset ∧ t.regs = Vector.replicate 8 Region.reset ∧ t.eng = Engine.reset ∧
  t.fill = Fill.reset ∧ t.link = Link.reset ∧
  t.pres = (if t.pins.mpres then { Presence.reset with state := .arriving false, settle := some 8 } else Presence.reset) ∧
  t.pwr = (if t.pins.pfw then ⟨true, .done, some 200, 200⟩ else Power.reset) ∧
  t.evq = (if t.pins.pfw then EventQueue.reset.post (.finalDone none) 0 else EventQueue.reset) ∧
  t.path.held = [] ∧ t.path.captureLane = [] ∧ t.path.fillLane = [] ∧ t.path.priority = [.host, .capture, .fill] ∧
  t.path.holdLimit = 50 ∧ t.path.own = p.path.own.map staleTag ∧
  t.out.host = p.out.host ++ p.path.held.map (fun e => ⟨e.req.tag, false, []⟩) ∧
  t.out.mem = p.out.mem ∧ t.out.link = p.out.link ∧
  ∃ taken waiting, p.path.port = taken ++ waiting ∧ t.path.hostLane = p.path.hostLane ++ taken ∧ t.path.port = waiting ∧
    let kept := (p.path.held.foldl (fun v e => v.set e.req.tag .idle) p.path.tags).map keptTag
    t.path.tags = taken.foldl (fun v r => v.set r.tag .lane) kept ∧ (taken.map fun r => r.tag).Nodup ∧
    (∀ r ∈ taken, kept[r.tag] = .idle) ∧ (∀ r more, waiting = r :: more → t.path.tags[r.tag] ≠ .idle)

/-! ### The mailbox after a command -/

/-- The mailbox once a command has been taken from a transaction that wrote its code and argument bytes from offset 0 (R186,
R188): other argument bytes keep their values, and a long command is no longer the last command taken (R189). -/
def Mailbox.taken (code : Byte) (args : List Byte) (m : Mailbox) : Mailbox :=
  { m with
    offset := BitVec.ofNat 8 (args.length + 1)
    code := code
    args := Vector.ofFn fun i => (args[i.val]?).getD m.args[i]
    lastLong := false }

/-- The mailbox of a command that has completed: DONE, and the whole result area written (R189, R203). -/
def Mailbox.doneWith (results : List Byte) (m : Mailbox) : Mailbox :=
  { m with status := .done, refusal := none, results := padTo 28 results }

/-- The mailbox of a command that was refused. -/
def Mailbox.refusedWith (c : RefusalCode) (m : Mailbox) : Mailbox :=
  { m with status := .refused, refusal := some c, results := padTo 28 [] }

/-- The mailbox of a long command that was accepted: RUNNING in the status and in the long-command record (R189). -/
def Mailbox.runningWith (c : LongCmd) (results : List Byte) (m : Mailbox) : Mailbox :=
  { m with status := .running, refusal := none, results := padTo 28 results, long := some (c, .running), lastLong := true }

end Sys2Proof.Machine

namespace Sys2Proof

open Sys2Proof.Machine in
/-- The bytes of a management command as one write transaction: window offset 0, the command code, and the argument bytes as
R203 lays them out. -/
def Instr.transaction : Instr → Option (List Byte)
  | .badCommand c => some [0x00#8, c]
  | .setRegion r ram size home =>
    some ([0x00#8, 0x01#8, r] ++ leBytes 4 ram.toNat ++ leBytes 2 size.toNat ++ leBytes 4 home.toNat)
  | .attach r m => some [0x00#8, 0x02#8, r, m]
  | .detach r => some [0x00#8, 0x03#8, r]
  | .checkpoint => some [0x00#8, 0x04#8]
  | .pause => some [0x00#8, 0x05#8]
  | .resume => some [0x00#8, 0x06#8]
  | .setBinding b => some ([0x00#8, 0x07#8] ++ leBytes 4 b.toNat)
  | .setLimits sel v => some ([0x00#8, 0x08#8, sel] ++ leBytes 2 v.toNat)
  | .setEventMasks k c a => some [0x00#8, 0x09#8, k, c, a]
  | .clearFault => some [0x00#8, 0x0A#8]
  | .queryBlock r i => some ([0x00#8, 0x0B#8, r] ++ leBytes 2 i.toNat)
  | .queryRegion r => some [0x00#8, 0x0C#8, r]
  | .readEvent => some [0x00#8, 0x0D#8]
  | .cancel => some [0x00#8, 0x0E#8]
  | .resetLink => some [0x00#8, 0x0F#8]
  | .resetEngine => some [0x00#8, 0x10#8]
  | .resetAll => some [0x00#8, 0x11#8]
  | .sync => some [0x00#8, 0x12#8]
  | .format m => some [0x00#8, 0x13#8, m]
  | .powerOnReset _ _ _ _ => none
  | .hostRequestAccepted _ => none
  | .holdLimitExpiry _ => none
  | .memoryPortGrant => none
  | .hostMemoryResponse _ _ _ => none
  | .captureReadResponse _ _ _ => none
  | .fillWriteResponse _ _ _ => none
  | .ageTimerExpiry => none
  | .batchStart => none
  | .backoffExpiry => none
  | .recoveryRetryExpiry => none
  | .recoveryStart => none
  | .linkGrant => none
  | .requestFrameSent => none
  | .mioContention => none
  | .answerTaken _ => none
  | .answerTimeout => none
  | .readBurstEnd _ => none
  | .dataTimeout => none
  | .writeBurstSent => none
  | .writeAckTaken _ _ => none
  | .busyEnd => none
  | .busyTimeout => none
  | .mpresRise => none
  | .mpresFall => none
  | .settleTimerExpiry => none
  | .pfwAsserted => none
  | .pfwWithdrawn => none
  | .finalDeadlineExpiry => none
  | .windowWrite _ _ => none
  | .readAcknowledgeSent => none

end Sys2Proof
end

