-- ==== Sys2Proof/WellFormed.lean ====
section
/-! DEFINITION. Which commands the buses can present: lengths and sizes that a transfer always has. -/

namespace Sys2Proof

/-- Single accesses are of 1, 2, 4 or 8 bytes at an address aligned to their size; bursts are of 1 to 64
bytes (R46). -/
def AccessSize.wf (addr : U32) : AccessSize → Bool
  | .single n => (n == 1 || n == 2 || n == 4 || n == 8) && addr.toNat % n == 0
  | .burst n => decide (1 ≤ n ∧ n ≤ 64)

/-- A write carries one data byte and one byte enable for each byte of the access; a read carries none (R50). -/
def HostReq.wf (r : HostReq) : Bool :=
  r.size.wf r.addr &&
    (if r.write then r.data.length == r.size.bytes && r.enables.length == r.size.bytes
     else r.data.isEmpty && r.enables.isEmpty)

/-- A burst moves 256 payload bytes and a 16-byte tag (R149). -/
def ReadBurst.wf (b : ReadBurst) : Bool :=
  b.payload.length == 256 && b.tag.length == 16

/-- A capture read that is answered OK brings 64 bytes, and one answered with error brings none (R16). -/
def captureDataWf (ok : Bool) (data : Payload) : Bool :=
  if ok then data.length == 64 else data.isEmpty

/-- What a command's operands must satisfy. Operands not named here are well-formed at every value. -/
def Instr.wf : Instr → Bool
  | .powerOnReset _ _ _ _ => true
  | .hostRequestAccepted r => r.wf
  | .holdLimitExpiry _ => true
  | .memoryPortGrant => true
  | .hostMemoryResponse _ ok data => ok || data.isEmpty
  | .captureReadResponse _ ok data => captureDataWf ok data
  | .fillWriteResponse _ _ _ => true
  | .ageTimerExpiry => true
  | .batchStart => true
  | .backoffExpiry => true
  | .recoveryRetryExpiry => true
  | .recoveryStart => true
  | .linkGrant => true
  | .requestFrameSent => true
  | .mioContention => true
  | .answerTaken _ => true
  | .answerTimeout => true
  | .readBurstEnd b => b.wf
  | .dataTimeout => true
  | .writeBurstSent => true
  | .writeAckTaken _ _ => true
  | .busyEnd => true
  | .busyTimeout => true
  | .mpresRise => true
  | .mpresFall => true
  | .settleTimerExpiry => true
  | .pfwAsserted => true
  | .pfwWithdrawn => true
  | .finalDeadlineExpiry => true
  | .windowWrite _ _ => true
  | .badCommand c => decide (c.toNat = 0 ∨ 0x14 ≤ c.toNat)
  | .setRegion _ _ _ _ => true
  | .attach _ _ => true
  | .detach _ => true
  | .checkpoint => true
  | .pause => true
  | .resume => true
  | .setBinding _ => true
  | .setLimits _ _ => true
  | .setEventMasks _ _ _ => true
  | .clearFault => true
  | .queryBlock _ _ => true
  | .queryRegion _ => true
  | .readEvent => true
  | .cancel => true
  | .sync => true
  | .format _ => true
  | .resetLink => true
  | .resetEngine => true
  | .resetAll => true
  | .readAcknowledgeSent => true

end Sys2Proof
end

