-- ==== Sys2Proof/Certificates/Slice0/Obligations.lean ====
section
/-! DEFINITION. The statements for the provers. A statement about a command says what `exec` answers for it at a part `p`
with the commands `rest` still waiting. Where a step also brings about what waited in the part (`settle`), the answer is
`settle t` for the part `t` that the rule gives, and `t` itself when nothing waits in it (`Quiet`). -/

section

open Sys2Proof Sys2Proof.Machine

/-! ### The machine -/

/-- A step runs the command at the front of the queue on the rest. -/
def Obligations.StepTakesTheFrontCommand : Prop :=
  ∀ (c : Instr) (rest : List Instr) (p : Part), step ⟨p, c :: rest⟩ = exec c ⟨p, rest⟩

/-- With an empty queue one millisecond passes, and the 48-bit count does not wrap: the model's choice, log 1 and log 3. -/
def Obligations.EmptyQueuePassesOneMillisecond : Prop :=
  ∀ p : Part,
    (p.now + 1 < 2 ^ 48 → step ⟨p, []⟩ = .next ⟨{ p with now := p.now + 1 }, []⟩) ∧
    (2 ^ 48 ≤ p.now + 1 → step ⟨p, []⟩ = .fault .timeBaseEnd)

/-- No command faults, is refused or touches the queue. -/
def Obligations.EveryCommandAnswersANextState : Prop :=
  ∀ (c : Instr) (p : Part) (rest : List Instr), ∃ t : Part, exec c ⟨p, rest⟩ = .next ⟨t, rest⟩

/-- The values after reset that the rules give (R29, R30, R61, R66, R68, R108, R118, R135, R146, R167, R178, R189, R191). -/
def Obligations.ResetHoldsTheGivenValues : Prop :=
  let p := State.reset.part
  State.reset.pending = [] ∧ p.now = 0 ∧
  (∀ r : Fin 8, p.tbl.recs[r] = [] ∧ p.regs[r] = ⟨.off, 0, 0, 0⟩) ∧ p.tbl.queue = [] ∧
  p.tbl.budget = 4096 ∧ (∀ n : Fin 4, p.tbl.thresholds[n] = 0) ∧ p.tbl.trigger = 64 ∧ p.tbl.interval = 1000 ∧
  dirtyCount p = 0 ∧ markCount p = 0 ∧
  p.path.held = [] ∧ p.path.captureLane = [] ∧ p.path.fillLane = [] ∧ p.path.priority = [.host, .capture, .fill] ∧
  p.path.holdLimit = 50 ∧
  p.eng.state = .idle ∧ p.eng.batch = none ∧ p.eng.staging = [] ∧ p.eng.lastCommitted = none ∧ p.eng.knowledge = none ∧
  p.eng.aborts = 0 ∧ p.eng.backoff = none ∧ p.eng.pauseReq = false ∧ p.eng.checkpointReq = false ∧
  p.eng.batchLimit = 64 ∧ p.eng.backoffInterval = 10 ∧ p.eng.journalHold = false ∧ p.eng.retryTimer = none ∧
  p.fill.queue = [] ∧ p.fill.demand = [] ∧ (∀ i : Fin 8, p.fill.slots[i] = .free) ∧ p.fill.demandRun = none ∧
  p.fill.background = none ∧
  p.link.state = .off ∧ p.link.rate = .slow ∧ p.link.current = none ∧ p.link.runOpen = false ∧ p.link.retries = 0 ∧
  p.link.retryCount = 2 ∧ p.link.waitExp = 20 ∧ p.link.attempts = 0 ∧
  p.pres.state = .empty ∧ p.pres.settle = none ∧ p.pres.settleInterval = 8 ∧ p.pres.status = .none ∧
  p.pres.binding = 0 ∧ p.pres.identity = none ∧ p.pres.header = none ∧ p.pres.summary = none ∧ p.pres.serial = none ∧
  p.pwr.freeze = false ∧ p.pwr.final = .none ∧ p.pwr.deadline = none ∧ p.pwr.finalDeadline = 200 ∧
  p.evq.records = [] ∧ p.evq.seq = 0 ∧ (∀ k : Fin 25, p.evq.capture[k] = true) ∧
  (∀ k : Fin 25, p.evq.alert[k] = true ↔ k = 3 ∨ k = 4 ∨ k = 11 ∨ k = 14 ∨ k = 20 ∨ k = 22 ∨ k = 24) ∧
  alertOf p.evq = false ∧
  p.mbox.status = .idle ∧ p.mbox.long = none ∧ p.mbox.code = 0 ∧ (∀ i : Fin 15, p.mbox.args[i] = 0) ∧ p.mbox.offset = 0

/-- POWER_ON_RESET and RESET_ALL: every block takes its reset values, held accesses are answered with error, and MPRES and PFW
are read at the end (R66, R135, R144, R167, R201). Power-on samples the straps and leaves the mailbox IDLE; RESET_ALL keeps the
target address and leaves it DONE (R186, R201). -/
def Obligations.ResetsOfTheWholePart : Prop :=
  (∀ (addr1 addr0 mpres pfw : Bool) (p : Part) (rest : List Instr), ∃ t : Part,
    exec (.powerOnReset addr1 addr0 mpres pfw) ⟨p, rest⟩ = .next ⟨t, rest⟩ ∧
    t.AfterReset p ∧ t.pins = ⟨mpres, pfw, addr1, addr0⟩ ∧ t.mbox = Mailbox.reset (targetAddress addr1 addr0)) ∧
  (∀ (p : Part) (rest : List Instr), p.mbox.completing = false → ∃ t : Part,
    exec .resetAll ⟨p, rest⟩ = .next ⟨t, rest⟩ ∧
    t.AfterReset p ∧ t.pins = p.pins ∧ t.mbox = { Mailbox.reset p.mbox.address with status := .done })

/-! ### Host accesses -/

/-- The accesses that make no claim (R46, R48, R49, R51): a request whose tag is outstanding, or that finds the held list full,
waits at the port; an outside access is forwarded at once; an access to a block with a held entry is held ORDER behind it. What a
step brings about when something waits (`settle`), within that step by log 5, in the order of log 7: while the demand list has room
the oldest entry held FILL that is the oldest of its block, for an ABSENT readable block of a RESTORING region not on the list, puts
its block there (R120); then the requests waiting at the port are accepted in order, the first exactly while its tag is not
outstanding and fewer than 8 accesses are held (R46, R51), each handled by the first case of R48 that applies; then the age timer
follows the leading entry (R11). -/
def Obligations.AccessesWithoutClaim : Prop :=
  (∀ (p : Part) (rest : List Instr) (r : HostReq),
    Quiet p →
    (p.path.tags[r.tag] ≠ .idle ∨ 8 ≤ p.path.held.length →
      exec (.hostRequestAccepted r) ⟨p, rest⟩ = .next ⟨{ p with path.port := [r] }, rest⟩) ∧
    (p.path.tags[r.tag] = .idle → p.path.held.length < 8 →
      (decodeAddr p r.addr = none →
        exec (.hostRequestAccepted r) ⟨p, rest⟩ = .next ⟨{ p with
          path.tags := p.path.tags.set r.tag .lane
          path.hostLane := p.path.hostLane ++ [r] }, rest⟩) ∧
      (∀ id e, decodeAddr p r.addr = some id → e ∈ p.path.held → e.id = id →
        exec (.hostRequestAccepted r) ⟨p, rest⟩ = .next ⟨{ p with
          path.tags := p.path.tags.set r.tag .held
          path.held := p.path.held ++ [⟨r, id, .order, p.now⟩] }, rest⟩))) ∧
  (∀ p : Part,
    let t := refillDemand 8 p
    settle p = retime (drainPort t.path.port t)) ∧
  (∀ (n : Nat) (p : Part),
    let refills (e : Held) := e.reason = .fill ∧ oldestOf p e.id = some e ∧ stateOf p e.id = some (.absent false) ∧
      (p.regs[e.id.region]).state = .restoring ∧ e.id ∉ p.fill.demand
    refillDemand 0 p = p ∧
    (8 ≤ p.fill.demand.length ∨ (∀ e ∈ p.path.held, ¬ refills e) → refillDemand (n + 1) p = p) ∧
    (∀ before e after, p.fill.demand.length < 8 → p.path.held = before ++ e :: after → (∀ x ∈ before, ¬ refills x) →
      refills e → refillDemand (n + 1) p = refillDemand n { p with fill := {
        p.fill with queue := p.fill.queue.filter (· ≠ e.id), demand := p.fill.demand ++ [e.id] } })) ∧
  (∀ (p : Part) (r : HostReq) (more : List HostReq),
    drainPort [] p = { p with path.port := [] } ∧
    (p.path.tags[r.tag] = .idle ∧ p.path.held.length < 8 → drainPort (r :: more) p = drainPort more (acceptAccess r p)) ∧
    (p.path.tags[r.tag] ≠ .idle ∨ 8 ≤ p.path.held.length →
      drainPort (r :: more) p = { p with path.port := r :: more })) ∧
  (∀ (p : Part) (r : HostReq),
    let lane (s : Part) := { s with
      path.tags := s.path.tags.set r.tag .lane
      path.hostLane := s.path.hostLane ++ [r] }
    (decodeAddr p r.addr = none → acceptAccess r p = lane p) ∧
    (∀ id, decodeAddr p r.addr = some id →
      let held (why : HoldReason) := { p with
        path.tags := p.path.tags.set r.tag .held
        path.held := p.path.held ++ [⟨r, id, why, p.now⟩] }
      ((∃ e ∈ p.path.held, e.id = id) → acceptAccess r p = held .order) ∧
      ((∀ e ∈ p.path.held, e.id ≠ id) →
        (answerOf p r id = .error → acceptAccess r p = { p with
          path.tags := p.path.tags.set r.tag .idle
          out.host := p.out.host ++ [⟨r.tag, false, []⟩] }) ∧
        (∀ why, answerOf p r id = .hold why → why ≠ .fill → acceptAccess r p = held why) ∧
        (answerOf p r id = .hold .fill →
          (stateOf p id = some (.absent false) → (p.regs[id.region]).state = .restoring →
            acceptAccess r p = { held .fill with fill := p.fill.asked id }) ∧
          (stateOf p id ≠ some (.absent false) ∨ (p.regs[id.region]).state ≠ .restoring →
            acceptAccess r p = held .fill)) ∧
        (answerOf p r id = .pass → acceptAccess r p = lane (if r.write then performWrite id p else p)))))

/-- Address decode (R33): the region that is not OFF and whose RAM range holds the address, and the block in it. -/
def Obligations.AddressDecode : Prop :=
  ∀ (p : Part) (a : U32),
    ((∀ r : Fin 8, (p.regs[r]).state = .off ∨ a.toNat < (p.regs[r]).ramBase.toNat ∨
        (p.regs[r]).ramBase.toNat + 256 * (p.regs[r]).size ≤ a.toNat) → decodeAddr p a = none) ∧
    (∀ r : Fin 8, (p.regs[r]).state ≠ .off → (p.regs[r]).ramBase.toNat ≤ a.toNat →
      a.toNat < (p.regs[r]).ramBase.toNat + 256 * (p.regs[r]).size →
      (∀ q : Fin 8, q ≠ r → (p.regs[q]).state = .off ∨ a.toNat < (p.regs[q]).ramBase.toNat ∨
        (p.regs[q]).ramBase.toNat + 256 * (p.regs[q]).size ≤ a.toNat) →
      decodeAddr p a = some ⟨r, (a.toNat - (p.regs[r]).ramBase.toNat) / 256⟩)

/-- A host read claim (R12): answered by the first case that applies. A read answered PASS leaves every record as it was. -/
def Obligations.ReadClaim : Prop :=
  ∀ (p : Part) (rest : List Instr) (r : HostReq) (id : BlockId),
    Quiet p → p.path.tags[r.tag] = .idle → p.path.held.length < 8 → r.write = false →
    decodeAddr p r.addr = some id → (∀ e ∈ p.path.held, e.id ≠ id) →
    let error := { p with
      path.tags := p.path.tags.set r.tag .idle
      out.host := p.out.host ++ [⟨r.tag, false, []⟩] }
    let heldFill := { p with
      path.tags := p.path.tags.set r.tag .held
      path.held := p.path.held ++ [⟨r, id, .fill, p.now⟩] }
    let passed := { p with
      path.tags := p.path.tags.set r.tag .lane
      path.hostLane := p.path.hostLane ++ [r] }
    (stateOf p id = some (.absent true) → exec (.hostRequestAccepted r) ⟨p, rest⟩ = .next ⟨error, rest⟩) ∧
    (∀ why, stateOf p id = some (.absent false) → (p.regs[id.region]).state = .suspended why →
      exec (.hostRequestAccepted r) ⟨p, rest⟩ = .next ⟨error, rest⟩) ∧
    (stateOf p id = some (.absent false) → (p.regs[id.region]).state = .restoring →
      exec (.hostRequestAccepted r) ⟨p, rest⟩ = .next ⟨{ heldFill with fill := p.fill.asked id }, rest⟩) ∧
    (stateOf p id = some .filling → exec (.hostRequestAccepted r) ⟨p, rest⟩ = .next ⟨heldFill, rest⟩) ∧
    (∀ st, stateOf p id = some st → st.notBack = false →
      exec (.hostRequestAccepted r) ⟨p, rest⟩ = .next ⟨passed, rest⟩)

/-- A host write claim (R13): answered by the first case that applies, with the record change of its line. A write that makes a
CLEAN block DIRTY raises the dirty count by one and posts the watermarks it reaches, the lower-numbered first (R7). -/
def Obligations.WriteClaim : Prop :=
  ∀ (p : Part) (rest : List Instr) (r : HostReq) (id : BlockId) (b : BlockRec),
    Quiet p → p.path.tags[r.tag] = .idle → p.path.held.length < 8 → r.write = true →
    decodeAddr p r.addr = some id → (∀ e ∈ p.path.held, e.id ≠ id) → recOf p id = some b →
    let error := { p with
      path.tags := p.path.tags.set r.tag .idle
      out.host := p.out.host ++ [⟨r.tag, false, []⟩] }
    let heldAs (why : HoldReason) := { p with
      path.tags := p.path.tags.set r.tag .held
      path.held := p.path.held ++ [⟨r, id, why, p.now⟩] }
    let passed := { p with
      path.tags := p.path.tags.set r.tag .lane
      path.hostLane := p.path.hostLane ++ [r] }
    let dirtied := { passed with
      tbl.recs := p.tbl.recs.set id.region ((p.tbl.recs[id.region]).set id.index ⟨.dirty p.now, b.mark⟩)
      tbl.queue := p.tbl.queue ++ [⟨id, p.now⟩] }
    let reached := (List.finRange 4).filter fun n =>
      decide (p.tbl.thresholds[n] ≠ 0 ∧ p.tbl.thresholds[n] = dirtyCount p + 1)
    (b.state = .absent true → exec (.hostRequestAccepted r) ⟨p, rest⟩ = .next ⟨error, rest⟩) ∧
    (∀ why, b.state = .absent false → (p.regs[id.region]).state = .suspended why →
      exec (.hostRequestAccepted r) ⟨p, rest⟩ = .next ⟨error, rest⟩) ∧
    (p.pwr.freeze = true → b.state ≠ .absent true →
      ¬ (b.state = .absent false ∧ regionSuspended p id.region = true) →
      exec (.hostRequestAccepted r) ⟨p, rest⟩ = .next ⟨heldAs .freeze, rest⟩) ∧
    (p.pwr.freeze = false →
      (b.state = .absent false → (p.regs[id.region]).state = .restoring →
        exec (.hostRequestAccepted r) ⟨p, rest⟩ = .next ⟨{ heldAs .fill with fill := p.fill.asked id }, rest⟩) ∧
      (b.state = .filling → exec (.hostRequestAccepted r) ⟨p, rest⟩ = .next ⟨heldAs .fill, rest⟩) ∧
      (b.state = .clean → p.tbl.budget ≤ dirtyCount p →
        exec (.hostRequestAccepted r) ⟨p, rest⟩ = .next ⟨heldAs .budget, rest⟩) ∧
      (b.state = .clean → dirtyCount p < p.tbl.budget →
        exec (.hostRequestAccepted r) ⟨p, rest⟩ =
          .next ⟨retime (reached.foldl (fun t n => post (.watermark n id) t) dirtied), rest⟩ ∧
        dirtyCount dirtied = dirtyCount p + 1) ∧
      (∀ since, b.state = .dirty since → exec (.hostRequestAccepted r) ⟨p, rest⟩ = .next ⟨passed, rest⟩) ∧
      (∀ slot, b.state = .capturing slot →
        exec (.hostRequestAccepted r) ⟨p, rest⟩ = .next ⟨heldAs .capture, rest⟩) ∧
      (∀ slot, b.state = .captured slot →
        exec (.hostRequestAccepted r) ⟨p, rest⟩ = .next ⟨{ passed with
          tbl.recs := p.tbl.recs.set id.region
            ((p.tbl.recs[id.region]).set id.index ⟨.redirtied p.now slot, b.mark⟩) }, rest⟩) ∧
      (∀ since slot, b.state = .redirtied since slot →
        exec (.hostRequestAccepted r) ⟨p, rest⟩ = .next ⟨passed, rest⟩))

/-- The age timer stands at the leading entry's joined time plus the interval, set for that entry, and *age reached* is high at
once for an entry already that old, one with the joined time of the entry before it included; a timer that stands for its entry
already keeps its input (R11). An interval of 0, or no entry of a region that is not SUSPENDED, leaves it stopped. -/
def Obligations.AgeTimerFollowsTheLeadingEntry : Prop :=
  ∀ p : Part,
    (p.tbl.interval = 0 ∨ eligibleQueue p = [] →
      (p.tbl.age.lead = none → p.tbl.age.target = none → retime p = p) ∧
      (p.tbl.age.lead ≠ none ∨ p.tbl.age.target ≠ none → retime p = { p with tbl.age := ⟨none, none, false⟩ })) ∧
    (∀ e more, p.tbl.interval ≠ 0 → eligibleQueue p = e :: more →
      let t := e.joined + p.tbl.interval
      (p.tbl.age.lead = some e → p.tbl.age.target = some t → retime p = p) ∧
      (p.tbl.age.lead ≠ some e ∨ p.tbl.age.target ≠ some t →
        retime p = { p with tbl.age := ⟨some e, some t, decide (t ≤ p.now)⟩ }))

/-- A held entry whose limit is reached is answered with error and leaves the list, HOLD_EXPIRED is posted, and the next entry of
its block is claimed when it was the oldest (R56); before its limit, and with a limit of 0, nothing happens. -/
def Obligations.HoldLimitExpiry : Prop :=
  ∀ (p : Part) (rest : List Instr) (e : Held),
    heldByTag p e.req.tag = some e →
    let t := { p with
      path.held := p.path.held.filter fun x => x.req.tag ≠ e.req.tag
      path.tags := p.path.tags.set e.req.tag .idle
      out.host := p.out.host ++ [⟨e.req.tag, false, []⟩]
      evq := p.evq.post (.holdExpired e.id e.reason e.req.write) p.now }
    (p.path.holdLimit ≠ 0 → e.since + p.path.holdLimit ≤ p.now → oldestOf p e.id = some e →
      AnswersNext (.holdLimitExpiry e.req.tag) p rest (releaseBlock e.id t)) ∧
    (p.path.holdLimit ≠ 0 → e.since + p.path.holdLimit ≤ p.now → oldestOf p e.id ≠ some e →
      AnswersNext (.holdLimitExpiry e.req.tag) p rest t) ∧
    (p.path.holdLimit = 0 ∨ p.now < e.since + p.path.holdLimit →
      AnswersNext (.holdLimitExpiry e.req.tag) p rest p)

/-- The releases of held accesses. The block release (R53): the oldest entry of the block is claimed; one that passes or errs leaves
the list and the next is claimed; the walk stops at the first that is held, which keeps its place and held-since and takes its new
reason (R52), with a demand fill asked for when it is held FILL for an ABSENT block of a RESTORING region (R12, R13, R120). The
budget and freeze releases claim the entries of their reason in arrival order, each with those behind it; the budget walk stops at
the first held BUDGET again, the freeze walk does not stop (R54, R55). The oldest entry of a block whose fill has failed leaves with
an error response when it is held FILL, and those behind it are claimed (R21, R65, R127, R129, R130). -/
def Obligations.BlockReleaseWalk : Prop :=
  ∀ (p : Part) (id : BlockId),
    ((∀ e ∈ p.path.held, e.id ≠ id) → releaseBlock id p = p) ∧
    (∀ e, oldestOf p id = some e →
      let left := { p with path.held := p.path.held.filter fun x => x.req.tag ≠ e.req.tag }
      (answerOf p e.req id = .pass → e.req.write = false →
        releaseBlock id p = releaseBlock id { left with
          path.tags := p.path.tags.set e.req.tag .lane
          path.hostLane := p.path.hostLane ++ [e.req] }) ∧
      (answerOf p e.req id = .pass → e.req.write = true →
        releaseBlock id p = releaseBlock id (forward e.req (performWrite id left))) ∧
      (answerOf p e.req id = .error →
        releaseBlock id p = releaseBlock id { left with
          path.tags := p.path.tags.set e.req.tag .idle
          out.host := p.out.host ++ [⟨e.req.tag, false, []⟩] }) ∧
      (∀ why, answerOf p e.req id = .hold why → why ≠ .fill →
        releaseBlock id p = { p with
          path.held := p.path.held.map fun x => if x.req.tag = e.req.tag then { x with reason := why } else x }) ∧
      (answerOf p e.req id = .hold .fill →
        let held := { p with
          path.held := p.path.held.map fun x => if x.req.tag = e.req.tag then { x with reason := .fill } else x }
        (stateOf p id = some (.absent false) → (p.regs[id.region]).state = .restoring →
          releaseBlock id p = { held with fill := p.fill.asked id }) ∧
        (stateOf p id ≠ some (.absent false) ∨ (p.regs[id.region]).state ≠ .restoring → releaseBlock id p = held)) ∧
      (e.reason ≠ .fill → failFillHolds id p = p) ∧
      (e.reason = .fill → failFillHolds id p = releaseBlock id { left with
        path.tags := p.path.tags.set e.req.tag .idle
        out.host := p.out.host ++ [⟨e.req.tag, false, []⟩] })) ∧
    ((∀ e ∈ p.path.held, e.id ≠ id) → failFillHolds id p = p) ∧
    budgetRelease p = budgetWalk ((p.path.held.filter fun e => e.reason = .budget).map fun e => e.req.tag) p ∧
    budgetWalk [] p = p ∧
    (∀ tag more,
      let t := releaseEntry .budget p tag
      ((∃ e, heldByTag t tag = some e ∧ e.reason = .budget) → budgetWalk (tag :: more) p = t) ∧
      ((∀ e, heldByTag t tag = some e → e.reason ≠ .budget) → budgetWalk (tag :: more) p = budgetWalk more t)) ∧
    freezeRelease p =
      ((p.path.held.filter fun e => e.reason = .freeze).map fun e => e.req.tag).foldl (releaseEntry .freeze) p ∧
    (∀ why tag,
      ((∀ e, heldByTag p tag = some e → e.reason ≠ why) → releaseEntry why p tag = p) ∧
      (∀ e, heldByTag p tag = some e → e.reason = why → releaseEntry why p tag = releaseBlock e.id p))

/-! ### The memory side port -/

/-- What makes the oldest request of a lane grantable (R61, R62), the host accesses forwarded before an own request being the first
`ahead` of those in the host lane, and what a grant does: the first lane in priority order with a grantable request issues its
oldest and moves to the end of the order; with none, nothing changes. -/
def Obligations.ArbiterGrant : Prop :=
  ∀ (p : Part) (rest : List Instr),
    (laneReady p .host = true ↔ p.path.hostLane ≠ []) ∧
    (laneReady p .capture = true ↔ ∃ c more, p.path.captureLane = c :: more ∧ p.path.own[captureOwn c.part] = .free ∧
      ∀ r ∈ p.path.hostLane.take c.ahead, r.addr.toNat / 64 ≠ c.addr / 64) ∧
    (laneReady p .fill = true ↔ ∃ f more, p.path.fillLane = f :: more ∧ p.path.own[fillOwn f.group f.part] = .free ∧
      ∀ r ∈ p.path.hostLane.take f.ahead, r.addr.toNat / 64 ≠ f.addr / 64) ∧
    ((∀ l ∈ p.path.priority, laneReady p l = false) → exec .memoryPortGrant ⟨p, rest⟩ = .next ⟨p, rest⟩) ∧
    (∀ before l after, p.path.priority = before ++ l :: after → (∀ x ∈ before, laneReady p x = false) →
      laneReady p l = true →
      let moved := p.path.priority.filter (· ≠ l) ++ [l]
      (∀ r more, l = .host → p.path.hostLane = r :: more →
        exec .memoryPortGrant ⟨p, rest⟩ = .next ⟨{ p with
          path.priority := moved, path.hostLane := more, path.tags := p.path.tags.set r.tag (.memory r.write)
          path.captureLane := p.path.captureLane.map fun c => { c with ahead := c.ahead - 1 }
          path.fillLane := p.path.fillLane.map fun f => { f with ahead := f.ahead - 1 }
          out.mem := p.out.mem ++ [.host r] }, rest⟩) ∧
      (∀ c more, l = .capture → p.path.captureLane = c :: more →
        exec .memoryPortGrant ⟨p, rest⟩ = .next ⟨{ p with
          path.priority := moved, path.captureLane := more, path.own := p.path.own.set (captureOwn c.part) .live
          out.mem := p.out.mem ++ [.capture (16 + c.part.val) c.addr] }, rest⟩) ∧
      (∀ f more, l = .fill → p.path.fillLane = f :: more →
        exec .memoryPortGrant ⟨p, rest⟩ = .next ⟨{ p with
          path.priority := moved, path.fillLane := more, path.own := p.path.own.set (fillOwn f.group f.part) .live
          out.mem := p.out.mem ++ [.fill (20 + 4 * f.group.val + f.part.val) f.addr f.data] }, rest⟩))

/-- Memory's response to a host access is relayed with its tag, which stops being outstanding; only a read answered OK carries
data; a response whose tag names no outstanding request is discarded (R47, R59). -/
def Obligations.MemoryResponseIsRelayed : Prop :=
  ∀ (p : Part) (rest : List Instr) (tag : Fin 32) (ok : Bool) (data : Payload),
    (∀ (t : Fin 16) (write : Bool), tag.val = t.val → p.path.tags[t] = .memory write →
      AnswersNext (.hostMemoryResponse tag ok data) p rest { p with
        path.tags := p.path.tags.set t .idle
        out.host := p.out.host ++ [⟨t, ok, if ok = true ∧ write = false then data else []⟩] }) ∧
    ((∀ (t : Fin 16) (write : Bool), tag.val = t.val → p.path.tags[t] ≠ .memory write) →
      exec (.hostMemoryResponse tag ok data) ⟨p, rest⟩ = .next ⟨p, rest⟩)

/-! ### Batches and timers -/

/-- A batch starts from IDLE under R69, and its first capture start takes the leading entry (R15, R71, R72): the block becomes
CAPTURING in the next staging slot, the descriptor keeps the joined time and the mark, a CARRY mark becomes PENDING, and the
four capture reads are asked for behind the host accesses forwarded so far (R62). Without the conditions of R69 nothing happens, which
is the model's choice (log 2); the mark in the descriptor is log 26. -/
def Obligations.BatchStart : Prop :=
  ∀ (p : Part) (rest : List Instr),
    let may := p.pres.status = .ready ∧ p.eng.pauseReq = false ∧ p.eng.state = .idle ∧ eligibleQueue p ≠ [] ∧
      (p.tbl.trigger ≤ (eligibleQueue p).length ∨ p.tbl.age.reached = true ∨ p.eng.checkpointReq = true ∨
        0 < markCount p ∨ p.pwr.freeze = true)
    (¬ may → exec .batchStart ⟨p, rest⟩ = .next ⟨p, rest⟩) ∧
    (∀ e more b, may → 0 < p.eng.batchLimit → eligibleQueue p = e :: more → recOf p e.id = some b →
      let mark := if b.mark = some .carry then some .pending else b.mark
      AnswersNext .batchStart p rest { p with
        tbl.recs := p.tbl.recs.set e.id.region
          ((p.tbl.recs[e.id.region]).set e.id.index ⟨.capturing p.eng.staging.length, mark⟩)
        tbl.queue := p.tbl.queue.filter fun x => x.id ≠ e.id
        eng.state := .capture
        eng.checkpointReq := false
        eng.batch := some ⟨p.eng.batchLimit, 1, none, none, none, false, 0, 0⟩
        eng.staging := p.eng.staging ++ [⟨e.id, zeros 256, some e.joined, mark⟩]
        eng.capture := some ⟨e.id, p.eng.staging.length, 0, false⟩
        path.captureLane := p.path.captureLane ++ [⟨0, ramOf p e.id, p.path.hostLane.length⟩,
          ⟨1, ramOf p e.id + 64, p.path.hostLane.length⟩, ⟨2, ramOf p e.id + 128, p.path.hostLane.length⟩,
          ⟨3, ramOf p e.id + 192, p.path.hostLane.length⟩] })

/-- A response of the capture read (R16, R60, R72): each frees its tag and is counted, and the data of an OK one goes to its part
of the payload while none was an error; one to be discarded changes nothing else. -/
def Obligations.CaptureReadProgress : Prop :=
  ∀ (p : Part) (rest : List Instr) (k : Fin 4) (ok : Bool) (data : Payload),
    let freed := { p with path.own := p.path.own.set (captureOwn k) .free }
    (p.path.own[captureOwn k] = .free → p.eng.resetWaiting = false →
      AnswersNext (.captureReadResponse k ok data) p rest p) ∧
    (p.path.own[captureOwn k] = .stale → p.eng.resetWaiting = false →
      AnswersNext (.captureReadResponse k ok data) p rest freed) ∧
    (∀ c, p.path.own[captureOwn k] = .live → p.eng.capture = some c → c.taken < 3 →
      AnswersNext (.captureReadResponse k ok data) p rest { freed with
        eng.capture := some { c with taken := c.taken + 1, error := c.error || !ok }
        eng.staging := if ok = true ∧ c.error = false then
            p.eng.staging.modify c.slot fun x => { x with payload := putPart x.payload k.val data }
          else p.eng.staging })

/-- The end of a capture read (R16, R53, R73, R74): the block is CAPTURED, or DIRTY at the queue's tail with CAPTURE_FAILED and
its slot handed back; the block's held entries are claimed; then the next capture start, the end of CAPTURE (R75), or the pause
that waited (R92). An abort that waited for it is made (R88, R91), and a RESET ENGINE that waited resets the engine, completes, and
lets the write transactions held by SCL through (R97, R190). The batch number after an unknown last committed number is log 30, an
abort before a reset when both waited is log 32, and several held transactions are log 9: the model's choices. -/
def Obligations.CaptureReadEnd : Prop :=
  (∀ (p : Part) (rest : List Instr) (k : Fin 4) (ok : Bool) (data : Payload) (c : CaptureRead) (b : BlockRec) (batch : Batch),
    p.path.own[captureOwn k] = .live → p.eng.capture = some c → c.taken = 3 → recOf p c.id = some b →
    p.eng.batch = some batch →
    let good := releaseBlock c.id { p with
      path.own := p.path.own.set (captureOwn k) .free
      tbl.recs := p.tbl.recs.set c.id.region ((p.tbl.recs[c.id.region]).set c.id.index ⟨.captured c.slot, b.mark⟩)
      eng.capture := none
      eng.staging := p.eng.staging.modify c.slot fun x => { x with payload := putPart x.payload k.val data } }
    let bad (staging : List Staged) := releaseBlock c.id { p with
      path.own := p.path.own.set (captureOwn k) .free
      tbl.recs := p.tbl.recs.set c.id.region ((p.tbl.recs[c.id.region]).set c.id.index ⟨.dirty p.now, b.mark⟩)
      tbl.queue := p.tbl.queue ++ [⟨c.id, p.now⟩]
      eng.capture := none
      eng.staging := staging.take c.slot
      evq := p.evq.post (.captureFailed c.id) p.now }
    let aborted (u : Part) :=
      let v := abortClaim { u with eng.abortWaiting := false, path.captureLane := [] }
      let posted := if u.eng.staging = [] then v.evq else v.evq.post (.batchAborted batch.number .moduleLost) v.now
      { v with
        eng.staging := []
        eng.batch := none
        eng.state := if p.eng.pauseReq then .paused .idle else .idle
        evq := if p.eng.pauseReq then posted.post (.paused .idle) v.now else posted }
    let goesOn (u : Part) :=
      (p.eng.abortWaiting = false → p.eng.resetWaiting = false →
        (p.eng.pauseReq = true → AnswersNext (.captureReadResponse k ok data) p rest { u with
          eng.state := .paused .nextCapture, evq := u.evq.post (.paused .nextCapture) u.now }) ∧
        (∀ e, p.eng.pauseReq = false → batch.starts < batch.limit → leading u = some e →
          AnswersNext (.captureReadResponse k ok data) p rest (captureEntry e u)) ∧
        (p.eng.pauseReq = false → (batch.limit ≤ batch.starts ∨ leading u = none) → u.eng.staging ≠ [] →
          AnswersNext (.captureReadResponse k ok data) p rest { u with
            eng.state := .journal
            eng.batch := some { batch with
              number := some ((p.eng.lastCommitted.map fun n => n + 1).getD 1), count := some u.eng.staging.length } }) ∧
        (p.eng.pauseReq = false → (batch.limit ≤ batch.starts ∨ leading u = none) → u.eng.staging = [] →
          AnswersNext (.captureReadResponse k ok data) p rest { u with eng.state := .idle, eng.batch := none })) ∧
      (p.eng.abortWaiting = true → p.eng.resetWaiting = false →
        AnswersNext (.captureReadResponse k ok data) p rest (aborted u)) ∧
      (p.eng.resetWaiting = true →
        let w := engineReset (settle (if p.eng.abortWaiting then aborted u else u))
        exec (.captureReadResponse k ok data) ⟨p, rest⟩ =
          .next ⟨releaseScl (settle { w with mbox := w.mbox.doneWith [] }), rest⟩)
    (c.error = false → ok = true → goesOn good) ∧
    (c.error = true → goesOn (bad p.eng.staging)) ∧
    (c.error = false → ok = false → goesOn (bad p.eng.staging))) ∧
  (∀ (p : Part) (rest : List Instr),
    let released := { p with mbox.sclHeld := [], mbox.completing := false }
    releaseScl p = p.mbox.sclHeld.foldl (fun t bytes => orHold bytes (windowTransaction bytes) t) released ∧
    ∀ bytes, exec (.windowWrite p.mbox.address bytes) ⟨p, rest⟩ = .next ⟨orHold bytes (windowTransaction bytes) p, rest⟩)

/-- The timers of the block table and the engine at their expiry (R11, R89, R93, R108), and before it. -/
def Obligations.EngineTimersExpire : Prop :=
  ∀ (p : Part) (rest : List Instr),
    (∀ t, p.tbl.age.target = some t → t ≤ p.now →
      exec .ageTimerExpiry ⟨p, rest⟩ = .next ⟨{ p with tbl.age.reached := true }, rest⟩) ∧
    ((∀ t, p.tbl.age.target = some t → p.now < t) → exec .ageTimerExpiry ⟨p, rest⟩ = .next ⟨p, rest⟩) ∧
    (∀ t, p.eng.backoff = some t → t ≤ p.now →
      (p.eng.state = .backoff → p.eng.pauseReq = false →
        exec .backoffExpiry ⟨p, rest⟩ =
          .next ⟨{ p with eng.backoff := none, eng.state := .idle, eng.batch := none }, rest⟩) ∧
      (p.eng.state = .paused .backoff →
        exec .backoffExpiry ⟨p, rest⟩ = .next ⟨{ p with eng.backoff := none, eng.state := .paused .idle }, rest⟩)) ∧
    ((∀ t, p.eng.backoff = some t → p.now < t) → exec .backoffExpiry ⟨p, rest⟩ = .next ⟨p, rest⟩) ∧
    (∀ t, p.eng.retryTimer = some t → t ≤ p.now →
      exec .recoveryRetryExpiry ⟨p, rest⟩ = .next ⟨{ p with eng.retryTimer := none }, rest⟩) ∧
    ((∀ t, p.eng.retryTimer = some t → p.now < t) → exec .recoveryRetryExpiry ⟨p, rest⟩ = .next ⟨p, rest⟩)

/-- Recovery starts under the conditions of R108, from the first slot; the backoff timer stops, and an in-doubt batch is still to be
settled (R110). That the backoff timer stops from PAUSED with remembered point BACKOFF as well is log 51, and that nothing happens
without the conditions is log 2: the model's choices. -/
def Obligations.RecoveryStart : Prop :=
  ∀ (p : Part) (rest : List Instr),
    let may := p.pres.status = .unverified ∧ p.link.state = .ready ∧ p.eng.journalHold = false ∧ p.eng.retryTimer = none ∧
      (p.eng.state = .idle ∨ p.eng.state = .backoff ∨ p.eng.state = .inDoubt ∨ p.eng.state = .paused .idle ∨
        p.eng.state = .paused .backoff)
    (¬ may → exec .recoveryStart ⟨p, rest⟩ = .next ⟨p, rest⟩) ∧
    (may → exec .recoveryStart ⟨p, rest⟩ = .next ⟨{ p with
      eng.state := .recover
      eng.backoff := none
      eng.recovery := some {
        unsettled := decide (p.eng.state = .inDoubt)
        confirmed := false
        fromPaused := decide (p.eng.state = .paused .idle ∨ p.eng.state = .paused .backoff)
        newest := none
        step := .readA } }, rest⟩)

/-! ### Fills -/

/-- A response to a fill write (R128, R129): it frees its tag and is counted; with the fourth the block is CLEAN, its slot FREE, the
absent count one less, and its held entries are claimed, or, when one was an error, it is ABSENT at the fill queue's tail with its
FILL-held accesses answered with error and FILL_FAILED posted. A response to be discarded frees its tag, with which the group may be
taken (R60, R122). A fill run that fails (R130): each of its blocks still FILLING is ABSENT and readable with its slot FREE, the
fill writes not yet issued withdrawn and the responses to those issued to be discarded; the blocks join the fill queue's tail, their
FILL-held accesses are answered with error, and one FILL_FAILED names the first. That the region's count is checked before the held
entries are claimed, and those answered before FILL_FAILED is posted, is log 7, that the failed blocks are gone through in home
order is log 52, and which blocks fail at a module status on END RUN is log 22: the model's choices. -/
def Obligations.FillWriteResponse : Prop :=
  (∀ (p : Part) (rest : List Instr) (g : Fin 2) (k : Fin 4) (ok : Bool),
    let freed := { p with path.own := p.path.own.set (fillOwn g k) .free }
    (p.path.own[fillOwn g k] = .stale → exec (.fillWriteResponse g k ok) ⟨p, rest⟩ = .next ⟨takeGroups freed, rest⟩) ∧
    (p.path.own[fillOwn g k] = .free → exec (.fillWriteResponse g k ok) ⟨p, rest⟩ = .next ⟨p, rest⟩) ∧
    (∀ i id data n err b, p.path.own[fillOwn g k] = .live → slotOfGroup p g = some i →
      p.fill.slots[i] = .writing id data g n err → recOf p id = some b →
      let ended (st : BlockState) := endInRun id { freed with
        fill.slots := p.fill.slots.set i .free
        tbl.recs := p.tbl.recs.set id.region ((p.tbl.recs[id.region]).set id.index ⟨st, b.mark⟩) }
      (n < 3 → AnswersNext (.fillWriteResponse g k ok) p rest { freed with
        fill.slots := p.fill.slots.set i (.writing id data g (n + 1) (err || !ok)) }) ∧
      (n = 3 → err = false → ok = true → b.state = .filling →
        AnswersNext (.fillWriteResponse g k ok) p rest
          (takeGroups (releaseBlock id (absentCheck id.region (ended .clean)))) ∧
        absentCount (ended .clean) id.region + 1 = absentCount p id.region) ∧
      (n = 3 → (err = true ∨ ok = false) →
        AnswersNext (.fillWriteResponse g k ok) p rest
          (takeGroups (post (.fillFailed id .memory) (failFillHolds id { ended (.absent false) with
            fill.queue := p.fill.queue ++ [id] })))))) ∧
  (∀ (s : Part) (id : BlockId) (i : Fin 8) (b : BlockRec),
    recOf s id = some b →
    let t := revertBlock id i s
    t.fill = { s.fill with slots := s.fill.slots.set i .free, arrivals := s.fill.arrivals.filter (· ≠ i) } ∧
    recOf t id = some ⟨.absent false, b.mark⟩ ∧ (∀ x, x ≠ id → recOf t x = recOf s x) ∧
    ((s.fill.slots[i]).group = none → t.path = s.path) ∧
    (∀ g, (s.fill.slots[i]).group = some g →
      t.path.fillLane = s.path.fillLane.filter (fun f => f.group ≠ g) ∧
      (∀ k : Fin 4, t.path.own[fillOwn g k] = staleTag s.path.own[fillOwn g k]) ∧
      (∀ (h : Fin 2) (k : Fin 4), h ≠ g → t.path.own[fillOwn h k] = s.path.own[fillOwn h k]))) ∧
  (∀ (s : Part) (why : FillFail),
    (∀ first others,
      let xs := first :: others
      let t := xs.foldl (fun t x => revertBlock x.1 x.2 t) s
      let u := { t with fill.queue := t.fill.queue ++ xs.map fun x => x.1 }
      failBlocks xs why s = takeGroups (post (.fillFailed first.1 why) (xs.foldl (fun t x => failFillHolds x.1 t) u))) ∧
    (∀ x, s.fill.demandRun = some x → failDemand why s = failBlocks [x] why { s with fill.demandRun := none }) ∧
    (∀ run, s.fill.background = some run →
      let filling (xs : List RunBlock) := (xs.filter fun x => !x.ended).map fun x => (x.id, x.slot)
      let ended := { s with fill.background := none, fill.lastBlock := none }
      failBackground why s = failBlocks (filling run.blocks) why ended ∧
      failUnreceived why s = failBlocks (filling (run.blocks.drop run.next)) why ended ∧
      failYielded s = if run.yielded then failBackground .notReady s else s))

/-- What the block table's counts signal: a region's absent count at 0 (R40), the last sync mark gone (R27, R189), the dirty count
at 0 or raised from 0 under the freeze (R140), and the dirty count going from at or above the budget to below it (R6). -/
def Obligations.SignalsOfTheCounts : Prop :=
  ∀ (p : Part) (r : Fin 8),
    (absentCount p r ≠ 0 → absentCheck r p = p) ∧
    (absentCount p r = 0 → (p.regs[r]).state = .off ∨ (p.regs[r]).state = .mirrored → absentCheck r p = p) ∧
    (absentCount p r = 0 → (p.regs[r]).state = .restoring →
      absentCheck r p = { p with
        regs := p.regs.set r { p.regs[r] with state := .mirrored }
        evq := p.evq.post (.restoreDone r) p.now }) ∧
    (∀ why, absentCount p r = 0 → (p.regs[r]).state = .suspended why →
      absentCheck r p = { p with evq := p.evq.post (.restoreDone r) p.now }) ∧
    (p.mbox.long ≠ some (.sync, .running) ∨ markCount p ≠ 0 → syncCheck p = p) ∧
    (p.mbox.long = some (.sync, .running) → markCount p = 0 → syncCheck p = { p with
      mbox.long := some (.sync, .done)
      mbox.status := if p.mbox.lastLong then .done else p.mbox.status
      mbox.lastLong := false
      evq := p.evq.post (.commandDone .sync .done none) p.now }) ∧
    (p.pwr.freeze = false ∨ p.pwr.final = .none ∨ p.pwr.final = .done ∨ dirtyCount p ≠ 0 → finalCheck p = p) ∧
    (p.pwr.freeze = true → p.pwr.final = .running ∨ p.pwr.final = .late → dirtyCount p = 0 → finalCheck p = { p with
      pwr.final := .done
      evq := p.evq.post (.finalDone p.eng.lastCommitted) p.now }) ∧
    (p.pwr.freeze = false ∨ p.pwr.final ≠ .done ∨ dirtyCount p = 0 → finalRise p = p) ∧
    (p.pwr.freeze = true → p.pwr.final = .done → dirtyCount p ≠ 0 → finalRise p = { p with
      pwr.final := if p.pwr.deadline = none then .late else .running }) ∧
    (∀ count budget, (count < budget ∨ p.tbl.budget ≤ dirtyCount p → budgetCheck count budget p = p) ∧
      (budget ≤ count → dirtyCount p < p.tbl.budget → budgetCheck count budget p = budgetRelease p))

/-! ### The module link -/

/-- A grant (R162, R163): identification alone while the link is IDENTIFYING or LOST; with the link READY the first ready
requester of FORMAT, recovery, demand fill, checkpoint and background fill, FORMAT and recovery holding the link alone. The
granted request is the current one, its retry counter is 0 and its frame begins. With a request in flight, or with none ready,
nothing is granted, which is the model's choice (log 2); that the frame begins within the grant is log 12, and that the attempts
rise there is log 35. A new background run (R125): the eligible head and what follows it in the eligible queue with the next block
index of the same region, as far as that goes and at most the least of 8, the run limit and the FREE slots (entries of regions not
RESTORING are passed over, log 20); its blocks are FILLING, leave the fill queue and take the lowest FREE slots, and the read is READ
BLOCK for one and READ RUN for more. -/
def Obligations.LinkGrantOrder : Prop :=
  (∀ (p : Part) (rest : List Instr),
    let granted (s : Part) (q : LinkReq) := { s with
      link.current := some q
      link.retries := 0
      link.state := if s.link.state = .ready then .request else s.link.state
      link.phase := .frame .request
      link.wait := none
      out.link := s.out.link ++ [.frame q.code q.arg] }
    (p.link.current ≠ none → AnswersNext .linkGrant p rest p) ∧
    (p.link.current = none → p.link.state = .identifying ∨ p.link.state = .lost →
      (p.pres.ident = some .identify → AnswersNext .linkGrant p rest
        { granted p (request .identification .identify 0 1) with
          link.attempts := p.link.attempts + 1, link.rate := .slow }) ∧
      (p.pres.ident = some .header →
        AnswersNext .linkGrant p rest (granted p (request .identification .readBlock 0 1))) ∧
      (p.pres.ident = some .slotA →
        AnswersNext .linkGrant p rest (granted p (request .identification .readBlock 1 1))) ∧
      (∀ a, p.pres.ident = some (.slotB a) →
        AnswersNext .linkGrant p rest (granted p (request .identification .readBlock 2 1)))) ∧
    (p.link.current = none → p.link.state = .ready →
      (∀ f, p.mbox.format = some f → AnswersNext .linkGrant p rest (granted p (formatRequestOf p f))) ∧
      (p.mbox.format = none → p.eng.state = .recover → ∀ q, recoveryRequest p = some q →
        q.code.isWrite = false ∨ p.pres.status = .unverified ∨ p.pres.status = .ready →
        AnswersNext .linkGrant p rest (granted p q)) ∧
      (p.mbox.format = none → p.eng.state ≠ .recover →
        (∀ id more i others, demandReady p = true → p.fill.demand = id :: more → freeSlots p = i :: others →
          AnswersNext .linkGrant p rest (granted { setState id .filling p with
            fill.slots := p.fill.slots.set i (.reserved id)
            fill.demand := more
            fill.demandRun := some (id, i) } (request .demand .readBlock (homeOf p id) 1))) ∧
        (demandReady p = false →
          (∀ q, p.pres.status = .ready → engineRequest p = some q → AnswersNext .linkGrant p rest (granted p q)) ∧
          (p.pres.status ≠ .ready ∨ engineRequest p = none →
            (∀ run x, continueReady p = true → p.fill.background = some run → run.blocks[run.next]? = some x →
              AnswersNext .linkGrant p rest (granted { p with fill.background := some { run with yielded := false } }
                (request .background (if run.blocks.length - run.next = 1 then .readBlock else .readRun) (homeOf p x.id)
                  (run.blocks.length - run.next)))) ∧
            (∀ id more, continueReady p = false → newRunReady p = true → eligibleFill p = id :: more →
              let run := (runBlocks p).zip (freeSlots p)
              let started := run.foldl
                (fun t x => { setState x.1 .filling t with fill.slots := t.fill.slots.set x.2 (.reserved x.1) }) p
              AnswersNext .linkGrant p rest (granted { started with
                  fill.queue := p.fill.queue.filter fun x => !(runBlocks p).contains x
                  fill.background := some ⟨run.map fun x => ⟨x.1, x.2, false⟩, 0, false⟩ }
                (request .background (if run.length = 1 then .readBlock else .readRun) (homeOf p id) run.length))) ∧
            (continueReady p = false → newRunReady p = false → AnswersNext .linkGrant p rest p)))))) ∧
  (∀ (p : Part) (id : BlockId) (more : List BlockId),
    eligibleFill p = id :: more →
    let run := runBlocks p
    let most := min (min 8 (runLimit p)) (freeSlots p).length
    let follows (a b : BlockId) := b.region = a.region ∧ b.index = a.index + 1
    run <+: eligibleFill p ∧ 0 < run.length ∧ run.length ≤ max 1 most ∧
    (∀ j a b, run[j]? = some a → run[j + 1]? = some b → follows a b) ∧
    (∀ a b, run.getLast? = some a → (eligibleFill p)[run.length]? = some b → follows a b → most ≤ run.length))

/-- The steps with which the part finishes sending (R148, R149): a request frame starts the answer timeout, a write burst the
acknowledge timeout of 80 link clocks, a read acknowledge the data wait of 2^k; a JOURNAL run's last slot completes the entry
check (R75). In any other phase of the link they are no steps of it (log 2). -/
def Obligations.SendingStepsStartTheirWaits : Prop :=
  ∀ (p : Part) (rest : List Instr),
    (∀ k, p.link.phase = .frame k →
      exec .requestFrameSent ⟨p, rest⟩ = .next ⟨{ p with link.phase := .answer k, link.wait := some 80 }, rest⟩) ∧
    ((∀ k, p.link.phase ≠ .frame k) → exec .requestFrameSent ⟨p, rest⟩ = .next ⟨p, rest⟩) ∧
    (p.link.phase = .readAck → exec .readAcknowledgeSent ⟨p, rest⟩ =
      .next ⟨{ p with link.phase := .readBurst, link.wait := some (2 ^ p.link.waitExp) }, rest⟩) ∧
    (p.link.phase ≠ .readAck → exec .readAcknowledgeSent ⟨p, rest⟩ = .next ⟨p, rest⟩) ∧
    (p.link.phase ≠ .writeBurst → exec .writeBurstSent ⟨p, rest⟩ = .next ⟨p, rest⟩) ∧
    (∀ q, p.link.phase = .writeBurst → p.link.current = some q →
      (q.requester ≠ .checkpoint ∨ q.code ≠ .writeRun ∨ q.withdrawn = true ∨ p.eng.state ≠ .journal →
        q.code ≠ .readRun → exec .writeBurstSent ⟨p, rest⟩ =
          .next ⟨{ p with link.phase := .writeAck, link.wait := some 80 }, rest⟩) ∧
      (∀ batch n, q.requester = .checkpoint → q.code = .writeRun → q.withdrawn = false → p.eng.state = .journal →
        p.eng.batch = some batch → batch.number = some n →
        exec .writeBurstSent ⟨p, rest⟩ = .next ⟨{ p with
          link.phase := .writeAck
          link.wait := some 80
          eng.batch := some { batch with
            check := if batch.sent + q.pos + 1 = p.eng.staging.length then some (entryCheck n p.eng.staging)
              else batch.check } }, rest⟩))

/-- The answer to the request frame, once taken (R148, R151, R153, R154, R160): OK brings the single burst to be awaited or sent,
or opens the run; a request withdrawn meanwhile is ended as R160 gives; a module status ends the request with that status, and
IDENTIFY answered leaves no run known to be open (R155). A READ BLOCK withdrawn meanwhile waits for its burst and a WRITE BLOCK
withdrawn sends none (log 13); a WRITE BLOCK no longer allowed sends none either (log 19). What each requester makes of a module
status handed to it (R77, R80, R81, R86, R87, R116, R130, R173, R199), one on the END RUN of a background run being log 22; a request
withdrawn, or one whose requester gave up its outcome, hands none (R116, R160, R161). -/
def Obligations.AnswerTaken : Prop :=
  (∀ (p : Part) (rest : List Instr) (q : LinkReq) (f : AnswerFrame),
    p.link.phase = .answer .request → p.link.current = some q → answerCheck f.code f.status f.arg = f.check →
    f.code = q.code.toByte → f.stop = true →
    let awaited := { p with link.phase := .readBurst, link.wait := some (2 ^ p.link.waitExp) }
    let sent := { p with
      link.phase := .writeBurst
      link.wait := none
      out.link := p.out.link ++ [.burst (writeContent p q).1 (writeContent p q).2] }
    let closing (why : CloseWhy) := { p with
      link.state := .run, link.runOpen := true, link.phase := .frame .endRun, link.wait := none, link.close := some why
      out.link := p.out.link ++ [.frame .endRun 0] }
    (f.status = 0 →
      (q.code = .identify → AnswersNext (.answerTaken f) p rest { awaited with link.runOpen := false }) ∧
      (q.code = .readBlock → AnswersNext (.answerTaken f) p rest awaited) ∧
      (q.code = .writeBlock → q.withdrawn = false → writeAllowed p q = true → AnswersNext (.answerTaken f) p rest sent) ∧
      (q.code = .writeBlock → q.withdrawn = true ∨ writeAllowed p q = false →
        AnswersNext (.answerTaken f) p rest (endRequest p)) ∧
      (q.code = .readRun → q.withdrawn = false →
        AnswersNext (.answerTaken f) p rest { awaited with link.state := .run, link.runOpen := true }) ∧
      (q.code = .writeRun → q.withdrawn = false → writeAllowed p q = true →
        AnswersNext (.answerTaken f) p rest { sent with link.state := .run, link.runOpen := true }) ∧
      (q.code = .writeRun → q.withdrawn = false → writeAllowed p q = false →
        AnswersNext (.answerTaken f) p rest (closing .abandoned)) ∧
      (q.code = .readRun ∨ q.code = .writeRun → q.withdrawn = true →
        AnswersNext (.answerTaken f) p rest (closing .withdrawn))) ∧
    (∀ st : LinkStatus, f.status = st.toByte →
      AnswersNext (.answerTaken f) p rest
        (deliver q (.status st false)
          (endRequest (if q.code = .identify then { p with link.runOpen := false } else p))))) ∧
  (∀ (p : Part) (q : LinkReq),
    (q.withdrawn = true ∨ q.discard = true → ∀ o, deliver q o p = p) ∧
    (q.withdrawn = false → q.discard = false → ∀ (st : LinkStatus) (atEnd : Bool),
      let s := deliver q (.status st atEnd) p
      (q.requester = .identification → s = identFailed (.linkStatus st) p) ∧
      (q.requester = .format → s = formatFailed q.code (.status st) p) ∧
      (∀ rec, q.requester = .recovery → p.eng.recovery = some rec →
        s = if rec.unsettled then recoveryFailed p else recoveryHalted st p) ∧
      (q.requester = .demand → s = failDemand .moduleStatus p) ∧
      (q.requester = .background →
        s = if atEnd then failUnreceived .moduleStatus p else failBackground .moduleStatus p) ∧
      (q.requester = .checkpoint →
        (p.eng.state = .journal ∨ p.eng.state = .commit → s = countedAbort .moduleStatus p) ∧
        (p.eng.state = .verify → s = enterInDoubt p) ∧
        (p.eng.state = .apply ∨ p.eng.state = .retire → s = applyFailed p))))

/-- A transport error of a single-block request (R148 to R150, R158): its class by what was found, the first check first; with a
retry remaining the whole request is sent again, from BUSY back in REQUEST; otherwise the request ends FAILED with its class and
LINK_ERROR names the class and the request code. A counter that a lowered retry count has left above it ends the request as one
equal to it does (log 41). A withdrawn request ends at its error, and a withdrawn WRITE BLOCK at the end of its busy wait (R160); a
write no longer allowed is not sent again (log 19). A write acknowledge of code 11 is FRAMING, and so is one whose stop marker is
wrong (log 31). A burst with both its check and its stop marker wrong is ANSWER_CHECK (log 50). What each requester makes of the
outcome FAILED (R77, R80, R81, R86, R87, R116, R130, R173, R199), which has no class when RESET LINK abandoned the request. -/
def Obligations.TransportErrorOfASingleBlockRequest : Prop :=
  (∀ (p : Part) (rest : List Instr) (q : LinkReq),
    p.link.current = some q → q.code = .identify ∨ q.code = .readBlock ∨ q.code = .writeBlock →
    let givenUp := q.withdrawn = true ∨ (q.code = .writeBlock ∧ writeAllowed p q = false)
    let ends (c : Instr) (cls : ErrClass) : Prop :=
      (givenUp → AnswersNext c p rest (endRequest p)) ∧
      (¬ givenUp → p.link.retries < p.link.retryCount → AnswersNext c p rest { p with
        link.state := if p.link.state = .busy then .request else p.link.state
        link.phase := .frame .request
        link.wait := none
        link.retries := p.link.retries + 1
        link.close := none
        link.proc := none
        out.link := p.out.link ++ [.frame q.code q.arg] }) ∧
      (¬ givenUp → p.link.retryCount ≤ p.link.retries → AnswersNext c p rest (deliver q (.failed (some cls)) { p with
        link.current := none
        link.state := p.link.state.afterRequest
        link.phase := .idle
        link.wait := none
        link.close := none
        link.proc := none
        evq := p.evq.post (.linkError cls q.code) p.now }))
    (p.link.phase = .frame .request → ends .mioContention .contention) ∧
    (p.link.phase = .answer .request ∨ p.link.phase = .writeAck → ends .answerTimeout .answerTimeout) ∧
    (∀ f, p.link.phase = .answer .request →
      (answerCheck f.code f.status f.arg ≠ f.check → ends (.answerTaken f) .answerCheck) ∧
      (answerCheck f.code f.status f.arg = f.check → f.code ≠ q.code.toByte → ends (.answerTaken f) .echoMismatch) ∧
      (answerCheck f.code f.status f.arg = f.check → f.code = q.code.toByte → f.stop = false ∨ 4 < f.status.toNat →
        ends (.answerTaken f) .framing)) ∧
    (∀ b, p.link.phase = .readBurst →
      (b.blank ≠ 0 ∧ b.blank ≠ 1 ∨ transferCheck [b.blank] b.payload b.tag ≠ b.check →
        ends (.readBurstEnd b) .answerCheck) ∧
      (b.blank = 0 ∨ b.blank = 1 → transferCheck [b.blank] b.payload b.tag = b.check → b.stop ≠ 0xF →
        ends (.readBurstEnd b) .framing)) ∧
    (p.link.phase = .readBurst → ends .dataTimeout .dataTimeout) ∧
    (∀ code, p.link.phase = .writeAck → code = 0 ∨ code = 2 → ends (.writeAckTaken code true) .burstReject) ∧
    (p.link.phase = .writeAck → ends (.writeAckTaken 3 true) .framing ∧ ∀ code, ends (.writeAckTaken code false) .framing) ∧
    (p.link.phase = .busy → ends .busyTimeout .busyTimeout) ∧
    (p.link.phase = .busy → q.code = .writeBlock → q.withdrawn = true → AnswersNext .busyEnd p rest (endRequest p))) ∧
  (∀ (p : Part) (q : LinkReq) (cls : Option ErrClass),
    q.withdrawn = false → q.discard = false →
    let s := deliver q (.failed cls) p
    (q.requester = .identification → s = identFailed .noAnswer p) ∧
    (q.requester = .format →
      (∀ c, cls = some c → s = formatFailed q.code (.cls c) p) ∧ (cls = none → s = formatFailed q.code .resetLink p)) ∧
    (q.requester = .recovery → s = recoveryFailed p) ∧
    (q.requester = .demand → s = failDemand .link p) ∧ (q.requester = .background → s = failBackground .link p) ∧
    (q.requester = .checkpoint →
      (p.eng.state = .journal → s = countedAbort .link p) ∧
      (p.eng.state = .commit → p.pres.status = .ready → cls ≠ none → s = { p with
        eng.state := .verify, eng.verifyA := none }) ∧
      (p.eng.state = .commit → p.pres.status ≠ .ready ∨ cls = none → s = enterInDoubt p) ∧
      (p.eng.state = .verify → s = enterInDoubt p) ∧
      (p.eng.state = .apply ∨ p.eng.state = .retire → s = applyFailed p)))

/-- A transport error inside a run begins the run close procedure (R157): CONTENTION sends no END RUN; otherwise QUERY is sent, and
by its answer END RUN when a run is open, or the error is taken when none is; a QUERY not answered, or whose answer fails a check
(R152), loses the link, and so does one answered with a module status (log 15). Contention on the request frame of a run is an error
taken at once (R158, log 14). A wrong stop marker of a write acknowledge is FRAMING by log 31, and a burst with both its check and
its stop marker wrong ANSWER_CHECK by log 50. A run whose opening answer was lost stays in REQUEST meanwhile (R147, log 40). A lost
link (R159): RUN_CLOSE_ERROR and LINK_LOST are posted, the link is LOST with identification afresh, the request ends FAILED and a
READY module becomes UNVERIFIED; when a requester is to take both, the model leaves their order free (log 6, DESIGN CHOICE). The
answer to END RUN (R155 to R157): OK closes a read run, and a write run once its busy wait has ended, with the outcome DONE,
YIELDED, WITHDRAWN or ABANDONED by why END RUN was sent, or, sent by the procedure, with the error taken; a module status posts
RUN_CLOSE_ERROR and ends the run with outcome STATUS; a transport error begins the procedure, anew and with the retry counter raised
where it had sent that END RUN, and without another END RUN once the counter has reached the retry count (log 16; log 41 for one
above it). The error taken (R158): a read run with every burst handed is DONE; a withdrawn run ends, a write no longer allowed is
abandoned (log 19); with a retry remaining a write run is sent again from its first block, a read run from the block whose burst
failed, or that block by READ BLOCK when it is the last (log 42); otherwise the request is FAILED with LINK_ERROR. A busy wait of a
run that times out is one error of it (log 17). -/
def Obligations.RunCloseProcedure : Prop :=
  (∀ (p : Part) (rest : List Instr) (q : LinkReq),
    p.link.current = some q → q.code = .readRun ∨ q.code = .writeRun →
    let spent := p.link.retryCount ≤ p.link.retries
    let queried (cls : ErrClass) (noEnd : Bool) (retries : Nat) := { p with
      link.phase := .frame .query, link.wait := none, link.proc := some ⟨cls, noEnd⟩, link.close := none
      link.retries := retries
      out.link := p.out.link ++ [.frame .query 0] }
    let begins (c : Instr) (cls : ErrClass) : Prop := AnswersNext c p rest (queried cls false p.link.retries)
    let endRunFails (c : Instr) (cls : ErrClass) : Prop :=
      (p.link.proc = none → begins c cls) ∧
      (∀ proc, p.link.proc = some proc →
        (¬ spent → AnswersNext c p rest (queried cls false (p.link.retries + 1))) ∧
        (spent → AnswersNext c p rest (queried cls true p.link.retries)))
    let errorTaken (c : Instr) (cls : ErrClass) (s : Part) : Prop :=
      let again (r : LinkReq) := AnswersNext c p rest { s with
        link.current := some r
        link.state := if s.link.state = .busy then .request else s.link.state
        link.phase := .frame .request
        link.wait := none
        link.retries := p.link.retries + 1
        link.close := none
        link.proc := none
        out.link := p.out.link ++ [.frame r.code r.arg] }
      let allowed := q.code = .writeRun → writeAllowed p q = true
      (q.withdrawn = true ∨ ¬ allowed → AnswersNext c p rest (endRequest s)) ∧
      (q.withdrawn = false → allowed →
        (¬ spent →
          (q.code = .writeRun → again { q with arg := q.first, pos := 0 }) ∧
          (q.code = .readRun → q.pos + 1 ≠ q.count → again { q with arg := q.first + q.pos }) ∧
          (q.code = .readRun → q.pos + 1 = q.count → again { q with code := .readBlock, arg := q.first + q.pos })) ∧
        (spent → AnswersNext c p rest (deliver q (.failed (some cls)) { endRequest s with
          evq := p.evq.post (.linkError cls q.code) p.now })))
    let runIsClosed (c : Instr) (cls : ErrClass) (s : Part) : Prop :=
      let t := { s with link.proc := none, link.close := none, link.runOpen := false }
      (q.code = .readRun → q.pos = q.count → AnswersNext c p rest (deliver q .done (endRequest t))) ∧
      (q.code = .writeRun ∨ q.pos ≠ q.count → errorTaken c cls t)
    let closes (c : Instr) (s : Part) : Prop :=
      (p.link.close = some .last → AnswersNext c p rest (deliver q .done (endRequest s))) ∧
      (p.link.close = some .yield → AnswersNext c p rest (deliver q (.yielded q.pos) (endRequest s))) ∧
      (p.link.close = some .withdrawn ∨ p.link.close = some .abandoned → AnswersNext c p rest (endRequest s)) ∧
      (∀ proc, p.link.close = some .procedure → p.link.proc = some proc → runIsClosed c proc.cls s)
    (p.link.phase = .answer .request ∨ p.link.phase = .writeAck → begins .answerTimeout .answerTimeout) ∧
    (p.link.phase = .readBurst → begins .dataTimeout .dataTimeout) ∧
    (∀ f, p.link.phase = .answer .request →
      (answerCheck f.code f.status f.arg ≠ f.check → begins (.answerTaken f) .answerCheck) ∧
      (answerCheck f.code f.status f.arg = f.check → f.code ≠ q.code.toByte → begins (.answerTaken f) .echoMismatch) ∧
      (answerCheck f.code f.status f.arg = f.check → f.code = q.code.toByte → f.stop = false ∨ 4 < f.status.toNat →
        begins (.answerTaken f) .framing)) ∧
    (p.link.phase = .frame .request → errorTaken .mioContention .contention p) ∧
    (∀ code, p.link.phase = .writeAck → code = 0 ∨ code = 2 → begins (.writeAckTaken code true) .burstReject) ∧
    (p.link.phase = .writeAck → begins (.writeAckTaken 3 true) .framing ∧ ∀ code, begins (.writeAckTaken code false) .framing) ∧
    (∀ b, p.link.phase = .readBurst →
      (b.blank ≠ 0 ∧ b.blank ≠ 1 ∨ transferCheck [b.blank] b.payload b.tag ≠ b.check → begins (.readBurstEnd b) .answerCheck) ∧
      (b.blank = 0 ∨ b.blank = 1 → transferCheck [b.blank] b.payload b.tag = b.check → b.stop ≠ 0xF →
        begins (.readBurstEnd b) .framing)) ∧
    (p.link.phase = .answer .endRun → endRunFails .answerTimeout .answerTimeout) ∧
    (p.link.phase = .frame .endRun →
      (p.link.proc = none ∨ spent → AnswersNext .mioContention p rest (loseLink false .contention p)) ∧
      (p.link.proc ≠ none → ¬ spent → AnswersNext .mioContention p rest
        (loseLink false .contention { p with link.retries := p.link.retries + 1 }))) ∧
    (∀ f, p.link.phase = .answer .endRun →
      let passes := answerCheck f.code f.status f.arg = f.check ∧ f.code = 7 ∧ f.stop = true
      let s := { p with link.runOpen := false }
      (answerCheck f.code f.status f.arg ≠ f.check → endRunFails (.answerTaken f) .answerCheck) ∧
      (answerCheck f.code f.status f.arg = f.check → f.code ≠ 7 → endRunFails (.answerTaken f) .echoMismatch) ∧
      (answerCheck f.code f.status f.arg = f.check → f.code = 7 → f.stop = false ∨ 4 < f.status.toNat →
        endRunFails (.answerTaken f) .framing) ∧
      (passes → f.status = 0 → q.code = .writeRun → AnswersNext (.answerTaken f) p rest { s with
        link.state := .busy, link.phase := .busy, link.wait := some (2 ^ p.link.waitExp) }) ∧
      (passes → f.status = 0 → q.code = .readRun → closes (.answerTaken f) s) ∧
      (∀ st : LinkStatus, passes → f.status = st.toByte →
        AnswersNext (.answerTaken f) p rest (deliver q (.status st true) { endRequest s with
          evq := p.evq.post (.runCloseError true (.status st)) p.now }))) ∧
    (q.code = .writeRun → p.link.phase = .busy →
      closes .busyEnd p ∧ errorTaken .busyTimeout .busyTimeout p) ∧
    (∀ proc, p.link.proc = some proc →
      (p.link.phase = .frame .query → AnswersNext .mioContention p rest (loseLink false proc.cls p)) ∧
      (p.link.phase = .answer .query → AnswersNext .answerTimeout p rest (loseLink false proc.cls p)) ∧
      (∀ f, p.link.phase = .answer .query →
        answerCheck f.code f.status f.arg ≠ f.check ∨ f.code ≠ 2 ∨ f.stop = false ∨ f.status ≠ 0 →
        AnswersNext (.answerTaken f) p rest (loseLink false proc.cls p)) ∧
      (∀ f, p.link.phase = .answer .query → answerCheck f.code f.status f.arg = f.check → f.code = 2 → f.stop = true →
        f.status = 0 →
        (f.arg.getLsbD 31 = true → proc.noEnd = false → AnswersNext (.answerTaken f) p rest { p with
          link.runOpen := true, link.phase := .frame .endRun, link.wait := none, link.close := some .procedure
          out.link := p.out.link ++ [.frame .endRun 0] }) ∧
        (f.arg.getLsbD 31 = true → proc.noEnd = true →
          AnswersNext (.answerTaken f) p rest (loseLink true proc.cls { p with link.runOpen := true })) ∧
        (f.arg.getLsbD 31 = false → runIsClosed (.answerTaken f) proc.cls p))) ∧
    (∀ sent c,
      let u := { p with
        link := { p.link with
          current := none, phase := .idle, wait := none, close := none, proc := none
          state := .lost, attempts := 0, rate := .slow }
        pres.ident := some .identify
        evq := (p.evq.post (.runCloseError sent (.cls c)) p.now).post (.linkLost sent) p.now }
      let changed (s : Part) := if s.pres.status = .ready then setStatus .unverified none s else s
      let wanted := q.withdrawn = false ∧ q.discard = false ∧ p.pres.status = .ready
      (¬ wanted → loseLink sent c p = changed (deliver q (.failed (some c)) u)) ∧
      (wanted →
        let v := { u with choices := p.choices + 1 }
        loseLink sent c p = changed (deliver q (.failed (some c)) v) ∨
          loseLink sent c p = deliver q (.failed (some c)) (changed v)))) ∧
  (∀ (p : Part) (q : LinkReq),
    q.code = .readRun → q.withdrawn = false → q.discard = false →
    (q.requester = .background →
      deliver q .done p = { p with fill.lastBlock := none } ∧
      (∀ pos, deliver q (.yielded pos) p = { p with
        fill.background := p.fill.background.map fun run => { run with yielded := true } })) ∧
    (q.requester = .recovery → deliver q .done p = p))

/-- The module's write acknowledge ACCEPTED (R149, R150, R155, R164): a single write waits out busy; a run goes on to its next
burst, or to END RUN after its last burst, at a yield cause, or when withdrawn. -/
def Obligations.WriteAcknowledgeAccepted : Prop :=
  ∀ (p : Part) (rest : List Instr) (q : LinkReq),
    p.link.phase = .writeAck → p.link.current = some q →
    let r := { q with pos := q.pos + 1 }
    let closing (why : CloseWhy) := { p with
      link.current := some r, link.phase := .frame .endRun, link.wait := none, link.close := some why
      out.link := p.out.link ++ [.frame .endRun 0] }
    (q.code = .writeBlock → AnswersNext (.writeAckTaken 1 true) p rest { p with
      link.state := .busy, link.phase := .busy, link.wait := some (2 ^ p.link.waitExp) }) ∧
    (q.code = .writeRun →
      (q.withdrawn = true → AnswersNext (.writeAckTaken 1 true) p rest (closing .withdrawn)) ∧
      (q.withdrawn = false → q.count ≤ q.pos + 1 → AnswersNext (.writeAckTaken 1 true) p rest (closing .last)) ∧
      (q.withdrawn = false → q.pos + 1 < q.count → writeAllowed p q = false →
        AnswersNext (.writeAckTaken 1 true) p rest (closing .abandoned)) ∧
      (q.withdrawn = false → q.pos + 1 < q.count → writeAllowed p q = true →
        q.requester = .checkpoint → demandReady p = true ∨ p.eng.pauseReq = true →
        AnswersNext (.writeAckTaken 1 true) p rest (closing .yield)) ∧
      (q.withdrawn = false → q.pos + 1 < q.count → writeAllowed p q = true →
        q.requester ≠ .checkpoint ∨ demandReady p = false ∧ p.eng.pauseReq = false →
        AnswersNext (.writeAckTaken 1 true) p rest { p with
          link.current := some r
          link.phase := .writeBurst
          link.wait := none
          out.link := p.out.link ++ [.burst (writeContent p r).1 (writeContent p r).2] }))

/-- A read burst that passes (R149, R154, R155): a single-block read ends DONE with its burst handed to its requester, and a run
hands the burst and sends the read acknowledge for the next one or END RUN. A read withdrawn (R160), or one whose outcome its
requester discards (R116, log 18), hands no burst; a run of the second kind goes on to its own end. -/
def Obligations.ReadBurstPassed : Prop :=
  ∀ (p : Part) (rest : List Instr) (q : LinkReq) (b : ReadBurst),
    p.link.phase = .readBurst → p.link.current = some q → b.blank = 0 ∨ b.blank = 1 →
    transferCheck [b.blank] b.payload b.tag = b.check → b.stop = 0xF →
    (q.code = .identify ∨ q.code = .readBlock →
      AnswersNext (.readBurstEnd b) p rest (deliver q .done (handBurst q b { p with
        link.current := none
        link.state := p.link.state.afterRequest
        link.phase := .idle
        link.wait := none
        link.close := none
        link.proc := none }))) ∧
    (q.code = .identify ∨ q.code = .readBlock → q.withdrawn = true ∨ q.discard = true →
      AnswersNext (.readBurstEnd b) p rest (endRequest p)) ∧
    (q.code = .readRun → q.withdrawn = false → q.discard = true →
      let s := { p with link.current := some { q with pos := q.pos + 1 } }
      let closing (why : CloseWhy) := { s with
        link.phase := .frame .endRun, link.wait := none, link.close := some why, out.link := p.out.link ++ [.frame .endRun 0] }
      let yields := q.requester = .background ∧ (demandReady p = true ∨ p.pwr.freeze = true)
      (q.count ≤ q.pos + 1 → AnswersNext (.readBurstEnd b) p rest (closing .last)) ∧
      (q.pos + 1 < q.count → yields → AnswersNext (.readBurstEnd b) p rest (closing .yield)) ∧
      (q.pos + 1 < q.count → ¬ yields → AnswersNext (.readBurstEnd b) p rest { s with
        link.phase := .readAck, link.wait := none, out.link := p.out.link ++ [.readAck] })) ∧
    (q.code = .readRun → q.withdrawn = true → AnswersNext (.readBurstEnd b) p rest { p with
      link.current := some { q with pos := q.pos + 1 }
      link.phase := .frame .endRun
      link.wait := none
      link.close := some .withdrawn
      out.link := p.out.link ++ [.frame .endRun 0] }) ∧
    (q.code = .readRun → q.withdrawn = false → q.requester = .background → q.discard = false →
      let s := backgroundBurst b { p with link.current := some { q with pos := q.pos + 1 } }
      let closing (why : CloseWhy) := { s with
        link.phase := .frame .endRun, link.wait := none, link.close := some why, out.link := s.out.link ++ [.frame .endRun 0] }
      (q.count ≤ q.pos + 1 → AnswersNext (.readBurstEnd b) p rest (closing .last)) ∧
      (q.pos + 1 < q.count → demandReady s = true ∨ s.pwr.freeze = true →
        AnswersNext (.readBurstEnd b) p rest (closing .yield)) ∧
      (q.pos + 1 < q.count → demandReady s = false → s.pwr.freeze = false →
        AnswersNext (.readBurstEnd b) p rest { s with
          link.phase := .readAck, link.wait := none, out.link := s.out.link ++ [.readAck] }))

/-! ### The checkpoint engine at the end of its requests -/

/-- The commit point (R79): at the busy end of the commit write the commit claim is made on all members, N is the last committed
batch number, the knowledge is one sequence on in the other slot, the abort counter is 0, BATCH_COMMITTED is posted and the engine
enters APPLY, or PAUSED before it; then SYNC's end, the end of a final checkpoint and the budget release follow. Within recovery the
engine stays in RECOVER (R84, R110). VERIFY (R81): slot A and slot B are read, and a newest valid record that names the batch is its
commit point, the one known before the commit a counted abort, anything else doubt. IN_DOUBT (R82) keeps batch and staging, clears a
pause request and makes a READY module UNVERIFIED. The order of BATCH_COMMITTED, PAUSED, COMMAND_DONE, FINAL_DONE and the releases,
and of MODULE_STATUS before BATCH_IN_DOUBT, is log 7: the model's choice. -/
def Obligations.CommitPoint : Prop :=
  (∀ (p : Part) (rest : List Instr) (q : LinkReq) (batch : Batch) (n : U32) (count : Nat) (seq : U32) (slot : StatusSlot),
    p.link.phase = .busy → p.link.current = some q → q.requester = .checkpoint → q.code = .writeBlock →
    q.withdrawn = false → q.discard = false → p.eng.state = .commit → p.eng.batch = some batch →
    batch.number = some n → batch.count = some count → p.eng.knowledge = some (seq, slot) →
    let s := commitClaim (endRequest p)
    let u := { s with
      eng.lastCommitted := some n
      eng.knowledge := some (seq + 1, if slot = .a then .b else .a)
      eng.aborts := 0
      eng.batch := some { batch with committed := true }
      eng.state := if p.eng.pauseReq then .paused .applyStart else .apply
      evq := if p.eng.pauseReq then (s.evq.post (.batchCommitted (some n) count) s.now).post (.paused .applyStart) s.now
        else s.evq.post (.batchCommitted (some n) count) s.now }
    AnswersNext .busyEnd p rest (budgetCheck (dirtyCount p) p.tbl.budget (finalCheck (syncCheck u)))) ∧
  (∀ (s : Part) (batch : Batch) (n : U32) (count : Nat),
    s.eng.batch = some batch → batch.number = some n → batch.count = some count →
    let inDoubt := { s with eng.state := .inDoubt, eng.pauseReq := false, eng.verifyA := none }
    let posted (x : Part) := { x with evq := x.evq.post (.batchInDoubt (some n) count) x.now }
    (s.pres.status = .ready → enterInDoubt s = posted (changeStatus .unverified none inDoubt)) ∧
    (s.pres.status ≠ .ready → enterInDoubt s = posted inDoubt) ∧
    (∀ slot seq,
      let c := commitClaim s
      let named := c.evq.post (.batchCommitted (some n) count) c.now
      let u := { c with
        eng.lastCommitted := some n
        eng.knowledge := some (seq, slot)
        eng.aborts := 0
        eng.batch := some { batch with committed := true }
        eng.state := if s.eng.state = .recover then .recover else if s.eng.pauseReq then .paused .applyStart else .apply
        evq := if s.eng.state ≠ .recover ∧ s.eng.pauseReq = true then named.post (.paused .applyStart) c.now else named }
      commitPoint slot seq s = budgetCheck (dirtyCount s) s.tbl.budget (finalCheck (syncCheck u)))) ∧
  (∀ (p : Part) (rest : List Instr) (q : LinkReq) (b : ReadBurst) (batch : Batch) (n : U32) (count : Nat) (header : HeaderCopy),
    p.link.phase = .readBurst → p.link.current = some q → q.requester = .checkpoint → q.code = .readBlock →
    q.withdrawn = false → q.discard = false → b.blank = 0 ∨ b.blank = 1 →
    transferCheck [b.blank] b.payload b.tag = b.check → b.stop = 0xF →
    p.eng.batch = some batch → batch.number = some n → batch.count = some count → p.pres.header = some header →
    let r := parseStatus header.binding (b.blank == 1) b.payload
    let s := endRequest p
    let t := { s with eng.verifyA := none }
    (p.eng.verifyA = none → AnswersNext (.readBurstEnd b) p rest { s with eng.verifyA := some r }) ∧
    (∀ a, p.eng.verifyA = some a →
      (newestValid a r = none → AnswersNext (.readBurstEnd b) p rest (enterInDoubt t)) ∧
      (∀ slot x, newestValid a r = some (slot, x) →
        let names := x.state = .committed ∧ x.batch = n ∧ x.count = count ∧ batch.check = some x.check
        (names → AnswersNext (.readBurstEnd b) p rest (commitPoint slot x.seq t)) ∧
        (¬ names → p.eng.knowledge = some (x.seq, slot) →
          AnswersNext (.readBurstEnd b) p rest (countedAbort .verify t)) ∧
        (¬ names → p.eng.knowledge ≠ some (x.seq, slot) → AnswersNext (.readBurstEnd b) p rest (enterInDoubt t)))))

/-- The end of the engine's other writes (R76, R85, R87, R92): a JOURNAL or APPLY run closed after its last burst, or at a yield,
has moved its bursts; after the last entry COMMIT or RETIRE follows, before it the next run or the pause; the RETIRE write ends
the batch, in IDLE or, with a pause requested, in PAUSED at IDLE. What it asks for and sends (R75, R76, R78, R85, R87): the staged
entries with their entry tags, the homes in home order with their home tags, those that follow without a gap in one run of at most
the run limit, and the status record one sequence on in the other slot. A failure in APPLY or RETIRE (R86, R87) empties staging, halts
the engine with APPLY_FAILED and makes a READY module UNVERIFIED; MODULE_STATUS before ENGINE_HALTED is log 7. -/
def Obligations.EngineWritesEnd : Prop :=
  (∀ (p : Part) (rest : List Instr) (q : LinkReq) (batch : Batch),
    p.link.phase = .busy → p.link.current = some q → q.requester = .checkpoint → q.withdrawn = false → q.discard = false →
    p.eng.batch = some batch →
    let s := endRequest p
    (∀ moved, q.code = .writeRun → (p.link.close = some .last ∧ moved = q.count) ∨ (p.link.close = some .yield ∧ moved = q.pos) →
      (p.eng.state = .journal →
        let t := { s with eng.batch := some { batch with sent := batch.sent + moved } }
        (p.eng.staging.length ≤ batch.sent + moved → AnswersNext .busyEnd p rest { t with eng.state := .commit }) ∧
        (batch.sent + moved < p.eng.staging.length → p.eng.pauseReq = false → AnswersNext .busyEnd p rest t) ∧
        (batch.sent + moved < p.eng.staging.length → p.eng.pauseReq = true → AnswersNext .busyEnd p rest { t with
          eng.state := .paused .journalNext, evq := t.evq.post (.paused .journalNext) t.now })) ∧
      (p.eng.state = .apply →
        let t := { s with eng.batch := some { batch with applied := batch.applied + moved } }
        (p.eng.staging.length ≤ batch.applied + moved → AnswersNext .busyEnd p rest { t with eng.state := .retire }) ∧
        (batch.applied + moved < p.eng.staging.length → p.eng.pauseReq = false → AnswersNext .busyEnd p rest t) ∧
        (batch.applied + moved < p.eng.staging.length → p.eng.pauseReq = true → AnswersNext .busyEnd p rest { t with
          eng.state := .paused .applyNext, evq := t.evq.post (.paused .applyNext) t.now }))) ∧
    (∀ seq slot, q.code = .writeBlock → p.eng.state = .retire → p.eng.knowledge = some (seq, slot) →
      let ended := { s with
        eng.knowledge := some (seq + 1, if slot = StatusSlot.a then StatusSlot.b else StatusSlot.a)
        eng.staging := []
        eng.batch := none }
      (p.eng.pauseReq = false → AnswersNext .busyEnd p rest { ended with eng.state := .idle }) ∧
      (p.eng.pauseReq = true → AnswersNext .busyEnd p rest { ended with
        eng.state := .paused .idle, evq := p.evq.post (.paused .idle) p.now }))) ∧
  (∀ s : Part,
    let halted := { s with
      eng.state := .halted .applyFailed, eng.pauseReq := false, eng.staging := [], eng.batch := none }
    let posted (x : Part) := { x with
      evq := x.evq.post (.engineHalted (s.eng.batch.bind fun b => b.number) .applyFailed none) x.now }
    (s.pres.status = .ready → applyFailed s = posted (changeStatus .unverified none halted)) ∧
    (s.pres.status ≠ .ready → applyFailed s = posted halted)) ∧
  (∀ (p : Part) (batch : Batch) (n : U32),
    p.eng.batch = some batch → batch.number = some n →
    (p.eng.state = .journal →
      engineRequest p = some (request .checkpoint .writeRun (3 + batch.sent)
        (min (runLimit p) (p.eng.staging.length - batch.sent))) ∧
      (∀ pos e, p.eng.staging[batch.sent + pos]? = some e →
        engineBurst p pos = (e.payload, entryTag n (batch.sent + pos) e))) ∧
    (p.eng.state = .apply →
      engineRequest p = some (request .checkpoint .writeRun ((homesFrom p batch.applied).headD 0)
        (homeRun (runLimit p) (homesFrom p batch.applied))) ∧
      (∀ pos e, (sortedStaging p)[batch.applied + pos]? = some e →
        engineBurst p pos = (e.payload, homeTag e.id n.toNat e.payload))) ∧
    (∀ seq slot count check, p.eng.knowledge = some (seq, slot) → batch.count = some count → batch.check = some check →
      let other := request .checkpoint .writeBlock (if slot = .a then 2 else 1) 1
      let record (st : RecordState) : StatusRecord :=
        { seq := seq + 1, state := st, batch := n, count := count, check := check, binding := p.pres.binding }
      (p.eng.state = .commit →
        engineRequest p = some other ∧ engineBurst p 0 = (statusPayload (record .committed), zeros 16)) ∧
      (p.eng.state = .retire →
        engineRequest p = some other ∧ engineBurst p 0 = (statusPayload (record .applied), zeros 16))) ∧
    (p.eng.state = .verify →
      engineRequest p = some (request .checkpoint .readBlock (if p.eng.verifyA = none then 1 else 2) 1)) ∧
    (∀ q, q.requester = .checkpoint → writeContent p q = engineBurst p q.pos)) ∧
  (∀ p : Part,
    let home (e : Staged) := (p.regs[e.id.region]).homeBase + e.id.index
    (sortedStaging p).Perm p.eng.staging ∧ (sortedStaging p).Pairwise (fun a b => home a ≤ home b) ∧
    (∀ start, homesFrom p start = ((sortedStaging p).drop start).map home)) ∧
  (∀ (limit home : Nat) (more : List Nat),
    1 ≤ limit →
    let homes := home :: more
    let n := homeRun limit homes
    0 < n ∧ n ≤ limit ∧ (∀ j, j < n → homes[j]? = some (home + j)) ∧ (n < limit → homes[n]? ≠ some (home + n)))

/-- The commit of one member (R18, R26), which the commit claim makes for every member in slot order: the state and the mark
change together, a REDIRTIED block joins the queue's tail, no other record changes, and the sync-mark count falls by one when the
mark becomes absent. -/
def Obligations.CommitChangesStateAndMark : Prop :=
  ∀ (p : Part) (e : Staged) (b : BlockRec),
    recOf p e.id = some b →
    let t := commitMember p e
    (∀ slot, b.state = .captured slot → b.mark ≠ some .carry → t.tbl.queue = p.tbl.queue ∧ recOf t e.id = some ⟨.clean, none⟩) ∧
    (∀ since slot, b.state = .redirtied since slot →
      t.tbl.queue = p.tbl.queue ++ [⟨e.id, since⟩] ∧
      (b.mark = some .carry → recOf t e.id = some ⟨.dirty since, some .pending⟩) ∧
      (b.mark = some .pending → recOf t e.id = some ⟨.dirty since, none⟩) ∧
      (b.mark = none → recOf t e.id = some ⟨.dirty since, none⟩)) ∧
    (b.state.isMember = true → (∀ slot, b.state ≠ .capturing slot) → ∀ b', recOf t e.id = some b' →
      markCount t + (if b.mark ≠ none ∧ b'.mark = none then 1 else 0) = markCount p) ∧
    (∀ id, id ≠ e.id → recOf t id = recOf p id) ∧
    commitClaim p = p.eng.staging.foldl commitMember p

/-- The abort claim (R10, R19): every member is DIRTY with the joined time of its descriptor, its mark kept, and the entries stand
at the queue's head in slot order before those that were there. -/
def Obligations.AbortReturnsTheMembers : Prop :=
  ∀ p : Part,
    (p.eng.staging.map fun e => e.id).Nodup →
    let t := abortClaim p
    t.tbl.queue = (p.eng.staging.map fun e => ⟨e.id, e.joined.getD p.now⟩) ++ p.tbl.queue ∧
    (∀ e b, e ∈ p.eng.staging → recOf p e.id = some b → recOf t e.id = some ⟨.dirty (e.joined.getD p.now), b.mark⟩) ∧
    (∀ id, (∀ e ∈ p.eng.staging, e.id ≠ id) → recOf t id = recOf p id)

/-- A counted abort (R88, R89), whatever its reason: the abort claim, staging emptied, BATCH_ABORTED when there were members, then
BACKOFF until the backoff interval has passed, or HALTED with ABORT_LIMIT at the third in a row. A JOURNAL run answered with a module
status (R77) is one with reason MODULE_STATUS. -/
def Obligations.JournalRunRefused : Prop :=
  (∀ (p : Part) (rest : List Instr) (q : LinkReq) (f : AnswerFrame) (st : LinkStatus) (batch : Batch),
    p.link.phase = .answer .request → p.link.current = some q → q.requester = .checkpoint → q.code = .writeRun →
    q.withdrawn = false → q.discard = false → answerCheck f.code f.status f.arg = f.check → f.code = 0x06 → f.stop = true →
    f.status = st.toByte → p.eng.state = .journal → p.eng.batch = some batch → p.eng.staging ≠ [] →
    let s := abortClaim { endRequest p with path.captureLane := [] }
    let t := { s with
      eng.staging := []
      eng.batch := none
      eng.aborts := p.eng.aborts + 1
      evq := s.evq.post (.batchAborted batch.number .moduleStatus) s.now }
    (p.eng.aborts < 2 → p.eng.pauseReq = false → AnswersNext (.answerTaken f) p rest { t with
      eng.state := .backoff, eng.backoff := some (p.now + p.eng.backoffInterval) }) ∧
    (p.eng.aborts < 2 → p.eng.pauseReq = true → AnswersNext (.answerTaken f) p rest { t with
      eng.state := .paused .backoff
      eng.backoff := some (p.now + p.eng.backoffInterval)
      evq := t.evq.post (.paused .backoff) t.now }) ∧
    (2 ≤ p.eng.aborts → AnswersNext (.answerTaken f) p rest { t with
      eng.state := .halted .abortLimit
      eng.pauseReq := false
      evq := t.evq.post (.engineHalted none .abortLimit none) t.now })) ∧
  (∀ (s : Part) (why : AbortReason),
    let v := abortClaim { s with path.captureLane := [] }
    let t := { v with
      eng.staging := []
      eng.batch := none
      eng.aborts := s.eng.aborts + 1
      evq := if s.eng.staging = [] then v.evq
        else v.evq.post (.batchAborted (s.eng.batch.bind fun b => b.number) why) v.now }
    (s.eng.aborts < 2 → s.eng.pauseReq = false → countedAbort why s = { t with
      eng.state := .backoff, eng.backoff := some (s.now + s.eng.backoffInterval) }) ∧
    (s.eng.aborts < 2 → s.eng.pauseReq = true → countedAbort why s = { t with
      eng.state := .paused .backoff
      eng.backoff := some (s.now + s.eng.backoffInterval)
      evq := t.evq.post (.paused .backoff) t.now }) ∧
    (2 ≤ s.eng.aborts → countedAbort why s = { t with
      eng.state := .halted .abortLimit
      eng.pauseReq := false
      evq := t.evq.post (.engineHalted none .abortLimit none) t.now }))

/-! ### What is read from the module -/

/-- The newest valid record of the two status slots (R102). -/
def Obligations.NewestValidRecord : Prop :=
  newestValid none none = none ∧
  (∀ a, newestValid (some a) none = some (.a, a)) ∧
  (∀ b, newestValid none (some b) = some (.b, b)) ∧
  (∀ a b : StatusRecord, 0 < (a.seq - b.seq).toNat → (a.seq - b.seq).toNat < 2 ^ 31 →
    newestValid (some a) (some b) = some (.a, a)) ∧
  (∀ a b : StatusRecord, 0 < (b.seq - a.seq).toNat → (b.seq - a.seq).toNat < 2 ^ 31 →
    newestValid (some a) (some b) = some (.b, b)) ∧
  (∀ a b : StatusRecord, ¬ (0 < (a.seq - b.seq).toNat ∧ (a.seq - b.seq).toNat < 2 ^ 31) →
    ¬ (0 < (b.seq - a.seq).toNat ∧ (b.seq - a.seq).toNat < 2 ^ 31) → newestValid (some a) (some b) = some (.a, a))

/-- A home burst is checked by the first case of R127: a blank home fills with zeros, a payload or tag that fails makes the block
unreadable with HOME_CORRUPT and answers its held accesses, and a good one is LOADED. It is the burst of a demand run, which then
ends, also while a background run is YIELDED; or that of the background run's next position (R125), which moves on, the run ending
with its last burst. A read run of it goes on, at most to a yield cause (R164), or to END RUN; a single-block read ends DONE, with
which the fill engine no longer keeps the run's last block (R156). A block whose fill has ended stays in its run, marked, to the
run's end (R118, R130). -/
def Obligations.DemandBurstIsChecked : Prop :=
  ∀ (p : Part) (rest : List Instr) (q : LinkReq) (b : ReadBurst) (id : BlockId) (i : Fin 8) (r : BlockRec),
    p.link.phase = .readBurst → p.link.current = some q → q.withdrawn = false → q.discard = false →
    recOf p id = some r → transferCheck [b.blank] b.payload b.tag = b.check → b.stop = 0xF →
    let lands (s : Part) (onward : Part → Part) : Prop :=
      let loaded (data : Payload) := takeGroups { s with
        fill.slots := p.fill.slots.set i (.loaded id data), fill.arrivals := p.fill.arrivals ++ [i] }
      let corrupt (tagged : Bool) := failFillHolds id { s with
        fill.slots := p.fill.slots.set i .free
        fill.background := s.fill.background.map fun run => { run with
          blocks := run.blocks.map fun x => if x.id = id then { x with ended := true } else x }
        tbl.recs := p.tbl.recs.set id.region ((p.tbl.recs[id.region]).set id.index ⟨.absent true, r.mark⟩)
        evq := p.evq.post (.homeCorrupt id tagged) p.now }
      let answers (t : Part) := AnswersNext (.readBurstEnd b) p rest (onward t)
      (b.blank = 1 → answers (loaded (zeros 256))) ∧
      (b.blank = 0 → field b.tag 7 4 ≠ (crc32 b.payload).toNat → answers (corrupt false)) ∧
      (b.blank = 0 → field b.tag 7 4 = (crc32 b.payload).toNat →
        (field b.tag 0 1 ≠ id.region.val ∨ field b.tag 1 2 ≠ id.index → answers (corrupt true)) ∧
        (field b.tag 0 1 = id.region.val → field b.tag 1 2 = id.index → answers (loaded b.payload)))
    (q.requester = .demand → q.code = .readBlock → p.fill.demandRun = some (id, i) →
      lands { endRequest p with fill.demandRun := none } fun s => s) ∧
    (∀ run ended, q.requester = .background → p.fill.background = some run → run.blocks[run.next]? = some ⟨id, i, ended⟩ →
      let taken (s : Part) : Part :=
        if run.next + 1 < run.blocks.length then { s with fill.background := some { run with next := run.next + 1 } }
        else { s with fill.background := none, fill.lastBlock := some id }
      let onward (s : Part) : Part :=
        if q.count ≤ q.pos + 1 then { s with
          link.phase := .frame .endRun, link.wait := none, link.close := some .last
          out.link := s.out.link ++ [.frame .endRun 0] }
        else if demandReady s = true ∨ s.pwr.freeze = true then { s with
          link.phase := .frame .endRun, link.wait := none, link.close := some .yield
          out.link := s.out.link ++ [.frame .endRun 0] }
        else { s with link.phase := .readAck, link.wait := none, out.link := s.out.link ++ [.readAck] }
      (q.code = .readRun → lands (taken { p with link.current := some { q with pos := q.pos + 1 } }) onward) ∧
      (q.code = .readBlock → lands (taken (endRequest p)) fun s => { s with fill.lastBlock := none }))

/-- A LOADED slot takes the first free tag group in the order the bursts arrived, asks for its four fill writes behind the host
accesses forwarded so far (R62) and becomes WRITING; with no group free, or none loaded, nothing changes (R122). A group is free
when no WRITING slot holds it and none of its tags is outstanding, so that at most two blocks are at memory (R60). -/
def Obligations.LoadedSlotAsksForItsWrites : Prop :=
  ∀ p : Part,
    (p.fill.arrivals = [] ∨ freeGroup p = none → takeGroup p = p) ∧
    (∀ i more g id data, p.fill.arrivals = i :: more → freeGroup p = some g → p.fill.slots[i] = .loaded id data →
      takeGroup p = { p with
        fill.slots := p.fill.slots.set i (.writing id data g 0 false)
        fill.arrivals := more
        path.fillLane := p.path.fillLane ++ [⟨g, 0, ramOf p id, partOf data 0, p.path.hostLane.length⟩,
          ⟨g, 1, ramOf p id + 64, partOf data 1, p.path.hostLane.length⟩,
          ⟨g, 2, ramOf p id + 128, partOf data 2, p.path.hostLane.length⟩,
          ⟨g, 3, ramOf p id + 192, partOf data 3, p.path.hostLane.length⟩] }) ∧
    (∀ g : Fin 2, (freeGroup p = some g ↔ groupFree p g = true ∧ (g = 1 → groupFree p 0 = false)) ∧
      (groupFree p g = true ↔ (∀ i : Fin 8, (p.fill.slots[i]).group ≠ some g) ∧
        ∀ k : Fin 4, p.path.own[fillOwn g k] = .free)) ∧
    takeGroups p = takeGroup (takeGroup p)

/-- The reads of an identification attempt (R171 to R174): the identity record and the speed it allows, a bad identity, the header,
and the second slot, with which the attempt ends, the link is READY and the module status is decided. A new status is handed to its
neighbours (R175); where the status stands as it was, the regions are evaluated against the capacity just read (R39, R41, log 39). A
failed attempt begins the next at the slow rate from IDENTIFY, and the third ends with the module FAILED and the link OFF (R173). -/
def Obligations.IdentificationReads : Prop :=
  (∀ (p : Part) (rest : List Instr) (q : LinkReq) (b : ReadBurst),
    p.link.phase = .readBurst → p.link.current = some q → q.requester = .identification →
    q.code = .identify ∨ q.code = .readBlock → q.withdrawn = false → q.discard = false →
    b.blank = 0 ∨ b.blank = 1 → transferCheck [b.blank] b.payload b.tag = b.check → b.stop = 0xF →
    let s := endRequest p
    let i := parseIdentity b.payload
    let h := parseHeader p.pres.identity (b.blank == 1) b.payload
    let found (new : ModStatus) (detail : Option StatusDetail) (u : Part) : Prop :=
      (new = p.pres.status → AnswersNext (.readBurstEnd b) p rest (evalAll u)) ∧
      (new ≠ p.pres.status → AnswersNext (.readBurstEnd b) p rest (setStatus new detail u))
    (p.pres.ident = some .identify → i.passes = true → AnswersNext (.readBurstEnd b) p rest { s with
      pres.identity := some i
      pres.ident := some .header
      link.rate := if i.grade = 2 then .normal else .slow }) ∧
    (p.pres.ident = some .identify → i.passes = false → AnswersNext (.readBurstEnd b) p rest
      (setStatus .failed (some .badIdentity) { s with
        pres.identity := some i, pres.ident := none, link.state := .off })) ∧
    (p.pres.ident = some .header → h.valid = true → AnswersNext (.readBurstEnd b) p rest { s with
      pres.header := some h, pres.ident := some .slotA }) ∧
    (p.pres.ident = some .header → h.valid = false → found .unformatted none { s with
      pres.header := some h, pres.summary := none, pres.ident := none, link.state := .ready }) ∧
    (∀ header, p.pres.header = some header → header.valid = true →
      let record := parseStatus header.binding (b.blank == 1) b.payload
      (p.pres.ident = some .slotA → AnswersNext (.readBurstEnd b) p rest { s with pres.ident := some (.slotB record) }) ∧
      (∀ a, p.pres.ident = some (.slotB a) →
        (newestValid a record = none → found .unformatted none { s with
          pres.summary := some none, pres.ident := none, link.state := .ready }) ∧
        (∀ slot r, newestValid a record = some (slot, r) →
          found (if header.binding = p.pres.binding ∧ p.pres.binding ≠ 0 then .unverified else .mismatched)
            (some (.newest slot r.state)) { s with
              pres.summary := some (some ⟨slot, r.state, r.batch⟩), pres.ident := none, link.state := .ready })))) ∧
  (∀ (s : Part) (detail : StatusDetail),
    (s.link.attempts < 3 → identFailed detail s = { s with link.rate := .slow, pres.ident := some .identify }) ∧
    (3 ≤ s.link.attempts →
      identFailed detail s = setStatus .failed (some detail) { s with pres.ident := none, link.state := .off }))

/-- Recovery's reads. The two status slots (R109, R110, R111): the knowledge is what they show. With no batch in doubt recovery ends
with the module UNFORMATTED, ends with success, or reads the entries of a COMMITTED batch; a batch in doubt is settled first, by its
commit point and its own homes when the newest record names it, else by an abort with reason VERIFY that is not counted, and
recovery goes on by the other lines. The entries (R111, R112): each burst is checked for blank, tag and payload, a good one goes
into the next staging slot, and with the last the entry check and the placement of every entry decide between the homes and a stop,
which names the lowest slot that cannot be placed (log 49). A stop (R115) sets the journal hold, empties staging and posts
JOURNAL_CORRUPT with batch N; a read run in flight goes on to its end with its outcome discarded (log 18). -/
def Obligations.RecoveryReadsTheSlots : Prop :=
  (∀ (p : Part) (rest : List Instr) (q : LinkReq) (b : ReadBurst) (rec : Recovery) (header : HeaderCopy),
    p.link.phase = .readBurst → p.link.current = some q → q.requester = .recovery → q.code = .readBlock →
    q.withdrawn = false → q.discard = false → b.blank = 0 ∨ b.blank = 1 →
    transferCheck [b.blank] b.payload b.tag = b.check → b.stop = 0xF →
    p.eng.recovery = some rec → p.pres.header = some header →
    let record := parseStatus header.binding (b.blank == 1) b.payload
    let s := endRequest p
    let answers (t : Part) := AnswersNext (.readBurstEnd b) p rest t
    let follow (newest : Option (StatusSlot × StatusRecord)) (found : Recovery) (u : Part) : Prop :=
      (newest = none → answers (leaveRecovery (changeStatus .unformatted none { u with
        eng.lastCommitted := none
        eng.knowledge := none }))) ∧
      (∀ slot r, newest = some (slot, r) →
        (r.state ≠ .committed → answers (recoverySucceeded r.batch 0 u)) ∧
        (r.state = .committed → r.count ≠ 0 → answers { u with
          eng.recovery := some { found with step := .entries [] } }) ∧
        (r.state = .committed → r.count = 0 → u.eng.staging = [] →
          (r.check = 0 → answers { u with eng.recovery := some { found with step := .applied } }) ∧
          (r.check ≠ 0 → answers (journalCorrupt .entryCheck { u with
            eng.recovery := some { found with step := .entries [] } }))))
    (rec.step = .readA → answers { s with eng.recovery := some { rec with step := .readB record } }) ∧
    (∀ a, rec.step = .readB a →
      let newest := newestValid a record
      let t := { s with
        eng.knowledge := newest.map fun x => (x.2.seq, x.1)
        eng.recovery := some { rec with newest := newest } }
      (rec.unsettled = false → follow newest { rec with newest := newest } t) ∧
      (∀ batch n count, rec.unsettled = true → p.eng.batch = some batch → batch.number = some n → batch.count = some count →
        let names (r : StatusRecord) :=
          r.state = .committed ∧ r.batch = n ∧ r.count = count ∧ batch.check = some r.check
        let settled (confirmed : Bool) : Recovery :=
          { rec with newest := newest, unsettled := false, confirmed := confirmed }
        (∀ slot r, newest = some (slot, r) → names r →
          let c := commitPoint slot r.seq { t with eng.recovery := some (settled true) }
          answers { c with eng.recovery := c.eng.recovery.map fun x => { x with step := .homes 0 } }) ∧
        ((∀ slot r, newest = some (slot, r) → ¬ names r) →
          let v := abortClaim { t with path.captureLane := [], eng.recovery := some (settled false) }
          follow newest (settled false) { v with
            eng.staging := []
            eng.batch := none
            evq := if p.eng.staging = [] then v.evq else v.evq.post (.batchAborted (some n) .verify) v.now })))) ∧
  (∀ (p : Part) (rest : List Instr) (q : LinkReq) (b : ReadBurst) (rec : Recovery) (tags : List Payload) (slot : StatusSlot)
      (r : StatusRecord),
    p.link.phase = .readBurst → p.link.current = some q → q.requester = .recovery →
    q.code = .readBlock ∨ q.code = .readRun → q.withdrawn = false → q.discard = false → b.blank = 0 ∨ b.blank = 1 →
    transferCheck [b.blank] b.payload b.tag = b.check → b.stop = 0xF →
    p.eng.recovery = some rec → rec.step = .entries tags → rec.newest = some (slot, r) →
    let k := p.eng.staging.length
    let s := if q.code = .readBlock then endRequest p else { p with link.current := some { q with pos := q.pos + 1 } }
    let onward (t : Part) : Part :=
      if q.code = .readBlock then t
      else if q.count ≤ q.pos + 1 then { t with
        link.phase := .frame .endRun, link.wait := none, link.close := some .last
        out.link := t.out.link ++ [.frame .endRun 0] }
      else { t with link.phase := .readAck, link.wait := none, out.link := t.out.link ++ [.readAck] }
    let answers (t : Part) := AnswersNext (.readBurstEnd b) p rest (onward t)
    let named := field b.tag 0 4 = r.batch.toNat ∧ field b.tag 4 1 = k ∧ field b.tag 5 1 < 8
    (b.blank = 1 → answers (journalCorrupt (.blankEntry k) s)) ∧
    (b.blank = 0 → ¬ named → answers (journalCorrupt (.entryTag k) s)) ∧
    (b.blank = 0 → named → field b.tag 8 4 ≠ (crc32 b.payload).toNat → answers (journalCorrupt (.payload k) s)) ∧
    (∀ region : Fin 8, b.blank = 0 → named → region.val = field b.tag 5 1 → field b.tag 8 4 = (crc32 b.payload).toNat →
      let entries := p.eng.staging ++ [⟨⟨region, field b.tag 6 2⟩, b.payload, none, none⟩]
      let at' (st : RecoveryStep) := { s with eng.staging := entries, eng.recovery := some { rec with step := st } }
      let received := at' (.entries (tags ++ [b.tag]))
      let check := entryCheckOf ((tags ++ [b.tag]).zip (entries.map fun e => e.payload))
      (k + 1 < r.count → answers received) ∧
      (r.count ≤ k + 1 →
        (check ≠ r.check → answers (journalCorrupt .entryCheck received)) ∧
        (check = r.check →
          (∀ e, entries.find? (fun x => !placed p x.id) = some e → answers (journalCorrupt (.unplaced e.id) received)) ∧
          ((∀ x ∈ entries, placed p x.id = true) → answers (at' (.homes 0))))))) ∧
  (∀ (p : Part) (id : BlockId), placed p id = true ↔
    (p.regs[id.region]).size ≠ 0 ∧ id.index < (p.regs[id.region]).size ∧
      ∀ i, p.pres.identity = some i → i.passes = true → (p.regs[id.region]).homeBase + id.index < i.capacity) ∧
  (∀ (p : Part) (rec : Recovery) (slot : StatusSlot) (r : StatusRecord) (cause : CorruptCause),
    p.eng.recovery = some rec → rec.newest = some (slot, r) →
    journalCorrupt cause p = leaveRecovery { p with
      eng.journalHold := true
      eng.staging := []
      eng.batch := none
      link.current := p.link.current.map fun q => if q.requester = .recovery then { q with discard := true } else q
      evq := p.evq.post (.journalCorrupt r.batch cause) p.now })

/-- The end of recovery. With success (R114): the batch number, staging emptied, RECOVERY_DONE with the replayed count, then
MODULE_STATUS READY with the serial detail (R177), the regions evaluated, and the engine IDLE, or PAUSED at IDLE when the pause was
kept. It is reached from the status reads, or from the write of the APPLIED record that follows the homes (R113), with a replayed
count of n after a replay and 0 after an in-doubt confirmation. A failure (R116) starts the retry timer; a module status stops
recovery with HALTED(APPLY_FAILED). However recovery ends, a batch not settled leaves the engine IN_DOUBT, staging kept (log 25), and
otherwise staging is emptied. The order RECOVERY_DONE, MODULE_STATUS, PAUSED is log 7, and that ENGINE_HALTED names the batch from
the last entry burst on is log 46: the model's choices. -/
def Obligations.RecoveryEndsWithSuccess : Prop :=
  (∀ (p : Part) (batch : U32) (replayed : Nat) (rec : Recovery) (identity : Identity),
    p.eng.recovery = some rec → rec.unsettled = false → p.pres.identity = some identity →
    let t := recoverySucceeded batch replayed p
    t.eng.lastCommitted = some batch ∧ t.eng.knowledge = p.eng.knowledge ∧ t.eng.staging = [] ∧ t.eng.recovery = none ∧
    t.eng.batch = none ∧ t.eng.aborts = p.eng.aborts ∧ t.pres.status = .ready ∧ t.pres.serial = some identity.serial ∧
    (p.eng.pauseReq = false → t.eng.state = .idle) ∧ (p.eng.pauseReq = true → t.eng.state = .paused .idle)) ∧
  (∀ (p : Part) (batch : U32) (replayed : Nat) (identity : Identity),
    p.pres.identity = some identity → p.pres.status ≠ .ready →
    let ready (detail : StatusDetail) := leaveRecovery (evalAll { p with
      eng.lastCommitted := some batch
      eng.staging := []
      eng.batch := none
      pres.status := .ready
      pres.serial := some identity.serial
      evq := (p.evq.post (.recoveryDone batch replayed) p.now).post (.moduleStatus .ready (some detail)) p.now })
    (p.pres.serial = none → recoverySucceeded batch replayed p = ready .first) ∧
    (∀ old, p.pres.serial = some old →
      (identity.serial = old → recoverySucceeded batch replayed p = ready .sameSerial) ∧
      (identity.serial ≠ old → recoverySucceeded batch replayed p = ready .newSerial))) ∧
  (∀ (p : Part) (rec : Recovery),
    p.eng.recovery = some rec →
    let t := { p with eng.recovery := none, eng.staging := [], eng.batch := none }
    (rec.unsettled = true → leaveRecovery p = { p with
      eng.recovery := none, eng.state := .inDoubt, eng.pauseReq := false }) ∧
    (rec.unsettled = false → p.eng.pauseReq = false → leaveRecovery p = { t with eng.state := .idle }) ∧
    (rec.unsettled = false → p.eng.pauseReq = true → rec.fromPaused = true → leaveRecovery p = { t with
      eng.state := .paused .idle }) ∧
    (rec.unsettled = false → p.eng.pauseReq = true → rec.fromPaused = false → leaveRecovery p = { t with
      eng.state := .paused .idle
      evq := p.evq.post (.paused .idle) p.now }) ∧
    recoveryFailed p = leaveRecovery { p with eng.retryTimer := some (p.now + p.eng.backoffInterval) } ∧
    (∀ st, recoveryHalted st p = { t with
      eng.state := .halted .applyFailed
      eng.pauseReq := false
      evq := p.evq.post (.engineHalted
        (match rec.step with
          | .homes _ | .applied => rec.newest.map fun x => x.2.batch
          | .readA | .readB _ | .entries _ => none)
        .applyFailed (some st)) p.now })) ∧
  (∀ (p : Part) (rec : Recovery),
    p.eng.recovery = some rec →
    (rec.step = .readA → recoveryRequest p = some (request .recovery .readBlock 1 1)) ∧
    (∀ a, rec.step = .readB a → recoveryRequest p = some (request .recovery .readBlock 2 1))) ∧
  (∀ (p : Part) (rec : Recovery) (slot : StatusSlot) (r : StatusRecord),
    p.eng.recovery = some rec → rec.newest = some (slot, r) →
    (∀ tags, rec.step = .entries tags → recoveryRequest p = some (request .recovery .readRun (3 + p.eng.staging.length)
      (min (runLimit p) (r.count - p.eng.staging.length)))) ∧
    (∀ sent, rec.step = .homes sent →
      recoveryRequest p = some (request .recovery .writeRun ((homesFrom p sent).headD 0)
        (homeRun (runLimit p) (homesFrom p sent))) ∧
      (∀ pos e, (sortedStaging p)[sent + pos]? = some e →
        recoveryWrite p pos = (e.payload, homeTag e.id r.batch.toNat e.payload))) ∧
    (rec.step = .applied →
      recoveryRequest p = some (request .recovery .writeBlock (nextStatusSlot p).block 1) ∧
      recoveryWrite p 0 = (statusPayload { r with
        seq := r.seq + 1, state := .applied, binding := p.pres.binding }, zeros 16)) ∧
    (∀ q, q.requester = .recovery → writeContent p q = recoveryWrite p q.pos)) ∧
  (∀ (p : Part) (rest : List Instr) (q : LinkReq) (rec : Recovery) (slot : StatusSlot) (r : StatusRecord),
    p.link.phase = .busy → p.link.current = some q → q.requester = .recovery → q.withdrawn = false → q.discard = false →
    p.eng.recovery = some rec → rec.newest = some (slot, r) →
    let s := endRequest p
    (∀ sent, q.code = .writeRun → p.link.close = some .last → rec.step = .homes sent →
      AnswersNext .busyEnd p rest { s with eng.recovery := some { rec with
        step := if p.eng.staging.length ≤ sent + q.count then .applied else .homes (sent + q.count) } }) ∧
    (q.code = .writeBlock → rec.step = .applied →
      AnswersNext .busyEnd p rest (recoverySucceeded r.batch (if rec.confirmed then 0 else r.count) { s with
        eng.knowledge := some (r.seq + 1, if slot = .a then .b else .a) })))

/-! ### Presence and power -/

/-- MPRES and the settle timer outside PRESENT (R168): each line of the table, the level that does not change being no step
(log 2), and the timer before its expiry. -/
def Obligations.PresenceFollowsMpres : Prop :=
  ∀ (p : Part) (rest : List Instr),
    let restart (st : PresenceState) (level : Bool) := { p with
      pins.mpres := level, pres.state := st, pres.settle := some (p.now + p.pres.settleInterval) }
    (p.pins.mpres = true → exec .mpresRise ⟨p, rest⟩ = .next ⟨p, rest⟩) ∧
    (p.pins.mpres = false → p.pres.state = .empty →
      exec .mpresRise ⟨p, rest⟩ = .next ⟨restart (.arriving false) true, rest⟩) ∧
    (p.pins.mpres = false → p.pres.state = .leaving →
      exec .mpresRise ⟨p, rest⟩ = .next ⟨restart (.arriving true) true, rest⟩) ∧
    (p.pins.mpres = false → exec .mpresFall ⟨p, rest⟩ = .next ⟨p, rest⟩) ∧
    (p.pins.mpres = true → p.pres.state = .arriving false → AnswersNext .mpresFall p rest { p with
      pins.mpres := false, pres.state := .empty, pres.settle := none }) ∧
    (p.pins.mpres = true → p.pres.state = .arriving true → AnswersNext .mpresFall p rest (restart .leaving false)) ∧
    ((∀ t, p.pres.settle = some t → p.now < t) → exec .settleTimerExpiry ⟨p, rest⟩ = .next ⟨p, rest⟩) ∧
    (∀ t, p.pres.settle = some t → t ≤ p.now →
      (p.pres.state = .leaving → AnswersNext .settleTimerExpiry p rest { p with
        pres.state := .empty, pres.settle := none, evq := p.evq.post .moduleLeft p.now }) ∧
      (∀ returning, p.pres.state = .arriving returning → p.pres.status = .none →
        AnswersNext .settleTimerExpiry p rest (startIdent (setStatus .identifying none { p with
          pres.state := .present
          pres.settle := none
          link.state := .identifying
          evq := p.evq.post (.moduleArrived returning) p.now }))))

/-- A fall of MPRES in PRESENT makes the module unusable in the same step (R169): status NONE, the copies gone, the link OFF with no
request, every region that is not OFF SUSPENDED for want of a module, the journal hold clear and the retry timer stopped; the settle
timer starts, and the remembered serial and the binding are kept. The request in flight ends MODULE_LOST, as FORMAT and the fill
runs take it (R130, R199). A change of module status (R175) posts MODULE_STATUS, evaluates the regions and fails a YIELDED run away
from READY, at every change that ends there (log 20); a status already held is no change (log 39). The checkpoint engine takes the
change by its phase or remembered point (R91), a read given up in VERIFY running on with its outcome discarded (log 18), and
recovery ends when the status leaves UNVERIFIED (R116). The order of the neighbours' events, the failure of a fill run or of FORMAT
before MODULE_STATUS at a fall of MPRES, is log 7, and the pause that takes effect at once where APPLY or RETIRE is left is log 45:
the model's choices. -/
def Obligations.ModuleLossIsImmediate : Prop :=
  (∀ (p : Part) (rest : List Instr),
    p.pins.mpres = true → p.pres.state = .present → p.pres.status ≠ .none →
    ∃ t : Part, exec .mpresFall ⟨p, rest⟩ = .next ⟨t, rest⟩ ∧
      t.pins.mpres = false ∧ t.pres.state = .leaving ∧ t.pres.settle = some (p.now + p.pres.settleInterval) ∧
      t.pres.status = .none ∧ t.pres.identity = none ∧ t.pres.header = none ∧ t.pres.summary = none ∧
      t.pres.serial = p.pres.serial ∧ t.pres.binding = p.pres.binding ∧
      t.link.state = .off ∧ t.link.current = none ∧ t.eng.journalHold = false ∧ t.eng.retryTimer = none ∧
      (∀ r : Fin 8, (p.regs[r]).state ≠ .off → (t.regs[r]).state = .suspended .noModule) ∧
      (∀ r : Fin 8, (p.regs[r]).state = .off → t.regs[r] = p.regs[r])) ∧
  (∀ (p : Part) (q : LinkReq),
    q.withdrawn = false → q.discard = false →
    let s := deliver q .moduleLost p
    (q.requester = .format → s = formatFailed q.code .moduleLost p) ∧
    (q.requester = .demand → s = failDemand .moduleLost p) ∧
    (q.requester = .background → s = failBackground .moduleLost p) ∧
    (q.requester = .identification ∨ q.requester = .recovery ∨ q.requester = .checkpoint → s = p)) ∧
  (∀ (new : ModStatus) (detail : Option StatusDetail) (s : Part),
    new ≠ s.pres.status →
    let t := evalAll { s with
      pres.status := new
      evq := s.evq.post (.moduleStatus new detail) s.now
      eng := if new = .none then { s.eng with journalHold := false, retryTimer := none } else s.eng }
    (new = .ready → changeStatus new detail s = t) ∧ (new ≠ .ready → changeStatus new detail s = failYielded t)) ∧
  (∀ (new : ModStatus) (detail : Option StatusDetail) (s : Part),
    let t := changeStatus new detail s
    let given (r : Requester) (q : LinkReq) := if q.requester = r then { q with discard := true } else q
    (new = s.pres.status → setStatus new detail s = s) ∧
    (new ≠ s.pres.status →
      (s.eng.state = .recover → new = .unverified → setStatus new detail s = t) ∧
      (s.eng.state = .recover → new ≠ .unverified →
        setStatus new detail s = leaveRecovery { t with link.current := t.link.current.map (given .recovery) }) ∧
      (s.eng.state ≠ .recover → s.pres.status = .ready → setStatus new detail s = engineLoss t) ∧
      (s.eng.state ≠ .recover → s.pres.status ≠ .ready → setStatus new detail s = t))) ∧
  (∀ s : Part,
    let w := { s with
      link.current := s.link.current.map fun q => if q.requester = .checkpoint then { q with withdrawn := true } else q }
    let d := { s with
      link.current := s.link.current.map fun q => if q.requester = .checkpoint then { q with discard := true } else q }
    let aborted (u : Part) :=
      let v := abortClaim { u with path.captureLane := [] }
      { v with
        eng.staging := []
        eng.batch := none
        evq := if u.eng.staging = [] then v.evq
          else v.evq.post (.batchAborted (u.eng.batch.bind fun b => b.number) .moduleLost) v.now }
    let dropped (u : Part) := { u with eng.staging := [], eng.batch := none }
    let idle (u : Part) := if u.eng.pauseReq then { u with
        eng.state := .paused .idle, evq := u.evq.post (.paused .idle) u.now }
      else { u with eng.state := .idle }
    (s.eng.state = .capture → engineLoss s = { s with eng.abortWaiting := true }) ∧
    (s.eng.state = .journal → engineLoss s = idle (aborted w)) ∧
    (s.eng.state = .commit → engineLoss s = enterInDoubt w) ∧
    (s.eng.state = .verify → engineLoss s = enterInDoubt d) ∧
    (s.eng.state = .apply ∨ s.eng.state = .retire → engineLoss s = idle (dropped w)) ∧
    (s.eng.state = .paused .nextCapture ∨ s.eng.state = .paused .journalNext →
      engineLoss s = { aborted s with eng.state := .paused .idle }) ∧
    (s.eng.state = .paused .applyStart ∨ s.eng.state = .paused .applyNext →
      engineLoss s = { dropped s with eng.state := .paused .idle }) ∧
    (s.eng.state ∈ [.idle, .backoff, .inDoubt, .recover, .paused .idle, .paused .backoff] ∨
      (∃ why, s.eng.state = .halted why) → engineLoss s = s))

/-- PFW and the final deadline (R136, R141, R142): what an assertion sets, what a withdrawal clears with the freeze release, and
what the deadline's expiry makes of each final-checkpoint state, with the first detail of R141 that holds. The end of a pause at an
assertion (R95): PAUSED continues from its remembered point with RESUMED and FREEZE posted, so does a recovery entered from PAUSED
(log 24), and a request not yet in effect is cleared without an event. That FINAL_DONE is posted before RESUMED is log 7, and that an
expiry before the deadline is no step is log 2: the model's choices. -/
def Obligations.PowerFailSteps : Prop :=
  (∀ (p : Part) (rest : List Instr),
    (p.pwr.freeze = true → exec .pfwAsserted ⟨p, rest⟩ = .next ⟨{ p with pins.pfw := true }, rest⟩) ∧
    (p.pins.pfw = false → p.pwr.freeze = false → dirtyCount p = 0 →
      AnswersNext .pfwAsserted p rest (endPause true { p with
        pins.pfw := true
        pwr := { p.pwr with freeze := true, final := .done, deadline := some (p.now + p.pwr.finalDeadline) }
        evq := p.evq.post (.finalDone p.eng.lastCommitted) p.now })) ∧
    (p.pins.pfw = false → p.pwr.freeze = false → dirtyCount p ≠ 0 →
      AnswersNext .pfwAsserted p rest (endPause true { p with
        pins.pfw := true
        pwr := { p.pwr with freeze := true, final := .running, deadline := some (p.now + p.pwr.finalDeadline) } })) ∧
    (p.pins.pfw = true → p.pwr.freeze = true →
      AnswersNext .pfwWithdrawn p rest (freezeRelease { p with
        pins.pfw := false
        pwr := { p.pwr with freeze := false, final := .none, deadline := none }
        evq := p.evq.post (.powerRestored p.pwr.final) p.now })) ∧
    ((∀ t, p.pwr.deadline = some t → p.now < t) → exec .finalDeadlineExpiry ⟨p, rest⟩ = .next ⟨p, rest⟩) ∧
    (∀ t, p.pwr.deadline = some t → t ≤ p.now →
      let late (why : LateDetail) := exec .finalDeadlineExpiry ⟨p, rest⟩ = .next ⟨{ p with
        pwr.deadline := none, pwr.final := .late, evq := p.evq.post (.finalLate why) p.now }, rest⟩
      let halted := p.eng.state = .halted .abortLimit ∨ p.eng.state = .halted .applyFailed
      (p.pwr.final ≠ .running →
        exec .finalDeadlineExpiry ⟨p, rest⟩ = .next ⟨{ p with pwr.deadline := none }, rest⟩) ∧
      (p.pwr.final = .running →
        (p.pres.status = .none → late .noModule) ∧
        (p.pres.status ≠ .none → p.pres.status ≠ .ready → late .notReady) ∧
        (p.pres.status = .ready → halted → late .halted) ∧
        (p.pres.status = .ready → p.eng.state = .inDoubt → late .inDoubt) ∧
        (p.pres.status = .ready → ¬ halted → p.eng.state ≠ .inDoubt → eligibleQueue p = [] → p.eng.batch = none →
          late .ineligible) ∧
        (p.pres.status = .ready → ¬ halted → p.eng.state ≠ .inDoubt → eligibleQueue p ≠ [] ∨ p.eng.batch ≠ none →
          late .slow)))) ∧
  (∀ s : Part,
    let cleared := { s with eng.pauseReq := false }
    let resumed := { cleared with evq := s.evq.post (.resumed true) s.now }
    let goesOn (st : EngineState) := endPause true s = { resumed with eng.state := st }
    (s.eng.state = .paused .idle → goesOn .idle) ∧
    (s.eng.state = .paused .backoff → goesOn .backoff) ∧
    (s.eng.state = .paused .nextCapture → endPause true s = nextCapture { resumed with eng.state := .capture }) ∧
    (s.eng.state = .paused .journalNext → goesOn .journal) ∧
    (s.eng.state = .paused .applyStart ∨ s.eng.state = .paused .applyNext → goesOn .apply) ∧
    (∀ rec, s.eng.state = .recover → s.eng.recovery = some rec → rec.fromPaused = true → s.eng.pauseReq = true →
      endPause true s = { resumed with eng.recovery := some { rec with fromPaused := false } }) ∧
    ((∀ pt, s.eng.state ≠ .paused pt) →
      (s.eng.state = .recover → s.eng.pauseReq = true → ∀ rec, s.eng.recovery = some rec → rec.fromPaused = false) →
      endPause true s = cleared))

/-! ### Events -/

/-- The event queue takes a posted event (R180, R181): dropped when its capture-enable is clear; otherwise it takes the sequence
counter and the low 16 bits of the time and is placed by the first case of R181. ALERT is asserted while a record of an
alert-enabled kind, OVERFLOW included, is held (R183). -/
def Obligations.EventPlacement : Prop :=
  ∀ (q : EventQueue) (e : Event) (now : Time),
    let rec' := EventRec.event e q.seq (BitVec.ofNat 16 now)
    (q.capture[e.kind] = false → q.post e now = q) ∧
    (q.capture[e.kind] = true →
      ((∀ r, q.records.getLast? = some r → r.isOverflow = false) → q.records.length < 31 →
        q.post e now = { q with records := q.records ++ [rec'], seq := q.seq + 1 }) ∧
      ((∀ r, q.records.getLast? = some r → r.isOverflow = false) → q.records.length = 31 →
        q.post e now = { q with
          records := q.records ++ [.overflow q.seq (BitVec.ofNat 16 now) 1], seq := q.seq + 1 }) ∧
      (∀ older sq t d, q.records = older ++ [.overflow sq t d] → q.records.length = 32 →
        q.post e now = { q with records := older ++ [.overflow sq t (min 255 (d + 1))], seq := q.seq + 1 }) ∧
      (∀ older sq t d, q.records = older ++ [.overflow sq t d] → q.records.length < 32 →
        q.post e now = { q with records := older ++ [rec', .overflow sq t d], seq := q.seq + 1 })) ∧
    (alertOf q = true ↔ ∃ r ∈ q.records, q.alert[r.kind] = true ∨ r.isOverflow = true)

/-! ### Regions -/

/-- The region evaluation (R31), line by line, and what it changes (R31, R39): nothing for an OFF region or a state already held;
otherwise the state, and on the way from RESTORING or MIRRORED to SUSPENDED the FILL-held accesses and the demand list. Of the
region's entries held FILL each whose block is ABSENT is answered with error and the entries behind it are claimed, in arrival order;
one whose block is FILLING stays (R39, R65). -/
def Obligations.RegionEvaluation : Prop :=
  (∀ (p : Part) (r : Fin 8),
    let within := ∀ i, p.pres.identity = some i → i.passes = true → (p.regs[r]).homeBase + (p.regs[r]).size ≤ i.capacity
    let bound := p.pres.status = .unformatted ∨ p.pres.status = .mismatched ∨ p.pres.status = .unverified
    (p.pres.status = .none → evalState p r = .suspended .noModule) ∧
    (p.pres.status = .identifying ∨ p.pres.status = .failed → evalState p r = .suspended .moduleNotReady) ∧
    (bound ∨ p.pres.status = .ready → ¬ within → evalState p r = .suspended .capacity) ∧
    (bound → within → evalState p r = .suspended .moduleNotReady) ∧
    (p.pres.status = .ready → within → absentCount p r ≠ 0 → evalState p r = .restoring) ∧
    (p.pres.status = .ready → within → absentCount p r = 0 → evalState p r = .mirrored) ∧
    ((p.regs[r]).state = .off ∨ evalState p r = (p.regs[r]).state → applyEval p r = p) ∧
    ((p.regs[r]).state ≠ .off → evalState p r ≠ (p.regs[r]).state →
      let t := { p with regs := p.regs.set r { p.regs[r] with state := evalState p r } }
      ((p.regs[r]).state.isSuspended = true ∨ (evalState p r).isSuspended = false → applyEval p r = t) ∧
      ((p.regs[r]).state.isSuspended = false → (evalState p r).isSuspended = true →
        let u := suspendHolds r t
        applyEval p r = { u with
          fill.queue := (u.fill.demand.filter fun id => id.region == r) ++ u.fill.queue
          fill.demand := u.fill.demand.filter fun id => id.region != r })) ∧
    evalAll p = [0, 1, 2, 3, 4, 5, 6, 7].foldl applyEval p) ∧
  (∀ (p : Part) (r : Fin 8), suspendHolds r p =
    (p.path.held.filter fun e => decide (e.id.region = r ∧ e.reason = .fill)).foldl
      (fun t e => if stateOf t e.id = some (.absent true) ∨ stateOf t e.id = some (.absent false) then failFillHolds e.id t
        else t) p)

/-! ### The management port -/

/-- WINDOW_WRITE (R186, R187, R188): to another address it is not acknowledged; while RESET ENGINE is completing it is held, to be
taken then (log 9); otherwise the first byte is the offset, each further byte is written at it if it is the command code or an
argument byte, and the offset rises. A command is taken at the end of a transaction that wrote the command code byte; a code that
names none is refused BAD_COMMAND. -/
def Obligations.WindowWrite : Prop :=
  ∀ (p : Part) (rest : List Instr),
    (∀ address bytes, address ≠ p.mbox.address → exec (.windowWrite address bytes) ⟨p, rest⟩ = .next ⟨p, rest⟩) ∧
    (∀ bytes, p.mbox.completing = true → exec (.windowWrite p.mbox.address bytes) ⟨p, rest⟩ =
      .next ⟨{ p with mbox.sclHeld := p.mbox.sclHeld ++ [bytes] }, rest⟩) ∧
    (p.mbox.completing = false →
      exec (.windowWrite p.mbox.address []) ⟨p, rest⟩ = .next ⟨p, rest⟩ ∧
      (∀ off bytes,
        let written := writeBytes bytes { p.mbox with offset := off }
        ((∀ i, i < bytes.length → off + BitVec.ofNat 8 i ≠ 0) →
          exec (.windowWrite p.mbox.address (off :: bytes)) ⟨p, rest⟩ = .next ⟨{ p with mbox := written }, rest⟩) ∧
        ((∃ i, i < bytes.length ∧ off + BitVec.ofNat 8 i = 0) →
          exec (.windowWrite p.mbox.address (off :: bytes)) ⟨p, rest⟩ =
            .next ⟨runCommand { p with mbox := { written with lastLong := false } }, rest⟩)) ∧
      (∀ code, code.toNat = 0 ∨ 0x14 ≤ code.toNat → exec (.badCommand code) ⟨p, rest⟩ =
        .next ⟨{ p with mbox := (p.mbox.taken code []).refusedWith .badCommand }, rest⟩)) ∧
    (∀ m, writeBytes [] m = m) ∧
    (∀ b more m, writeBytes (b :: more) m = writeBytes more { m with
      offset := m.offset + 1
      code := if m.offset = 0 then b else m.code
      args := Vector.ofFn fun i => if m.offset.toNat = i.val + 1 then b else m.args[i] })

/-- Every row of a named management command is the write transaction that R203 lays out for it. -/
def Obligations.CommandIsItsWindowWrite : Prop :=
  ∀ (c : Instr) (bytes : List Byte) (p : Part) (rest : List Instr),
    c.transaction = some bytes → c.wf = true →
    exec c ⟨p, rest⟩ = exec (.windowWrite p.mbox.address bytes) ⟨p, rest⟩

/-- SET REGION (R34, R35): the first check that fails refuses it; otherwise the settings are written, and a size of 0 clears the
bases too. -/
def Obligations.SetRegion : Prop :=
  ∀ (p : Part) (rest : List Instr) (region : Byte) (ram : U32) (size : U16) (home : U32),
    p.mbox.completing = false →
    let args := [region] ++ leBytes 4 ram.toNat ++ leBytes 2 size.toNat ++ leBytes 4 home.toNat
    let q := { p with mbox := p.mbox.taken 0x01#8 args }
    let answers t := exec (.setRegion region ram size home) ⟨p, rest⟩ = .next ⟨t, rest⟩
    let refused c := answers { q with mbox := q.mbox.refusedWith c }
    (8 ≤ region.toNat → refused .badArgument) ∧
    (∀ r : Fin 8, region.toNat = r.val →
      let staged := (∃ e ∈ p.eng.staging, e.id.region = r) ∧ ∀ batch, p.eng.batch = some batch → batch.committed = true
      let good := size.toNat = 0 ∨ (size.toNat ≤ 4096 ∧ ram.toNat % 256 = 0 ∧ ram.toNat + 256 * size.toNat ≤ 2 ^ 32 ∧
        67 ≤ home.toNat ∧ home.toNat + size.toNat ≤ 16777216)
      let overlaps := ∃ x : Fin 8, x ≠ r ∧
        ((∃ a, ram.toNat ≤ a ∧ a < ram.toNat + 256 * size.toNat ∧
          (p.regs[x]).ramBase.toNat ≤ a ∧ a < (p.regs[x]).ramBase.toNat + 256 * (p.regs[x]).size) ∨
        (∃ a, home.toNat ≤ a ∧ a < home.toNat + size.toNat ∧
          (p.regs[x]).homeBase ≤ a ∧ a < (p.regs[x]).homeBase + (p.regs[x]).size))
      ((p.regs[r]).state ≠ .off → refused .wrongState) ∧
      ((p.regs[r]).state = .off →
        (staged → refused .wrongState) ∧
        (¬ staged →
          (¬ good → refused .badArgument) ∧
          (good → overlaps → refused .overlap) ∧
          (good → ¬ overlaps → answers { q with
            regs := p.regs.set r (if size.toNat = 0 then ⟨.off, 0, 0, 0⟩ else ⟨.off, ram, size.toNat, home.toNat⟩)
            mbox := q.mbox.doneWith [] }))))

/-- ATTACH (R3, R7, R36, R140, R204): the first check that fails refuses it. In adopt-module every record is ABSENT and every block
joins the fill queue; in adopt-RAM every record is DIRTY now, every block joins the dirty queue, and each watermark is posted
at the block whose record reaches it. The region takes the state of its evaluation, which is returned. -/
def Obligations.Attach : Prop :=
  ∀ (p : Part) (rest : List Instr) (region mode : Byte),
    p.mbox.completing = false →
    let q := { p with mbox := p.mbox.taken 0x02#8 [region, mode] }
    let refused c := exec (.attach region mode) ⟨p, rest⟩ = .next ⟨{ q with mbox := q.mbox.refusedWith c }, rest⟩
    (8 ≤ region.toNat ∨ 2 ≤ mode.toNat → refused .badArgument) ∧
    (∀ r : Fin 8, region.toNat = r.val → mode.toNat < 2 →
      let g := p.regs[r]
      let staged := (∃ e ∈ p.eng.staging, e.id.region = r) ∧ ∀ batch, p.eng.batch = some batch → batch.committed = true
      let attached := ((List.finRange 8).map fun x => if (p.regs[x]).state = .off then 0 else (p.regs[x]).size).sum
      let ended (s : Part) := { s with
        regs := p.regs.set r { g with state := evalState s r }
        pwr.final := if p.pwr.freeze = true ∧ p.pwr.final = .done ∧ dirtyCount s ≠ 0 then
            (if p.pwr.deadline = none then .late else .running)
          else p.pwr.final
        mbox := q.mbox.doneWith (attachBytes (evalState s r)) }
      (g.state ≠ .off ∨ g.size = 0 ∨ staged → refused .wrongState) ∧
      (g.state = .off → g.size ≠ 0 → ¬ staged →
        (p.pres.binding = 0 → refused .notBound) ∧
        (p.pres.binding ≠ 0 → 4096 < attached + g.size → refused .capacity) ∧
        (p.pres.binding ≠ 0 → attached + g.size ≤ 4096 →
          (mode.toNat = 1 → AnswersNext (.attach region mode) p rest (ended { q with
            tbl.recs := p.tbl.recs.set r (List.replicate g.size ⟨.absent false, none⟩)
            fill.queue := p.fill.queue ++ (List.range g.size).map fun i => ⟨r, i⟩ })) ∧
          (mode.toNat = 0 → p.tbl.recs[r] = [] →
            let reached := (List.range g.size).flatMap fun i =>
              ((List.finRange 4).filter fun n =>
                decide (p.tbl.thresholds[n] ≠ 0 ∧ p.tbl.thresholds[n] = dirtyCount p + i + 1)).map fun n =>
                  Event.watermark n ⟨r, i⟩
            AnswersNext (.attach region mode) p rest (ended { q with
              tbl.recs := p.tbl.recs.set r (List.replicate g.size ⟨.dirty p.now, none⟩)
              tbl.queue := p.tbl.queue ++ (List.range g.size).map fun i => ⟨⟨r, i⟩, p.now⟩
              evq := reached.foldl (fun x e => x.post e p.now) p.evq }))))) ∧
    attachBytes .restoring = [1, 0, 0] ∧ attachBytes .mirrored = [2, 0, 0] ∧
    attachBytes (.suspended .noModule) = [3, 0, 1] ∧ attachBytes (.suspended .moduleNotReady) = [3, 1, 1] ∧
    attachBytes (.suspended .capacity) = [3, 2, 1]

/-- DETACH (R28, R42, R64): refused while OFF or while a block is a member or FILLING. Otherwise the records, queue entries and fill
entries of the region are gone and it is OFF; its held accesses leave in arrival order, FILL with an error response and the
others forwarded without a claim; then the ends the counts signal, in the order of log 7, which is the model's choice. -/
def Obligations.Detach : Prop :=
  ∀ (p : Part) (rest : List Instr) (region : Byte),
    p.mbox.completing = false →
    let q := { p with mbox := p.mbox.taken 0x03#8 [region] }
    let refused c := exec (.detach region) ⟨p, rest⟩ = .next ⟨{ q with mbox := q.mbox.refusedWith c }, rest⟩
    (8 ≤ region.toNat → refused .badArgument) ∧
    (∀ r : Fin 8, region.toNat = r.val →
      let busy := ∃ b ∈ p.tbl.recs[r], b.state.isMember = true ∨ b.state = .filling
      let mine := p.path.held.filter fun e => e.id.region = r
      let gone := { q with
        tbl.recs := p.tbl.recs.set r []
        tbl.queue := p.tbl.queue.filter fun e => e.id.region ≠ r
        fill.queue := p.fill.queue.filter fun id => id.region ≠ r
        fill.demand := p.fill.demand.filter fun id => id.region ≠ r
        regs := p.regs.set r { p.regs[r] with state := .off }
        path.held := p.path.held.filter fun x => mine.all fun e => decide (x.req.tag ≠ e.req.tag)
        path.tags := mine.foldl (fun v e => v.set e.req.tag (if e.reason = .fill then .idle else .lane)) p.path.tags
        path.hostLane := p.path.hostLane ++ (mine.filter fun e => e.reason ≠ .fill).map fun e => e.req
        out.host := p.out.host ++ (mine.filter fun e => e.reason = .fill).map fun e => ⟨e.req.tag, false, []⟩
        mbox := q.mbox.doneWith [] }
      ((p.regs[r]).state = .off ∨ busy → refused .wrongState) ∧
      ((p.regs[r]).state ≠ .off → ¬ busy →
        AnswersNext (.detach region) p rest (budgetCheck (dirtyCount p) p.tbl.budget (finalCheck (syncCheck gone)))))

/-- CHECKPOINT (R70), PAUSE (R92), RESUME (R94) and CLEAR FAULT (R90), by the state of the engine. -/
def Obligations.EngineCommands : Prop :=
  ∀ (p : Part) (rest : List Instr),
    p.mbox.completing = false →
    let q (code : Byte) := { p with mbox := (p.mbox.taken code []).doneWith [] }
    let refused (c : Instr) (code : Byte) (why : RefusalCode) :=
      exec c ⟨p, rest⟩ = .next ⟨{ p with mbox := (p.mbox.taken code []).refusedWith why }, rest⟩
    let halted := p.eng.state = .halted .abortLimit ∨ p.eng.state = .halted .applyFailed
    exec .checkpoint ⟨p, rest⟩ = .next ⟨{ q 0x04#8 with eng.checkpointReq := true }, rest⟩ ∧
    (halted ∨ p.eng.state = .inDoubt ∨ p.pwr.freeze = true → refused .pause 0x05#8 .wrongState) ∧
    (¬ halted → p.eng.state ≠ .inDoubt → p.pwr.freeze = false →
      let asked := { q 0x05#8 with eng.pauseReq := true }
      let pausedAt pt := exec .pause ⟨p, rest⟩ = .next ⟨{ asked with
        eng.state := .paused pt, evq := p.evq.post (.paused pt) p.now }, rest⟩
      let waits := exec .pause ⟨p, rest⟩ = .next ⟨asked, rest⟩
      (p.eng.pauseReq = true → exec .pause ⟨p, rest⟩ = .next ⟨q 0x05#8, rest⟩) ∧
      (p.eng.pauseReq = false →
        (p.eng.state = .idle → pausedAt .idle) ∧ (p.eng.state = .backoff → pausedAt .backoff) ∧
        (p.eng.state = .journal → inFlight p .checkpoint = false → pausedAt .journalNext) ∧
        (p.eng.state = .apply → inFlight p .checkpoint = false → pausedAt .applyNext) ∧
        (p.eng.state = .journal ∨ p.eng.state = .apply → inFlight p .checkpoint = true → waits) ∧
        (p.eng.state ∈ [.capture, .commit, .verify, .retire, .recover] → waits))) ∧
    (p.eng.pauseReq = false → refused .resume 0x06#8 .notPaused) ∧
    (p.eng.pauseReq = true →
      let cleared := { q 0x06#8 with eng.pauseReq := false }
      let resumed := { cleared with evq := p.evq.post (.resumed false) p.now }
      let goesOn (st : EngineState) := AnswersNext .resume p rest { resumed with eng.state := st }
      (p.eng.state = .paused .idle → goesOn .idle) ∧ (p.eng.state = .paused .backoff → goesOn .backoff) ∧
      (p.eng.state = .paused .nextCapture →
        AnswersNext .resume p rest (nextCapture { resumed with eng.state := .capture })) ∧
      (p.eng.state = .paused .journalNext → goesOn .journal) ∧
      (p.eng.state = .paused .applyStart ∨ p.eng.state = .paused .applyNext → goesOn .apply) ∧
      (∀ rec, p.eng.state = .recover → p.eng.recovery = some rec → rec.fromPaused = true →
        AnswersNext .resume p rest { resumed with eng.recovery := some { rec with fromPaused := false } }) ∧
      ((∀ pt, p.eng.state ≠ .paused pt) →
        (p.eng.state = .recover → ∀ rec, p.eng.recovery = some rec → rec.fromPaused = false) →
        AnswersNext .resume p rest cleared)) ∧
    (¬ halted → refused .clearFault 0x0A#8 .wrongState) ∧
    (halted →
      let idle := { q 0x0A#8 with eng.aborts := 0, eng.batch := none, eng.state := .idle }
      (p.eng.pauseReq = false → exec .clearFault ⟨p, rest⟩ = .next ⟨idle, rest⟩) ∧
      (p.eng.pauseReq = true → exec .clearFault ⟨p, rest⟩ = .next ⟨{ idle with
        eng.state := .paused .idle, evq := p.evq.post (.paused .idle) p.now }, rest⟩))

/-- SET LIMITS (R6, R56, R191, R203): the selectors, the ranges, the refusals; a value already held changes nothing; a new budget
may bring a budget release, and a new hold limit measures every held entry anew, each as its expiry row does. -/
def Obligations.SetLimits : Prop :=
  (([.budget, .watermark 0, .watermark 1, .watermark 2, .watermark 3, .trigger, .interval, .batchLimit, .backoffInterval,
      .holdLimit, .finalDeadline, .retryCount, .waitExp, .settleInterval] : List Limit).map some =
    (List.range 14).map fun n => Limit.ofSelector (BitVec.ofNat 8 n)) ∧
  (∀ sel : Byte, 14 ≤ sel.toNat → Limit.ofSelector sel = none) ∧
  (∀ (l : Limit) (v : Nat), l.inRange v = true ↔
    match l with
    | .budget => 1 ≤ v ∧ v ≤ 4096
    | .watermark _ => v ≤ 4096
    | .trigger => 1 ≤ v ∧ v ≤ 4096
    | .interval => v ≤ 65535
    | .batchLimit => 1 ≤ v ∧ v ≤ 64
    | .backoffInterval => 1 ≤ v ∧ v ≤ 255
    | .holdLimit => v ≤ 255
    | .finalDeadline => 1 ≤ v ∧ v ≤ 1000
    | .retryCount => v ≤ 7
    | .waitExp => 12 ≤ v ∧ v ≤ 26
    | .settleInterval => v = 1 ∨ v = 2 ∨ v = 8 ∨ v = 32) ∧
  (∀ (p : Part) (tag : Fin 16) (rest : List Instr),
    exec (.holdLimitExpiry tag) ⟨p, rest⟩ = .next ⟨settle (expireTag p tag), rest⟩) ∧
  ∀ (p : Part) (rest : List Instr) (sel : Byte) (value : U16),
    p.mbox.completing = false →
    let q := { p with mbox := p.mbox.taken 0x08#8 ([sel] ++ leBytes 2 value.toNat) }
    let v := value.toNat
    let done (t : Part) := { t with mbox := q.mbox.doneWith [] }
    let takes (l : Limit) (t : Part) := Limit.ofSelector sel = some l → l.inRange v = true → getLimit p l ≠ v →
      AnswersNext (.setLimits sel value) p rest (done t)
    let refused := exec (.setLimits sel value) ⟨p, rest⟩ = .next ⟨{ q with mbox := q.mbox.refusedWith .badArgument }, rest⟩
    (Limit.ofSelector sel = none → refused) ∧
    (∀ l, Limit.ofSelector sel = some l → l.inRange v = false → refused) ∧
    (∀ l, Limit.ofSelector sel = some l → l.inRange v = true → getLimit p l = v →
      exec (.setLimits sel value) ⟨p, rest⟩ = .next ⟨done q, rest⟩) ∧
    takes .budget (budgetCheck (dirtyCount p) p.tbl.budget { q with tbl.budget := v }) ∧
    (∀ n, takes (.watermark n) { q with tbl.thresholds := p.tbl.thresholds.set n v }) ∧
    takes .trigger { q with tbl.trigger := v } ∧ takes .interval { q with tbl.interval := v } ∧
    takes .batchLimit { q with eng.batchLimit := v } ∧ takes .backoffInterval { q with eng.backoffInterval := v } ∧
    takes .holdLimit ((p.path.held.map fun e => e.req.tag).foldl expireTag { q with path.holdLimit := v }) ∧
    takes .finalDeadline { q with pwr.finalDeadline := v } ∧ takes .retryCount { q with link.retryCount := v } ∧
    takes .waitExp { q with link.waitExp := v } ∧ takes .settleInterval { q with pres.settleInterval := v }

/-- SET BINDING (R176, R193): refused while FORMAT runs; otherwise the number is stored and the module status is decided anew
against a valid header copy; it is returned. -/
def Obligations.SetBinding : Prop :=
  ∀ (p : Part) (rest : List Instr) (binding : U32),
    p.mbox.completing = false →
    let q := { p with mbox := p.mbox.taken 0x07#8 (leBytes 4 binding.toNat) }
    let bound := ∃ h, p.pres.header = some h ∧ h.valid = true ∧ h.binding = binding ∧ binding ≠ 0
    let stays := AnswersNext (.setBinding binding) p rest { q with
      pres.binding := binding
      mbox := q.mbox.doneWith (leBytes 1 p.pres.status.code) }
    let becomes new :=
      let t := setStatus new none { q with pres.binding := binding }
      AnswersNext (.setBinding binding) p rest { t with mbox := t.mbox.doneWith (leBytes 1 t.pres.status.code) }
    (p.mbox.format ≠ none → exec (.setBinding binding) ⟨p, rest⟩ =
      .next ⟨{ q with mbox := q.mbox.refusedWith .busy }, rest⟩) ∧
    (p.mbox.format = none →
      (p.pres.status ∈ [.none, .identifying, .failed, .unformatted] → stays) ∧
      (p.pres.status = .mismatched → bound → becomes .unverified) ∧
      (p.pres.status = .mismatched → ¬ bound → stays) ∧
      (p.pres.status = .unverified ∨ p.pres.status = .ready → bound → stays) ∧
      (p.pres.status = .unverified ∨ p.pres.status = .ready → ¬ bound → becomes .mismatched)) ∧
    [ModStatus.none, .identifying, .failed, .unformatted, .mismatched, .unverified, .ready].map ModStatus.code =
      [0, 1, 2, 3, 4, 5, 6]

/-- SET EVENT MASKS (R180, R184, R192), READ EVENT (R182, R204), QUERY BLOCK and QUERY REGION (R194, R204). OVERFLOW's enables stay
set; the oldest record is removed and returned; a query changes nothing but the mailbox. The bytes of every kind of record, of a
block and of a region, field by field (R202, R204), a field that is absent reading 0; that detail byte B has no presence bit of its
own and reads 0 when absent, and that POWER_RESTORED carries the position in R179's list, is log 33; that UNPLACED carries an index
above 4095 whole is log 53; a block in two of the fill engine's lists reads the first (log 44). -/
def Obligations.MasksEventsAndQueries : Prop :=
  (∀ (p : Part) (rest : List Instr),
    p.mbox.completing = false →
    (∀ kind capture alert : Byte,
      let m := p.mbox.taken 0x09#8 [kind, capture, alert]
      let answers t := exec (.setEventMasks kind capture alert) ⟨p, rest⟩ = .next ⟨t, rest⟩
      (kind.toNat = 0 ∨ 25 < kind.toNat ∨ 1 < capture.toNat ∨ 1 < alert.toNat →
        answers { p with mbox := m.refusedWith .badArgument }) ∧
      (capture.toNat ≤ 1 → alert.toNat ≤ 1 →
        (∀ k : Fin 25, k ≠ 24 → kind.toNat = k.val + 1 → answers { p with
          evq.capture := p.evq.capture.set k (decide (capture.toNat = 1))
          evq.alert := p.evq.alert.set k (decide (alert.toNat = 1))
          mbox := m.doneWith [] }) ∧
        (kind.toNat = 25 → answers { p with mbox := m.doneWith [] }))) ∧
    (p.evq.records = [] → exec .readEvent ⟨p, rest⟩ =
      .next ⟨{ p with mbox := (p.mbox.taken 0x0D#8 []).doneWith [0] }, rest⟩) ∧
    (∀ r more, p.evq.records = r :: more → exec .readEvent ⟨p, rest⟩ =
      .next ⟨{ p with evq.records := more, mbox := (p.mbox.taken 0x0D#8 []).doneWith (recordBytes r) }, rest⟩) ∧
    (∀ (seq : Byte) (time : U16) (dropped : Nat), recordBytes (.overflow seq time dropped) =
      [1, 25, seq] ++ leBytes 2 time.toNat ++ zeros 10 ++ leBytes 1 dropped) ∧
    (∀ (region : Byte) (index : U16),
      let m := p.mbox.taken 0x0B#8 ([region] ++ leBytes 2 index.toNat)
      let answers t := exec (.queryBlock region index) ⟨p, rest⟩ = .next ⟨t, rest⟩
      (8 ≤ region.toNat → answers { p with mbox := m.refusedWith .badArgument }) ∧
      (∀ r : Fin 8, region.toNat = r.val →
        ((p.regs[r]).state = .off → answers { p with mbox := m.refusedWith .wrongState }) ∧
        ((p.regs[r]).state ≠ .off → (p.tbl.recs[r]).length ≤ index.toNat →
          answers { p with mbox := m.refusedWith .badArgument }) ∧
        (∀ b, (p.regs[r]).state ≠ .off → recOf p ⟨r, index.toNat⟩ = some b →
          answers { p with mbox := m.doneWith (blockBytes p ⟨r, index.toNat⟩ b) }))) ∧
    (∀ region : Byte,
      let m := p.mbox.taken 0x0C#8 [region]
      let answers t := exec (.queryRegion region) ⟨p, rest⟩ = .next ⟨t, rest⟩
      (8 ≤ region.toNat → answers { p with mbox := m.refusedWith .badArgument }) ∧
      (∀ r : Fin 8, region.toNat = r.val → answers { p with mbox := m.doneWith (regionBytes p r) }))) ∧
  (∀ (seq : Byte) (time : U16),
    let fields (e : Event) (kind presence region block batch a b c d : Nat) : Prop :=
      recordBytes (.event e seq time) = leBytes 1 1 ++ leBytes 1 kind ++ [seq] ++ leBytes 2 time.toNat ++
        leBytes 1 presence ++ leBytes 1 region ++ leBytes 2 block ++ leBytes 4 batch ++ leBytes 1 a ++ leBytes 1 b ++
        leBytes 1 0 ++ leBytes 1 c ++ leBytes 1 d
    let is (e : Event) (kind presence region block batch a b : Nat) : Prop := fields e kind presence region block batch a b 0 0
    let has (n : Option U32) : Nat := if n = none then 0 else 4
    let num (n : Option U32) : Nat := (n.map fun x => x.toNat).getD 0
    let flag (x : Bool) : Nat := if x then 1 else 0
    let outcome (o : LongOutcome) : Nat := o.mail.code
    (∀ cmd o, is (.commandDone cmd o none) 1 8 0 0 0 (if cmd = .sync then 0x12 else 0x13) (outcome o)) ∧
    (∀ cmd o code cause, fields (.commandDone cmd o (some (code, cause))) 1 24 0 0 0 (if cmd = .sync then 0x12 else 0x13)
      (outcome o) code.toByte.toNat cause.code) ∧
    (∀ n count, is (.batchCommitted n count) 2 (8 + has n) 0 0 (num n) count 0) ∧
    (∀ n why, is (.batchAborted n why) 3 (8 + has n) 0 0 (num n) why.code 0) ∧
    (∀ n why, is (.engineHalted n why none) 4 (8 + has n) 0 0 (num n) why.code 0) ∧
    (∀ n why st, is (.engineHalted n why (some st)) 4 (8 + has n) 0 0 (num n) why.code st.toByte.toNat) ∧
    (∀ n count, is (.batchInDoubt n count) 5 (8 + has n) 0 0 (num n) count 0) ∧
    (∀ pt, is (.paused pt) 6 8 0 0 0 pt.code 0) ∧
    (∀ byFreeze, is (.resumed byFreeze) 7 8 0 0 0 (flag byFreeze) 0) ∧
    (∀ n id, is (.watermark n id) 8 11 id.region.val id.index 0 n.val 0) ∧
    (∀ id why write, is (.holdExpired id why write) 9 11 id.region.val id.index 0 why.code (flag write)) ∧
    (∀ id, is (.captureFailed id) 10 3 id.region.val id.index 0 0 0) ∧
    (∀ id why, is (.fillFailed id why) 11 11 id.region.val id.index 0 why.code 0) ∧
    (∀ id tagged, is (.homeCorrupt id tagged) 12 11 id.region.val id.index 0 (flag tagged) 0) ∧
    (∀ r, is (.restoreDone r) 13 1 r.val 0 0 0 0) ∧
    (∀ n count, is (.recoveryDone n count) 14 12 0 0 n.toNat count 0) ∧
    (∀ n slot, is (.journalCorrupt n (.blankEntry slot)) 15 12 0 0 n.toNat 0 slot) ∧
    (∀ n slot, is (.journalCorrupt n (.entryTag slot)) 15 12 0 0 n.toNat 1 slot) ∧
    (∀ n slot, is (.journalCorrupt n (.payload slot)) 15 12 0 0 n.toNat 2 slot) ∧
    (∀ n, is (.journalCorrupt n .entryCheck) 15 12 0 0 n.toNat 3 0) ∧
    (∀ n id, is (.journalCorrupt n (.unplaced id)) 15 15 id.region.val id.index n.toNat 4 0) ∧
    (∀ back, is (.moduleArrived back) 16 8 0 0 0 (flag back) 0) ∧
    is .moduleLeft 17 0 0 0 0 0 0 ∧
    (∀ st, is (.moduleStatus st none) 18 8 0 0 0 st.code 0) ∧
    (∀ st detail, is (.moduleStatus st (some detail)) 18 8 0 0 0 st.code detail.code) ∧
    (∀ cls code, is (.linkError cls code) 19 8 0 0 0 cls.code code.toByte.toNat) ∧
    (∀ sent cls, is (.runCloseError sent (.cls cls)) 20 8 0 0 0 (flag sent) cls.code) ∧
    (∀ sent st, is (.runCloseError sent (.status st)) 20 8 0 0 0 (flag sent) (0x10 + st.toByte.toNat)) ∧
    (∀ sent, is (.linkLost sent) 21 8 0 0 0 (flag sent) 0) ∧
    (∀ n, is (.finalDone n) 22 (has n) 0 0 (num n) 0 0) ∧
    (∀ why, is (.finalLate why) 23 8 0 0 0 why.code 0) ∧
    (∀ st, is (.powerRestored st) 24 8 0 0 0 (if st = .late then 1 else if st = .done then 2 else 0) 0)) ∧
  ([LongOutcome.running, .done, .cancelled, .failed].map (fun o => o.mail.code) = [1, 2, 4, 5] ∧
    [AbortReason.link, .moduleStatus, .moduleLost, .reset, .verify].map AbortReason.code = List.range 5 ∧
    [HaltReason.abortLimit, .applyFailed].map HaltReason.code = List.range 2 ∧
    [Point.idle, .backoff, .nextCapture, .journalNext, .applyStart, .applyNext].map Point.code = List.range 6 ∧
    [HoldReason.fill, .capture, .budget, .freeze, .order].map HoldReason.code = List.range 5 ∧
    [FillFail.memory, .link, .moduleStatus, .moduleLost, .notReady].map FillFail.code = List.range 5 ∧
    [ErrClass.answerTimeout, .answerCheck, .echoMismatch, .framing, .contention, .burstReject, .dataTimeout,
      .busyTimeout].map ErrClass.code = List.range 8 ∧
    [LateDetail.noModule, .notReady, .halted, .inDoubt, .ineligible, .slow].map LateDetail.code = List.range 6 ∧
    [StatusDetail.badIdentity, .noAnswer, .first, .sameSerial, .newSerial].map StatusDetail.code = [1, 2, 3, 4, 5] ∧
    (∀ st : LinkStatus, (StatusDetail.linkStatus st).code = 0x10 + st.toByte.toNat) ∧
    (∀ slot (st : RecordState), (StatusDetail.newest slot st).code =
      0x20 + (if slot = .b then 1 else 0) + (if st = .empty then 0 else if st = .committed then 2 else 4)) ∧
    (∀ c : ErrClass, (FormatCause.cls c).code = c.code) ∧
    (∀ st : LinkStatus, (FormatCause.status st).code = 0x10 + st.toByte.toNat) ∧
    FormatCause.moduleLost.code = 0x20 ∧ FormatCause.resetLink.code = 0x21) ∧
  (∀ (p : Part) (id : BlockId) (st : BlockState) (mark : Option Mark),
    let listed : Nat :=
      if id ∈ p.fill.queue then 1
      else if id ∈ p.fill.demand then 2
      else if ∃ i, p.fill.demandRun = some (id, i) then 3
      else if ∃ run, p.fill.background = some run ∧ ∃ x ∈ run.blocks, x.id = id then 4
      else 0
    let is (presence state since slot unreadable : Nat) : Prop :=
      blockBytes p id ⟨st, mark⟩ = leBytes 1 id.region.val ++ leBytes 2 id.index ++
        leBytes 1 (presence + if mark = none then 0 else 4) ++ leBytes 1 state ++ leBytes 6 since ++ leBytes 1 slot ++
        leBytes 1 (if mark = some .carry then 1 else 0) ++ leBytes 1 unreadable ++ leBytes 1 listed
    (∀ unreadable, st = .absent unreadable → is 0 0 0 0 (if unreadable then 1 else 0)) ∧
    (st = .filling → is 0 1 0 0 0) ∧
    (st = .clean → is 0 2 0 0 0) ∧
    (∀ since, st = .dirty since → is 1 3 since 0 0) ∧
    (∀ slot, st = .capturing slot → is 2 4 0 slot 0) ∧
    (∀ slot, st = .captured slot → is 2 5 0 slot 0) ∧
    (∀ since slot, st = .redirtied since slot → is 3 6 since slot 0)) ∧
  (∀ (p : Part) (r : Fin 8),
    let g := p.regs[r]
    let entries := p.tbl.queue.filter fun e => e.id.region == r
    let joined := (entries.head?.map fun e => e.joined).getD 0
    let is (state reason presence absent : Nat) : Prop :=
      regionBytes p r = leBytes 1 r.val ++ leBytes 1 state ++ leBytes 1 reason ++
        leBytes 1 (presence + if entries = [] then 0 else 4) ++ leBytes 4 g.ramBase.toNat ++ leBytes 2 g.size ++
        leBytes 4 g.homeBase ++ leBytes 2 absent ++ leBytes 2 entries.length ++ leBytes 6 joined
    (g.state = .off → is 0 0 0 0) ∧
    (g.state = .restoring → is 1 0 2 (absentCount p r)) ∧
    (g.state = .mirrored → is 2 0 2 (absentCount p r)) ∧
    (g.state = .suspended .noModule → is 3 0 3 (absentCount p r)) ∧
    (g.state = .suspended .moduleNotReady → is 3 1 3 (absentCount p r)) ∧
    (g.state = .suspended .capacity → is 3 2 3 (absentCount p r)))

/-- SYNC (R24, R27, R195) and CANCEL (R27, R196): SYNC is refused while a long command runs; it marks every block by its state and
runs until no mark is left, at once when there is none. CANCEL ends a running SYNC, and is refused otherwise. -/
def Obligations.SyncAndCancel : Prop :=
  ∀ (p : Part) (rest : List Instr),
    p.mbox.completing = false →
    let m := p.mbox.taken 0x12#8 []
    let c := p.mbox.taken 0x0E#8 []
    let mark (st : BlockState) : Option Mark :=
      match st with
      | .dirty _ | .capturing _ | .captured _ => some .pending
      | .redirtied _ _ => some .carry
      | .absent _ | .filling | .clean => none
    let marked := { p with tbl.recs := p.tbl.recs.map fun l => l.map fun b => { b with mark := mark b.state } }
    let running := { m.runningWith .sync (leBytes 2 (dirtyCount p)) with long := some (.sync, .running) }
    markCount marked = dirtyCount p ∧
    ((∃ cmd, p.mbox.long = some (cmd, .running)) →
      exec .sync ⟨p, rest⟩ = .next ⟨{ p with mbox := m.refusedWith .busy }, rest⟩) ∧
    ((∀ cmd, p.mbox.long ≠ some (cmd, .running)) →
      (dirtyCount p ≠ 0 → exec .sync ⟨p, rest⟩ = .next ⟨{ marked with mbox := running }, rest⟩) ∧
      (dirtyCount p = 0 → exec .sync ⟨p, rest⟩ = .next ⟨{ marked with
        mbox := { running with long := some (.sync, .done), status := .done, lastLong := false }
        evq := p.evq.post (.commandDone .sync .done none) p.now }, rest⟩)) ∧
    (p.mbox.long ≠ some (.sync, .running) →
      exec .cancel ⟨p, rest⟩ = .next ⟨{ p with mbox := c.refusedWith .wrongState }, rest⟩) ∧
    (p.mbox.long = some (.sync, .running) → exec .cancel ⟨p, rest⟩ = .next ⟨{ p with
      tbl.recs := p.tbl.recs.map fun l => l.map fun b => { b with mark := none }
      mbox := { c with
        long := some (.sync, .cancelled), status := .cancelled, refusal := none, results := zeros 28, lastLong := false }
      evq := p.evq.post (.commandDone .sync .cancelled none) p.now }, rest⟩)

/-- FORMAT (R197): the first check that fails refuses it; otherwise it runs with the binding and the home list fixed, the module
is UNFORMATTED at once, and the journal hold and the retry timer are cleared. The home list of INITIALIZE HOMES is every home of
every region that is set, lowest first. Its writes (R104, R198): the two slots cleared, the homes of the list with zero payloads and
batch 0 tags, the header, and the two EMPTY records, each begun when the one before has ended. Its end (R199): the header copy, the
journal summary, the batch number and the knowledge of what was written, the module READY, and COMMAND_DONE after MODULE_STATUS; or,
for a write that failed, COMMAND_DONE FAILED with the request and its cause, and with the link READY the module UNFORMATTED and an
identification afresh (R170), COMMAND_DONE before MODULE_STATUS by log 7; where the link went LOST the status is the one R159 leaves,
by log 48. A recovery entered meanwhile ends at the change of status (R116). -/
def Obligations.Format : Prop :=
  (∀ (p : Part) (rest : List Instr) (mode : Byte),
    p.mbox.completing = false →
    let q := { p with mbox := p.mbox.taken 0x13#8 [mode] }
    let refused c := exec (.format mode) ⟨p, rest⟩ = .next ⟨{ q with mbox := q.mbox.refusedWith c }, rest⟩
    let fits := ∀ (r : Fin 8) i, p.pres.identity = some i → i.passes = true → (p.regs[r]).size ≠ 0 →
      (p.regs[r]).homeBase + (p.regs[r]).size ≤ i.capacity
    let homes := if mode.toNat = 1 then homeList p else []
    let u := setStatus .unformatted none { q with mbox := { q.mbox.runningWith .format (leBytes 2 homes.length) with
      format := some ⟨p.pres.binding, homes, .clearA⟩ } }
    (2 ≤ mode.toNat → refused .badArgument) ∧
    (mode.toNat < 2 →
      ((∃ cmd, p.mbox.long = some (cmd, .running)) → refused .busy) ∧
      ((∀ cmd, p.mbox.long ≠ some (cmd, .running)) →
        (p.pres.binding = 0 → refused .notBound) ∧
        (p.pres.binding ≠ 0 →
          (p.pres.status = .none → refused .noModule) ∧
          (p.pres.status = .identifying ∨ p.pres.status = .failed → refused .wrongState) ∧
          (p.pres.status ∈ [.unformatted, .mismatched, .unverified, .ready] →
            (p.link.state = .identifying ∨ p.link.state = .lost ∨ engineBars p.eng.state = true → refused .wrongState) ∧
            (p.link.state ≠ .identifying → p.link.state ≠ .lost → engineBars p.eng.state = false →
              (mode.toNat = 1 → ¬ fits → refused .capacity) ∧
              (mode.toNat = 0 ∨ fits → AnswersNext (.format mode) p rest { u with
                eng.journalHold := false, eng.retryTimer := none })))))) ∧
    (∀ st : EngineState, engineBars st = true ↔ st = .inDoubt ∨ (∃ why, st = .halted why) ∨ st = .apply ∨ st = .retire ∨
      st = .paused .applyStart ∨ st = .paused .applyNext) ∧
    (∀ x, x ∈ homeList p ↔ ∃ (r : Fin 8) (i : Nat), i < (p.regs[r]).size ∧ x = ⟨(p.regs[r]).homeBase + i, ⟨r, i⟩⟩) ∧
    ((∀ r x : Fin 8, r ≠ x → (p.regs[r]).size ≠ 0 → (p.regs[x]).size ≠ 0 →
        (p.regs[r]).homeBase + (p.regs[r]).size ≤ (p.regs[x]).homeBase ∨
        (p.regs[x]).homeBase + (p.regs[x]).size ≤ (p.regs[r]).homeBase) →
      (homeList p).Pairwise fun a b => a.home < b.home)) ∧
  (∀ (p : Part) (f : FormatRun),
    p.mbox.format = some f →
    let write (block : Nat) := request .format .writeBlock block 1
    let empty (seq : U32) : StatusRecord :=
      { seq := seq, state := .empty, batch := 0, count := 0, check := 0, binding := f.binding }
    (f.step = .clearA → formatRequestOf p f = write 1 ∧ formatBurst p 0 = (zeros 256, zeros 16)) ∧
    (f.step = .clearB → formatRequestOf p f = write 2 ∧ formatBurst p 0 = (zeros 256, zeros 16)) ∧
    (∀ sent, f.step = .homes sent →
      let left := (f.homes.drop sent).map fun h => h.home
      formatRequestOf p f = request .format .writeRun (left.headD 0) (homeRun (runLimit p) left) ∧
      (∀ pos h, f.homes[sent + pos]? = some h → formatBurst p pos = (zeros 256, homeTag h.id 0 (zeros 256)))) ∧
    (f.step = .header → formatRequestOf p f = write 0 ∧ formatBurst p 0 = (headerPayload f.binding, zeros 16)) ∧
    (f.step = .slotA → formatRequestOf p f = write 1 ∧ formatBurst p 0 = (statusPayload (empty 0), zeros 16)) ∧
    (f.step = .slotB → formatRequestOf p f = write 2 ∧ formatBurst p 0 = (statusPayload (empty 1), zeros 16)) ∧
    (∀ q, q.requester = .format → writeContent p q = formatBurst p q.pos)) ∧
  (∀ (p : Part) (rest : List Instr) (q : LinkReq) (f : FormatRun),
    p.link.phase = .busy → p.link.current = some q → q.requester = .format → q.withdrawn = false → q.discard = false →
    q.code = .writeBlock ∨ q.code = .writeRun ∧ p.link.close = some .last → p.mbox.format = some f →
    let s := endRequest p
    let goes (st : FormatStep) := AnswersNext .busyEnd p rest { s with mbox.format := some { f with step := st } }
    (f.step = .clearA → goes .clearB) ∧
    (f.step = .clearB → goes (if f.homes = [] then .header else .homes 0)) ∧
    (∀ sent, f.step = .homes sent → goes (if f.homes.length ≤ sent + q.count then .header else .homes (sent + q.count))) ∧
    (f.step = .header → goes .slotA) ∧
    (f.step = .slotA → goes .slotB) ∧
    (f.step = .slotB → AnswersNext .busyEnd p rest (formatDone f s))) ∧
  (∀ (p : Part) (f : FormatRun) (i : Identity),
    p.pres.identity = some i → p.pres.status ≠ .ready →
    let detail : StatusDetail := match p.pres.serial with
      | none => .first
      | some old => if i.serial = old then .sameSerial else .newSerial
    let t := evalAll { p with
      pres.header := some ⟨1, f.binding, 67, true⟩
      pres.summary := some (some ⟨.b, .empty, 0⟩)
      pres.status := .ready
      pres.serial := some i.serial
      eng.lastCommitted := some 0
      eng.knowledge := some (1, .b)
      mbox.format := none
      evq := p.evq.post (.moduleStatus .ready (some detail)) p.now }
    (p.eng.state ≠ .recover → formatDone f p = endLong .format .done none t) ∧
    (p.eng.state = .recover → formatDone f p = endLong .format .done none (leaveRecovery { t with
      link.current := t.link.current.map fun q =>
        if q.requester = .recovery then { q with discard := true } else q }))) ∧
  (∀ (cmd : LongCmd) (o : LongOutcome) (failure : Option (ReqCode × FormatCause)) (s : Part),
    endLong cmd o failure s = { s with
      mbox.long := some (cmd, o)
      mbox.status := if s.mbox.lastLong then o.mail else s.mbox.status
      mbox.lastLong := false
      evq := s.evq.post (.commandDone cmd o failure) s.now }) ∧
  (∀ (p : Part) (f : FormatRun) (code : ReqCode) (cause : FormatCause),
    p.mbox.format = some f →
    let t := { p with
      mbox.format := none
      mbox.long := some (.format, .failed)
      mbox.status := if p.mbox.lastLong then .failed else p.mbox.status
      mbox.lastLong := false
      evq := p.evq.post (.commandDone .format .failed (some (code, cause))) p.now }
    (p.link.state = .ready → formatFailed code cause p = { setStatus .unformatted none t with
      link.state := .identifying, link.attempts := 0, link.rate := .slow, pres.ident := some .identify }) ∧
    (p.link.state ≠ .ready → formatFailed code cause p = t))

/-- RESET LINK (R161, R165, R199): the link forgets its request, its run and its counters; with the module PRESENT it is identified
afresh as UNVERIFIED. The request in flight has outcome FAILED with no class, and a FORMAT that runs fails. When a requester is to
take both that outcome and a change of status the model leaves their order free (log 6, DESIGN CHOICE). That a FORMAT which waits
for its grant fails as well is log 23, and that its COMMAND_DONE comes after MODULE_STATUS is log 7. -/
def Obligations.ResetLink : Prop :=
  ∀ (p : Part) (rest : List Instr),
    p.mbox.completing = false →
    let q := { p with mbox := p.mbox.taken 0x0F#8 [] }
    let present := p.pres.state = .present
    let cleared := { q with
      link := { p.link with
        current := none, phase := .idle, wait := none, close := none, proc := none, runOpen := false, retries := 0
        attempts := 0, rate := .slow, state := if present then .identifying else .off }
      pres.ident := if present then some .identify else none }
    let changed (s : Part) := if s.pres.state = .present then setStatus .unverified none s else s
    let ended (s : Part) :=
      let t := failWaitingFormat .resetLink s
      { t with mbox := t.mbox.doneWith [] }
    let wanted (r : LinkReq) := r.withdrawn = false ∧ r.discard = false ∧ present ∧ p.pres.status ≠ .unverified
    (p.link.current = none → AnswersNext .resetLink p rest (ended (changed cleared))) ∧
    (∀ r, p.link.current = some r → ¬ wanted r →
      AnswersNext .resetLink p rest (ended (changed (deliver r (.failed none) cleared)))) ∧
    (∀ r, p.link.current = some r → wanted r →
      let s := { cleared with choices := p.choices + 1 }
      AnswersNext .resetLink p rest (ended (changed (deliver r (.failed none) s))) ∨
        AnswersNext .resetLink p rest (ended (deliver r (.failed none) (changed s)))) ∧
    (∀ s : Part, s.mbox.format = none → failWaitingFormat .resetLink s = s) ∧
    (∀ (s : Part) (f : FormatRun), s.mbox.format = some f → s.link.state ≠ .ready →
      failWaitingFormat .resetLink s = { s with
        mbox := { s.mbox with
          format := none, long := some (.format, .failed), lastLong := false
          status := if s.mbox.lastLong then .failed else s.mbox.status }
        evq := s.evq.post (.commandDone .format .failed (some ((formatRequestOf s f).code, .resetLink))) s.now })

/-- RESET ENGINE (R96, R97, R134, R190, R200): the fill engine is reset at once; the checkpoint engine too, unless a capture read is
in flight, when the command stays completing until its end. BATCH_ABORTED before MODULE_STATUS is log 7. What each part is left
with: after the fill reset the access held FILL that is the oldest of a FILLING block is answered with error and those behind it are
claimed, block by block (R134), in the order in which the blocks join the fill queue (log 52). -/
def Obligations.ResetEngine : Prop :=
  (∀ (p : Part) (rest : List Instr), p.mbox.completing = false →
    let t := fillReset { p with
      mbox := p.mbox.taken 0x10#8 []
      link.current := p.link.current.map fun q =>
        if q.requester = .demand ∨ q.requester = .background then { q with withdrawn := true } else q }
    (p.eng.capture = none → AnswersNext .resetEngine p rest
      { engineReset t with mbox := (engineReset t).mbox.doneWith [] }) ∧
    (∀ c, p.eng.capture = some c → AnswersNext .resetEngine p rest { t with
      eng.resetWaiting := true
      mbox := { t.mbox with status := .running, refusal := none, results := zeros 28, completing := true } })) ∧
  (∀ s : Part, (∀ e ∈ s.path.held, e.reason ≠ .fill) →
    let t := fillReset s
    t.fill = { Fill.reset with queue := fillingOrder s ++ s.fill.demand ++ s.fill.queue } ∧ t.path.fillLane = [] ∧
    (∀ (g : Fin 2) (k : Fin 4), t.path.own[fillOwn g k] = staleTag s.path.own[fillOwn g k]) ∧
    (∀ id ∈ fillingOrder s, ∀ b, recOf s id = some b → recOf t id = some ⟨.absent false, b.mark⟩) ∧
    (∀ id, id ∉ fillingOrder s → recOf t id = recOf s id)) ∧
  (∀ s : Part, ∃ recs own,
    let t := { s with
      tbl.recs := recs
      path.own := own
      path.fillLane := []
      fill := { Fill.reset with queue := fillingOrder s ++ s.fill.demand ++ s.fill.queue } }
    (∀ (g : Fin 2) (k : Fin 4), own[fillOwn g k] = staleTag s.path.own[fillOwn g k]) ∧
    (∀ k : Fin 4, own[captureOwn k] = s.path.own[captureOwn k]) ∧
    (∀ id ∈ fillingOrder s, ∀ b, recOf s id = some b → recOf t id = some ⟨.absent false, b.mark⟩) ∧
    (∀ id, id ∉ fillingOrder s → recOf t id = recOf s id) ∧
    fillReset s = (fillingOrder s).foldl (fun u id => failFillHolds id u) t) ∧
  (∀ s : Part,
    let past := s.eng.journalHold = true ∨ (∃ why, s.eng.state = .halted why) ∨
      s.eng.state ∈ [.journal, .commit, .verify, .apply, .retire, .inDoubt, .paused .journalNext, .paused .applyStart,
        .paused .applyNext]
    let uncommitted := s.eng.batch.any fun batch => !batch.committed
    let u := { s with link.current := s.link.current.map fun q =>
      if q.requester = .checkpoint ∨ q.requester = .recovery then { q with withdrawn := true } else q }
    let v := abortClaim { u with path.captureLane := [] }
    let cleared (x : Part) := { x with eng := { Engine.reset with
      lastCommitted := s.eng.lastCommitted, knowledge := s.eng.knowledge
      batchLimit := s.eng.batchLimit, backoffInterval := s.eng.backoffInterval } }
    let w := cleared (if uncommitted then { v with
        evq := if s.eng.staging = [] then v.evq
          else v.evq.post (.batchAborted (s.eng.batch.bind fun b => b.number) .reset) v.now }
      else u)
    (past → s.pres.status = .ready → engineReset s = changeStatus .unverified none w) ∧
    (¬ past ∨ s.pres.status ≠ .ready → engineReset s = w))

/-! ### What is written and read back -/

/-- What the part writes to a module it reads back (R100, R101, R104, R127, R205): every status record, the format header, and a
home under the tag written with it; a record of another binding, and a blank slot, are no record. -/
def Obligations.WrittenRecordsReadBack : Prop :=
  (∀ r : StatusRecord, r.count ≤ 64 →
    parseStatus r.binding false (statusPayload r) = some r ∧ (statusPayload r).length = 256 ∧
    (∀ other, other ≠ r.binding → parseStatus other false (statusPayload r) = none)) ∧
  (∀ binding payload, parseStatus binding true payload = none) ∧
  (∀ (binding : U32) (i : Identity), binding ≠ 0 → i.versions.getLsbD 0 = true →
    parseHeader (some i) false (headerPayload binding) = ⟨1, binding, 67, true⟩ ∧ (headerPayload binding).length = 256) ∧
  (∀ (id : BlockId) (batch : Nat) (payload : Payload) (check : U16) (stop : BitVec 4), id.index < 65536 →
    (homeTag id batch payload).length = 16 ∧
    homeCheck id ⟨0, payload, homeTag id batch payload, check, stop⟩ = .load payload)

/-! ### Bounds -/

/-- Every step keeps each bound: the event queue's (R180, R181), at most 8 held accesses (R50), the priority order of three lanes
(R61), every limit in its range (R191), and one record for each block of an attached region (R2). -/
def Obligations.EveryStepKeepsTheBounds : Prop :=
  ∀ s t : State, step s = .next t →
    (s.part.evq.Ok → t.part.evq.Ok) ∧ (s.part.path.HeldOk → t.part.path.HeldOk) ∧
    (s.part.path.PriorityOk → t.part.path.PriorityOk) ∧ (s.part.LimitsOk → t.part.LimitsOk) ∧
    (s.part.RecordsOk → t.part.RecordsOk)

/-- The bounds hold after reset. -/
def Obligations.TheBoundsHoldAfterReset : Prop :=
  State.reset.part.evq.Ok ∧ State.reset.part.path.HeldOk ∧ State.reset.part.path.PriorityOk ∧ State.reset.part.LimitsOk ∧
    State.reset.part.RecordsOk

end
end

