-- ==== Sys2Proof/Laws/Bounds.lean ====
section
/-! SUPPORT. The bounds of Safety, one index for all, and what each operation of the paths, regions and fills keeps of them. -/

namespace Sys2Proof.Machine

/-! ### One index for the five bounds -/

/-- Which bound. -/
inductive Bound where
  | events | held | priority | limits | records
  deriving DecidableEq, Repr

/-- A bound, said of the parts of the state it reads. -/
def HoldsOf (b : Bound) (q : EventQueue) (held : List Held) (prio : List Lane) (recs : Vector (List BlockRec) 8)
    (regs : Vector Region 8) (limit : Limit → Nat) : Prop :=
  match b with
  | .events => q.Ok
  | .held => held.length ≤ Config.heldMax
  | .priority => prio.Perm [.host, .capture, .fill]
  | .limits => ∀ l : Limit, l.inRange (limit l) = true
  | .records => ∀ r : Fin 8, (recs[r]).length = if (regs[r]).state = .off then 0 else (regs[r]).size

/-- The limits, from the fields that hold them. -/
def limitOf (budget : Nat) (thresholds : Vector Nat 4) (trigger interval batchLimit backoffInterval holdLimit
    finalDeadline retryCount waitExp settleInterval : Nat) : Limit → Nat
  | .budget => budget
  | .watermark n => thresholds[n]
  | .trigger => trigger
  | .interval => interval
  | .batchLimit => batchLimit
  | .backoffInterval => backoffInterval
  | .holdLimit => holdLimit
  | .finalDeadline => finalDeadline
  | .retryCount => retryCount
  | .waitExp => waitExp
  | .settleInterval => settleInterval

/-- The part keeps a bound. -/
def Part.Holds (b : Bound) (s : Part) : Prop :=
  HoldsOf b s.evq s.path.held s.path.priority s.tbl.recs s.regs
    (limitOf s.tbl.budget s.tbl.thresholds s.tbl.trigger s.tbl.interval s.eng.batchLimit s.eng.backoffInterval
      s.path.holdLimit s.pwr.finalDeadline s.link.retryCount s.link.waitExp s.pres.settleInterval)

@[simp] theorem holdsOf_fields (b : Bound) (s : Part) :
    HoldsOf b s.evq s.path.held s.path.priority s.tbl.recs s.regs
    (limitOf s.tbl.budget s.tbl.thresholds s.tbl.trigger s.tbl.interval s.eng.batchLimit s.eng.backoffInterval
      s.path.holdLimit s.pwr.finalDeadline s.link.retryCount s.link.waitExp s.pres.settleInterval) = s.Holds b := propext ⟨id, id⟩

@[simp] theorem holds_mk (b : Bound) (now pins tbl regs path eng fill link pres pwr evq mbox out choices) :
    (Part.mk now pins tbl regs path eng fill link pres pwr evq mbox out choices).Holds b =
    HoldsOf b evq path.held path.priority tbl.recs regs
    (limitOf tbl.budget tbl.thresholds tbl.trigger tbl.interval eng.batchLimit eng.backoffInterval
      path.holdLimit pwr.finalDeadline link.retryCount link.waitExp pres.settleInterval) := propext ⟨id, id⟩

theorem holds_events (s : Part) : s.Holds .events ↔ s.evq.Ok := Iff.rfl

theorem holds_held (s : Part) : s.Holds .held ↔ s.path.HeldOk := Iff.rfl

theorem holds_priority (s : Part) : s.Holds .priority ↔ s.path.PriorityOk := Iff.rfl

theorem holds_limits (s : Part) : s.Holds .limits ↔ s.LimitsOk :=
  forall_congr' fun l => by cases l <;> exact Iff.rfl

theorem holds_records (s : Part) : s.Holds .records ↔ s.RecordsOk := Iff.rfl

/-! ### Tools -/

variable {b : Bound} {s : Part}

theorem foldl_holds {α : Type} (f : Part → α → Part) (h : ∀ t x, t.Holds b → (f t x).Holds b) (xs : List α) :
    ∀ {s : Part}, s.Holds b → (xs.foldl f s).Holds b := by
  induction xs with
  | nil => intro s hs; exact hs
  | cons x xs ih => intro s hs; exact ih (h s x hs)

theorem HoldsOf.withQueue {q q' : EventQueue} {held prio recs regs lim} (h : HoldsOf b q held prio recs regs lim)
    (hq : q.Ok → q'.Ok) : HoldsOf b q' held prio recs regs lim := by
  cases b <;> first | exact hq h | exact h

theorem HoldsOf.withHeld {q : EventQueue} {held held' prio recs regs lim} (h : HoldsOf b q held prio recs regs lim)
    (hl : held'.length ≤ held.length) : HoldsOf b q held' prio recs regs lim := by
  cases b <;> first | exact Nat.le_trans hl h | exact h

theorem HoldsOf.withPriority {q : EventQueue} {held prio prio' recs regs lim} (h : HoldsOf b q held prio recs regs lim)
    (hp : prio.Perm [.host, .capture, .fill] → prio'.Perm [.host, .capture, .fill]) :
    HoldsOf b q held prio' recs regs lim := by
  cases b <;> first | exact hp h | exact h

theorem HoldsOf.withRecords {q : EventQueue} {held prio recs recs' regs regs' lim}
    (h : HoldsOf b q held prio recs regs lim)
    (hr : (∀ r : Fin 8, (recs[r]).length = if (regs[r]).state = .off then 0 else (regs[r]).size) →
      ∀ r : Fin 8, (recs'[r]).length = if (regs'[r]).state = .off then 0 else (regs'[r]).size) :
    HoldsOf b q held prio recs' regs' lim := by
  cases b <;> first | exact hr h | exact h

theorem HoldsOf.withLimits {q : EventQueue} {held prio recs regs} {lim lim' : Limit → Nat}
    (h : HoldsOf b q held prio recs regs lim)
    (hl : (∀ l : Limit, l.inRange (lim l) = true) → ∀ l : Limit, l.inRange (lim' l) = true) :
    HoldsOf b q held prio recs regs lim' := by
  cases b <;> first | exact hl h | exact h

theorem placeEvent_ok (e : Event) (seq : Byte) (t : U16) {q : EventQueue} (h : q.Ok) :
    EventQueue.Ok { q with records := placeEvent e seq t q.records, seq := q.seq + 1 } := by
  obtain ⟨h1, h2, h3, h4, h5⟩ := h
  suffices hs : ∀ rs : List EventRec, rs.length ≤ 32 → (∀ r ∈ rs.dropLast, r.isOverflow = false) →
      (rs.length = 32 → ∃ r, rs.getLast? = some r ∧ r.isOverflow = true) →
      (placeEvent e seq t rs).length ≤ 32 ∧ (∀ r ∈ (placeEvent e seq t rs).dropLast, r.isOverflow = false) ∧
      ((placeEvent e seq t rs).length = 32 →
        ∃ r, (placeEvent e seq t rs).getLast? = some r ∧ r.isOverflow = true) by
    obtain ⟨g1, g2, g3⟩ := hs q.records h1 h2 h3
    exact ⟨g1, g2, g3, h4, h5⟩
  clear h1 h2 h3 h4 h5
  intro rs k1 k2 k3
  rcases List.eq_nil_or_concat rs with rfl | ⟨xs, x, rfl⟩
  · exact ⟨by simp [placeEvent, Config.eventMax], by simp [placeEvent, Config.eventMax], by simp [placeEvent, Config.eventMax]⟩
  · rw [List.concat_eq_append] at *
    rw [List.dropLast_concat] at k2
    rw [List.length_append, List.length_singleton] at k1 k3
    cases x with
    | event e' sq' t' =>
      have hl : xs.length + 1 < 32 := by
        rcases Nat.lt_or_ge (xs.length + 1) 32 with hlt | hge
        · exact hlt
        · obtain ⟨r, hr, ho⟩ := k3 (by omega)
          rw [List.getLast?_concat, Option.some.injEq] at hr
          rw [← hr] at ho; cases ho
      have hr : ∀ r ∈ xs ++ [EventRec.event e' sq' t'], r.isOverflow = false := by
        intro r hr
        rcases List.mem_append.mp hr with hr | hr
        · exact k2 r hr
        · rw [List.mem_singleton.mp hr]; rfl
      have hp : placeEvent e seq t (xs ++ [.event e' sq' t']) =
          if xs.length + 1 < 31 then xs ++ [.event e' sq' t'] ++ [.event e seq t]
          else xs ++ [.event e' sq' t'] ++ [.overflow seq t 1] := by
        simp [placeEvent, Config.eventMax]
      rw [hp]
      split
      next hc =>
        refine ⟨by simp; omega, ?_, fun he => ?_⟩
        · rw [List.dropLast_concat]; exact hr
        · simp at he; omega
      next hc =>
        refine ⟨by simp; omega, ?_, fun _ => ⟨_, List.getLast?_concat, rfl⟩⟩
        rw [List.dropLast_concat]; exact hr
    | overflow sq tm d =>
      have hp : placeEvent e seq t (xs ++ [.overflow sq tm d]) =
          if xs.length + 1 < 32 then xs ++ [.event e seq t] ++ [.overflow sq tm d]
          else xs ++ [.overflow sq tm (min 255 (d + 1))] := by
        simp [placeEvent, Config.eventMax]
      rw [hp]
      split
      next hc =>
        refine ⟨by simp; omega, ?_, fun _ => ⟨_, List.getLast?_concat, rfl⟩⟩
        rw [List.dropLast_concat]
        intro r hr
        rcases List.mem_append.mp hr with hr | hr
        · exact k2 r hr
        · rw [List.mem_singleton.mp hr]; rfl
      next hc =>
        refine ⟨by simp; omega, ?_, fun _ => ⟨_, List.getLast?_concat, rfl⟩⟩
        rw [List.dropLast_concat]; exact k2

theorem getElem_set_fin {α : Type} {n : Nat} (v : Vector α n) (r q : Fin n) (x : α) :
    (v.set r x)[q] = if r = q then x else v[q] := by
  simp [Fin.getElem_fin, Vector.getElem_set, Fin.ext_iff]

theorem thresholds_set (v : Vector Nat 4) (n m : Fin 4) (x : Nat) (hx : (Limit.watermark n).inRange x = true)
    (hm : (Limit.watermark m).inRange v[m] = true) : (Limit.watermark m).inRange (v.set n x)[m] = true := by
  rw [getElem_set_fin]
  split
  · exact hx
  · exact hm

theorem lastLane_perm {p : List Lane} {l : Lane} (hp : p.Perm [.host, .capture, .fill]) (hl : l ∈ p) :
    (p.filter (· ≠ l) ++ [l]).Perm [.host, .capture, .fill] := by
  have hn : p.Nodup := hp.nodup_iff.mpr (by decide)
  refine List.Perm.trans ?_ hp
  rw [List.perm_comm]
  have := List.perm_cons_erase hl
  refine this.trans ?_
  rw [hn.erase_eq_filter]
  have he : p.filter (fun x => x != l) = p.filter (fun x => decide (x ≠ l)) := List.filter_congr fun x _ => by
    by_cases hx : x = l <;> simp [hx]
  rw [he]
  exact (List.perm_append_singleton l _).symm

/-! ### The operations, in the order of the files -/

@[simp] theorem post_holds (e : Event) (h : s.Holds b) : (post e s).Holds b := by
  unfold post EventQueue.post
  refine HoldsOf.withQueue h fun hq => ?_
  split
  · exact placeEvent_ok _ _ _ hq
  · exact hq

@[simp] theorem setRec_holds (id : BlockId) (r : BlockRec) (h : s.Holds b) : (setRec id r s).Holds b := by
  cases b
  case records =>
    intro q
    have hq := h q
    show ((s.tbl.recs.set id.region _)[q]).length = _
    rw [getElem_set_fin]
    split
    next e => subst e; rw [List.length_set]; exact hq
    next => exact hq
  all_goals exact h

@[simp] theorem postWatermarks_holds (id : BlockId) (h : s.Holds b) : (postWatermarks id s).Holds b := by
  unfold postWatermarks
  refine foldl_holds _ (fun t x ht => ?_) _ h
  split <;> simp [ht]

@[simp] theorem setState_holds (id : BlockId) (st : BlockState) (h : s.Holds b) : (setState id st s).Holds b := by
  unfold setState
  (repeat' split) <;> simp (maxDischargeDepth := 40) [h]

@[simp] theorem joinTail_holds (id : BlockId) (joined : Time) (h : s.Holds b) : (joinTail id joined s).Holds b := by
  unfold joinTail
  simp (maxDischargeDepth := 40) [h]

@[simp] theorem dirtyByWrite_holds (id : BlockId) (h : s.Holds b) : (dirtyByWrite id s).Holds b := by
  unfold dirtyByWrite
  simp (maxDischargeDepth := 40) [h]

@[simp] theorem setTag_holds (t : Fin 16) (st : TagState) (h : s.Holds b) : (setTag t st s).Holds b := by
  unfold setTag
  simp (maxDischargeDepth := 40) [h]

@[simp] theorem respond_holds (t : Fin 16) (ok : Bool) (data : Payload)
    (h : s.Holds b) : (respond t ok data s).Holds b := by
  unfold respond
  simp (maxDischargeDepth := 40) [h]

@[simp] theorem respondError_holds (t : Fin 16) (h : s.Holds b) : (respondError t s).Holds b := by
  unfold respondError
  simp (maxDischargeDepth := 40) [h]

@[simp] theorem forward_holds (r : HostReq) (h : s.Holds b) : (forward r s).Holds b := by
  unfold forward
  simp (maxDischargeDepth := 40) [h]

@[simp] theorem dropHeld_holds (t : Fin 16) (h : s.Holds b) : (dropHeld t s).Holds b := by
  exact HoldsOf.withHeld h (List.length_filter_le _ _)

@[simp] theorem reHold_holds (t : Fin 16) (why : HoldReason) (h : s.Holds b) : (reHold t why s).Holds b := by
  exact HoldsOf.withHeld h (Nat.le_of_eq (List.length_map _))

theorem putLimit_holds (l : Limit) (v : Nat) (hv : l.inRange v = true) (h : s.Holds b) :
    (putLimit l v s).Holds b := by
  cases b
  case limits =>
    intro k
    have hk := h k
    cases l <;> cases k <;> first
      | exact hv
      | exact hk
      | (next n m => exact thresholds_set s.tbl.thresholds n m v hv hk)
  all_goals cases l <;> exact h

@[simp] theorem retime_holds (h : s.Holds b) : (retime s).Holds b := by
  simp only [retime]
  split
  · exact h
  · exact h

@[simp] theorem endLong_holds (cmd : LongCmd) (o : LongOutcome) (failure : Option (ReqCode × FormatCause))
    (h : s.Holds b) : (endLong cmd o failure s).Holds b := by
  unfold endLong
  (repeat' split) <;> simp (maxDischargeDepth := 40) [h]

@[simp] theorem syncCheck_holds (h : s.Holds b) : (syncCheck s).Holds b := by
  unfold syncCheck
  (repeat' split) <;> simp (maxDischargeDepth := 40) [h]

@[simp] theorem finalCheck_holds (h : s.Holds b) : (finalCheck s).Holds b := by
  unfold finalCheck
  (repeat' split) <;> simp (maxDischargeDepth := 40) [h]

@[simp] theorem finalRise_holds (h : s.Holds b) : (finalRise s).Holds b := by
  unfold finalRise
  (repeat' split) <;> simp (maxDischargeDepth := 40) [h]

@[simp] theorem performWrite_holds (id : BlockId) (h : s.Holds b) : (performWrite id s).Holds b := by
  unfold performWrite
  (repeat' split) <;> simp (maxDischargeDepth := 40) [h]

@[simp] theorem demandAsk_holds (id : BlockId) (h : s.Holds b) : (demandAsk id s).Holds b := by
  unfold demandAsk
  (repeat' split) <;> simp (maxDischargeDepth := 40) [h]

@[simp] theorem askIfAbsent_holds (id : BlockId) (h : s.Holds b) : (askIfAbsent id s).Holds b := by
  unfold askIfAbsent
  (repeat' split) <;> simp (maxDischargeDepth := 40) [h]

@[simp] theorem passAccess_holds (r : HostReq) (id : BlockId) (h : s.Holds b) : (passAccess r id s).Holds b := by
  unfold passAccess
  (repeat' split) <;> simp (maxDischargeDepth := 40) [h]

theorem reclaim_holds (e : Held) (h : s.Holds b) : ((reclaim e s).1).Holds b := by
  unfold reclaim
  split <;> simp (maxDischargeDepth := 40) [h]

@[simp] theorem walkBlock_holds (n : Nat) (id : BlockId) : ∀ {s : Part}, s.Holds b → (walkBlock n id s).Holds b := by
  induction n with
  | zero => intro s h; exact h
  | succ n ih =>
    intro s h
    unfold walkBlock
    split
    next => exact h
    next e _ =>
      have he := reclaim_holds e h
      split
      next t heq => rw [heq] at he; exact ih he
      next t heq => rw [heq] at he; exact he

@[simp] theorem releaseBlock_holds (id : BlockId) (h : s.Holds b) : (releaseBlock id s).Holds b := by
  unfold releaseBlock
  simp (maxDischargeDepth := 40) [h]

theorem releaseEntry_holds (why : HoldReason) (tag : Fin 16) (h : s.Holds b) : (releaseEntry why s tag).Holds b := by
  unfold releaseEntry
  (repeat' split) <;> simp (maxDischargeDepth := 40) [h]

theorem budgetWalk_holds (tags : List (Fin 16)) : ∀ {s : Part}, s.Holds b → (budgetWalk tags s).Holds b := by
  induction tags with
  | nil => intro s h; exact h
  | cons t ts ih =>
    intro s h
    unfold budgetWalk
    dsimp only
    split
    · exact releaseEntry_holds _ _ h
    · exact ih (releaseEntry_holds _ _ h)

@[simp] theorem budgetRelease_holds (h : s.Holds b) : (budgetRelease s).Holds b := budgetWalk_holds _ h

@[simp] theorem freezeRelease_holds (h : s.Holds b) : (freezeRelease s).Holds b := by
  unfold freezeRelease
  generalize heldFor s .freeze = tags
  induction tags generalizing s with
  | nil => exact h
  | cons t ts ih => exact ih (releaseEntry_holds _ _ h)

@[simp] theorem budgetCheck_holds (countBefore : Nat) (budgetBefore : Nat)
    (h : s.Holds b) : (budgetCheck countBefore budgetBefore s).Holds b := by
  unfold budgetCheck
  (repeat' split) <;> simp (maxDischargeDepth := 40) [h]

@[simp] theorem failFillHolds_holds (id : BlockId) (h : s.Holds b) : (failFillHolds id s).Holds b := by
  unfold failFillHolds
  (repeat' split) <;> simp (maxDischargeDepth := 40) [h]

@[simp] theorem expireEntry_holds (e : Held) (h : s.Holds b) : (expireEntry e s).Holds b := by
  simp only [expireEntry]
  split <;> simp (maxDischargeDepth := 40) [h]

@[simp] theorem expireTag_holds (tag : Fin 16) (h : s.Holds b) : (expireTag s tag).Holds b := by
  unfold expireTag
  (repeat' split) <;> simp (maxDischargeDepth := 40) [h]

@[simp] theorem expireAll_holds (h : s.Holds b) : (expireAll s).Holds b := by
  exact foldl_holds _ (fun t x ht => by simp [ht]) _ h

theorem joinHeld_holds (r : HostReq) (id : BlockId) (why : HoldReason) (hr : s.path.held.length < Config.heldMax)
    (h : s.Holds b) : (joinHeld r id why s).Holds b := by
  cases b
  case held => show (s.path.held ++ [_]).length ≤ _; rw [List.length_append]; exact hr
  all_goals exact h

@[simp] theorem askIfAbsent_held (id : BlockId) (s : Part) : (askIfAbsent id s).path.held = s.path.held := by
  unfold askIfAbsent demandAsk
  (repeat' split) <;> rfl

theorem acceptAccess_holds (r : HostReq) (hr : s.path.held.length < Config.heldMax) (h : s.Holds b) :
    (acceptAccess r s).Holds b := by
  unfold acceptAccess
  (repeat' split) <;> first
    | exact joinHeld_holds _ _ _ (by simp [hr]) (by simp [h])
    | simp (maxDischargeDepth := 40) [h]

@[simp] theorem drainPort_holds (rs : List HostReq) : ∀ {s : Part}, s.Holds b → (drainPort rs s).Holds b := by
  induction rs with
  | nil => intro s h; simpa [drainPort] using h
  | cons r rs ih =>
    intro s h
    unfold drainPort
    split
    next hc =>
      refine ih (acceptAccess_holds r ?_ h)
      simp only [canAccept, Bool.and_eq_true, decide_eq_true_eq] at hc
      exact hc.2
    next => simpa using h

@[simp] theorem refillDemand_holds (n : Nat) : ∀ {s : Part}, s.Holds b → (refillDemand n s).Holds b := by
  induction n with
  | zero => intro s h; exact h
  | succ n ih =>
    intro s h
    unfold refillDemand
    (repeat' split) <;> simp (maxDischargeDepth := 40) [h, ih]

@[simp] theorem settle_holds (h : s.Holds b) : (settle s).Holds b := by
  unfold settle
  simp (maxDischargeDepth := 40) [h]

@[simp] theorem suspendHolds_holds (r : Fin 8) (h : s.Holds b) : (suspendHolds r s).Holds b := by
  exact foldl_holds _ (fun t x ht => by (repeat' split) <;> simp (maxDischargeDepth := 40) [ht]) _ h

@[simp] theorem detachHolds_holds (r : Fin 8) (h : s.Holds b) : (detachHolds r s).Holds b := by
  exact foldl_holds _ (fun t x ht => by (repeat' split) <;> simp (maxDischargeDepth := 40) [ht]) _ h

@[simp] theorem errorAllHolds_holds (h : s.Holds b) : (errorAllHolds s).Holds b := by
  exact foldl_holds _ (fun t x ht => by simp (maxDischargeDepth := 40) [ht]) _ h

@[simp] theorem setOwn_holds (i : Fin 16) (u : TagUse) (h : s.Holds b) : (setOwn i u s).Holds b := by
  unfold setOwn
  simp (maxDischargeDepth := 40) [h]

@[simp] theorem issueLane_holds (l : Lane) (h : s.Holds b) : (issueLane l s).Holds b := by
  unfold issueLane
  (repeat' split) <;> simp (maxDischargeDepth := 40) [h]

@[simp] theorem arbiterGrant_holds (h : s.Holds b) : (arbiterGrant s).Holds b := by
  unfold arbiterGrant
  split
  next => exact h
  next l hl =>
    have hi : (issueLane l s).Holds b := by simp [h]
    refine HoldsOf.withPriority (prio := (issueLane l s).path.priority) hi fun hp => ?_
    have he : (issueLane l s).path.priority = s.path.priority := by
      unfold issueLane; (repeat' split) <;> rfl
    rw [he] at hp
    exact lastLane_perm hp (List.mem_of_find?_eq_some hl)

theorem setRegionState_holds (r : Fin 8) (st : RegionState) (hn : st ≠ .off) (ho : (s.regs[r]).state ≠ .off)
    (h : s.Holds b) : (setRegionState r st s).Holds b := by
  refine HoldsOf.withRecords h fun hr q => ?_
  show (s.tbl.recs[q]).length = if ((s.regs.set r _)[q]).state = .off then 0 else ((s.regs.set r _)[q]).size
  rw [getElem_set_fin, hr q]
  by_cases e : r = q
  · subst e; rw [if_pos rfl, if_neg ho, if_neg hn]
  · rw [if_neg e]

theorem evalState_ne_off (s : Part) (r : Fin 8) : evalState s r ≠ .off := by
  unfold evalState
  (repeat' split) <;> simp

@[simp] theorem demandToQueue_holds (r : Fin 8) (h : s.Holds b) : (demandToQueue r s).Holds b := by
  unfold demandToQueue
  simp (maxDischargeDepth := 40) [h]

@[simp] theorem applyEval_holds (r : Fin 8) (h : s.Holds b) : (applyEval s r).Holds b := by
  simp only [applyEval]
  split
  next => exact h
  next hn =>
    have hs := setRegionState_holds r (evalState s r) (evalState_ne_off s r) (fun e => hn (Or.inl e)) h
    split <;> simp (maxDischargeDepth := 40) [hs]

@[simp] theorem evalAll_holds (h : s.Holds b) : (evalAll s).Holds b :=
  foldl_holds _ (fun t x ht => by simp [ht]) _ h

@[simp] theorem absentZero_holds (r : Fin 8) (h : s.Holds b) : (absentZero r s).Holds b := by
  unfold absentZero
  split
  next e =>
    exact post_holds _ (setRegionState_holds r .mirrored (by simp) (by rw [e]; simp) h)
  all_goals simp [h]

@[simp] theorem absentCheck_holds (r : Fin 8) (h : s.Holds b) : (absentCheck r s).Holds b := by
  unfold absentCheck
  (repeat' split) <;> simp (maxDischargeDepth := 40) [h]

@[simp] theorem setSlot_holds (i : Fin 8) (f : FillSlot) (h : s.Holds b) : (setSlot i f s).Holds b := by
  unfold setSlot
  simp (maxDischargeDepth := 40) [h]

@[simp] theorem takeGroup_holds (h : s.Holds b) : (takeGroup s).Holds b := by
  unfold takeGroup
  (repeat' split) <;> simp (maxDischargeDepth := 40) [h]

@[simp] theorem takeGroups_holds (h : s.Holds b) : (takeGroups s).Holds b := by
  unfold takeGroups
  simp (maxDischargeDepth := 40) [h]

@[simp] theorem endInRun_holds (id : BlockId) (h : s.Holds b) : (endInRun id s).Holds b := by
  unfold endInRun
  simp (maxDischargeDepth := 40) [h]

@[simp] theorem reserve_holds (xs : List (BlockId × Fin 8)) : ∀ {s : Part}, s.Holds b → (reserve xs s).Holds b := by
  induction xs with
  | nil => intro s h; exact h
  | cons x xs ih => intro s h; exact ih (by simp [h])

@[simp] theorem startDemand_holds (h : s.Holds b) : (startDemand s).Holds b := by
  unfold startDemand
  (repeat' split) <;> simp (maxDischargeDepth := 40) [h]

@[simp] theorem startBackground_holds (h : s.Holds b) : (startBackground s).Holds b := by
  unfold startBackground
  simp (maxDischargeDepth := 40) [h]

@[simp] theorem continueBackground_holds (h : s.Holds b) : (continueBackground s).Holds b := by
  unfold continueBackground
  simp (maxDischargeDepth := 40) [h]

@[simp] theorem landBurst_holds (i : Fin 8) (id : BlockId) (c : ReadBurst)
    (h : s.Holds b) : (landBurst i id c s).Holds b := by
  unfold landBurst
  (repeat' split) <;> simp (maxDischargeDepth := 40) [h]

@[simp] theorem demandBurst_holds (c : ReadBurst) (h : s.Holds b) : (demandBurst c s).Holds b := by
  unfold demandBurst
  (repeat' split) <;> simp (maxDischargeDepth := 40) [h]

@[simp] theorem backgroundBurst_holds (c : ReadBurst) (h : s.Holds b) : (backgroundBurst c s).Holds b := by
  unfold backgroundBurst
  (repeat' split) <;> simp (maxDischargeDepth := 40) [h]

@[simp] theorem staleGroup_holds (g : Fin 2) (h : s.Holds b) : (staleGroup g s).Holds b := by
  exact foldl_holds _ (fun t x ht => by split <;> simp [ht]) _ h

@[simp] theorem dropSlot_holds (i : Fin 8) (h : s.Holds b) : (dropSlot i s).Holds b := by
  unfold dropSlot
  (repeat' split) <;> simp (maxDischargeDepth := 40) [h]

@[simp] theorem revertBlock_holds (id : BlockId) (i : Fin 8) (h : s.Holds b) : (revertBlock id i s).Holds b := by
  unfold revertBlock
  simp (maxDischargeDepth := 40) [h]

@[simp] theorem failBlocks_holds (xs : List (BlockId × Fin 8)) (why : FillFail) (h : s.Holds b) :
    (failBlocks xs why s).Holds b := by
  cases xs with
  | nil => exact h
  | cons x xs =>
    have h1 := foldl_holds (fun t (x : BlockId × Fin 8) => revertBlock x.1 x.2 t) (fun t x ht => by simp [ht]) (x :: xs) h
    exact takeGroups_holds (post_holds _ (foldl_holds _ (fun t x ht => by simp [ht]) _ (by simpa using h1)))

@[simp] theorem failDemand_holds (why : FillFail) (h : s.Holds b) : (failDemand why s).Holds b := by
  unfold failDemand
  (repeat' split) <;> simp (maxDischargeDepth := 40) [h]

@[simp] theorem failBackground_holds (why : FillFail) (h : s.Holds b) : (failBackground why s).Holds b := by
  unfold failBackground
  (repeat' split) <;> simp (maxDischargeDepth := 40) [h]

@[simp] theorem failUnreceived_holds (why : FillFail) (h : s.Holds b) : (failUnreceived why s).Holds b := by
  unfold failUnreceived
  (repeat' split) <;> simp (maxDischargeDepth := 40) [h]

@[simp] theorem failYielded_holds (h : s.Holds b) : (failYielded s).Holds b := by
  unfold failYielded
  (repeat' split) <;> simp (maxDischargeDepth := 40) [h]

@[simp] theorem fillComplete_holds (id : BlockId) (i : Fin 8) (h : s.Holds b) : (fillComplete id i s).Holds b := by
  unfold fillComplete
  simp (maxDischargeDepth := 40) [h]

@[simp] theorem fillWriteFailed_holds (id : BlockId) (i : Fin 8)
    (h : s.Holds b) : (fillWriteFailed id i s).Holds b := by
  unfold fillWriteFailed
  simp (maxDischargeDepth := 40) [h]

@[simp] theorem fillTaken_holds (g : Fin 2) (ok : Bool) (h : s.Holds b) : (fillTaken g ok s).Holds b := by
  unfold fillTaken
  (repeat' split) <;> simp (maxDischargeDepth := 40) [h]

@[simp] theorem fillResponse_holds (g : Fin 2) (k : Fin 4) (ok : Bool)
    (h : s.Holds b) : (fillResponse g k ok s).Holds b := by
  unfold fillResponse
  (repeat' split) <;> simp (maxDischargeDepth := 40) [h]

@[simp] theorem staleFills_holds (h : s.Holds b) : (staleFills s).Holds b := by
  unfold staleFills
  simp (maxDischargeDepth := 40) [h]

@[simp] theorem fillReset_holds (h : s.Holds b) : (fillReset s).Holds b := by
  have h1 := foldl_holds (fun t id => setState id (.absent false) t) (fun t x ht => by simp [ht]) (fillingOrder s) h
  refine foldl_holds _ (fun t x ht => by simp [ht]) _ (staleFills_holds ?_)
  simpa using h1

@[simp] theorem changeStatus_holds (new : ModStatus) (detail : Option StatusDetail)
    (h : s.Holds b) : (changeStatus new detail s).Holds b := by
  unfold changeStatus
  (repeat' split) <;> simp (maxDischargeDepth := 40) [h]

@[simp] theorem becomeReady_holds (h : s.Holds b) : (becomeReady s).Holds b := by
  unfold becomeReady
  (repeat' split) <;> simp (maxDischargeDepth := 40) [h]

@[simp] theorem withdraw_holds (r : Requester) (h : s.Holds b) : (withdraw r s).Holds b := by
  unfold withdraw
  simp (maxDischargeDepth := 40) [h]

@[simp] theorem disown_holds (r : Requester) (h : s.Holds b) : (disown r s).Holds b := by
  unfold disown
  simp (maxDischargeDepth := 40) [h]

@[simp] theorem startIdent_holds (h : s.Holds b) : (startIdent s).Holds b := by
  unfold startIdent
  simp (maxDischargeDepth := 40) [h]

end Sys2Proof.Machine
end

