-- ==== Sys2Proof/Laws/BoundsEngine.lean ====
section
/-! SUPPORT. What each operation of the checkpoint engine, recovery, identification and FORMAT keeps of the bounds. -/

namespace Sys2Proof.Machine

variable {b : Bound} {s : Part}

@[simp] theorem setEngine_holds (e : EngineState) (h : s.Holds b) : (setEngine e s).Holds b := by
  unfold setEngine
  simp (maxDischargeDepth := 40) [h]

@[simp] theorem pauseAt_holds (p : Point) (h : s.Holds b) : (pauseAt p s).Holds b := by
  unfold pauseAt
  simp (maxDischargeDepth := 40) [h]

@[simp] theorem enterIdle_holds (h : s.Holds b) : (enterIdle s).Holds b := by
  unfold enterIdle
  (repeat' split) <;> simp (maxDischargeDepth := 40) [h]

@[simp] theorem captureEntry_holds (e : QEntry) (h : s.Holds b) : (captureEntry e s).Holds b := by
  unfold captureEntry
  (repeat' split) <;> simp (maxDischargeDepth := 40) [h]

@[simp] theorem endCapture_holds (h : s.Holds b) : (endCapture s).Holds b := by
  unfold endCapture
  (repeat' split) <;> simp (maxDischargeDepth := 40) [h]

@[simp] theorem nextCapture_holds (h : s.Holds b) : (nextCapture s).Holds b := by
  unfold nextCapture
  (repeat' split) <;> simp (maxDischargeDepth := 40) [h]

@[simp] theorem startBatch_holds (h : s.Holds b) : (startBatch s).Holds b := by
  unfold startBatch
  simp (maxDischargeDepth := 40) [h]

@[simp] theorem commitMember_holds (e : Staged) (h : s.Holds b) : (commitMember s e).Holds b := by
  unfold commitMember
  (repeat' split) <;> simp (maxDischargeDepth := 40) [h]

@[simp] theorem commitClaim_holds (h : s.Holds b) : (commitClaim s).Holds b := by
  exact foldl_holds _ (fun t x ht => by simp [ht]) _ h

@[simp] theorem abortClaim_holds (h : s.Holds b) : (abortClaim s).Holds b := by
  have h1 := foldl_holds (fun t (e : Staged) => setState e.id (.dirty (e.entry s.now).joined) t) (fun t x ht => by simp [ht])
    s.eng.staging h
  simpa [abortClaim] using h1

@[simp] theorem dropBatch_holds (h : s.Holds b) : (dropBatch s).Holds b := by
  unfold dropBatch
  simp (maxDischargeDepth := 40) [h]

@[simp] theorem abortBatch_holds (why : AbortReason) (h : s.Holds b) : (abortBatch why s).Holds b := by
  unfold abortBatch
  (repeat' split) <;> simp (maxDischargeDepth := 40) [h]

@[simp] theorem halt_holds (why : HaltReason) (batch : Option U32) (status : Option LinkStatus)
    (h : s.Holds b) : (halt why batch status s).Holds b := by
  unfold halt
  simp (maxDischargeDepth := 40) [h]

@[simp] theorem countedAbort_holds (why : AbortReason) (h : s.Holds b) : (countedAbort why s).Holds b := by
  unfold countedAbort; dsimp only
  (repeat' split) <;> simp (maxDischargeDepth := 40) [h]

@[simp] theorem recordCommit_holds (slot : StatusSlot) (seq : U32)
    (h : s.Holds b) : (recordCommit slot seq s).Holds b := by
  unfold recordCommit
  simp (maxDischargeDepth := 40) [h]

@[simp] theorem enterApply_holds (h : s.Holds b) : (enterApply s).Holds b := by
  unfold enterApply
  (repeat' split) <;> simp (maxDischargeDepth := 40) [h]

@[simp] theorem commitPoint_holds (slot : StatusSlot) (seq : U32)
    (h : s.Holds b) : (commitPoint slot seq s).Holds b := by
  unfold commitPoint
  simp (maxDischargeDepth := 40) [h]

@[simp] theorem enterInDoubt_holds (h : s.Holds b) : (enterInDoubt s).Holds b := by
  unfold enterInDoubt
  (repeat' split) <;> simp (maxDischargeDepth := 40) [h]

@[simp] theorem applyFailed_holds (h : s.Holds b) : (applyFailed s).Holds b := by
  unfold applyFailed
  (repeat' split) <;> simp (maxDischargeDepth := 40) [h]

@[simp] theorem journalSent_holds (pos : Nat) (h : s.Holds b) : (journalSent pos s).Holds b := by
  unfold journalSent
  (repeat' split) <;> simp (maxDischargeDepth := 40) [h]

@[simp] theorem advanceSent_holds (n : Nat) (h : s.Holds b) : (advanceSent n s).Holds b := by
  unfold advanceSent
  simp (maxDischargeDepth := 40) [h]

@[simp] theorem advanceApplied_holds (n : Nat) (h : s.Holds b) : (advanceApplied n s).Holds b := by
  unfold advanceApplied
  simp (maxDischargeDepth := 40) [h]

@[simp] theorem journalRunEnd_holds (n : Nat) (h : s.Holds b) : (journalRunEnd n s).Holds b := by
  unfold journalRunEnd; dsimp only
  (repeat' split) <;> simp (maxDischargeDepth := 40) [h]

@[simp] theorem applyRunEnd_holds (n : Nat) (h : s.Holds b) : (applyRunEnd n s).Holds b := by
  unfold applyRunEnd; dsimp only
  (repeat' split) <;> simp (maxDischargeDepth := 40) [h]

@[simp] theorem retireEnd_holds (h : s.Holds b) : (retireEnd s).Holds b := by
  unfold retireEnd
  simp (maxDischargeDepth := 40) [h]

@[simp] theorem verifyResult_holds (a : Option StatusRecord) (c : Option StatusRecord)
    (h : s.Holds b) : (verifyResult a c s).Holds b := by
  unfold verifyResult
  (repeat' split) <;> simp (maxDischargeDepth := 40) [h]

@[simp] theorem verifyBurst_holds (c : ReadBurst) (h : s.Holds b) : (verifyBurst c s).Holds b := by
  unfold verifyBurst
  (repeat' split) <;> simp (maxDischargeDepth := 40) [h]

@[simp] theorem leaveApplied_holds (h : s.Holds b) : (leaveApplied s).Holds b := by
  unfold leaveApplied
  simp (maxDischargeDepth := 40) [h]

@[simp] theorem engineLoss_holds (h : s.Holds b) : (engineLoss s).Holds b := by
  unfold engineLoss
  (repeat' split) <;> simp (maxDischargeDepth := 40) [h]

@[simp] theorem continueFrom_holds (p : Point) (h : s.Holds b) : (continueFrom p s).Holds b := by
  unfold continueFrom
  (repeat' split) <;> simp (maxDischargeDepth := 40) [h]

@[simp] theorem endPause_holds (byFreeze : Bool) (h : s.Holds b) : (endPause byFreeze s).Holds b := by
  unfold endPause
  (repeat' split) <;> simp (maxDischargeDepth := 40) [h]

@[simp] theorem pauseEngine_holds (h : s.Holds b) : (pauseEngine s).Holds b := by
  unfold pauseEngine
  (repeat' split) <;> simp (maxDischargeDepth := 40) [h]

@[simp] theorem storePart_holds (slot : Nat) (k : Fin 4) (data : Payload)
    (h : s.Holds b) : (storePart slot k data s).Holds b := by
  unfold storePart
  simp (maxDischargeDepth := 40) [h]

@[simp] theorem captureEnd_holds (c : CaptureRead) (h : s.Holds b) : (captureEnd c s).Holds b := by
  unfold captureEnd
  (repeat' split) <;> simp (maxDischargeDepth := 40) [h]

@[simp] theorem afterCapture_holds (h : s.Holds b) : (afterCapture s).Holds b := by
  unfold afterCapture
  (repeat' split) <;> simp (maxDischargeDepth := 40) [h]

@[simp] theorem captureTaken_holds (k : Fin 4) (ok : Bool) (data : Payload)
    (h : s.Holds b) : (captureTaken k ok data s).Holds b := by
  unfold captureTaken; dsimp only
  (repeat' split) <;> simp (maxDischargeDepth := 40) [h]

@[simp] theorem captureResponse_holds (k : Fin 4) (ok : Bool) (data : Payload)
    (h : s.Holds b) : (captureResponse k ok data s).Holds b := by
  unfold captureResponse
  (repeat' split) <;> simp (maxDischargeDepth := 40) [h]

@[simp] theorem clearEngine_holds (h : s.Holds b) : (clearEngine s).Holds b := by
  unfold clearEngine
  simp (maxDischargeDepth := 40) [h]

@[simp] theorem engineReset_holds (h : s.Holds b) : (engineReset s).Holds b := by
  unfold engineReset
  (repeat' split) <;> simp (maxDischargeDepth := 40) [h]

@[simp] theorem startRecovery_holds (h : s.Holds b) : (startRecovery s).Holds b := by
  unfold startRecovery
  (repeat' split) <;> simp (maxDischargeDepth := 40) [h]

@[simp] theorem leaveRecovery_holds (h : s.Holds b) : (leaveRecovery s).Holds b := by
  unfold leaveRecovery
  (repeat' split) <;> simp (maxDischargeDepth := 40) [h]

@[simp] theorem recoveryFailed_holds (h : s.Holds b) : (recoveryFailed s).Holds b := by
  unfold recoveryFailed
  simp (maxDischargeDepth := 40) [h]

@[simp] theorem recoveryHalted_holds (st : LinkStatus) (h : s.Holds b) : (recoveryHalted st s).Holds b := by
  unfold recoveryHalted
  (repeat' split) <;> simp (maxDischargeDepth := 40) [h]

@[simp] theorem recoverySucceeded_holds (batch : U32) (replayed : Nat)
    (h : s.Holds b) : (recoverySucceeded batch replayed s).Holds b := by
  unfold recoverySucceeded
  simp (maxDischargeDepth := 40) [h]

@[simp] theorem journalCorrupt_holds (cause : CorruptCause) (h : s.Holds b) : (journalCorrupt cause s).Holds b := by
  unfold journalCorrupt
  simp (maxDischargeDepth := 40) [h]

@[simp] theorem setStep_holds (st : RecoveryStep) (h : s.Holds b) : (setStep st s).Holds b := by
  unfold setStep
  simp (maxDischargeDepth := 40) [h]

@[simp] theorem finishEntries_holds (r : StatusRecord) (tags : List Payload)
    (h : s.Holds b) : (finishEntries r tags s).Holds b := by
  unfold finishEntries
  (repeat' split) <;> simp (maxDischargeDepth := 40) [h]

@[simp] theorem followRecord_holds (newest : Option (StatusSlot × StatusRecord))
    (h : s.Holds b) : (followRecord newest s).Holds b := by
  unfold followRecord
  (repeat' split) <;> simp (maxDischargeDepth := 40) [h]

@[simp] theorem settleDoubt_holds (newest : Option (StatusSlot × StatusRecord))
    (h : s.Holds b) : (settleDoubt newest s).Holds b := by
  unfold settleDoubt; dsimp only
  (repeat' split) <;> simp (maxDischargeDepth := 40) [h]

@[simp] theorem slotsRead_holds (a : Option StatusRecord) (c : Option StatusRecord)
    (h : s.Holds b) : (slotsRead a c s).Holds b := by
  unfold slotsRead
  (repeat' split) <;> simp (maxDischargeDepth := 40) [h]

@[simp] theorem entryArrived_holds (r : StatusRecord) (tags : List Payload) (c : ReadBurst)
    (h : s.Holds b) : (entryArrived r tags c s).Holds b := by
  unfold entryArrived; dsimp only
  (repeat' split) <;> simp (maxDischargeDepth := 40) [h]

@[simp] theorem recoveryBurst_holds (c : ReadBurst) (h : s.Holds b) : (recoveryBurst c s).Holds b := by
  unfold recoveryBurst
  (repeat' split) <;> simp (maxDischargeDepth := 40) [h]

@[simp] theorem recoveryWritten_holds (n : Nat) (h : s.Holds b) : (recoveryWritten n s).Holds b := by
  unfold recoveryWritten
  (repeat' split) <;> simp (maxDischargeDepth := 40) [h]

@[simp] theorem recoveryStatus_holds (st : LinkStatus) (h : s.Holds b) : (recoveryStatus st s).Holds b := by
  unfold recoveryStatus
  (repeat' split) <;> simp (maxDischargeDepth := 40) [h]

@[simp] theorem recoveryLoss_holds (h : s.Holds b) : (recoveryLoss s).Holds b := by
  unfold recoveryLoss
  simp (maxDischargeDepth := 40) [h]

@[simp] theorem engineStatus_holds (old : ModStatus) (new : ModStatus)
    (h : s.Holds b) : (engineStatus old new s).Holds b := by
  unfold engineStatus
  (repeat' split) <;> simp (maxDischargeDepth := 40) [h]

@[simp] theorem setStatus_holds (new : ModStatus) (detail : Option StatusDetail)
    (h : s.Holds b) : (setStatus new detail s).Holds b := by
  unfold setStatus
  (repeat' split) <;> simp (maxDischargeDepth := 40) [h]

@[simp] theorem identDead_holds (detail : StatusDetail) (h : s.Holds b) : (identDead detail s).Holds b := by
  unfold identDead
  simp (maxDischargeDepth := 40) [h]

@[simp] theorem identDecided_holds (found : ModStatus) (detail : Option StatusDetail) (h : s.Holds b) :
    (identDecided found detail s).Holds b := by
  unfold identDecided
  split <;> simp (maxDischargeDepth := 40) [h]

@[simp] theorem identEnd_holds (h : s.Holds b) : (identEnd s).Holds b := by
  unfold identEnd
  simp (maxDischargeDepth := 40) [h]

@[simp] theorem identityArrived_holds (c : ReadBurst) (h : s.Holds b) : (identityArrived c s).Holds b := by
  unfold identityArrived; dsimp only
  (repeat' split) <;> simp (maxDischargeDepth := 40) [h]

@[simp] theorem headerArrived_holds (c : ReadBurst) (h : s.Holds b) : (headerArrived c s).Holds b := by
  unfold headerArrived; dsimp only
  (repeat' split) <;> simp (maxDischargeDepth := 40) [h]

@[simp] theorem identBurst_holds (c : ReadBurst) (h : s.Holds b) : (identBurst c s).Holds b := by
  unfold identBurst
  (repeat' split) <;> simp (maxDischargeDepth := 40) [h]

@[simp] theorem identFailed_holds (detail : StatusDetail) (h : s.Holds b) : (identFailed detail s).Holds b := by
  unfold identFailed
  (repeat' split) <;> simp (maxDischargeDepth := 40) [h]

@[simp] theorem setFormatStep_holds (st : FormatStep) (h : s.Holds b) : (setFormatStep st s).Holds b := by
  unfold setFormatStep
  simp (maxDischargeDepth := 40) [h]

@[simp] theorem formatDone_holds (f : FormatRun) (h : s.Holds b) : (formatDone f s).Holds b := by
  unfold formatDone
  simp (maxDischargeDepth := 40) [h]

@[simp] theorem formatWritten_holds (n : Nat) (h : s.Holds b) : (formatWritten n s).Holds b := by
  unfold formatWritten
  (repeat' split) <;> simp (maxDischargeDepth := 40) [h]

@[simp] theorem formatFailed_holds (code : ReqCode) (cause : FormatCause)
    (h : s.Holds b) : (formatFailed code cause s).Holds b := by
  unfold formatFailed
  (repeat' split) <;> simp (maxDischargeDepth := 40) [h]

end Sys2Proof.Machine
end

