-- ==== Sys2Proof/Laws/BoundsLink.lean ====
section
/-! SUPPORT. What each operation of the link controller, presence, power-fail control keeps of the bounds. -/

namespace Sys2Proof.Machine

variable {b : Bound} {s : Part}

@[simp] theorem identOutcome_holds (o : LinkOutcome) (h : s.Holds b) : (identOutcome o s).Holds b := by
  unfold identOutcome
  (repeat' split) <;> simp (maxDischargeDepth := 40) [h]

@[simp] theorem formatOutcome_holds (q : LinkReq) (o : LinkOutcome)
    (h : s.Holds b) : (formatOutcome q o s).Holds b := by
  unfold formatOutcome
  (repeat' split) <;> simp (maxDischargeDepth := 40) [h]

@[simp] theorem recoveryOutcome_holds (q : LinkReq) (o : LinkOutcome)
    (h : s.Holds b) : (recoveryOutcome q o s).Holds b := by
  unfold recoveryOutcome
  (repeat' split) <;> simp (maxDischargeDepth := 40) [h]

@[simp] theorem demandOutcome_holds (o : LinkOutcome) (h : s.Holds b) : (demandOutcome o s).Holds b := by
  unfold demandOutcome
  (repeat' split) <;> simp (maxDischargeDepth := 40) [h]

@[simp] theorem yieldBackground_holds (h : s.Holds b) : (yieldBackground s).Holds b := by
  unfold yieldBackground
  simp (maxDischargeDepth := 40) [h]

@[simp] theorem backgroundOutcome_holds (o : LinkOutcome) (h : s.Holds b) : (backgroundOutcome o s).Holds b := by
  unfold backgroundOutcome
  (repeat' split) <;> simp (maxDischargeDepth := 40) [h]

@[simp] theorem engineWritten_holds (n : Nat) (h : s.Holds b) : (engineWritten n s).Holds b := by
  unfold engineWritten
  (repeat' split) <;> simp (maxDischargeDepth := 40) [h]

@[simp] theorem engineFailed_holds (cls : Option ErrClass) (h : s.Holds b) : (engineFailed cls s).Holds b := by
  unfold engineFailed
  (repeat' split) <;> simp (maxDischargeDepth := 40) [h]

@[simp] theorem engineRefused_holds (h : s.Holds b) : (engineRefused s).Holds b := by
  unfold engineRefused
  (repeat' split) <;> simp (maxDischargeDepth := 40) [h]

@[simp] theorem engineOutcome_holds (q : LinkReq) (o : LinkOutcome)
    (h : s.Holds b) : (engineOutcome q o s).Holds b := by
  unfold engineOutcome
  (repeat' split) <;> simp (maxDischargeDepth := 40) [h]

@[simp] theorem deliver_holds (q : LinkReq) (o : LinkOutcome) (h : s.Holds b) : (deliver q o s).Holds b := by
  unfold deliver
  (repeat' split) <;> simp (maxDischargeDepth := 40) [h]

@[simp] theorem handBurst_holds (q : LinkReq) (c : ReadBurst) (h : s.Holds b) : (handBurst q c s).Holds b := by
  unfold handBurst
  (repeat' split) <;> simp (maxDischargeDepth := 40) [h]

@[simp] theorem clearRequest_holds (h : s.Holds b) : (clearRequest s).Holds b := by
  unfold clearRequest
  simp (maxDischargeDepth := 40) [h]

@[simp] theorem endRequest_holds (h : s.Holds b) : (endRequest s).Holds b := by
  unfold endRequest
  simp (maxDischargeDepth := 40) [h]

@[simp] theorem finish_holds (o : LinkOutcome) (h : s.Holds b) : (finish o s).Holds b := by
  unfold finish
  (repeat' split) <;> simp (maxDischargeDepth := 40) [h]

@[simp] theorem sendFrame_holds (k : FrameKind) (c : ReqCode) (arg : Nat)
    (h : s.Holds b) : (sendFrame k c arg s).Holds b := by
  unfold sendFrame
  simp (maxDischargeDepth := 40) [h]

@[simp] theorem sendEndRun_holds (why : CloseWhy) (h : s.Holds b) : (sendEndRun why s).Holds b := by
  unfold sendEndRun
  simp (maxDischargeDepth := 40) [h]

@[simp] theorem sendBurst_holds (q : LinkReq) (h : s.Holds b) : (sendBurst q s).Holds b := by
  unfold sendBurst
  simp (maxDischargeDepth := 40) [h]

@[simp] theorem awaitBurst_holds (h : s.Holds b) : (awaitBurst s).Holds b := by
  unfold awaitBurst
  simp (maxDischargeDepth := 40) [h]

@[simp] theorem awaitBusy_holds (h : s.Holds b) : (awaitBusy s).Holds b := by
  unfold awaitBusy
  simp (maxDischargeDepth := 40) [h]

@[simp] theorem boundary_holds (h : s.Holds b) : (boundary s).Holds b := by
  unfold boundary
  (repeat' split) <;> simp (maxDischargeDepth := 40) [h]

@[simp] theorem advancePos_holds (h : s.Holds b) : (advancePos s).Holds b := by
  unfold advancePos
  simp (maxDischargeDepth := 40) [h]

@[simp] theorem resend_holds (q : LinkReq) (h : s.Holds b) : (resend q s).Holds b := by
  unfold resend
  (repeat' split) <;> simp (maxDischargeDepth := 40) [h]

@[simp] theorem attemptError_holds (c : ErrClass) (h : s.Holds b) : (attemptError c s).Holds b := by
  unfold attemptError
  (repeat' split) <;> simp (maxDischargeDepth := 40) [h]

theorem eitherOrder_holds {report change : Part → Part} (hr : ∀ t, t.Holds b → (report t).Holds b)
    (hc : ∀ t, t.Holds b → (change t).Holds b) (h : s.Holds b) : (eitherOrder report change s).Holds b := by
  unfold eitherOrder; dsimp only
  split <;> simp (maxDischargeDepth := 40) [h, hr, hc]

theorem lossReports_holds (q : Option LinkReq) (o : LinkOutcome) (changes : Bool) {change : Part → Part}
    (hc : ∀ t, t.Holds b → (change t).Holds b) (h : s.Holds b) : (lossReports q o changes change s).Holds b := by
  unfold lossReports
  split
  next => exact hc _ h
  next r =>
    split
    next => exact hc _ (deliver_holds _ _ h)
    next => exact eitherOrder_holds (fun t ht => deliver_holds _ _ ht) hc h

@[simp] theorem lostStatus_holds (h : s.Holds b) : (lostStatus s).Holds b := by
  unfold lostStatus
  (repeat' split) <;> simp (maxDischargeDepth := 40) [h]

@[simp] theorem loseLink_holds (sent : Bool) (c : ErrClass) (h : s.Holds b) : (loseLink sent c s).Holds b :=
  lossReports_holds _ _ _ (fun t ht => lostStatus_holds ht) (by simp (maxDischargeDepth := 40) [h])

@[simp] theorem beginClose_holds (c : ErrClass) (h : s.Holds b) : (beginClose c s).Holds b := by
  unfold beginClose
  (repeat' split) <;> simp (maxDischargeDepth := 40) [h]

@[simp] theorem beginCloseAgain_holds (c : ErrClass) (h : s.Holds b) : (beginCloseAgain c s).Holds b := by
  unfold beginCloseAgain
  (repeat' split) <;> simp (maxDischargeDepth := 40) [h]

@[simp] theorem endRunError_holds (c : ErrClass) (h : s.Holds b) : (endRunError c s).Holds b := by
  unfold endRunError
  (repeat' split) <;> simp (maxDischargeDepth := 40) [h]

@[simp] theorem closeEnded_holds (c : ErrClass) (h : s.Holds b) : (closeEnded c s).Holds b := by
  unfold closeEnded
  (repeat' split) <;> simp (maxDischargeDepth := 40) [h]

@[simp] theorem queryUntaken_holds (h : s.Holds b) : (queryUntaken s).Holds b := by
  unfold queryUntaken
  (repeat' split) <;> simp (maxDischargeDepth := 40) [h]

@[simp] theorem queryAnswered_holds (arg : U32) (h : s.Holds b) : (queryAnswered arg s).Holds b := by
  unfold queryAnswered
  (repeat' split) <;> simp (maxDischargeDepth := 40) [h]

@[simp] theorem runClosed_holds (h : s.Holds b) : (runClosed s).Holds b := by
  unfold runClosed
  (repeat' split) <;> simp (maxDischargeDepth := 40) [h]

@[simp] theorem endRunAnswered_holds (h : s.Holds b) : (endRunAnswered s).Holds b := by
  unfold endRunAnswered
  (repeat' split) <;> simp (maxDischargeDepth := 40) [h]

@[simp] theorem endRunStatus_holds (st : LinkStatus) (h : s.Holds b) : (endRunStatus st s).Holds b := by
  unfold endRunStatus
  simp (maxDischargeDepth := 40) [h]

@[simp] theorem requestError_holds (c : ErrClass) (h : s.Holds b) : (requestError c s).Holds b := by
  unfold requestError
  (repeat' split) <;> simp (maxDischargeDepth := 40) [h]

@[simp] theorem openRun_holds (q : LinkReq) (h : s.Holds b) : (openRun q s).Holds b := by
  unfold openRun; dsimp only
  (repeat' split) <;> simp (maxDischargeDepth := 40) [h]

@[simp] theorem requestAnswered_holds (h : s.Holds b) : (requestAnswered s).Holds b := by
  unfold requestAnswered
  (repeat' split) <;> simp (maxDischargeDepth := 40) [h]

@[simp] theorem frameError_holds (k : FrameKind) (c : ErrClass) (h : s.Holds b) : (frameError k c s).Holds b := by
  unfold frameError
  (repeat' split) <;> simp (maxDischargeDepth := 40) [h]

@[simp] theorem clearAnswered_holds (h : s.Holds b) : (clearAnswered s).Holds b := by
  unfold clearAnswered
  (repeat' split) <;> simp (maxDischargeDepth := 40) [h]

@[simp] theorem answerTaken_holds (k : FrameKind) (f : AnswerFrame)
    (h : s.Holds b) : (answerTaken k f s).Holds b := by
  unfold answerTaken
  (repeat' split) <;> simp (maxDischargeDepth := 40) [h]

@[simp] theorem burstPassed_holds (c : ReadBurst) (h : s.Holds b) : (burstPassed c s).Holds b := by
  unfold burstPassed
  (repeat' split) <;> simp (maxDischargeDepth := 40) [h]

@[simp] theorem burstEnd_holds (c : ReadBurst) (h : s.Holds b) : (burstEnd c s).Holds b := by
  unfold burstEnd
  (repeat' split) <;> simp (maxDischargeDepth := 40) [h]

@[simp] theorem burstAccepted_holds (h : s.Holds b) : (burstAccepted s).Holds b := by
  unfold burstAccepted
  (repeat' split) <;> simp (maxDischargeDepth := 40) [h]

@[simp] theorem ackTaken_holds (code : BitVec 2) (stop : Bool) (h : s.Holds b) : (ackTaken code stop s).Holds b := by
  unfold ackTaken
  (repeat' split) <;> simp (maxDischargeDepth := 40) [h]

@[simp] theorem busyEnded_holds (h : s.Holds b) : (busyEnded s).Holds b := by
  unfold busyEnded
  (repeat' split) <;> simp (maxDischargeDepth := 40) [h]

@[simp] theorem busyTimedOut_holds (h : s.Holds b) : (busyTimedOut s).Holds b := by
  unfold busyTimedOut
  simp (maxDischargeDepth := 40) [h]

@[simp] theorem writeBurstDone_holds (h : s.Holds b) : (writeBurstDone s).Holds b := by
  unfold writeBurstDone
  (repeat' split) <;> simp (maxDischargeDepth := 40) [h]

@[simp] theorem grant_holds (q : LinkReq) (h : s.Holds b) : (grant q s).Holds b := by
  unfold grant
  (repeat' split) <;> simp (maxDischargeDepth := 40) [h]

@[simp] theorem grantDemand_holds (h : s.Holds b) : (grantDemand s).Holds b := by
  unfold grantDemand
  (repeat' split) <;> simp (maxDischargeDepth := 40) [h]

@[simp] theorem grantBackground_holds (h : s.Holds b) : (grantBackground s).Holds b := by
  unfold grantBackground
  (repeat' split) <;> simp (maxDischargeDepth := 40) [h]

@[simp] theorem grantOpt_holds (q : Option LinkReq) (h : s.Holds b) : (grantOpt q s).Holds b := by
  unfold grantOpt
  (repeat' split) <;> simp (maxDischargeDepth := 40) [h]

@[simp] theorem grantReady_holds (h : s.Holds b) : (grantReady s).Holds b := by
  unfold grantReady
  (repeat' split) <;> simp (maxDischargeDepth := 40) [h]

@[simp] theorem linkGrant_holds (h : s.Holds b) : (linkGrant s).Holds b := by
  unfold linkGrant
  (repeat' split) <;> simp (maxDischargeDepth := 40) [h]

@[simp] theorem failWaitingFormat_holds (cause : FormatCause)
    (h : s.Holds b) : (failWaitingFormat cause s).Holds b := by
  unfold failWaitingFormat
  (repeat' split) <;> simp (maxDischargeDepth := 40) [h]

@[simp] theorem abandonForLoss_holds (h : s.Holds b) : (abandonForLoss s).Holds b := by
  unfold abandonForLoss
  (repeat' split) <;> simp (maxDischargeDepth := 40) [h]

@[simp] theorem startSettle_holds (st : PresenceState) (h : s.Holds b) : (startSettle st s).Holds b := by
  unfold startSettle
  simp (maxDischargeDepth := 40) [h]

@[simp] theorem presenceRise_holds (h : s.Holds b) : (presenceRise s).Holds b := by
  unfold presenceRise
  (repeat' split) <;> simp (maxDischargeDepth := 40) [h]

@[simp] theorem moduleGone_holds (h : s.Holds b) : (moduleGone s).Holds b := by
  unfold moduleGone
  simp (maxDischargeDepth := 40) [h]

@[simp] theorem presenceFall_holds (h : s.Holds b) : (presenceFall s).Holds b := by
  unfold presenceFall
  (repeat' split) <;> simp (maxDischargeDepth := 40) [h]

@[simp] theorem settleExpired_holds (h : s.Holds b) : (settleExpired s).Holds b := by
  unfold settleExpired
  (repeat' split) <;> simp (maxDischargeDepth := 40) [h]

@[simp] theorem assertFreeze_holds (h : s.Holds b) : (assertFreeze s).Holds b := by
  unfold assertFreeze
  (repeat' split) <;> simp (maxDischargeDepth := 40) [h]

@[simp] theorem withdrawFreeze_holds (h : s.Holds b) : (withdrawFreeze s).Holds b := by
  unfold withdrawFreeze
  simp (maxDischargeDepth := 40) [h]

@[simp] theorem deadlineExpired_holds (h : s.Holds b) : (deadlineExpired s).Holds b := by
  unfold deadlineExpired
  (repeat' split) <;> simp (maxDischargeDepth := 40) [h]

@[simp] theorem resetLinkStatus_holds (h : s.Holds b) : (resetLinkStatus s).Holds b := by
  unfold resetLinkStatus
  (repeat' split) <;> simp (maxDischargeDepth := 40) [h]

@[simp] theorem resetLinkState_holds (h : s.Holds b) : (resetLinkState s).Holds b := by
  unfold resetLinkState
  (repeat' split) <;> simp (maxDischargeDepth := 40) [h]

@[simp] theorem resetLink_holds (h : s.Holds b) : (resetLink s).Holds b :=
  failWaitingFormat_holds _ (lossReports_holds _ _ _ (fun t ht => resetLinkStatus_holds ht) (by simp [h]))

end Sys2Proof.Machine
end

