-- ==== Sys2Proof/Laws/BoundsCommands.lean ====
section
/-! SUPPORT. What each operation of resets and management commands keeps of the bounds. -/

namespace Sys2Proof.Machine

variable {b : Bound} {s : Part}

@[simp] theorem complete_holds (results : List Byte) (h : s.Holds b) : (complete results s).Holds b := by
  unfold complete
  simp (maxDischargeDepth := 40) [h]

@[simp] theorem refuse_holds (c : RefusalCode) (h : s.Holds b) : (refuse c s).Holds b := by
  unfold refuse
  simp (maxDischargeDepth := 40) [h]

@[simp] theorem acceptLong_holds (c : LongCmd) (results : List Byte)
    (h : s.Holds b) : (acceptLong c results s).Holds b := by
  unfold acceptLong
  simp (maxDischargeDepth := 40) [h]

@[simp] theorem newCommand_holds (h : s.Holds b) : (newCommand s).Holds b := by
  unfold newCommand
  simp (maxDischargeDepth := 40) [h]

theorem resetQueue_ok : EventQueue.reset.Ok := by
  refine ⟨by decide, ?_, ?_, by decide, by decide⟩ <;> simp [EventQueue.reset, Config.eventMax]

theorem watermarkReset (n : Fin 4) : (Limit.watermark n).inRange Part.reset.tbl.thresholds[n] = true := by
  revert n; decide

theorem resetRecords (r : Fin 8) :
    (Part.reset.tbl.recs[r]).length = if (Part.reset.regs[r]).state = .off then 0 else (Part.reset.regs[r]).size := by
  revert r; decide

@[simp] theorem resetBlocks_holds (m : Mailbox) (b : Bound) (s : Part) : (resetBlocks m s).Holds b := by
  cases b
  case events => exact resetQueue_ok
  case held => exact Nat.zero_le _
  case priority => exact List.Perm.refl _
  case limits => intro l; cases l <;> first | rfl | (next n => exact watermarkReset n)
  case records => exact resetRecords

@[simp] theorem readPins_holds (h : s.Holds b) : (readPins s).Holds b := by
  unfold readPins; dsimp only
  (repeat' split) <;> simp (maxDischargeDepth := 40) [h]

@[simp] theorem resetPart_holds (m : Mailbox) (b : Bound) (s : Part) : (resetPart m s).Holds b := by
  simp (maxDischargeDepth := 40) [resetPart]

@[simp] theorem powerOn_holds (addr1 addr0 mpres pfw : Bool) (b : Bound) (s : Part) :
    (powerOn addr1 addr0 mpres pfw s).Holds b := by
  simp [powerOn]

@[simp] theorem resetAll_holds (b : Bound) (s : Part) : (resetAll s).Holds b := by
  simp [resetAll]

@[simp] theorem resetEngine_holds (h : s.Holds b) : (resetEngine s).Holds b := by
  unfold resetEngine; dsimp only
  (repeat' split) <;> simp (maxDischargeDepth := 40) [h]

@[simp] theorem setRegion_holds (region : Byte) (ram : U32) (size : U16) (home : U32) (h : s.Holds b) :
    (setRegion region ram size home s).Holds b := by
  unfold setRegion
  split
  next => simp [h]
  next r _ =>
    split
    next => simp [h]
    next ho =>
      (repeat' split) <;> first
        | (simp [h]; done)
        | refine complete_holds _ (HoldsOf.withRecords h fun hr q => ?_)
      show (s.tbl.recs[q]).length = if ((s.regs.set r _)[q]).state = .off then 0 else ((s.regs.set r _)[q]).size
      have hq := hr q
      rw [getElem_set_fin, hq]
      by_cases e : r = q
      · subst e
        have hs : (regionSettings (s.regs[r]).state ram size.toNat home.toNat).state = (s.regs[r]).state := by
          unfold regionSettings; split <;> rfl
        rw [if_pos rfl, hs, if_pos (by simpa using ho), if_pos (by simpa using ho)]
      · rw [if_neg e]

theorem HoldsOf.anyRecords {q : EventQueue} {held prio recs recs' regs regs' lim} (hb : b ≠ .records)
    (h : HoldsOf b q held prio recs regs lim) : HoldsOf b q held prio recs' regs' lim := by
  cases b <;> first | exact absurd rfl hb | exact h

theorem postWatermarks_tbl (id : BlockId) (s : Part) : (postWatermarks id s).tbl = s.tbl ∧ (postWatermarks id s).regs = s.regs := by
  have hf : ∀ (xs : List (Fin 4)) (t : Part), t.tbl = s.tbl ∧ t.regs = s.regs →
      let u := xs.foldl (fun t n => if s.tbl.thresholds[n] ≠ 0 ∧ s.tbl.thresholds[n] = dirtyCount s then
        post (.watermark n id) t else t) t
      u.tbl = s.tbl ∧ u.regs = s.regs := by
    intro xs
    induction xs with
    | nil => intro t ht; exact ht
    | cons x xs ih =>
      intro t ht
      refine ih _ ?_
      dsimp only
      split <;> exact ht
  exact hf _ s ⟨rfl, rfl⟩

theorem adoptDirty_holds (r : Fin 8) (i : Nat) (hb : b ≠ .records) (h : s.Holds b) : (adoptDirty r s i).Holds b :=
  postWatermarks_holds _ (joinTail_holds _ _ (HoldsOf.anyRecords hb h))

theorem createRecords_holds (r : Fin 8) (adoptRam : Bool) (hb : b ≠ .records) (h : s.Holds b) :
    (createRecords r adoptRam s).Holds b := by
  unfold createRecords; dsimp only
  split
  · exact foldl_holds _ (fun t i ht => adoptDirty_holds r i hb ht) _ (HoldsOf.anyRecords hb h)
  · exact HoldsOf.anyRecords hb h

theorem adoptFold (r q : Fin 8) (xs : List Nat) : ∀ (t : Part),
    (xs.foldl (adoptDirty r) t).regs = t.regs ∧
    ((xs.foldl (adoptDirty r) t).tbl.recs[q]).length = (t.tbl.recs[q]).length + if r = q then xs.length else 0 := by
  induction xs with
  | nil => intro t; simp
  | cons x xs ih =>
    intro t
    have h1 := ih (adoptDirty r t x)
    have hw := postWatermarks_tbl ⟨r, x⟩ (joinTail ⟨r, x⟩ t.now
      { t with tbl.recs := t.tbl.recs.set r (t.tbl.recs[r] ++ [⟨.dirty t.now, none⟩]) })
    refine ⟨h1.1.trans hw.2, ?_⟩
    rw [List.foldl_cons, h1.2]
    have he : (adoptDirty r t x).tbl.recs = t.tbl.recs.set r (t.tbl.recs[r] ++ [⟨.dirty t.now, none⟩]) :=
      congrArg BlockTable.recs hw.1
    rw [he, getElem_set_fin]
    by_cases e : r = q
    · subst e; simp; omega
    · simp [e]

/-- What ATTACH's records are (R3): one for each block of the region, and no other region's records touched. -/
theorem createRecords_length (r q : Fin 8) (adoptRam : Bool) (s : Part) :
    (createRecords r adoptRam s).regs = s.regs ∧
    ((createRecords r adoptRam s).tbl.recs[q]).length =
      if r = q then (s.regs[r]).size else (s.tbl.recs[q]).length := by
  unfold createRecords; dsimp only
  split
  · have h := adoptFold r q (List.range (s.regs[r]).size) { s with tbl.recs := s.tbl.recs.set r [] }
    refine ⟨h.1, h.2.trans ?_⟩
    show ((s.tbl.recs.set r [])[q]).length + _ = _
    rw [getElem_set_fin]
    by_cases e : r = q <;> simp [e]
  · refine ⟨rfl, ?_⟩
    show (((s.tbl.recs.set r []).set r _)[q]).length = _
    rw [getElem_set_fin, getElem_set_fin]
    by_cases e : r = q <;> simp [e]

theorem attachClaim_holds (r : Fin 8) (adoptRam : Bool) (h : s.Holds b) : (attachClaim r adoptRam s).Holds b := by
  have hs : (setRegionState r (evalState (createRecords r adoptRam s) r) (createRecords r adoptRam s)).Holds b := by
    by_cases hb : b = .records
    · subst hb
      intro q
      have hc := createRecords_length r q adoptRam s
      show ((createRecords r adoptRam s).tbl.recs[q]).length =
        if (((createRecords r adoptRam s).regs.set r _)[q]).state = .off then 0
        else (((createRecords r adoptRam s).regs.set r _)[q]).size
      rw [hc.2, getElem_set_fin]
      by_cases e : r = q
      · rw [if_pos e, if_pos e, if_neg (evalState_ne_off _ _)]
        rw [hc.1]
      · rw [if_neg e, if_neg e, hc.1]; exact h q
    · exact HoldsOf.anyRecords hb (createRecords_holds r adoptRam hb h)
  simp (maxDischargeDepth := 40) [attachClaim, hs]

@[simp] theorem attach_holds (region mode : Byte) (h : s.Holds b) : (attach region mode s).Holds b := by
  unfold attach
  (repeat' split) <;> first
    | with_reducible exact refuse_holds _ h
    | with_reducible exact attachClaim_holds _ _ h

@[simp] theorem removeRegion_holds (r : Fin 8) (h : s.Holds b) : (removeRegion r s).Holds b := by
  refine HoldsOf.withRecords h fun hr q => ?_
  show ((s.tbl.recs.set r [])[q]).length = if ((s.regs.set r _)[q]).state = .off then 0 else ((s.regs.set r _)[q]).size
  rw [getElem_set_fin, getElem_set_fin]
  by_cases e : r = q
  · simp [e]
  · rw [if_neg e, if_neg e]; exact hr q

@[simp] theorem detachClaim_holds (r : Fin 8) (h : s.Holds b) : (detachClaim r s).Holds b := by
  unfold detachClaim
  simp (maxDischargeDepth := 40) [h]

@[simp] theorem detach_holds (region : Byte) (h : s.Holds b) : (detach region s).Holds b := by
  unfold detach
  (repeat' split) <;> simp (maxDischargeDepth := 40) [h]

@[simp] theorem checkpoint_holds (h : s.Holds b) : (checkpoint s).Holds b := by
  unfold checkpoint
  simp (maxDischargeDepth := 40) [h]

@[simp] theorem pause_holds (h : s.Holds b) : (pause s).Holds b := by
  unfold pause
  (repeat' split) <;> simp (maxDischargeDepth := 40) [h]

@[simp] theorem resume_holds (h : s.Holds b) : (resume s).Holds b := by
  unfold resume
  (repeat' split) <;> simp (maxDischargeDepth := 40) [h]

@[simp] theorem clearFault_holds (h : s.Holds b) : (clearFault s).Holds b := by
  unfold clearFault
  (repeat' split) <;> simp (maxDischargeDepth := 40) [h]

@[simp] theorem setBinding_holds (binding : U32) (h : s.Holds b) : (setBinding binding s).Holds b := by
  unfold setBinding
  (repeat' split) <;> simp (maxDischargeDepth := 40) [h]

theorem limitEffect_holds (l : Limit) {s old : Part} (h : s.Holds b) : (limitEffect l s old).Holds b := by
  unfold limitEffect
  split <;> simp [h]

@[simp] theorem setLimits_holds (selector : Byte) (value : U16) (h : s.Holds b) :
    (setLimits selector value s).Holds b := by
  unfold setLimits
  split
  next => exact refuse_holds _ h
  next l _ =>
    split
    next hv =>
      split
      next => exact complete_holds _ h
      next => exact settle_holds (complete_holds _ (limitEffect_holds _ (putLimit_holds l value.toNat hv h)))
    next => exact refuse_holds _ h

theorem writeMasks_ok (k : Fin 25) (c a : Bool) {q : EventQueue} (h : q.Ok) : (writeMasks k c a q).Ok := by
  unfold writeMasks
  split
  next => exact h
  next hk =>
    obtain ⟨h1, h2, h3, h4, h5⟩ := h
    have hk' : ¬ (k : Nat) = 24 := fun e => hk (Fin.ext e)
    refine ⟨h1, h2, h3, ?_, ?_⟩
    · simpa [Vector.getElem_set, hk'] using h4
    · simpa [Vector.getElem_set, hk'] using h5

@[simp] theorem setEventMasks_holds (kind capture alert : Byte) (h : s.Holds b) :
    (setEventMasks kind capture alert s).Holds b := by
  unfold setEventMasks
  split
  next => exact complete_holds _ (HoldsOf.withQueue h fun hq => writeMasks_ok _ _ _ hq)
  all_goals simp [h]

@[simp] theorem queryBlock_holds (region : Byte) (index : U16)
    (h : s.Holds b) : (queryBlock region index s).Holds b := by
  unfold queryBlock
  (repeat' split) <;> simp (maxDischargeDepth := 40) [h]

@[simp] theorem queryRegion_holds (region : Byte) (h : s.Holds b) : (queryRegion region s).Holds b := by
  unfold queryRegion
  (repeat' split) <;> simp (maxDischargeDepth := 40) [h]

theorem popRecord_ok {q : EventQueue} {r : EventRec} {rest : List EventRec} (hr : q.records = r :: rest) (h : q.Ok) :
    EventQueue.Ok { q with records := rest } := by
  obtain ⟨h1, h2, h3, h4, h5⟩ := h
  rw [hr] at h1 h2
  have hl : rest.length < Config.eventMax := h1
  refine ⟨Nat.le_of_lt hl, ?_, fun he => absurd he (Nat.ne_of_lt hl), h4, h5⟩
  cases rest with
  | nil => simp
  | cons x xs => intro y hy; exact h2 y (by rw [List.dropLast_cons_of_ne_nil (by simp)]; exact List.mem_cons_of_mem _ hy)

@[simp] theorem readEvent_holds (h : s.Holds b) : (readEvent s).Holds b := by
  unfold readEvent
  split
  next => simp [h]
  next e => exact complete_holds _ (HoldsOf.withQueue h fun hq => popRecord_ok e hq)

@[simp] theorem mapMarks_holds (f : BlockRec → Option Mark) (h : s.Holds b) : (mapMarks f s).Holds b := by
  refine HoldsOf.withRecords h fun hr q => ?_
  refine Eq.trans ?_ (hr q)
  simp [mapMarks, Fin.getElem_fin]

@[simp] theorem sync_holds (h : s.Holds b) : (sync s).Holds b := by
  unfold sync
  (repeat' split) <;> simp (maxDischargeDepth := 40) [h]

@[simp] theorem cancel_holds (h : s.Holds b) : (cancel s).Holds b := by
  unfold cancel
  (repeat' split) <;> simp (maxDischargeDepth := 40) [h]

@[simp] theorem acceptFormat_holds (homes : List HomeTarget) (h : s.Holds b) : (acceptFormat homes s).Holds b := by
  unfold acceptFormat
  simp (maxDischargeDepth := 40) [h]

@[simp] theorem format_holds (mode : Byte) (h : s.Holds b) : (format mode s).Holds b := by
  unfold format
  (repeat' split) <;> simp (maxDischargeDepth := 40) [h]

@[simp] theorem runCommand_holds (h : s.Holds b) : (runCommand s).Holds b := by
  unfold runCommand
  (repeat' split) <;> simp (maxDischargeDepth := 40) [h]

@[simp] theorem windowTransaction_holds (bytes : List Byte)
    (h : s.Holds b) : (windowTransaction bytes s).Holds b := by
  unfold windowTransaction
  (repeat' split) <;> simp (maxDischargeDepth := 40) [h]

theorem orHold_holds (bytes : List Byte) {taken : Part → Part} (ht : ∀ t, t.Holds b → (taken t).Holds b)
    (h : s.Holds b) : (orHold bytes taken s).Holds b := by
  unfold orHold
  split
  · simpa using h
  · exact ht _ h

@[simp] theorem releaseScl_holds (h : s.Holds b) : (releaseScl s).Holds b :=
  foldl_holds _ (fun t x ht => orHold_holds x (fun u hu => windowTransaction_holds x hu) ht) _ (by simpa using h)

theorem takeCommand_holds (code : Byte) (args : List Byte) {effect : Part → Part}
    (he : ∀ t, t.Holds b → (effect t).Holds b) (h : s.Holds b) : (takeCommand code args effect s).Holds b :=
  orHold_holds _ (fun t ht => he _ (newCommand_holds (by simpa using ht))) h

@[simp] theorem finishReset_holds (h : s.Holds b) : (finishReset s).Holds b := by
  unfold finishReset
  (repeat' split) <;> simp (maxDischargeDepth := 40) [h]

@[simp] theorem backoffExpired_holds (h : s.Holds b) : (backoffExpired s).Holds b := by
  unfold backoffExpired
  (repeat' split) <;> simp (maxDischargeDepth := 40) [h]

@[simp] theorem frameSent_holds (h : s.Holds b) : (frameSent s).Holds b := by
  unfold frameSent
  (repeat' split) <;> simp (maxDischargeDepth := 40) [h]

@[simp] theorem contention_holds (k : FrameKind) (h : s.Holds b) : (contention k s).Holds b := by
  unfold contention
  (repeat' split) <;> simp (maxDischargeDepth := 40) [h]

end Sys2Proof.Machine
end

