-- ==== Sys2Proof/Laws/State.lean ====
section
/-! SUPPORT. Field lemmas of the named updates: what each update makes of each field of the part, true by definition. -/

namespace Sys2Proof.Machine

@[simp] theorem post_now (e : Event) (s : Part) : (post e s).now = s.now := rfl
@[simp] theorem post_pins (e : Event) (s : Part) : (post e s).pins = s.pins := rfl
@[simp] theorem post_tbl (e : Event) (s : Part) : (post e s).tbl = s.tbl := rfl
@[simp] theorem post_regs (e : Event) (s : Part) : (post e s).regs = s.regs := rfl
@[simp] theorem post_path (e : Event) (s : Part) : (post e s).path = s.path := rfl
@[simp] theorem post_eng (e : Event) (s : Part) : (post e s).eng = s.eng := rfl
@[simp] theorem post_fill (e : Event) (s : Part) : (post e s).fill = s.fill := rfl
@[simp] theorem post_link (e : Event) (s : Part) : (post e s).link = s.link := rfl
@[simp] theorem post_pres (e : Event) (s : Part) : (post e s).pres = s.pres := rfl
@[simp] theorem post_pwr (e : Event) (s : Part) : (post e s).pwr = s.pwr := rfl
@[simp] theorem post_evq (e : Event) (s : Part) : (post e s).evq = s.evq.post e s.now := rfl
@[simp] theorem post_mbox (e : Event) (s : Part) : (post e s).mbox = s.mbox := rfl
@[simp] theorem post_out (e : Event) (s : Part) : (post e s).out = s.out := rfl
@[simp] theorem post_choices (e : Event) (s : Part) : (post e s).choices = s.choices := rfl

@[simp] theorem setRec_now (id : BlockId) (r : BlockRec) (s : Part) : (setRec id r s).now = s.now := rfl
@[simp] theorem setRec_pins (id : BlockId) (r : BlockRec) (s : Part) : (setRec id r s).pins = s.pins := rfl
@[simp] theorem setRec_tbl (id : BlockId) (r : BlockRec) (s : Part) : (setRec id r s).tbl = { s.tbl with recs := s.tbl.recs.set id.region ((s.tbl.recs[id.region]).set id.index r) } := rfl
@[simp] theorem setRec_regs (id : BlockId) (r : BlockRec) (s : Part) : (setRec id r s).regs = s.regs := rfl
@[simp] theorem setRec_path (id : BlockId) (r : BlockRec) (s : Part) : (setRec id r s).path = s.path := rfl
@[simp] theorem setRec_eng (id : BlockId) (r : BlockRec) (s : Part) : (setRec id r s).eng = s.eng := rfl
@[simp] theorem setRec_fill (id : BlockId) (r : BlockRec) (s : Part) : (setRec id r s).fill = s.fill := rfl
@[simp] theorem setRec_link (id : BlockId) (r : BlockRec) (s : Part) : (setRec id r s).link = s.link := rfl
@[simp] theorem setRec_pres (id : BlockId) (r : BlockRec) (s : Part) : (setRec id r s).pres = s.pres := rfl
@[simp] theorem setRec_pwr (id : BlockId) (r : BlockRec) (s : Part) : (setRec id r s).pwr = s.pwr := rfl
@[simp] theorem setRec_evq (id : BlockId) (r : BlockRec) (s : Part) : (setRec id r s).evq = s.evq := rfl
@[simp] theorem setRec_mbox (id : BlockId) (r : BlockRec) (s : Part) : (setRec id r s).mbox = s.mbox := rfl
@[simp] theorem setRec_out (id : BlockId) (r : BlockRec) (s : Part) : (setRec id r s).out = s.out := rfl
@[simp] theorem setRec_choices (id : BlockId) (r : BlockRec) (s : Part) : (setRec id r s).choices = s.choices := rfl

@[simp] theorem joinTail_now (id : BlockId) (t : Time) (s : Part) : (joinTail id t s).now = s.now := rfl
@[simp] theorem joinTail_pins (id : BlockId) (t : Time) (s : Part) : (joinTail id t s).pins = s.pins := rfl
@[simp] theorem joinTail_tbl (id : BlockId) (t : Time) (s : Part) : (joinTail id t s).tbl = { s.tbl with queue := s.tbl.queue ++ [⟨id, t⟩] } := rfl
@[simp] theorem joinTail_regs (id : BlockId) (t : Time) (s : Part) : (joinTail id t s).regs = s.regs := rfl
@[simp] theorem joinTail_path (id : BlockId) (t : Time) (s : Part) : (joinTail id t s).path = s.path := rfl
@[simp] theorem joinTail_eng (id : BlockId) (t : Time) (s : Part) : (joinTail id t s).eng = s.eng := rfl
@[simp] theorem joinTail_fill (id : BlockId) (t : Time) (s : Part) : (joinTail id t s).fill = s.fill := rfl
@[simp] theorem joinTail_link (id : BlockId) (t : Time) (s : Part) : (joinTail id t s).link = s.link := rfl
@[simp] theorem joinTail_pres (id : BlockId) (t : Time) (s : Part) : (joinTail id t s).pres = s.pres := rfl
@[simp] theorem joinTail_pwr (id : BlockId) (t : Time) (s : Part) : (joinTail id t s).pwr = s.pwr := rfl
@[simp] theorem joinTail_evq (id : BlockId) (t : Time) (s : Part) : (joinTail id t s).evq = s.evq := rfl
@[simp] theorem joinTail_mbox (id : BlockId) (t : Time) (s : Part) : (joinTail id t s).mbox = s.mbox := rfl
@[simp] theorem joinTail_out (id : BlockId) (t : Time) (s : Part) : (joinTail id t s).out = s.out := rfl
@[simp] theorem joinTail_choices (id : BlockId) (t : Time) (s : Part) : (joinTail id t s).choices = s.choices := rfl

@[simp] theorem setTag_now (t : Fin 16) (st : TagState) (s : Part) : (setTag t st s).now = s.now := rfl
@[simp] theorem setTag_pins (t : Fin 16) (st : TagState) (s : Part) : (setTag t st s).pins = s.pins := rfl
@[simp] theorem setTag_tbl (t : Fin 16) (st : TagState) (s : Part) : (setTag t st s).tbl = s.tbl := rfl
@[simp] theorem setTag_regs (t : Fin 16) (st : TagState) (s : Part) : (setTag t st s).regs = s.regs := rfl
@[simp] theorem setTag_path (t : Fin 16) (st : TagState) (s : Part) : (setTag t st s).path = { s.path with tags := s.path.tags.set t st } := rfl
@[simp] theorem setTag_eng (t : Fin 16) (st : TagState) (s : Part) : (setTag t st s).eng = s.eng := rfl
@[simp] theorem setTag_fill (t : Fin 16) (st : TagState) (s : Part) : (setTag t st s).fill = s.fill := rfl
@[simp] theorem setTag_link (t : Fin 16) (st : TagState) (s : Part) : (setTag t st s).link = s.link := rfl
@[simp] theorem setTag_pres (t : Fin 16) (st : TagState) (s : Part) : (setTag t st s).pres = s.pres := rfl
@[simp] theorem setTag_pwr (t : Fin 16) (st : TagState) (s : Part) : (setTag t st s).pwr = s.pwr := rfl
@[simp] theorem setTag_evq (t : Fin 16) (st : TagState) (s : Part) : (setTag t st s).evq = s.evq := rfl
@[simp] theorem setTag_mbox (t : Fin 16) (st : TagState) (s : Part) : (setTag t st s).mbox = s.mbox := rfl
@[simp] theorem setTag_out (t : Fin 16) (st : TagState) (s : Part) : (setTag t st s).out = s.out := rfl
@[simp] theorem setTag_choices (t : Fin 16) (st : TagState) (s : Part) : (setTag t st s).choices = s.choices := rfl

@[simp] theorem respond_now (t : Fin 16) (ok : Bool) (d : Payload) (s : Part) : (respond t ok d s).now = s.now := rfl
@[simp] theorem respond_pins (t : Fin 16) (ok : Bool) (d : Payload) (s : Part) : (respond t ok d s).pins = s.pins := rfl
@[simp] theorem respond_tbl (t : Fin 16) (ok : Bool) (d : Payload) (s : Part) : (respond t ok d s).tbl = s.tbl := rfl
@[simp] theorem respond_regs (t : Fin 16) (ok : Bool) (d : Payload) (s : Part) : (respond t ok d s).regs = s.regs := rfl
@[simp] theorem respond_path (t : Fin 16) (ok : Bool) (d : Payload) (s : Part) : (respond t ok d s).path = { s.path with tags := s.path.tags.set t .idle } := rfl
@[simp] theorem respond_eng (t : Fin 16) (ok : Bool) (d : Payload) (s : Part) : (respond t ok d s).eng = s.eng := rfl
@[simp] theorem respond_fill (t : Fin 16) (ok : Bool) (d : Payload) (s : Part) : (respond t ok d s).fill = s.fill := rfl
@[simp] theorem respond_link (t : Fin 16) (ok : Bool) (d : Payload) (s : Part) : (respond t ok d s).link = s.link := rfl
@[simp] theorem respond_pres (t : Fin 16) (ok : Bool) (d : Payload) (s : Part) : (respond t ok d s).pres = s.pres := rfl
@[simp] theorem respond_pwr (t : Fin 16) (ok : Bool) (d : Payload) (s : Part) : (respond t ok d s).pwr = s.pwr := rfl
@[simp] theorem respond_evq (t : Fin 16) (ok : Bool) (d : Payload) (s : Part) : (respond t ok d s).evq = s.evq := rfl
@[simp] theorem respond_mbox (t : Fin 16) (ok : Bool) (d : Payload) (s : Part) : (respond t ok d s).mbox = s.mbox := rfl
@[simp] theorem respond_out (t : Fin 16) (ok : Bool) (d : Payload) (s : Part) : (respond t ok d s).out = { s.out with host := s.out.host ++ [⟨t, ok, d⟩] } := rfl
@[simp] theorem respond_choices (t : Fin 16) (ok : Bool) (d : Payload) (s : Part) : (respond t ok d s).choices = s.choices := rfl

@[simp] theorem respondError_now (t : Fin 16) (s : Part) : (respondError t s).now = s.now := rfl
@[simp] theorem respondError_pins (t : Fin 16) (s : Part) : (respondError t s).pins = s.pins := rfl
@[simp] theorem respondError_tbl (t : Fin 16) (s : Part) : (respondError t s).tbl = s.tbl := rfl
@[simp] theorem respondError_regs (t : Fin 16) (s : Part) : (respondError t s).regs = s.regs := rfl
@[simp] theorem respondError_path (t : Fin 16) (s : Part) : (respondError t s).path = { s.path with tags := s.path.tags.set t .idle } := rfl
@[simp] theorem respondError_eng (t : Fin 16) (s : Part) : (respondError t s).eng = s.eng := rfl
@[simp] theorem respondError_fill (t : Fin 16) (s : Part) : (respondError t s).fill = s.fill := rfl
@[simp] theorem respondError_link (t : Fin 16) (s : Part) : (respondError t s).link = s.link := rfl
@[simp] theorem respondError_pres (t : Fin 16) (s : Part) : (respondError t s).pres = s.pres := rfl
@[simp] theorem respondError_pwr (t : Fin 16) (s : Part) : (respondError t s).pwr = s.pwr := rfl
@[simp] theorem respondError_evq (t : Fin 16) (s : Part) : (respondError t s).evq = s.evq := rfl
@[simp] theorem respondError_mbox (t : Fin 16) (s : Part) : (respondError t s).mbox = s.mbox := rfl
@[simp] theorem respondError_out (t : Fin 16) (s : Part) : (respondError t s).out = { s.out with host := s.out.host ++ [⟨t, false, []⟩] } := rfl
@[simp] theorem respondError_choices (t : Fin 16) (s : Part) : (respondError t s).choices = s.choices := rfl

@[simp] theorem forward_now (r : HostReq) (s : Part) : (forward r s).now = s.now := rfl
@[simp] theorem forward_pins (r : HostReq) (s : Part) : (forward r s).pins = s.pins := rfl
@[simp] theorem forward_tbl (r : HostReq) (s : Part) : (forward r s).tbl = s.tbl := rfl
@[simp] theorem forward_regs (r : HostReq) (s : Part) : (forward r s).regs = s.regs := rfl
@[simp] theorem forward_path (r : HostReq) (s : Part) : (forward r s).path = { s.path with tags := s.path.tags.set r.tag .lane, hostLane := s.path.hostLane ++ [r] } := rfl
@[simp] theorem forward_eng (r : HostReq) (s : Part) : (forward r s).eng = s.eng := rfl
@[simp] theorem forward_fill (r : HostReq) (s : Part) : (forward r s).fill = s.fill := rfl
@[simp] theorem forward_link (r : HostReq) (s : Part) : (forward r s).link = s.link := rfl
@[simp] theorem forward_pres (r : HostReq) (s : Part) : (forward r s).pres = s.pres := rfl
@[simp] theorem forward_pwr (r : HostReq) (s : Part) : (forward r s).pwr = s.pwr := rfl
@[simp] theorem forward_evq (r : HostReq) (s : Part) : (forward r s).evq = s.evq := rfl
@[simp] theorem forward_mbox (r : HostReq) (s : Part) : (forward r s).mbox = s.mbox := rfl
@[simp] theorem forward_out (r : HostReq) (s : Part) : (forward r s).out = s.out := rfl
@[simp] theorem forward_choices (r : HostReq) (s : Part) : (forward r s).choices = s.choices := rfl

@[simp] theorem dropHeld_now (t : Fin 16) (s : Part) : (dropHeld t s).now = s.now := rfl
@[simp] theorem dropHeld_pins (t : Fin 16) (s : Part) : (dropHeld t s).pins = s.pins := rfl
@[simp] theorem dropHeld_tbl (t : Fin 16) (s : Part) : (dropHeld t s).tbl = s.tbl := rfl
@[simp] theorem dropHeld_regs (t : Fin 16) (s : Part) : (dropHeld t s).regs = s.regs := rfl
@[simp] theorem dropHeld_path (t : Fin 16) (s : Part) : (dropHeld t s).path = { s.path with held := s.path.held.filter fun e => e.req.tag ≠ t } := rfl
@[simp] theorem dropHeld_eng (t : Fin 16) (s : Part) : (dropHeld t s).eng = s.eng := rfl
@[simp] theorem dropHeld_fill (t : Fin 16) (s : Part) : (dropHeld t s).fill = s.fill := rfl
@[simp] theorem dropHeld_link (t : Fin 16) (s : Part) : (dropHeld t s).link = s.link := rfl
@[simp] theorem dropHeld_pres (t : Fin 16) (s : Part) : (dropHeld t s).pres = s.pres := rfl
@[simp] theorem dropHeld_pwr (t : Fin 16) (s : Part) : (dropHeld t s).pwr = s.pwr := rfl
@[simp] theorem dropHeld_evq (t : Fin 16) (s : Part) : (dropHeld t s).evq = s.evq := rfl
@[simp] theorem dropHeld_mbox (t : Fin 16) (s : Part) : (dropHeld t s).mbox = s.mbox := rfl
@[simp] theorem dropHeld_out (t : Fin 16) (s : Part) : (dropHeld t s).out = s.out := rfl
@[simp] theorem dropHeld_choices (t : Fin 16) (s : Part) : (dropHeld t s).choices = s.choices := rfl

@[simp] theorem reHold_now (t : Fin 16) (w : HoldReason) (s : Part) : (reHold t w s).now = s.now := rfl
@[simp] theorem reHold_pins (t : Fin 16) (w : HoldReason) (s : Part) : (reHold t w s).pins = s.pins := rfl
@[simp] theorem reHold_tbl (t : Fin 16) (w : HoldReason) (s : Part) : (reHold t w s).tbl = s.tbl := rfl
@[simp] theorem reHold_regs (t : Fin 16) (w : HoldReason) (s : Part) : (reHold t w s).regs = s.regs := rfl
@[simp] theorem reHold_path (t : Fin 16) (w : HoldReason) (s : Part) : (reHold t w s).path = { s.path with held := s.path.held.map fun e => if e.req.tag = t then { e with reason := w } else e } := rfl
@[simp] theorem reHold_eng (t : Fin 16) (w : HoldReason) (s : Part) : (reHold t w s).eng = s.eng := rfl
@[simp] theorem reHold_fill (t : Fin 16) (w : HoldReason) (s : Part) : (reHold t w s).fill = s.fill := rfl
@[simp] theorem reHold_link (t : Fin 16) (w : HoldReason) (s : Part) : (reHold t w s).link = s.link := rfl
@[simp] theorem reHold_pres (t : Fin 16) (w : HoldReason) (s : Part) : (reHold t w s).pres = s.pres := rfl
@[simp] theorem reHold_pwr (t : Fin 16) (w : HoldReason) (s : Part) : (reHold t w s).pwr = s.pwr := rfl
@[simp] theorem reHold_evq (t : Fin 16) (w : HoldReason) (s : Part) : (reHold t w s).evq = s.evq := rfl
@[simp] theorem reHold_mbox (t : Fin 16) (w : HoldReason) (s : Part) : (reHold t w s).mbox = s.mbox := rfl
@[simp] theorem reHold_out (t : Fin 16) (w : HoldReason) (s : Part) : (reHold t w s).out = s.out := rfl
@[simp] theorem reHold_choices (t : Fin 16) (w : HoldReason) (s : Part) : (reHold t w s).choices = s.choices := rfl

@[simp] theorem joinHeld_now (r : HostReq) (id : BlockId) (w : HoldReason) (s : Part) : (joinHeld r id w s).now = s.now := rfl
@[simp] theorem joinHeld_pins (r : HostReq) (id : BlockId) (w : HoldReason) (s : Part) : (joinHeld r id w s).pins = s.pins := rfl
@[simp] theorem joinHeld_tbl (r : HostReq) (id : BlockId) (w : HoldReason) (s : Part) : (joinHeld r id w s).tbl = s.tbl := rfl
@[simp] theorem joinHeld_regs (r : HostReq) (id : BlockId) (w : HoldReason) (s : Part) : (joinHeld r id w s).regs = s.regs := rfl
@[simp] theorem joinHeld_path (r : HostReq) (id : BlockId) (w : HoldReason) (s : Part) : (joinHeld r id w s).path = { s.path with tags := s.path.tags.set r.tag .held, held := s.path.held ++ [⟨r, id, w, s.now⟩] } := rfl
@[simp] theorem joinHeld_eng (r : HostReq) (id : BlockId) (w : HoldReason) (s : Part) : (joinHeld r id w s).eng = s.eng := rfl
@[simp] theorem joinHeld_fill (r : HostReq) (id : BlockId) (w : HoldReason) (s : Part) : (joinHeld r id w s).fill = s.fill := rfl
@[simp] theorem joinHeld_link (r : HostReq) (id : BlockId) (w : HoldReason) (s : Part) : (joinHeld r id w s).link = s.link := rfl
@[simp] theorem joinHeld_pres (r : HostReq) (id : BlockId) (w : HoldReason) (s : Part) : (joinHeld r id w s).pres = s.pres := rfl
@[simp] theorem joinHeld_pwr (r : HostReq) (id : BlockId) (w : HoldReason) (s : Part) : (joinHeld r id w s).pwr = s.pwr := rfl
@[simp] theorem joinHeld_evq (r : HostReq) (id : BlockId) (w : HoldReason) (s : Part) : (joinHeld r id w s).evq = s.evq := rfl
@[simp] theorem joinHeld_mbox (r : HostReq) (id : BlockId) (w : HoldReason) (s : Part) : (joinHeld r id w s).mbox = s.mbox := rfl
@[simp] theorem joinHeld_out (r : HostReq) (id : BlockId) (w : HoldReason) (s : Part) : (joinHeld r id w s).out = s.out := rfl
@[simp] theorem joinHeld_choices (r : HostReq) (id : BlockId) (w : HoldReason) (s : Part) : (joinHeld r id w s).choices = s.choices := rfl

@[simp] theorem setOwn_now (i : Fin 16) (u : TagUse) (s : Part) : (setOwn i u s).now = s.now := rfl
@[simp] theorem setOwn_pins (i : Fin 16) (u : TagUse) (s : Part) : (setOwn i u s).pins = s.pins := rfl
@[simp] theorem setOwn_tbl (i : Fin 16) (u : TagUse) (s : Part) : (setOwn i u s).tbl = s.tbl := rfl
@[simp] theorem setOwn_regs (i : Fin 16) (u : TagUse) (s : Part) : (setOwn i u s).regs = s.regs := rfl
@[simp] theorem setOwn_path (i : Fin 16) (u : TagUse) (s : Part) : (setOwn i u s).path = { s.path with own := s.path.own.set i u } := rfl
@[simp] theorem setOwn_eng (i : Fin 16) (u : TagUse) (s : Part) : (setOwn i u s).eng = s.eng := rfl
@[simp] theorem setOwn_fill (i : Fin 16) (u : TagUse) (s : Part) : (setOwn i u s).fill = s.fill := rfl
@[simp] theorem setOwn_link (i : Fin 16) (u : TagUse) (s : Part) : (setOwn i u s).link = s.link := rfl
@[simp] theorem setOwn_pres (i : Fin 16) (u : TagUse) (s : Part) : (setOwn i u s).pres = s.pres := rfl
@[simp] theorem setOwn_pwr (i : Fin 16) (u : TagUse) (s : Part) : (setOwn i u s).pwr = s.pwr := rfl
@[simp] theorem setOwn_evq (i : Fin 16) (u : TagUse) (s : Part) : (setOwn i u s).evq = s.evq := rfl
@[simp] theorem setOwn_mbox (i : Fin 16) (u : TagUse) (s : Part) : (setOwn i u s).mbox = s.mbox := rfl
@[simp] theorem setOwn_out (i : Fin 16) (u : TagUse) (s : Part) : (setOwn i u s).out = s.out := rfl
@[simp] theorem setOwn_choices (i : Fin 16) (u : TagUse) (s : Part) : (setOwn i u s).choices = s.choices := rfl

@[simp] theorem setRegionState_now (r : Fin 8) (st : RegionState) (s : Part) : (setRegionState r st s).now = s.now := rfl
@[simp] theorem setRegionState_pins (r : Fin 8) (st : RegionState) (s : Part) : (setRegionState r st s).pins = s.pins := rfl
@[simp] theorem setRegionState_tbl (r : Fin 8) (st : RegionState) (s : Part) : (setRegionState r st s).tbl = s.tbl := rfl
@[simp] theorem setRegionState_regs (r : Fin 8) (st : RegionState) (s : Part) : (setRegionState r st s).regs = s.regs.set r { s.regs[r] with state := st } := rfl
@[simp] theorem setRegionState_path (r : Fin 8) (st : RegionState) (s : Part) : (setRegionState r st s).path = s.path := rfl
@[simp] theorem setRegionState_eng (r : Fin 8) (st : RegionState) (s : Part) : (setRegionState r st s).eng = s.eng := rfl
@[simp] theorem setRegionState_fill (r : Fin 8) (st : RegionState) (s : Part) : (setRegionState r st s).fill = s.fill := rfl
@[simp] theorem setRegionState_link (r : Fin 8) (st : RegionState) (s : Part) : (setRegionState r st s).link = s.link := rfl
@[simp] theorem setRegionState_pres (r : Fin 8) (st : RegionState) (s : Part) : (setRegionState r st s).pres = s.pres := rfl
@[simp] theorem setRegionState_pwr (r : Fin 8) (st : RegionState) (s : Part) : (setRegionState r st s).pwr = s.pwr := rfl
@[simp] theorem setRegionState_evq (r : Fin 8) (st : RegionState) (s : Part) : (setRegionState r st s).evq = s.evq := rfl
@[simp] theorem setRegionState_mbox (r : Fin 8) (st : RegionState) (s : Part) : (setRegionState r st s).mbox = s.mbox := rfl
@[simp] theorem setRegionState_out (r : Fin 8) (st : RegionState) (s : Part) : (setRegionState r st s).out = s.out := rfl
@[simp] theorem setRegionState_choices (r : Fin 8) (st : RegionState) (s : Part) : (setRegionState r st s).choices = s.choices := rfl

@[simp] theorem setSlot_now (i : Fin 8) (f : FillSlot) (s : Part) : (setSlot i f s).now = s.now := rfl
@[simp] theorem setSlot_pins (i : Fin 8) (f : FillSlot) (s : Part) : (setSlot i f s).pins = s.pins := rfl
@[simp] theorem setSlot_tbl (i : Fin 8) (f : FillSlot) (s : Part) : (setSlot i f s).tbl = s.tbl := rfl
@[simp] theorem setSlot_regs (i : Fin 8) (f : FillSlot) (s : Part) : (setSlot i f s).regs = s.regs := rfl
@[simp] theorem setSlot_path (i : Fin 8) (f : FillSlot) (s : Part) : (setSlot i f s).path = s.path := rfl
@[simp] theorem setSlot_eng (i : Fin 8) (f : FillSlot) (s : Part) : (setSlot i f s).eng = s.eng := rfl
@[simp] theorem setSlot_fill (i : Fin 8) (f : FillSlot) (s : Part) : (setSlot i f s).fill = { s.fill with slots := s.fill.slots.set i f } := rfl
@[simp] theorem setSlot_link (i : Fin 8) (f : FillSlot) (s : Part) : (setSlot i f s).link = s.link := rfl
@[simp] theorem setSlot_pres (i : Fin 8) (f : FillSlot) (s : Part) : (setSlot i f s).pres = s.pres := rfl
@[simp] theorem setSlot_pwr (i : Fin 8) (f : FillSlot) (s : Part) : (setSlot i f s).pwr = s.pwr := rfl
@[simp] theorem setSlot_evq (i : Fin 8) (f : FillSlot) (s : Part) : (setSlot i f s).evq = s.evq := rfl
@[simp] theorem setSlot_mbox (i : Fin 8) (f : FillSlot) (s : Part) : (setSlot i f s).mbox = s.mbox := rfl
@[simp] theorem setSlot_out (i : Fin 8) (f : FillSlot) (s : Part) : (setSlot i f s).out = s.out := rfl
@[simp] theorem setSlot_choices (i : Fin 8) (f : FillSlot) (s : Part) : (setSlot i f s).choices = s.choices := rfl

@[simp] theorem setEngine_now (e : EngineState) (s : Part) : (setEngine e s).now = s.now := rfl
@[simp] theorem setEngine_pins (e : EngineState) (s : Part) : (setEngine e s).pins = s.pins := rfl
@[simp] theorem setEngine_tbl (e : EngineState) (s : Part) : (setEngine e s).tbl = s.tbl := rfl
@[simp] theorem setEngine_regs (e : EngineState) (s : Part) : (setEngine e s).regs = s.regs := rfl
@[simp] theorem setEngine_path (e : EngineState) (s : Part) : (setEngine e s).path = s.path := rfl
@[simp] theorem setEngine_eng (e : EngineState) (s : Part) : (setEngine e s).eng = { s.eng with state := e } := rfl
@[simp] theorem setEngine_fill (e : EngineState) (s : Part) : (setEngine e s).fill = s.fill := rfl
@[simp] theorem setEngine_link (e : EngineState) (s : Part) : (setEngine e s).link = s.link := rfl
@[simp] theorem setEngine_pres (e : EngineState) (s : Part) : (setEngine e s).pres = s.pres := rfl
@[simp] theorem setEngine_pwr (e : EngineState) (s : Part) : (setEngine e s).pwr = s.pwr := rfl
@[simp] theorem setEngine_evq (e : EngineState) (s : Part) : (setEngine e s).evq = s.evq := rfl
@[simp] theorem setEngine_mbox (e : EngineState) (s : Part) : (setEngine e s).mbox = s.mbox := rfl
@[simp] theorem setEngine_out (e : EngineState) (s : Part) : (setEngine e s).out = s.out := rfl
@[simp] theorem setEngine_choices (e : EngineState) (s : Part) : (setEngine e s).choices = s.choices := rfl

@[simp] theorem dropBatch_now (s : Part) : (dropBatch s).now = s.now := rfl
@[simp] theorem dropBatch_pins (s : Part) : (dropBatch s).pins = s.pins := rfl
@[simp] theorem dropBatch_tbl (s : Part) : (dropBatch s).tbl = s.tbl := rfl
@[simp] theorem dropBatch_regs (s : Part) : (dropBatch s).regs = s.regs := rfl
@[simp] theorem dropBatch_path (s : Part) : (dropBatch s).path = s.path := rfl
@[simp] theorem dropBatch_eng (s : Part) : (dropBatch s).eng = { s.eng with staging := [], batch := none } := rfl
@[simp] theorem dropBatch_fill (s : Part) : (dropBatch s).fill = s.fill := rfl
@[simp] theorem dropBatch_link (s : Part) : (dropBatch s).link = s.link := rfl
@[simp] theorem dropBatch_pres (s : Part) : (dropBatch s).pres = s.pres := rfl
@[simp] theorem dropBatch_pwr (s : Part) : (dropBatch s).pwr = s.pwr := rfl
@[simp] theorem dropBatch_evq (s : Part) : (dropBatch s).evq = s.evq := rfl
@[simp] theorem dropBatch_mbox (s : Part) : (dropBatch s).mbox = s.mbox := rfl
@[simp] theorem dropBatch_out (s : Part) : (dropBatch s).out = s.out := rfl
@[simp] theorem dropBatch_choices (s : Part) : (dropBatch s).choices = s.choices := rfl

@[simp] theorem setStep_now (st : RecoveryStep) (s : Part) : (setStep st s).now = s.now := rfl
@[simp] theorem setStep_pins (st : RecoveryStep) (s : Part) : (setStep st s).pins = s.pins := rfl
@[simp] theorem setStep_tbl (st : RecoveryStep) (s : Part) : (setStep st s).tbl = s.tbl := rfl
@[simp] theorem setStep_regs (st : RecoveryStep) (s : Part) : (setStep st s).regs = s.regs := rfl
@[simp] theorem setStep_path (st : RecoveryStep) (s : Part) : (setStep st s).path = s.path := rfl
@[simp] theorem setStep_eng (st : RecoveryStep) (s : Part) : (setStep st s).eng = { s.eng with recovery := s.eng.recovery.map fun r => { r with step := st } } := rfl
@[simp] theorem setStep_fill (st : RecoveryStep) (s : Part) : (setStep st s).fill = s.fill := rfl
@[simp] theorem setStep_link (st : RecoveryStep) (s : Part) : (setStep st s).link = s.link := rfl
@[simp] theorem setStep_pres (st : RecoveryStep) (s : Part) : (setStep st s).pres = s.pres := rfl
@[simp] theorem setStep_pwr (st : RecoveryStep) (s : Part) : (setStep st s).pwr = s.pwr := rfl
@[simp] theorem setStep_evq (st : RecoveryStep) (s : Part) : (setStep st s).evq = s.evq := rfl
@[simp] theorem setStep_mbox (st : RecoveryStep) (s : Part) : (setStep st s).mbox = s.mbox := rfl
@[simp] theorem setStep_out (st : RecoveryStep) (s : Part) : (setStep st s).out = s.out := rfl
@[simp] theorem setStep_choices (st : RecoveryStep) (s : Part) : (setStep st s).choices = s.choices := rfl

@[simp] theorem setFormatStep_now (st : FormatStep) (s : Part) : (setFormatStep st s).now = s.now := rfl
@[simp] theorem setFormatStep_pins (st : FormatStep) (s : Part) : (setFormatStep st s).pins = s.pins := rfl
@[simp] theorem setFormatStep_tbl (st : FormatStep) (s : Part) : (setFormatStep st s).tbl = s.tbl := rfl
@[simp] theorem setFormatStep_regs (st : FormatStep) (s : Part) : (setFormatStep st s).regs = s.regs := rfl
@[simp] theorem setFormatStep_path (st : FormatStep) (s : Part) : (setFormatStep st s).path = s.path := rfl
@[simp] theorem setFormatStep_eng (st : FormatStep) (s : Part) : (setFormatStep st s).eng = s.eng := rfl
@[simp] theorem setFormatStep_fill (st : FormatStep) (s : Part) : (setFormatStep st s).fill = s.fill := rfl
@[simp] theorem setFormatStep_link (st : FormatStep) (s : Part) : (setFormatStep st s).link = s.link := rfl
@[simp] theorem setFormatStep_pres (st : FormatStep) (s : Part) : (setFormatStep st s).pres = s.pres := rfl
@[simp] theorem setFormatStep_pwr (st : FormatStep) (s : Part) : (setFormatStep st s).pwr = s.pwr := rfl
@[simp] theorem setFormatStep_evq (st : FormatStep) (s : Part) : (setFormatStep st s).evq = s.evq := rfl
@[simp] theorem setFormatStep_mbox (st : FormatStep) (s : Part) : (setFormatStep st s).mbox = { s.mbox with format := s.mbox.format.map fun f => { f with step := st } } := rfl
@[simp] theorem setFormatStep_out (st : FormatStep) (s : Part) : (setFormatStep st s).out = s.out := rfl
@[simp] theorem setFormatStep_choices (st : FormatStep) (s : Part) : (setFormatStep st s).choices = s.choices := rfl

@[simp] theorem clearRequest_now (s : Part) : (clearRequest s).now = s.now := rfl
@[simp] theorem clearRequest_pins (s : Part) : (clearRequest s).pins = s.pins := rfl
@[simp] theorem clearRequest_tbl (s : Part) : (clearRequest s).tbl = s.tbl := rfl
@[simp] theorem clearRequest_regs (s : Part) : (clearRequest s).regs = s.regs := rfl
@[simp] theorem clearRequest_path (s : Part) : (clearRequest s).path = s.path := rfl
@[simp] theorem clearRequest_eng (s : Part) : (clearRequest s).eng = s.eng := rfl
@[simp] theorem clearRequest_fill (s : Part) : (clearRequest s).fill = s.fill := rfl
@[simp] theorem clearRequest_link (s : Part) : (clearRequest s).link = { s.link with current := none, phase := .idle, wait := none, close := none, proc := none } := rfl
@[simp] theorem clearRequest_pres (s : Part) : (clearRequest s).pres = s.pres := rfl
@[simp] theorem clearRequest_pwr (s : Part) : (clearRequest s).pwr = s.pwr := rfl
@[simp] theorem clearRequest_evq (s : Part) : (clearRequest s).evq = s.evq := rfl
@[simp] theorem clearRequest_mbox (s : Part) : (clearRequest s).mbox = s.mbox := rfl
@[simp] theorem clearRequest_out (s : Part) : (clearRequest s).out = s.out := rfl
@[simp] theorem clearRequest_choices (s : Part) : (clearRequest s).choices = s.choices := rfl

@[simp] theorem endRequest_now (s : Part) : (endRequest s).now = s.now := rfl
@[simp] theorem endRequest_pins (s : Part) : (endRequest s).pins = s.pins := rfl
@[simp] theorem endRequest_tbl (s : Part) : (endRequest s).tbl = s.tbl := rfl
@[simp] theorem endRequest_regs (s : Part) : (endRequest s).regs = s.regs := rfl
@[simp] theorem endRequest_path (s : Part) : (endRequest s).path = s.path := rfl
@[simp] theorem endRequest_eng (s : Part) : (endRequest s).eng = s.eng := rfl
@[simp] theorem endRequest_fill (s : Part) : (endRequest s).fill = s.fill := rfl
@[simp] theorem endRequest_link (s : Part) : (endRequest s).link = { (clearRequest s).link with state := s.link.state.afterRequest } := rfl
@[simp] theorem endRequest_pres (s : Part) : (endRequest s).pres = s.pres := rfl
@[simp] theorem endRequest_pwr (s : Part) : (endRequest s).pwr = s.pwr := rfl
@[simp] theorem endRequest_evq (s : Part) : (endRequest s).evq = s.evq := rfl
@[simp] theorem endRequest_mbox (s : Part) : (endRequest s).mbox = s.mbox := rfl
@[simp] theorem endRequest_out (s : Part) : (endRequest s).out = s.out := rfl
@[simp] theorem endRequest_choices (s : Part) : (endRequest s).choices = s.choices := rfl

@[simp] theorem sendFrame_now (k : FrameKind) (c : ReqCode) (a : Nat) (s : Part) : (sendFrame k c a s).now = s.now := rfl
@[simp] theorem sendFrame_pins (k : FrameKind) (c : ReqCode) (a : Nat) (s : Part) : (sendFrame k c a s).pins = s.pins := rfl
@[simp] theorem sendFrame_tbl (k : FrameKind) (c : ReqCode) (a : Nat) (s : Part) : (sendFrame k c a s).tbl = s.tbl := rfl
@[simp] theorem sendFrame_regs (k : FrameKind) (c : ReqCode) (a : Nat) (s : Part) : (sendFrame k c a s).regs = s.regs := rfl
@[simp] theorem sendFrame_path (k : FrameKind) (c : ReqCode) (a : Nat) (s : Part) : (sendFrame k c a s).path = s.path := rfl
@[simp] theorem sendFrame_eng (k : FrameKind) (c : ReqCode) (a : Nat) (s : Part) : (sendFrame k c a s).eng = s.eng := rfl
@[simp] theorem sendFrame_fill (k : FrameKind) (c : ReqCode) (a : Nat) (s : Part) : (sendFrame k c a s).fill = s.fill := rfl
@[simp] theorem sendFrame_link (k : FrameKind) (c : ReqCode) (a : Nat) (s : Part) : (sendFrame k c a s).link = { s.link with phase := .frame k, wait := none } := rfl
@[simp] theorem sendFrame_pres (k : FrameKind) (c : ReqCode) (a : Nat) (s : Part) : (sendFrame k c a s).pres = s.pres := rfl
@[simp] theorem sendFrame_pwr (k : FrameKind) (c : ReqCode) (a : Nat) (s : Part) : (sendFrame k c a s).pwr = s.pwr := rfl
@[simp] theorem sendFrame_evq (k : FrameKind) (c : ReqCode) (a : Nat) (s : Part) : (sendFrame k c a s).evq = s.evq := rfl
@[simp] theorem sendFrame_mbox (k : FrameKind) (c : ReqCode) (a : Nat) (s : Part) : (sendFrame k c a s).mbox = s.mbox := rfl
@[simp] theorem sendFrame_out (k : FrameKind) (c : ReqCode) (a : Nat) (s : Part) : (sendFrame k c a s).out = { s.out with link := s.out.link ++ [.frame c a] } := rfl
@[simp] theorem sendFrame_choices (k : FrameKind) (c : ReqCode) (a : Nat) (s : Part) : (sendFrame k c a s).choices = s.choices := rfl

@[simp] theorem awaitBurst_now (s : Part) : (awaitBurst s).now = s.now := rfl
@[simp] theorem awaitBurst_pins (s : Part) : (awaitBurst s).pins = s.pins := rfl
@[simp] theorem awaitBurst_tbl (s : Part) : (awaitBurst s).tbl = s.tbl := rfl
@[simp] theorem awaitBurst_regs (s : Part) : (awaitBurst s).regs = s.regs := rfl
@[simp] theorem awaitBurst_path (s : Part) : (awaitBurst s).path = s.path := rfl
@[simp] theorem awaitBurst_eng (s : Part) : (awaitBurst s).eng = s.eng := rfl
@[simp] theorem awaitBurst_fill (s : Part) : (awaitBurst s).fill = s.fill := rfl
@[simp] theorem awaitBurst_link (s : Part) : (awaitBurst s).link = { s.link with phase := .readBurst, wait := some (dataWait s) } := rfl
@[simp] theorem awaitBurst_pres (s : Part) : (awaitBurst s).pres = s.pres := rfl
@[simp] theorem awaitBurst_pwr (s : Part) : (awaitBurst s).pwr = s.pwr := rfl
@[simp] theorem awaitBurst_evq (s : Part) : (awaitBurst s).evq = s.evq := rfl
@[simp] theorem awaitBurst_mbox (s : Part) : (awaitBurst s).mbox = s.mbox := rfl
@[simp] theorem awaitBurst_out (s : Part) : (awaitBurst s).out = s.out := rfl
@[simp] theorem awaitBurst_choices (s : Part) : (awaitBurst s).choices = s.choices := rfl

@[simp] theorem awaitBusy_now (s : Part) : (awaitBusy s).now = s.now := rfl
@[simp] theorem awaitBusy_pins (s : Part) : (awaitBusy s).pins = s.pins := rfl
@[simp] theorem awaitBusy_tbl (s : Part) : (awaitBusy s).tbl = s.tbl := rfl
@[simp] theorem awaitBusy_regs (s : Part) : (awaitBusy s).regs = s.regs := rfl
@[simp] theorem awaitBusy_path (s : Part) : (awaitBusy s).path = s.path := rfl
@[simp] theorem awaitBusy_eng (s : Part) : (awaitBusy s).eng = s.eng := rfl
@[simp] theorem awaitBusy_fill (s : Part) : (awaitBusy s).fill = s.fill := rfl
@[simp] theorem awaitBusy_link (s : Part) : (awaitBusy s).link = { s.link with state := .busy, phase := .busy, wait := some (dataWait s) } := rfl
@[simp] theorem awaitBusy_pres (s : Part) : (awaitBusy s).pres = s.pres := rfl
@[simp] theorem awaitBusy_pwr (s : Part) : (awaitBusy s).pwr = s.pwr := rfl
@[simp] theorem awaitBusy_evq (s : Part) : (awaitBusy s).evq = s.evq := rfl
@[simp] theorem awaitBusy_mbox (s : Part) : (awaitBusy s).mbox = s.mbox := rfl
@[simp] theorem awaitBusy_out (s : Part) : (awaitBusy s).out = s.out := rfl
@[simp] theorem awaitBusy_choices (s : Part) : (awaitBusy s).choices = s.choices := rfl

@[simp] theorem complete_now (rs : List Byte) (s : Part) : (complete rs s).now = s.now := rfl
@[simp] theorem complete_pins (rs : List Byte) (s : Part) : (complete rs s).pins = s.pins := rfl
@[simp] theorem complete_tbl (rs : List Byte) (s : Part) : (complete rs s).tbl = s.tbl := rfl
@[simp] theorem complete_regs (rs : List Byte) (s : Part) : (complete rs s).regs = s.regs := rfl
@[simp] theorem complete_path (rs : List Byte) (s : Part) : (complete rs s).path = s.path := rfl
@[simp] theorem complete_eng (rs : List Byte) (s : Part) : (complete rs s).eng = s.eng := rfl
@[simp] theorem complete_fill (rs : List Byte) (s : Part) : (complete rs s).fill = s.fill := rfl
@[simp] theorem complete_link (rs : List Byte) (s : Part) : (complete rs s).link = s.link := rfl
@[simp] theorem complete_pres (rs : List Byte) (s : Part) : (complete rs s).pres = s.pres := rfl
@[simp] theorem complete_pwr (rs : List Byte) (s : Part) : (complete rs s).pwr = s.pwr := rfl
@[simp] theorem complete_evq (rs : List Byte) (s : Part) : (complete rs s).evq = s.evq := rfl
@[simp] theorem complete_mbox (rs : List Byte) (s : Part) : (complete rs s).mbox = s.mbox.doneWith rs := rfl
@[simp] theorem complete_out (rs : List Byte) (s : Part) : (complete rs s).out = s.out := rfl
@[simp] theorem complete_choices (rs : List Byte) (s : Part) : (complete rs s).choices = s.choices := rfl

@[simp] theorem refuse_now (c : RefusalCode) (s : Part) : (refuse c s).now = s.now := rfl
@[simp] theorem refuse_pins (c : RefusalCode) (s : Part) : (refuse c s).pins = s.pins := rfl
@[simp] theorem refuse_tbl (c : RefusalCode) (s : Part) : (refuse c s).tbl = s.tbl := rfl
@[simp] theorem refuse_regs (c : RefusalCode) (s : Part) : (refuse c s).regs = s.regs := rfl
@[simp] theorem refuse_path (c : RefusalCode) (s : Part) : (refuse c s).path = s.path := rfl
@[simp] theorem refuse_eng (c : RefusalCode) (s : Part) : (refuse c s).eng = s.eng := rfl
@[simp] theorem refuse_fill (c : RefusalCode) (s : Part) : (refuse c s).fill = s.fill := rfl
@[simp] theorem refuse_link (c : RefusalCode) (s : Part) : (refuse c s).link = s.link := rfl
@[simp] theorem refuse_pres (c : RefusalCode) (s : Part) : (refuse c s).pres = s.pres := rfl
@[simp] theorem refuse_pwr (c : RefusalCode) (s : Part) : (refuse c s).pwr = s.pwr := rfl
@[simp] theorem refuse_evq (c : RefusalCode) (s : Part) : (refuse c s).evq = s.evq := rfl
@[simp] theorem refuse_mbox (c : RefusalCode) (s : Part) : (refuse c s).mbox = s.mbox.refusedWith c := rfl
@[simp] theorem refuse_out (c : RefusalCode) (s : Part) : (refuse c s).out = s.out := rfl
@[simp] theorem refuse_choices (c : RefusalCode) (s : Part) : (refuse c s).choices = s.choices := rfl

@[simp] theorem acceptLong_now (c : LongCmd) (rs : List Byte) (s : Part) : (acceptLong c rs s).now = s.now := rfl
@[simp] theorem acceptLong_pins (c : LongCmd) (rs : List Byte) (s : Part) : (acceptLong c rs s).pins = s.pins := rfl
@[simp] theorem acceptLong_tbl (c : LongCmd) (rs : List Byte) (s : Part) : (acceptLong c rs s).tbl = s.tbl := rfl
@[simp] theorem acceptLong_regs (c : LongCmd) (rs : List Byte) (s : Part) : (acceptLong c rs s).regs = s.regs := rfl
@[simp] theorem acceptLong_path (c : LongCmd) (rs : List Byte) (s : Part) : (acceptLong c rs s).path = s.path := rfl
@[simp] theorem acceptLong_eng (c : LongCmd) (rs : List Byte) (s : Part) : (acceptLong c rs s).eng = s.eng := rfl
@[simp] theorem acceptLong_fill (c : LongCmd) (rs : List Byte) (s : Part) : (acceptLong c rs s).fill = s.fill := rfl
@[simp] theorem acceptLong_link (c : LongCmd) (rs : List Byte) (s : Part) : (acceptLong c rs s).link = s.link := rfl
@[simp] theorem acceptLong_pres (c : LongCmd) (rs : List Byte) (s : Part) : (acceptLong c rs s).pres = s.pres := rfl
@[simp] theorem acceptLong_pwr (c : LongCmd) (rs : List Byte) (s : Part) : (acceptLong c rs s).pwr = s.pwr := rfl
@[simp] theorem acceptLong_evq (c : LongCmd) (rs : List Byte) (s : Part) : (acceptLong c rs s).evq = s.evq := rfl
@[simp] theorem acceptLong_mbox (c : LongCmd) (rs : List Byte) (s : Part) : (acceptLong c rs s).mbox = s.mbox.runningWith c rs := rfl
@[simp] theorem acceptLong_out (c : LongCmd) (rs : List Byte) (s : Part) : (acceptLong c rs s).out = s.out := rfl
@[simp] theorem acceptLong_choices (c : LongCmd) (rs : List Byte) (s : Part) : (acceptLong c rs s).choices = s.choices := rfl

@[simp] theorem newCommand_now (s : Part) : (newCommand s).now = s.now := rfl
@[simp] theorem newCommand_pins (s : Part) : (newCommand s).pins = s.pins := rfl
@[simp] theorem newCommand_tbl (s : Part) : (newCommand s).tbl = s.tbl := rfl
@[simp] theorem newCommand_regs (s : Part) : (newCommand s).regs = s.regs := rfl
@[simp] theorem newCommand_path (s : Part) : (newCommand s).path = s.path := rfl
@[simp] theorem newCommand_eng (s : Part) : (newCommand s).eng = s.eng := rfl
@[simp] theorem newCommand_fill (s : Part) : (newCommand s).fill = s.fill := rfl
@[simp] theorem newCommand_link (s : Part) : (newCommand s).link = s.link := rfl
@[simp] theorem newCommand_pres (s : Part) : (newCommand s).pres = s.pres := rfl
@[simp] theorem newCommand_pwr (s : Part) : (newCommand s).pwr = s.pwr := rfl
@[simp] theorem newCommand_evq (s : Part) : (newCommand s).evq = s.evq := rfl
@[simp] theorem newCommand_mbox (s : Part) : (newCommand s).mbox = { s.mbox with lastLong := false } := rfl
@[simp] theorem newCommand_out (s : Part) : (newCommand s).out = s.out := rfl
@[simp] theorem newCommand_choices (s : Part) : (newCommand s).choices = s.choices := rfl

end Sys2Proof.Machine
end

