-- ==== Sys2Proof/Laws/Path.lean ====
section
/-! SUPPORT. What settling a step does: nothing when nothing waits, and nothing ever to the blocks behind the path unit. -/

namespace Sys2Proof.Machine

theorem retime_of_quiet {p : Part} (h : AgeStands p) : retime p = p := if_pos h

theorem refillDemand_of_quiet (n : Nat) {p : Part} (h : Config.demandMax ≤ p.fill.demand.length ∨ refillCandidate p = none) :
    refillDemand n p = p := by
  cases n with
  | zero => rfl
  | succ n =>
    unfold refillDemand
    rcases h with h | h
    · rw [if_neg (Nat.not_lt.mpr h)]
    · split
      · rw [h]
      · rfl

/-- Settling a part in which nothing waits changes nothing. -/
theorem settle_of_quiet {p : Part} (h : Quiet p) : settle p = p := by
  obtain ⟨hp, hf, ha⟩ := h
  unfold settle
  rw [refillDemand_of_quiet _ hf]
  simp only [hp, drainPort]
  have : ({ p with path.port := [] } : Part) = p := by
    cases p; rename_i path _ _ _ _ _ _ _ _ _; cases path; simp_all
  rw [this, retime_of_quiet ha]

theorem answersNext_of {c : Instr} {p : Part} {rest : List Instr} {t : Part}
    (h : exec c ⟨p, rest⟩ = .next ⟨settle t, rest⟩) : AnswersNext c p rest t :=
  ⟨h, fun q => by rw [h, settle_of_quiet q]⟩

/-! ### The path unit changes only the block table, itself, the fill engine's lists, the event queue and the outputs -/

/-- `t` differs from `s` in those only. -/
def PathOnly (s t : Part) : Prop :=
  t = { s with tbl := t.tbl, path := t.path, fill := t.fill, evq := t.evq, out := t.out }

theorem PathOnly.refl (s : Part) : PathOnly s s := rfl

theorem PathOnly.trans {s t u : Part} (h : PathOnly s t) (k : PathOnly t u) : PathOnly s u := by
  unfold PathOnly at *
  rw [k, h]

/-- Further writes to the same five fields. -/
theorem PathOnly.update {s t : Part} (h : PathOnly s t) (tbl : BlockTable) (path : Path) (fill : Fill) (evq : EventQueue)
    (out : Outputs) : PathOnly s { t with tbl := tbl, path := path, fill := fill, evq := evq, out := out } := by
  unfold PathOnly at *
  rw [h]

theorem post_pathOnly (e : Event) (s : Part) : PathOnly s (post e s) := rfl

theorem setRec_pathOnly (id : BlockId) (r : BlockRec) (s : Part) : PathOnly s (setRec id r s) := rfl

theorem setState_pathOnly (id : BlockId) (st : BlockState) (s : Part) : PathOnly s (setState id st s) := by
  unfold setState
  split <;> rfl

theorem joinTail_pathOnly (id : BlockId) (t : Time) (s : Part) : PathOnly s (joinTail id t s) := rfl

theorem foldl_pathOnly {α : Type} (f : Part → α → Part) (h : ∀ s a, PathOnly s (f s a)) (xs : List α) :
    ∀ s, PathOnly s (xs.foldl f s) := by
  induction xs with
  | nil => exact fun s => .refl s
  | cons x xs ih => exact fun s => (h s x).trans (ih (f s x))

theorem postWatermarks_pathOnly (id : BlockId) (s : Part) : PathOnly s (postWatermarks id s) := by
  refine foldl_pathOnly _ (fun t n => ?_) _ s
  split
  · exact post_pathOnly _ _
  · exact .refl _

theorem dirtyByWrite_pathOnly (id : BlockId) (s : Part) : PathOnly s (dirtyByWrite id s) :=
  ((setState_pathOnly _ _ _).trans (joinTail_pathOnly _ _ _)).trans (postWatermarks_pathOnly _ _)

theorem performWrite_pathOnly (id : BlockId) (s : Part) : PathOnly s (performWrite id s) := by
  unfold performWrite
  split
  · exact dirtyByWrite_pathOnly _ _
  · exact setState_pathOnly _ _ _
  all_goals exact .refl _

theorem demandAsk_pathOnly (id : BlockId) (s : Part) : PathOnly s (demandAsk id s) := by
  unfold demandAsk
  split
  · exact .refl _
  · split <;> rfl

theorem askIfAbsent_pathOnly (id : BlockId) (s : Part) : PathOnly s (askIfAbsent id s) := by
  unfold askIfAbsent
  split
  · exact demandAsk_pathOnly _ _
  · exact .refl _

theorem passAccess_pathOnly (r : HostReq) (id : BlockId) (s : Part) : PathOnly s (passAccess r id s) := by
  unfold passAccess
  split
  · exact (performWrite_pathOnly _ _).trans rfl
  · rfl

theorem reclaim_pathOnly (e : Held) (s : Part) : PathOnly s (reclaim e s).1 := by
  unfold reclaim
  split
  · exact PathOnly.trans (t := dropHeld e.req.tag s) rfl (passAccess_pathOnly _ _ _)
  · rfl
  · exact (askIfAbsent_pathOnly _ _).trans rfl
  · rfl

theorem walkBlock_pathOnly (n : Nat) (id : BlockId) : ∀ s, PathOnly s (walkBlock n id s) := by
  induction n with
  | zero => exact fun s => .refl s
  | succ n ih =>
    intro s
    unfold walkBlock
    split
    · exact .refl _
    · rename_i e _
      have h := reclaim_pathOnly e s
      rcases hr : reclaim e s with ⟨t, b⟩
      rw [hr] at h
      cases b
      · exact h
      · exact h.trans (ih t)

theorem releaseBlock_pathOnly (id : BlockId) (s : Part) : PathOnly s (releaseBlock id s) := walkBlock_pathOnly _ _ _

theorem acceptAccess_pathOnly (r : HostReq) (s : Part) : PathOnly s (acceptAccess r s) := by
  unfold acceptAccess
  split
  · rfl
  · split
    · rfl
    · split
      · exact passAccess_pathOnly _ _ _
      · rfl
      · exact (askIfAbsent_pathOnly _ _).trans rfl
      · rfl

theorem drainPort_pathOnly (rs : List HostReq) : ∀ s, PathOnly s (drainPort rs s) := by
  induction rs with
  | nil => exact fun s => rfl
  | cons r rs ih =>
    intro s
    unfold drainPort
    split
    · exact (acceptAccess_pathOnly r s).trans (ih _)
    · rfl

theorem refillDemand_pathOnly (n : Nat) : ∀ s, PathOnly s (refillDemand n s) := by
  induction n with
  | zero => exact fun s => .refl s
  | succ n ih =>
    intro s
    unfold refillDemand
    split
    · split
      · exact .refl _
      · exact (demandAsk_pathOnly _ _).trans (ih _)
    · exact .refl _

theorem retime_pathOnly (s : Part) : PathOnly s (retime s) := by
  unfold retime
  dsimp only
  split <;> rfl

theorem settle_pathOnly (s : Part) : PathOnly s (settle s) :=
  ((refillDemand_pathOnly _ _).trans (drainPort_pathOnly _ _)).trans (retime_pathOnly _)

/-! Field by field, for the two operations a step ends with. -/

@[simp] theorem settle_now (s : Part) : (settle s).now = s.now := by rw [settle_pathOnly s]
@[simp] theorem settle_pins (s : Part) : (settle s).pins = s.pins := by rw [settle_pathOnly s]
@[simp] theorem settle_regs (s : Part) : (settle s).regs = s.regs := by rw [settle_pathOnly s]
@[simp] theorem settle_eng (s : Part) : (settle s).eng = s.eng := by rw [settle_pathOnly s]
@[simp] theorem settle_link (s : Part) : (settle s).link = s.link := by rw [settle_pathOnly s]
@[simp] theorem settle_pres (s : Part) : (settle s).pres = s.pres := by rw [settle_pathOnly s]
@[simp] theorem settle_pwr (s : Part) : (settle s).pwr = s.pwr := by rw [settle_pathOnly s]
@[simp] theorem settle_mbox (s : Part) : (settle s).mbox = s.mbox := by rw [settle_pathOnly s]
@[simp] theorem settle_choices (s : Part) : (settle s).choices = s.choices := by rw [settle_pathOnly s]
@[simp] theorem releaseBlock_now (id : BlockId) (s : Part) : (releaseBlock id s).now = s.now := by
  rw [releaseBlock_pathOnly id s]
@[simp] theorem releaseBlock_pins (id : BlockId) (s : Part) : (releaseBlock id s).pins = s.pins := by
  rw [releaseBlock_pathOnly id s]
@[simp] theorem releaseBlock_regs (id : BlockId) (s : Part) : (releaseBlock id s).regs = s.regs := by
  rw [releaseBlock_pathOnly id s]
@[simp] theorem releaseBlock_eng (id : BlockId) (s : Part) : (releaseBlock id s).eng = s.eng := by
  rw [releaseBlock_pathOnly id s]
@[simp] theorem releaseBlock_link (id : BlockId) (s : Part) : (releaseBlock id s).link = s.link := by
  rw [releaseBlock_pathOnly id s]
@[simp] theorem releaseBlock_pres (id : BlockId) (s : Part) : (releaseBlock id s).pres = s.pres := by
  rw [releaseBlock_pathOnly id s]
@[simp] theorem releaseBlock_pwr (id : BlockId) (s : Part) : (releaseBlock id s).pwr = s.pwr := by
  rw [releaseBlock_pathOnly id s]
@[simp] theorem releaseBlock_mbox (id : BlockId) (s : Part) : (releaseBlock id s).mbox = s.mbox := by
  rw [releaseBlock_pathOnly id s]
@[simp] theorem releaseBlock_choices (id : BlockId) (s : Part) : (releaseBlock id s).choices = s.choices := by
  rw [releaseBlock_pathOnly id s]

/-! ### More operations that change no more than the path unit does -/

theorem failFillHolds_pathOnly (id : BlockId) (s : Part) : PathOnly s (failFillHolds id s) := by
  unfold failFillHolds
  split
  · exact .refl _
  · split
    · exact PathOnly.trans (t := respondError _ (dropHeld _ s)) rfl (releaseBlock_pathOnly _ _)
    · exact .refl _

theorem releaseEntry_pathOnly (why : HoldReason) (s : Part) (tag : Fin 16) : PathOnly s (releaseEntry why s tag) := by
  unfold releaseEntry
  split
  · exact .refl _
  · split
    · exact releaseBlock_pathOnly _ _
    · exact .refl _

theorem budgetWalk_pathOnly (tags : List (Fin 16)) : ∀ s : Part, PathOnly s (budgetWalk tags s) := by
  induction tags with
  | nil => exact fun s => .refl _
  | cons x tags ih =>
    intro s
    unfold budgetWalk
    dsimp only
    split
    · exact releaseEntry_pathOnly _ _ _
    · exact (releaseEntry_pathOnly _ _ _).trans (ih _)

theorem budgetRelease_pathOnly (s : Part) : PathOnly s (budgetRelease s) := budgetWalk_pathOnly _ s

theorem freezeRelease_pathOnly (s : Part) : PathOnly s (freezeRelease s) := by
  unfold freezeRelease
  generalize heldFor s .freeze = tags
  induction tags generalizing s with
  | nil => exact .refl _
  | cons x tags ih => exact (releaseEntry_pathOnly _ _ _).trans (ih _)

theorem budgetCheck_pathOnly (count budget : Nat) (s : Part) : PathOnly s (budgetCheck count budget s) := by
  unfold budgetCheck
  split
  · exact budgetRelease_pathOnly s
  · exact .refl _

theorem expireTag_pathOnly (s : Part) (tag : Fin 16) : PathOnly s (expireTag s tag) := by
  unfold expireTag
  split
  · exact .refl _
  · split
    · unfold expireEntry
      dsimp only
      split
      · exact PathOnly.trans (t := post _ (respondError _ (dropHeld _ s))) rfl (releaseBlock_pathOnly _ _)
      · rfl
    · exact .refl _

theorem suspendHolds_pathOnly (r : Fin 8) (s : Part) : PathOnly s (suspendHolds r s) := by
  refine foldl_pathOnly _ (fun t e => ?_) _ s
  split <;> first | exact .refl _ | exact failFillHolds_pathOnly _ _

/-- A region evaluation changes the region's state and what the path unit changes. -/
theorem applyEval_keeps (s : Part) (r : Fin 8) : applyEval s r = { s with
    tbl := (applyEval s r).tbl, path := (applyEval s r).path, fill := (applyEval s r).fill
    evq := (applyEval s r).evq, out := (applyEval s r).out, regs := (applyEval s r).regs } := by
  unfold applyEval
  dsimp only
  split
  · rfl
  · split
    · have h := suspendHolds_pathOnly r (setRegionState r (evalState s r) s)
      generalize suspendHolds r (setRegionState r (evalState s r) s) = t at h ⊢
      rw [h]
      rfl
    · rfl

theorem evalAll_keeps (s : Part) : evalAll s = { s with
    tbl := (evalAll s).tbl, path := (evalAll s).path, fill := (evalAll s).fill
    evq := (evalAll s).evq, out := (evalAll s).out, regs := (evalAll s).regs } := by
  unfold evalAll
  generalize List.finRange 8 = l
  induction l generalizing s with
  | nil => rfl
  | cons r l ih =>
    rw [List.foldl_cons, ih, applyEval_keeps s r]

/-! ### Accepting, asking, walking -/

theorem refillDemand_of_noHeld (n : Nat) (s : Part) (h : s.path.held = []) : refillDemand n s = s := by
  cases n with
  | zero => rfl
  | succ n => simp [refillDemand, refillCandidate, h]

theorem oldestOf_of_none {p : Part} {id : BlockId} (h : ∀ e ∈ p.path.held, e.id ≠ id) : oldestOf p id = none := by
  simp only [oldestOf, List.find?_eq_none, decide_eq_true_eq]
  exact h

theorem oldestOf_mem {p : Part} {id : BlockId} {e : Held} (h : oldestOf p id = some e) : e ∈ p.path.held ∧ e.id = id :=
  ⟨List.mem_of_find?_eq_some h, by simpa using List.find?_some h⟩

theorem canAccept_of {p : Part} {r : HostReq} (h1 : p.path.tags[r.tag] = .idle) (h2 : p.path.held.length < 8) :
    canAccept p r = true := by
  simp only [canAccept, Config.heldMax, h2, decide_true, Bool.and_true, beq_iff_eq]
  exact h1

/-- With nothing waiting, a request that can be accepted is, and the age timer follows. -/
theorem accept_of_quiet {p : Part} {r : HostReq} (rest : List Instr) (hq : Quiet p) (h1 : p.path.tags[r.tag] = .idle)
    (h2 : p.path.held.length < 8) : exec (.hostRequestAccepted r) ⟨p, rest⟩ =
      .next ⟨retime { acceptAccess r { p with path.port := [r] } with path.port := [] }, rest⟩ := by
  simp only [exec, execHostRequestAccepted, onPart, settle, hq.1, List.nil_append]
  rw [refillDemand_of_quiet _ (p := { p with path.port := [r] }) hq.2.1]
  have hc : canAccept { p with path.port := [r] } r = true := canAccept_of h1 h2
  simp [drainPort, hc]

theorem demandAsk_eq (p : Part) (id : BlockId) : demandAsk id p = { p with fill := p.fill.asked id } := by
  unfold demandAsk Fill.asked
  by_cases h : id ∈ p.fill.demand
  · simp [h]
  · by_cases h' : p.fill.demand.length < 8
    · simp [h, Config.demandMax, h', Nat.not_le.mpr h']
    · simp [h, Config.demandMax, h', Nat.not_lt.mp h']

theorem foldl_filter_of {α β : Type} (P : α → Prop) [DecidablePred P] (f : β → α → β) (l : List α) (b : β) :
    l.foldl (fun t n => if P n then f t n else t) b = (l.filter fun n => decide (P n)).foldl f b := by
  induction l generalizing b with
  | nil => rfl
  | cons a l ih => by_cases h : P a <;> simp [h, ih]

@[simp] theorem performWrite_path (id : BlockId) (s : Part) : (performWrite id s).path = s.path := by
  have hp : ∀ (l : List (Fin 4)) (t : Part) (c : Fin 4 → Prop) [DecidablePred c],
      (l.foldl (fun t n => if c n then post (.watermark n id) t else t) t).path = t.path := by
    intro l
    induction l with
    | nil => intro t c _; rfl
    | cons a l ih => intro t c _; simp only [List.foldl_cons]; rw [ih]; split <;> rfl
  unfold performWrite
  have hs : ∀ st, (setState id st s).path = s.path := by
    intro st
    unfold setState
    split <;> rfl
  split
  · unfold dirtyByWrite postWatermarks
    rw [hp]
    exact hs _
  all_goals first | rfl | exact hs _

theorem heldWithout_lt {p : Part} {e : Held} (h : e ∈ p.path.held) :
    (p.path.held.filter fun x => x.req.tag ≠ e.req.tag).length < p.path.held.length :=
  List.length_filter_lt_length_iff_exists.mpr ⟨e, h, by simp⟩

/-- A walk bounded by no fewer steps than there are entries is the whole walk. -/
theorem walkBlock_of_enough : ∀ (n m : Nat) (id : BlockId) (s : Part), s.path.held.length ≤ n → s.path.held.length ≤ m →
    walkBlock n id s = walkBlock m id s := by
  intro n
  induction n with
  | zero =>
    intro m id s h _
    have : s.path.held = [] := List.length_eq_zero_iff.mp (Nat.le_zero.mp h)
    cases m <;> simp [walkBlock, oldestOf, this]
  | succ n ih =>
    intro m id s h1 h2
    cases m with
    | zero =>
      have : s.path.held = [] := List.length_eq_zero_iff.mp (Nat.le_zero.mp h2)
      simp [walkBlock, oldestOf, this]
    | succ m =>
      unfold walkBlock
      cases ho : oldestOf s id with
      | none => rfl
      | some e =>
        have hm := heldWithout_lt (oldestOf_mem ho).1
        cases hr : reclaim e s with
        | mk t b =>
          cases b with
          | false => simp only [hr]
          | true =>
            simp only [hr]
            have ht : t.path.held = s.path.held.filter fun x => x.req.tag ≠ e.req.tag := by
              unfold reclaim at hr
              split at hr <;> simp at hr
              · rw [← hr]
                unfold passAccess
                split <;> simp [forward, setTag, dropHeld]
              · rw [← hr]
                simp [respondError, respond, setTag, dropHeld]
            apply ih <;> (rw [ht]; omega)

/-! ### After a reset nothing is held and every address is outside -/

theorem decodeAddr_of_off {s : Part} (h : s.regs = Vector.replicate 8 Region.reset) (a : U32) : decodeAddr s a = none := by
  simp [decodeAddr, regionHolds, h, Region.reset, Fin.getElem_fin]

/-- With nothing held and every address outside, the requests at the port are forwarded in order up to the first whose tag is
outstanding. -/
theorem drainPort_of_off (rs : List HostReq) : ∀ s : Part, s.regs = Vector.replicate 8 Region.reset → s.path.held = [] →
    ∃ taken waiting, rs = taken ++ waiting ∧ (taken.map fun r => r.tag).Nodup ∧
      (∀ r ∈ taken, s.path.tags[r.tag] = .idle) ∧
      (∀ r more, waiting = r :: more → (taken.foldl (fun v x => v.set x.tag .lane) s.path.tags)[r.tag] ≠ .idle) ∧
      drainPort rs s = { s with path := { s.path with
        tags := taken.foldl (fun v x => v.set x.tag .lane) s.path.tags
        port := waiting, hostLane := s.path.hostLane ++ taken } } := by
  induction rs with
  | nil => exact fun s h _ => ⟨[], [], rfl, .nil, by simp, by simp, by simp [drainPort]⟩
  | cons r rs ih =>
    intro s h hh
    unfold drainPort
    split
    · rename_i hc
      have hi : s.path.tags[r.tag] = .idle := by
        simp only [canAccept, Bool.and_eq_true, beq_iff_eq] at hc
        exact hc.1
      have he : acceptAccess r s = forward r s := by simp [acceptAccess, decodeAddr_of_off h]
      rw [he]
      obtain ⟨tk, w, h1, h2, h3, h4, h5⟩ := ih (forward r s) h hh
      have hne : ∀ x ∈ tk, x.tag ≠ r.tag ∧ s.path.tags[x.tag] = .idle := by
        intro x hx
        have h := h3 x hx
        simp only [forward, setTag, Fin.getElem_fin] at h
        by_cases hxr : x.tag = r.tag
        · simp [hxr] at h
        · have hv : r.tag.val ≠ x.tag.val := fun e => hxr (Fin.ext e.symm)
          rw [Vector.getElem_set_ne _ _ hv] at h
          exact ⟨hxr, h⟩
      refine ⟨r :: tk, w, by rw [h1]; rfl, ?_, ?_, ?_, ?_⟩
      · rw [List.map_cons, List.nodup_cons]
        refine ⟨fun hm => ?_, h2⟩
        obtain ⟨x, hx, hxr⟩ := List.mem_map.mp hm
        exact (hne x hx).1 hxr
      · intro x hx
        rcases List.mem_cons.mp hx with rfl | hx
        · exact hi
        · exact (hne x hx).2
      · exact h4
      · rw [h5]
        simp [forward, setTag]
    · rename_i hc
      refine ⟨[], r :: rs, by simp, .nil, by simp, ?_, by simp⟩
      intro x more hx hi
      obtain ⟨rfl, -⟩ := List.cons.inj hx
      exact hc (by simpa [canAccept, hh, Config.heldMax] using hi)

theorem errorAll_eq (xs : List Held) : ∀ t : Part, ∃ held,
    xs.foldl (fun t e => respondError e.req.tag (dropHeld e.req.tag t)) t = { t with
      path.tags := xs.foldl (fun v e => v.set e.req.tag .idle) t.path.tags, path.held := held
      out.host := t.out.host ++ xs.map fun e => ⟨e.req.tag, false, []⟩ } := by
  induction xs with
  | nil => exact fun t => ⟨t.path.held, by simp⟩
  | cons x xs ih =>
    intro t
    obtain ⟨b, h⟩ := ih (respondError x.req.tag (dropHeld x.req.tag t))
    refine ⟨b, ?_⟩
    rw [List.foldl_cons, h]
    simp [respondError, respond, setTag, dropHeld]

/-- Settling right after a reset: the requests at the port are forwarded as far as their tags allow, and nothing else changes. -/
theorem settle_of_reset (q : Part) (hr : q.regs = Vector.replicate 8 Region.reset) (hh : q.path.held = [])
    (hq : q.tbl = BlockTable.reset) :
    ∃ taken waiting, q.path.port = taken ++ waiting ∧ (taken.map fun r => r.tag).Nodup ∧
      (∀ r ∈ taken, q.path.tags[r.tag] = .idle) ∧
      (∀ r more, waiting = r :: more → (taken.foldl (fun v x => v.set x.tag .lane) q.path.tags)[r.tag] ≠ .idle) ∧
      settle q = { q with path := { q.path with
        tags := taken.foldl (fun v x => v.set x.tag .lane) q.path.tags
        port := waiting, hostLane := q.path.hostLane ++ taken } } := by
  obtain ⟨tk, w, h1, h2, h3, h4, h5⟩ := drainPort_of_off q.path.port q hr hh
  refine ⟨tk, w, h1, h2, h3, h4, ?_⟩
  simp only [settle]
  rw [refillDemand_of_noHeld _ q hh, h5]
  unfold retime
  simp [AgeStands, ageTarget, ageLead, leading, eligibleQueue, hq, BlockTable.reset]

end Sys2Proof.Machine
end

