-- ==== Sys2Proof/Laws/Records.lean ====
section
/-! SUPPORT. What a write of one block record does to the counts kept over all of them. -/

namespace Sys2Proof.Machine

theorem sum_set (l : List Nat) (i x : Nat) (h : i < l.length) : (l.set i x).sum + l[i] = l.sum + x := by
  induction l generalizing i with
  | nil => simp at h
  | cons a l ih =>
    cases i with
    | zero => simp; omega
    | succ i =>
      have := ih i (by simpa using h)
      simp; omega

theorem countP_set_add {α : Type} (P : α → Bool) (l : List α) (i : Nat) (a b : α) (h : l[i]? = some b) :
    (l.set i a).countP P + (P b).toNat = l.countP P + (P a).toNat := by
  induction l generalizing i with
  | nil => simp at h
  | cons x l ih =>
    cases i with
    | zero =>
      simp at h; subst h
      simp only [List.set_cons_zero, List.countP_cons]
      cases P x <;> cases P a <;> simp
    | succ i =>
      have := ih i (by simpa using h)
      simp only [List.set_cons_succ, List.countP_cons]
      omega

/-- One record written: each count moves by what the old and the new record count for. -/
theorem countRecs_setRec (P : BlockRec → Bool) (id : BlockId) (r b : BlockRec) (s : Part) (h : recOf s id = some b) :
    countRecs P (setRec id r s) + (P b).toNat = countRecs P s + (P r).toNat := by
  have h1 : id.region.val < (s.tbl.recs.toList.map fun l => l.countP P).length := by simp
  have h2 := sum_set (s.tbl.recs.toList.map fun l => l.countP P) id.region.val
    (((s.tbl.recs[id.region]).set id.index r).countP P) h1
  have h3 := countP_set_add P (s.tbl.recs[id.region]) id.index r b h
  simp only [countRecs, setRec_tbl, Vector.toList_set, Fin.getElem_fin, List.map_set]
  simp only [List.getElem_map, Vector.getElem_toList, Fin.getElem_fin] at h2 h3
  omega

/-- A write of a record that a block has is read back. -/
theorem recOf_setRec_self (id : BlockId) (r b : BlockRec) (s : Part) (h : recOf s id = some b) :
    recOf (setRec id r s) id = some r := by
  have h1 : (s.tbl.recs[id.region.val])[id.index]? = some b := h
  have h2 : id.index < (s.tbl.recs[id.region.val]).length := (List.getElem?_eq_some_iff.mp h1).1
  simp only [recOf, setRec_tbl, Fin.getElem_fin, Vector.getElem_set_self]
  exact List.getElem?_set_self h2

/-- A write of one record leaves every other as it was. -/
theorem recOf_setRec_other (id x : BlockId) (r : BlockRec) (s : Part) (h : x ≠ id) :
    recOf (setRec id r s) x = recOf s x := by
  obtain ⟨ir, ii⟩ := id
  obtain ⟨xr, xi⟩ := x
  by_cases hr : xr = ir
  · subst hr
    have hi : ii ≠ xi := fun e => h (by rw [e])
    simp only [recOf, setRec_tbl, Fin.getElem_fin, Vector.getElem_set_self]
    rw [List.getElem?_set_ne hi]
  · have : ir.val ≠ xr.val := fun e => hr (Fin.ext e.symm)
    simp only [recOf, setRec_tbl, Fin.getElem_fin]
    rw [Vector.getElem_set_ne (h := this)]

theorem setState_self {id : BlockId} {st : BlockState} {s : Part} {b : BlockRec} (h : recOf s id = some b) :
    recOf (setState id st s) id = some ⟨st, b.mark⟩ := by
  unfold setState
  rw [h]
  exact recOf_setRec_self _ _ _ _ h

theorem setState_other {id x : BlockId} {st : BlockState} {s : Part} (h : x ≠ id) :
    recOf (setState id st s) x = recOf s x := by
  unfold setState
  split
  · exact recOf_setRec_other _ _ _ _ h
  · rfl

theorem setState_queue {id : BlockId} {st : BlockState} {s : Part} : (setState id st s).tbl.queue = s.tbl.queue := by
  unfold setState
  split <;> rfl

/-- A region's records written anew: each count moves by what the old and the new ones count for. -/
theorem countRecs_set (P : BlockRec → Bool) (s : Part) (r : Fin 8) (l : List BlockRec) :
    countRecs P { s with tbl.recs := s.tbl.recs.set r l } + (s.tbl.recs[r]).countP P = countRecs P s + l.countP P := by
  have h1 : r.val < (s.tbl.recs.toList.map fun l => l.countP P).length := by simp
  have h2 := sum_set (s.tbl.recs.toList.map fun l => l.countP P) r.val (l.countP P) h1
  simp only [countRecs, Vector.toList_set, List.map_set]
  simp only [List.getElem_map, Vector.getElem_toList] at h2
  rw [h2.symm]
  simp

/-- The watermarks posted at a block are the ones its count reaches, and nothing else changes. -/
theorem postWatermarks_eq (id : BlockId) (s : Part) : postWatermarks id s = { s with
    evq := (reachedAt s.tbl.thresholds (dirtyCount s) id).foldl (fun q e => q.post e s.now) s.evq } := by
  have h : ∀ (l : List (Fin 4)) (t : Part), t.now = s.now →
      l.foldl (fun t n => if s.tbl.thresholds[n] ≠ 0 ∧ s.tbl.thresholds[n] = dirtyCount s then
        post (.watermark n id) t else t) t = { t with
      evq := ((l.filter fun n => decide (s.tbl.thresholds[n] ≠ 0 ∧ s.tbl.thresholds[n] = dirtyCount s)).map fun n =>
        Event.watermark n id).foldl (fun q e => q.post e s.now) t.evq } := by
    intro l
    induction l with
    | nil => exact fun t _ => rfl
    | cons n l ih =>
      intro t h1
      rw [List.foldl_cons]
      by_cases hc : s.tbl.thresholds[n] ≠ 0 ∧ s.tbl.thresholds[n] = dirtyCount s
      · rw [if_pos hc, ih (post (.watermark n id) t) h1, List.filter_cons_of_pos (by simpa using hc)]
        simp only [post, List.map_cons, List.foldl_cons, h1]
      · rw [if_neg hc, ih _ h1, List.filter_cons_of_neg (by simpa using hc)]
  exact h _ s rfl

/-- One record of adopt-RAM (R3). -/
theorem adoptDirty_eq (r : Fin 8) (s : Part) (k : Nat) : adoptDirty r s k = { s with
    tbl.recs := s.tbl.recs.set r (s.tbl.recs[r] ++ [⟨.dirty s.now, none⟩])
    tbl.queue := s.tbl.queue ++ [⟨⟨r, k⟩, s.now⟩]
    evq := (reachedAt s.tbl.thresholds (dirtyCount s + 1) ⟨r, k⟩).foldl (fun q e => q.post e s.now) s.evq } := by
  unfold adoptDirty
  rw [postWatermarks_eq]
  have hc := countRecs_set (fun b => b.state.dirtyCounting) s r (s.tbl.recs[r] ++ [⟨.dirty s.now, none⟩])
  rw [List.countP_append, show List.countP (fun b : BlockRec => b.state.dirtyCounting) [⟨.dirty s.now, none⟩] = 1 from rfl]
    at hc
  have hd : dirtyCount (joinTail ⟨r, k⟩ s.now
      { s with tbl.recs := s.tbl.recs.set r (s.tbl.recs[r] ++ [⟨.dirty s.now, none⟩]) }) = dirtyCount s + 1 := by
    refine Eq.trans (b := countRecs (fun b => b.state.dirtyCounting)
      { s with tbl.recs := s.tbl.recs.set r (s.tbl.recs[r] ++ [⟨.dirty s.now, none⟩]) }) rfl ?_
    unfold dirtyCount
    omega
  rw [hd]
  rfl

/-- The records of adopt-RAM from index `k` on, the region having `k` already (R3). -/
theorem adoptDirty_foldl (r : Fin 8) : ∀ (n k : Nat) (s : Part), (List.range' k n).foldl (adoptDirty r) s = { s with
    tbl.recs := s.tbl.recs.set r (s.tbl.recs[r] ++ List.replicate n ⟨.dirty s.now, none⟩)
    tbl.queue := s.tbl.queue ++ (List.range' k n).map fun i => ⟨⟨r, i⟩, s.now⟩
    evq := ((List.range n).flatMap fun i => reachedAt s.tbl.thresholds (dirtyCount s + i + 1) ⟨r, k + i⟩).foldl
      (fun q e => q.post e s.now) s.evq } := by
  intro n
  induction n with
  | zero => intro k s; simp
  | succ n ih =>
    intro k s
    have hd : dirtyCount (adoptDirty r s k) = dirtyCount s + 1 := by
      have hc := countRecs_set (fun b => b.state.dirtyCounting) s r (s.tbl.recs[r] ++ [⟨.dirty s.now, none⟩])
      rw [List.countP_append,
        show List.countP (fun b : BlockRec => b.state.dirtyCounting) [⟨.dirty s.now, none⟩] = 1 from rfl] at hc
      rw [adoptDirty_eq]
      refine Eq.trans (b := countRecs (fun b => b.state.dirtyCounting)
        { s with tbl.recs := s.tbl.recs.set r (s.tbl.recs[r] ++ [⟨.dirty s.now, none⟩]) }) rfl ?_
      unfold dirtyCount
      omega
    rw [List.range'_succ, List.foldl_cons, ih, hd, adoptDirty_eq, List.range_succ_eq_map]
    simp only [List.flatMap_cons, List.foldl_append, List.flatMap_map, Fin.getElem_fin, Vector.set_set,
      Vector.getElem_set_self, List.append_assoc, List.singleton_append, List.map_cons, List.replicate_succ, Nat.add_zero]
    congr 2
    congr 1
    funext i
    rw [show k + 1 + i = k + (i + 1) by omega, show dirtyCount s + 1 + i + 1 = dirtyCount s + (i + 1) + 1 by omega]

end Sys2Proof.Machine
end

