-- ==== Sys2Proof/Laws/Fill.lean ====
section
/-! SUPPORT. The fill engine's ends change only the block table, the path unit, the fill engine, the event queue and the
outputs. -/

namespace Sys2Proof.Machine

theorem setSlot_pathOnly (i : Fin 8) (f : FillSlot) (s : Part) : PathOnly s (setSlot i f s) := rfl

theorem endInRun_pathOnly (id : BlockId) (s : Part) : PathOnly s (endInRun id s) := rfl

theorem setOwn_pathOnly (i : Fin 16) (u : TagUse) (s : Part) : PathOnly s (setOwn i u s) := rfl

theorem takeGroup_pathOnly (s : Part) : PathOnly s (takeGroup s) := by
  unfold takeGroup
  split
  · exact .refl _
  · split
    · exact .refl _
    · split <;> rfl

theorem takeGroups_pathOnly (s : Part) : PathOnly s (takeGroups s) := (takeGroup_pathOnly _).trans (takeGroup_pathOnly _)

theorem staleGroup_pathOnly (g : Fin 2) (s : Part) : PathOnly s (staleGroup g s) := by
  refine foldl_pathOnly _ (fun t k => ?_) _ s
  split
  · exact setOwn_pathOnly _ _ _
  · exact .refl _

theorem dropSlot_pathOnly (i : Fin 8) (s : Part) : PathOnly s (dropSlot i s) := by
  unfold dropSlot
  split
  · exact (PathOnly.refl s).update _ _ _ _ _
  · rename_i g _
    have h0 : PathOnly s { s with path.fillLane := s.path.fillLane.filter fun f => f.group != g } :=
      (PathOnly.refl s).update _ _ _ _ _
    have h := h0.trans (staleGroup_pathOnly g _)
    generalize staleGroup g _ = t at h ⊢
    exact h.update _ _ _ _ _

theorem revertBlock_pathOnly (id : BlockId) (i : Fin 8) (s : Part) : PathOnly s (revertBlock id i s) := by
  have h := setState_pathOnly id (.absent false) s
  unfold revertBlock
  generalize setState id (.absent false) s = t at h ⊢
  exact h.trans (dropSlot_pathOnly i t)

theorem failBlocks_pathOnly (xs : List (BlockId × Fin 8)) (why : FillFail) (s : Part) : PathOnly s (failBlocks xs why s) := by
  have hr : ∀ t, PathOnly t (xs.foldl (fun t x => revertBlock x.1 x.2 t) t) := by
    refine foldl_pathOnly _ (fun u x => ?_) xs
    exact revertBlock_pathOnly _ _ _
  have hf : ∀ t, PathOnly t (xs.foldl (fun t x => failFillHolds x.1 t) t) := by
    refine foldl_pathOnly _ (fun u x => ?_) xs
    exact failFillHolds_pathOnly _ _
  unfold failBlocks
  split
  · exact .refl _
  · refine PathOnly.trans ?_ (takeGroups_pathOnly _)
    refine PathOnly.trans ?_ (post_pathOnly _ _)
    have h := hr s
    generalize List.foldl (fun t (x : BlockId × Fin 8) => revertBlock x.1 x.2 t) s _ = t at h ⊢
    exact (h.update _ _ _ _ _).trans (hf _)

theorem failDemand_pathOnly (why : FillFail) (s : Part) : PathOnly s (failDemand why s) := by
  unfold failDemand
  split
  · exact .refl _
  · refine PathOnly.trans ?_ (failBlocks_pathOnly _ _ _)
    rfl

theorem failBackground_pathOnly (why : FillFail) (s : Part) : PathOnly s (failBackground why s) := by
  unfold failBackground
  split
  · rfl
  · refine PathOnly.trans ?_ (failBlocks_pathOnly _ _ _)
    rfl

theorem failUnreceived_pathOnly (why : FillFail) (s : Part) : PathOnly s (failUnreceived why s) := by
  unfold failUnreceived
  split
  · refine PathOnly.trans ?_ (failBlocks_pathOnly _ _ _)
    rfl
  · split
    · exact .refl _
    · split
      · rfl
      · refine PathOnly.trans ?_ (failBlocks_pathOnly _ _ _)
        rfl

theorem failYielded_pathOnly (s : Part) : PathOnly s (failYielded s) := by
  unfold failYielded
  split
  · exact .refl _
  · split
    · exact failBackground_pathOnly _ _
    · exact .refl _

theorem landBurst_pathOnly (i : Fin 8) (id : BlockId) (b : ReadBurst) (s : Part) : PathOnly s (landBurst i id b s) := by
  unfold landBurst
  split
  · refine PathOnly.trans ?_ (takeGroups_pathOnly _)
    rfl
  · refine PathOnly.trans ?_ (failFillHolds_pathOnly _ _)
    exact (setState_pathOnly id _ s).trans rfl

theorem demandBurst_pathOnly (b : ReadBurst) (s : Part) : PathOnly s (demandBurst b s) := by
  unfold demandBurst
  split
  · exact .refl _
  · refine PathOnly.trans ?_ (landBurst_pathOnly _ _ _ _)
    rfl

theorem backgroundBurst_pathOnly (b : ReadBurst) (s : Part) : PathOnly s (backgroundBurst b s) := by
  unfold backgroundBurst
  split
  · exact .refl _
  · split
    · exact .refl _
    · split <;> (refine PathOnly.trans ?_ (landBurst_pathOnly _ _ _ _); rfl)

theorem fillReset_pathOnly (s : Part) : PathOnly s (fillReset s) := by
  have hs : ∀ (ids : List BlockId) t, PathOnly t (ids.foldl (fun t id => setState id (.absent false) t) t) :=
    fun ids => foldl_pathOnly (fun t id => setState id (.absent false) t) (fun t id => setState_pathOnly id _ t) ids
  have hf : ∀ (ids : List BlockId) t, PathOnly t (ids.foldl (fun t id => failFillHolds id t) t) :=
    fun ids => foldl_pathOnly (fun t id => failFillHolds id t) (fun t id => failFillHolds_pathOnly id t) ids
  unfold fillReset staleFills
  refine PathOnly.trans ?_ (hf _ _)
  refine PathOnly.trans ?_ (staleGroup_pathOnly _ _)
  refine PathOnly.trans ?_ (staleGroup_pathOnly _ _)
  have h := hs (fillingOrder s) s
  generalize (fillingOrder s).foldl (fun t id => setState id (.absent false) t) s = t at h ⊢
  exact h.update _ _ _ _ _

/-! ### The tags of a group given up -/

theorem fillOwn_injective {g h : Fin 2} {k j : Fin 4} (e : fillOwn g k = fillOwn h j) : g = h ∧ k = j := by
  have := congrArg Fin.val e
  simp only [fillOwn] at this
  constructor <;> apply Fin.ext <;> omega

theorem staleFold_own (g : Fin 2) (l : List (Fin 4)) : ∀ s t : Part,
    l.foldl (fun t k => if t.path.own[fillOwn g k] = .live then setOwn (fillOwn g k) .stale t else t) s = t →
    t = { s with path.own := t.path.own } ∧
    ∀ j : Fin 16, t.path.own[j] = if ∃ k ∈ l, j = fillOwn g k then staleTag s.path.own[j] else s.path.own[j] := by
  induction l with
  | nil => rintro s t rfl; exact ⟨rfl, fun j => by simp⟩
  | cons k l ih =>
    intro s t ht
    rw [List.foldl_cons] at ht
    have one : ∃ u : Part, (if s.path.own[fillOwn g k] = .live then setOwn (fillOwn g k) .stale s else s) = u ∧
        u = { s with path.own := u.path.own } ∧
        ∀ j : Fin 16, u.path.own[j] = if j = fillOwn g k then staleTag s.path.own[j] else s.path.own[j] := by
      refine ⟨_, rfl, ?_, fun j => ?_⟩
      · split <;> rfl
      · split
        · rename_i h
          by_cases hj : j = fillOwn g k
          · subst hj
            have hs : staleTag s.path.own[fillOwn g k] = .stale := by rw [h]; rfl
            rw [if_pos rfl, hs]
            simp only [setOwn, Fin.getElem_fin, Vector.getElem_set_self]
          · rw [if_neg hj]
            simp only [setOwn, Fin.getElem_fin]
            exact Vector.getElem_set_ne _ _ (fun e => hj (Fin.ext e.symm))
        · rename_i h
          by_cases hj : j = fillOwn g k
          · subst hj
            rw [if_pos rfl]
            cases hc : s.path.own[fillOwn g k] with
            | live => exact absurd hc h
            | free => rfl
            | stale => rfl
          · rw [if_neg hj]
    obtain ⟨u, hu, he, ho⟩ := one
    rw [hu] at ht
    obtain ⟨i1, i2⟩ := ih u t ht
    refine ⟨?_, fun j => ?_⟩
    · conv_lhs => rw [i1]
      rw [he]
    · rw [i2 j, ho j]
      by_cases h1 : j = fillOwn g k <;> by_cases h2 : ∃ x ∈ l, j = fillOwn g x
      · rw [if_pos h2, if_pos h1, if_pos ⟨k, List.mem_cons_self, h1⟩]
        cases s.path.own[j] <;> rfl
      · rw [if_neg h2, if_pos h1, if_pos ⟨k, List.mem_cons_self, h1⟩]
      · obtain ⟨x, hx, hjx⟩ := h2
        rw [if_pos ⟨x, hx, hjx⟩, if_neg h1, if_pos ⟨x, List.mem_cons_of_mem _ hx, hjx⟩]
      · rw [if_neg h2, if_neg h1, if_neg]
        rintro ⟨x, hx, hjx⟩
        rcases List.mem_cons.1 hx with rfl | hx
        · exact h1 hjx
        · exact h2 ⟨x, hx, hjx⟩

/-- Giving up a tag group's responses changes its own tags and nothing else: those that are live become stale (R130). -/
theorem staleGroup_own (g : Fin 2) (s : Part) :
    staleGroup g s = { s with path.own := (staleGroup g s).path.own } ∧
    (∀ k : Fin 4, (staleGroup g s).path.own[fillOwn g k] = staleTag s.path.own[fillOwn g k]) ∧
    (∀ (h : Fin 2) (k : Fin 4), h ≠ g → (staleGroup g s).path.own[fillOwn h k] = s.path.own[fillOwn h k]) := by
  obtain ⟨h1, h2⟩ := staleFold_own g (List.finRange 4) s (staleGroup g s) rfl
  refine ⟨h1, fun k => (h2 _).trans (if_pos ⟨k, List.mem_finRange k, rfl⟩), fun h k hg => (h2 _).trans (if_neg ?_)⟩
  rintro ⟨x, _, e⟩
  exact hg (fillOwn_injective e).1

/-! ### A home burst -/

/-- What a home burst is found to be, by the first case of R127. -/
theorem homeCheck_cases (id : BlockId) (b : ReadBurst) :
    (b.blank = 1 → homeCheck id b = .load (zeros 256)) ∧
    (b.blank = 0 → field b.tag 7 4 ≠ (crc32 b.payload).toNat → homeCheck id b = .corrupt false) ∧
    (b.blank = 0 → field b.tag 7 4 = (crc32 b.payload).toNat →
      (field b.tag 0 1 ≠ id.region.val ∨ field b.tag 1 2 ≠ id.index → homeCheck id b = .corrupt true) ∧
      (field b.tag 0 1 = id.region.val → field b.tag 1 2 = id.index → homeCheck id b = .load b.payload)) := by
  have h0 : b.blank = 0 → ¬ b.blank = 1#4 := fun h => by rw [h]; decide
  refine ⟨fun h => if_pos h, fun h h1 => ?_, fun h h1 => ⟨fun h2 => ?_, fun h2 h3 => ?_⟩⟩
  · unfold homeCheck
    rw [if_neg (h0 h), if_pos h1]
  · unfold homeCheck
    rw [if_neg (h0 h), if_neg (by simpa using h1), if_pos h2]
  · unfold homeCheck
    rw [if_neg (h0 h), if_neg (by simpa using h1), if_neg (by simp [h2, h3])]

/-- A home burst that does not pass: the block is unreadable, its slot FREE, HOME_CORRUPT posted, its held accesses answered. -/
theorem landBurst_of_corrupt {i : Fin 8} {id : BlockId} {b : ReadBurst} {s : Part} {tagged : Bool} {r : BlockRec}
    (hr : recOf s id = some r) (h : homeCheck id b = .corrupt tagged) : landBurst i id b s = failFillHolds id { s with
      fill.slots := s.fill.slots.set i .free
      fill.background := s.fill.background.map fun run => { run with
        blocks := run.blocks.map fun x => if x.id = id then { x with ended := true } else x }
      tbl.recs := s.tbl.recs.set id.region ((s.tbl.recs[id.region]).set id.index ⟨.absent true, r.mark⟩)
      evq := s.evq.post (.homeCorrupt id tagged) s.now } := by
  unfold landBurst
  rw [h]
  dsimp only
  unfold setState
  rw [hr]
  rfl

/-- A home burst that passes: its slot is LOADED, and takes a tag group when one is free. -/
theorem landBurst_of_load {i : Fin 8} {id : BlockId} {b : ReadBurst} {s : Part} {data : Payload}
    (h : homeCheck id b = .load data) : landBurst i id b s = takeGroups { s with
      fill.slots := s.fill.slots.set i (.loaded id data), fill.arrivals := s.fill.arrivals ++ [i] } := by
  unfold landBurst
  rw [h]
  rfl

/-! ### The reset -/

/-- Blocks put into one state, one after the other: only their records change, and each keeps its mark. -/
theorem setStates_recs (st : BlockState) (ids : List BlockId) : ∀ s : Part,
    let t := ids.foldl (fun t id => setState id st t) s
    t = { s with tbl.recs := t.tbl.recs } ∧
    (∀ id ∈ ids, ∀ b, recOf s id = some b → recOf t id = some ⟨st, b.mark⟩) ∧
    (∀ id, id ∉ ids → recOf t id = recOf s id) := by
  induction ids with
  | nil => intro s; exact ⟨rfl, fun id h => absurd h List.not_mem_nil, fun id _ => rfl⟩
  | cons x ids ih =>
    intro s
    obtain ⟨h1, h2, h3⟩ := ih (setState x st s)
    have hx : setState x st s = { s with tbl.recs := (setState x st s).tbl.recs } := by
      unfold setState
      split <;> rfl
    refine ⟨?_, fun id hm b hb => ?_, fun id hm => ?_⟩
    · rw [List.foldl_cons]
      generalize ids.foldl (fun t id => setState id st t) (setState x st s) = v at h1 ⊢
      generalize setState x st s = w at h1 hx
      exact h1.trans (by rw [hx])
    · rw [List.foldl_cons]
      by_cases e : id = x
      · subst e
        have hs := setState_self (st := st) hb
        by_cases m : id ∈ ids
        · exact h2 id m ⟨st, b.mark⟩ hs
        · rw [h3 id m, hs]
      · rcases List.mem_cons.1 hm with rfl | m
        · exact absurd rfl e
        · exact h2 id m b ((setState_other e).trans hb)
    · rw [List.foldl_cons, h3 id fun m => hm (List.mem_cons_of_mem _ m),
        setState_other fun e => hm (List.mem_cons.2 (Or.inl e))]

/-- Giving up a tag group's responses leaves the tags of capture reads. -/
theorem staleGroup_capture (g : Fin 2) (s : Part) (k : Fin 4) :
    (staleGroup g s).path.own[captureOwn k] = s.path.own[captureOwn k] := by
  refine ((staleFold_own g (List.finRange 4) s (staleGroup g s) rfl).2 _).trans (if_neg ?_)
  rintro ⟨x, _, e⟩
  have := congrArg Fin.val e
  simp only [captureOwn, fillOwn] at this
  omega

/-- The responses to every fill write issued are to be discarded (R67, R134). -/
theorem staleFills_own (s : Part) :
    staleFills s = { s with path.own := (staleFills s).path.own } ∧
    (∀ (g : Fin 2) (k : Fin 4), (staleFills s).path.own[fillOwn g k] = staleTag s.path.own[fillOwn g k]) ∧
    (∀ k : Fin 4, (staleFills s).path.own[captureOwn k] = s.path.own[captureOwn k]) := by
  obtain ⟨a1, a2, a3⟩ := staleGroup_own 0 s
  have a4 := staleGroup_capture 0 s
  unfold staleFills
  generalize staleGroup 0 s = t at a1 a2 a3 a4
  obtain ⟨b1, b2, b3⟩ := staleGroup_own 1 t
  have b4 := staleGroup_capture 1 t
  generalize staleGroup 1 t = u at b1 b2 b3 b4
  refine ⟨?_, fun g k => ?_, fun k => (b4 k).trans (a4 k)⟩
  · rw [b1, a1]
  · obtain rfl | rfl : g = 0 ∨ g = 1 := by omega
    · exact (b3 0 k (by decide)).trans (a2 k)
    · exact (b2 k).trans (congrArg staleTag (a3 1 k (by decide)))

/-- What RESET ENGINE makes of the fill engine before the held accesses of its blocks are answered, block by block (R134). -/
theorem fillReset_eq (s : Part) : ∃ recs own,
    let t := { s with
      tbl.recs := recs
      path.own := own
      path.fillLane := []
      fill := { Fill.reset with queue := fillingOrder s ++ s.fill.demand ++ s.fill.queue } }
    (∀ (g : Fin 2) (k : Fin 4), own[fillOwn g k] = staleTag s.path.own[fillOwn g k]) ∧
    (∀ k : Fin 4, own[captureOwn k] = s.path.own[captureOwn k]) ∧
    (∀ id ∈ fillingOrder s, ∀ b, recOf s id = some b → recOf t id = some ⟨.absent false, b.mark⟩) ∧
    (∀ id, id ∉ fillingOrder s → recOf t id = recOf s id) ∧
    fillReset s = (fillingOrder s).foldl (fun u id => failFillHolds id u) t := by
  have e : fillReset s = (fillingOrder s).foldl (fun u id => failFillHolds id u) (staleFills {
      (fillingOrder s).foldl (fun t id => setState id (.absent false) t) s with
    path := { ((fillingOrder s).foldl (fun t id => setState id (.absent false) t) s).path with fillLane := [] }
    fill := { Fill.reset with queue := fillingOrder s ++ s.fill.demand ++ s.fill.queue } }) := rfl
  rw [e]
  obtain ⟨h1, h2, h3⟩ := setStates_recs (.absent false) (fillingOrder s) s
  generalize (fillingOrder s).foldl (fun t id => setState id (.absent false) t) s = t at h1 h2 h3
  generalize hw : ({ t with
    path.fillLane := []
    fill := { Fill.reset with queue := fillingOrder s ++ s.fill.demand ++ s.fill.queue } } : Part) = w
  have hp : w.path.own = s.path.own := by rw [← hw, h1]
  obtain ⟨a1, a2, a3⟩ := staleFills_own w
  generalize staleFills w = u at a1 a2 a3
  rw [hp] at a2 a3
  refine ⟨t.tbl.recs, u.path.own, ?_⟩
  intro x
  have hx : u = x := by
    rw [a1, ← hw, h1]
  exact ⟨a2, a3, h2, h3, by rw [hx]⟩

/-! ### Run starts -/

/-- The start of a run: one block after the other becomes FILLING with the next slot reserved for it (R21, R122). -/
theorem reserve_eq (l : List (BlockId × Fin 8)) (s : Part) : reserve l s =
    l.foldl (fun t x => { setState x.1 .filling t with fill.slots := t.fill.slots.set x.2 (.reserved x.1) }) s := by
  induction l generalizing s with
  | nil => rfl
  | cons x l ih =>
    obtain ⟨id, i⟩ := x
    rw [List.foldl_cons, ← ih]
    have h : (setState id .filling s).fill = s.fill := by
      unfold setState
      split <;> rfl
    show reserve l (setSlot i (.reserved id) (setState id .filling s)) = reserve l _
    congr 1
    unfold setSlot
    rw [h]
    dsimp only
    rw [h]

/-- A background run goes on with the block next to the last one taken, as far as that goes and at most `n` blocks (R125). -/
theorem extendRun_spec (n : Nat) (last : BlockId) (l : List BlockId) :
    let follows (a b : BlockId) := b.region = a.region ∧ b.index = a.index + 1
    let run := extendRun n last l
    run <+: l ∧ run.length ≤ n ∧ (∀ a, run[0]? = some a → follows last a) ∧
    (∀ j a b, run[j]? = some a → run[j + 1]? = some b → follows a b) ∧
    (∀ a b, run.getLast?.getD last = a → l[run.length]? = some b → follows a b → n ≤ run.length) := by
  dsimp only
  induction n generalizing last l with
  | zero => simp [extendRun]
  | succ n ih =>
    cases l with
    | nil => simp [extendRun]
    | cons x l =>
      unfold extendRun
      split
      · rename_i h
        obtain ⟨a1, a2, a3, a4, a5⟩ := ih x l
        refine ⟨by simpa using a1, by simpa using a2, ?_, ?_, ?_⟩
        · intro a ha
          simp only [List.getElem?_cons_zero, Option.some.injEq] at ha
          rw [← ha]
          exact h
        · intro j a b ha hb
          cases j with
          | zero =>
            simp only [List.getElem?_cons_zero, Option.some.injEq] at ha
            rw [← ha]
            exact a3 b (by simpa using hb)
          | succ j => exact a4 j a b (by simpa using ha) (by simpa using hb)
        · intro a b ha hb hf
          have h5 := a5 a b (by rw [← ha]; cases extendRun n x l <;> simp [List.getLast?_cons])
            (by simpa using hb) hf
          simpa using h5
      · rename_i h
        refine ⟨by simp, by simp, by simp, by simp, ?_⟩
        intro a b ha hb hf
        simp only [List.getLast?_nil, Option.getD_none, List.length_nil, List.getElem?_cons_zero, Option.some.injEq] at ha hb
        subst ha hb
        exact absurd hf h

end Sys2Proof.Machine
end

