-- ==== Sys2Proof/Laws/Homes.lean ====
section
/-! SUPPORT. A list sorted by home holds what it was given, lowest home first. -/

namespace Sys2Proof.Machine

variable {α : Type}

theorem insertHome_perm (key : α → Nat) (x : α) (l : List α) : (insertHome key x l).Perm (x :: l) := by
  induction l with
  | nil => exact .refl _
  | cons y ys ih =>
    unfold insertHome
    split
    · exact (ih.cons y).trans (.swap _ _ _)
    · exact .refl _

theorem sortHomes_perm (key : α → Nat) (l : List α) : (sortHomes key l).Perm l := by
  have h : ∀ l acc : List α, (l.foldl (fun acc x => insertHome key x acc) acc).Perm (l ++ acc) := by
    intro l
    induction l with
    | nil => exact fun acc => .refl _
    | cons x l ih =>
      intro acc
      rw [List.foldl_cons]
      exact (ih _).trans (((insertHome_perm key x acc).append_left l).trans List.perm_middle)
  simpa [sortHomes] using h l []

theorem insertHome_sorted (key : α → Nat) (x : α) (l : List α) (h : l.Pairwise fun a b => key a ≤ key b) :
    (insertHome key x l).Pairwise fun a b => key a ≤ key b := by
  induction l with
  | nil => simp [insertHome]
  | cons y ys ih =>
    rw [List.pairwise_cons] at h
    unfold insertHome
    split
    · rw [List.pairwise_cons]
      refine ⟨fun z hz => ?_, ih h.2⟩
      rcases List.mem_cons.1 ((insertHome_perm key x ys).mem_iff.1 hz) with rfl | hz
      · assumption
      · exact h.1 z hz
    · rw [List.pairwise_cons, List.pairwise_cons]
      refine ⟨fun z hz => ?_, h⟩
      rcases List.mem_cons.1 hz with rfl | hz
      · omega
      · have := h.1 z hz
        omega

theorem sortHomes_sorted (key : α → Nat) (l : List α) : (sortHomes key l).Pairwise fun a b => key a ≤ key b := by
  have h : ∀ l acc : List α, acc.Pairwise (fun a b => key a ≤ key b) →
      (l.foldl (fun acc x => insertHome key x acc) acc).Pairwise fun a b => key a ≤ key b := by
    intro l
    induction l with
    | nil => exact fun acc h => h
    | cons x l ih => exact fun acc h => ih _ (insertHome_sorted _ _ _ h)
  exact h l [] .nil

/-- The homes that follow a home are those next to it, up to the first gap or the limit (R85). -/
theorem followers_spec (n last : Nat) (l : List Nat) :
    followers n last l ≤ n ∧ (∀ j, j < followers n last l → l[j]? = some (last + 1 + j)) ∧
      (followers n last l < n → l[followers n last l]? ≠ some (last + 1 + followers n last l)) := by
  induction n generalizing last l with
  | zero => simp [followers]
  | succ n ih =>
    cases l with
    | nil => simp [followers]
    | cons h rest =>
      unfold followers
      split
      · rename_i hh
        obtain ⟨a, b, c⟩ := ih h rest
        refine ⟨by omega, fun j hj => ?_, fun hj => ?_⟩
        · cases j with
          | zero => simp [hh]
          | succ j =>
            rw [List.getElem?_cons_succ, b j (by omega)]
            congr 1
            omega
        · rw [List.getElem?_cons_succ]
          intro e
          apply c (by omega)
          rw [e]
          congr 1
          omega
      · rename_i hh
        refine ⟨by omega, fun j hj => by omega, fun _ => ?_⟩
        simp only [List.getElem?_cons_zero, Nat.add_zero, ne_eq, Option.some.injEq]
        exact hh

end Sys2Proof.Machine
end

