-- ==== Sys2Proof/Laws/Link.lean ====
section
/-! SUPPORT. What answers and bursts that pass or fail, given-up requests, a grant and a claim on all members do to the rest of the part. -/

namespace Sys2Proof.Machine

/-- An answer that passes every check of R148 is no error. -/
theorem answerError_of_passed {f : AnswerFrame} {c : ReqCode} (h1 : answerCheck f.code f.status f.arg = f.check)
    (h2 : f.code = c.toByte) (h3 : f.stop = true) (h4 : (answerStatus f.status).isSome) : answerError c f = none := by
  have h : (answerStatus f.status).isNone = false := by
    cases h : answerStatus f.status <;> simp_all
  unfold answerError
  rw [if_neg (by simp [h1]), if_neg (by simp [h2]), if_neg (by simp [h3]), h]
  simp

/-- The class of an answer that fails a check of R148 or R206, the first check that fails deciding. -/
theorem answerError_of_failed (c : ReqCode) (f : AnswerFrame) :
    (answerCheck f.code f.status f.arg ≠ f.check → answerError c f = some .answerCheck) ∧
    (answerCheck f.code f.status f.arg = f.check → f.code ≠ c.toByte → answerError c f = some .echoMismatch) ∧
    (answerCheck f.code f.status f.arg = f.check → f.code = c.toByte → f.stop = false ∨ 4 < f.status.toNat →
      answerError c f = some .framing) := by
  unfold answerError
  refine ⟨fun h => if_pos h, fun h1 h2 => ?_, fun h1 h2 h3 => ?_⟩
  · rw [if_neg (by simp [h1]), if_pos h2]
  · rw [if_neg (by simp [h1]), if_neg (by simp [h2])]
    rcases h3 with h | h
    · rw [if_pos (by simp [h])]
    · have : (answerStatus f.status).isNone = true := by
        unfold answerStatus
        split <;> first | omega | rfl
      rw [this]
      simp

/-- The class of a read burst that fails (R149, R206, log 50). -/
theorem burstError_of_failed (b : ReadBurst) :
    (b.blank ≠ 0 ∧ b.blank ≠ 1 ∨ transferCheck [b.blank] b.payload b.tag ≠ b.check → burstError b = some .answerCheck) ∧
    (b.blank = 0 ∨ b.blank = 1 → transferCheck [b.blank] b.payload b.tag = b.check → b.stop ≠ 0xF →
      burstError b = some .framing) := by
  unfold burstError
  exact ⟨fun h => if_pos h,
    fun h1 h2 h3 => (if_neg (by rcases h1 with h | h <;> simp [h, ← h2])).trans (if_pos h3)⟩

/-- A read burst of a single-block request that passes its checks ends the request DONE (R149, R153). -/
theorem readBurstEnd_of_passed (p : Part) (rest : List Instr) (q : LinkReq) (b : ReadBurst)
    (h1 : p.link.phase = .readBurst) (h2 : p.link.current = some q) (h3 : q.code = .identify ∨ q.code = .readBlock)
    (hb : b.blank = 0 ∨ b.blank = 1) (ht : transferCheck [b.blank] b.payload b.tag = b.check) (hs : b.stop = 0xF) :
    exec (.readBurstEnd b) ⟨p, rest⟩ = .next ⟨settle (deliver q .done (handBurst q b (endRequest p))), rest⟩ := by
  have hbe : burstError b = none := by
    unfold burstError
    exact (if_neg (by rcases hb with h | h <;> simp [h, ← ht])).trans (if_neg (by simp [hs]))
  simp only [exec, execReadBurstEnd, onPart, h1, burstEnd, hbe, burstPassed, h2]
  rw [if_neg (by rcases h3 with h | h <;> simp [h, ReqCode.isRun])]

theorem boundary_of {s : Part} {q : LinkReq} (h : s.link.current = some q) : boundary s =
    if q.withdrawn then sendEndRun .withdrawn s
    else if q.count ≤ q.pos then sendEndRun .last s
    else if q.code.isWrite && !writeAllowed s q then sendEndRun .abandoned s
    else if yieldCause s q then sendEndRun .yield s
    else if q.code.isWrite then sendBurst q s
    else { s with link.phase := .readAck, link.wait := none, out.link := s.out.link ++ [.readAck] } := by
  unfold boundary
  rw [h]

/-- The outcomes WITHDRAWN and ABANDONED change nothing at their requester (R160, R161). -/
theorem deliver_of_given_up (q : LinkReq) (p : Part) : deliver q .withdrawn p = p ∧ deliver q .abandoned p = p := by
  unfold deliver
  constructor <;> (split; rfl; cases q.requester <;> rfl)

/-- A burst is not handed to a requester who withdrew the read or discards its outcome (R116, R160). -/
theorem handBurst_of_given_up {q : LinkReq} (b : ReadBurst) (s : Part) (h : q.withdrawn = true ∨ q.discard = true) :
    handBurst q b s = s := by
  unfold handBurst
  rw [if_pos (by rcases h with h | h <;> simp [h])]

/-- A transport error ends a withdrawn request, and a write no longer allowed (R160, log 19). -/
theorem attemptError_of_given_up {q : LinkReq} {s : Part} (c : ErrClass) (hq : s.link.current = some q)
    (h : q.withdrawn = true ∨ q.code.isWrite = true ∧ writeAllowed s q = false) : attemptError c s = endRequest s := by
  have hf : ∀ o, finish o s = deliver q o (endRequest s) := by
    intro o
    unfold finish
    rw [hq]
  unfold attemptError
  rw [hq]
  dsimp only
  by_cases hw : q.withdrawn = true
  · rw [if_pos hw, hf, (deliver_of_given_up q _).1]
  · have h2 := h.resolve_left hw
    rw [if_neg hw, if_pos (by simp [h2]), hf, (deliver_of_given_up q _).2]

/-- The end of a request with an event posted before it. -/
theorem finish_post {q : LinkReq} {s : Part} (o : LinkOutcome) (e : Event) (h : s.link.current = some q) :
    finish o (post e s) = deliver q o { endRequest s with evq := s.evq.post e s.now } := by
  unfold finish
  rw [post_link, h]
  rfl

/-- A burst of a read run that passes its checks is handed to its requester, and the run goes on (R149, R154). -/
theorem readBurstEnd_of_run (p : Part) (rest : List Instr) (q : LinkReq) (b : ReadBurst)
    (h1 : p.link.phase = .readBurst) (h2 : p.link.current = some q) (h3 : q.code = .readRun)
    (hb : b.blank = 0 ∨ b.blank = 1) (ht : transferCheck [b.blank] b.payload b.tag = b.check) (hs : b.stop = 0xF) :
    exec (.readBurstEnd b) ⟨p, rest⟩ =
      .next ⟨settle (boundary (handBurst q b { p with link.current := some { q with pos := q.pos + 1 } })), rest⟩ := by
  have hbe : burstError b = none := by
    unfold burstError
    exact (if_neg (by rcases hb with h | h <;> simp [h, ← ht])).trans (if_neg (by simp [hs]))
  have ha : advancePos p = { p with link.current := some { q with pos := q.pos + 1 } } := by
    unfold advancePos
    rw [h2]
    rfl
  have hx : burstEnd b p = boundary (handBurst q b { p with link.current := some { q with pos := q.pos + 1 } }) := by
    unfold burstEnd
    rw [hbe]
    unfold burstPassed
    rw [h2]
    dsimp only
    rw [if_pos (by rw [h3]; rfl), ha]
  simp only [exec, execReadBurstEnd, onPart, h1, hx]

/-- A background read run after a burst: its last burst or a yield cause brings END RUN, else the next burst (R154, R164). -/
theorem boundary_of_background {s : Part} {q : LinkReq} (h : s.link.current = some q) (hw : q.withdrawn = false)
    (hc : q.code = .readRun) (hq : q.requester = .background) : boundary s =
    if q.count ≤ q.pos then sendEndRun .last s
    else if demandReady s = true ∨ s.pwr.freeze = true then sendEndRun .yield s
    else { s with link.phase := .readAck, link.wait := none, out.link := s.out.link ++ [.readAck] } := by
  rw [boundary_of h, if_neg (by simp [hw])]
  have hy : yieldCause s q = (demandReady s || s.pwr.freeze) := by
    unfold yieldCause
    rw [hq, hc]
  have hn : q.code.isWrite = false := by rw [hc]; rfl
  rw [hy, hn]
  simp only [Bool.false_and, Bool.false_eq_true, if_false, Bool.or_eq_true]

theorem grant_of {s : Part} {q : LinkReq} (h : q.code ≠ .identify) : grant q s = { s with
    link.current := some q
    link.retries := 0
    link.state := if s.link.state = .ready then .request else s.link.state
    link.phase := .frame .request
    link.wait := none
    out.link := s.out.link ++ [.frame q.code q.arg] } := by
  simp [grant, sendFrame, h]

/-! ### Claims on all members -/

theorem commitMember_pathOnly (s : Part) (e : Staged) :
    PathOnly s (commitMember s e) ∧ (commitMember s e).evq = s.evq := by
  unfold commitMember
  split
  · exact ⟨rfl, rfl⟩
  · split <;> exact ⟨rfl, rfl⟩

theorem commitClaim_pathOnly (s : Part) : PathOnly s (commitClaim s) :=
  foldl_pathOnly _ (fun s e => (commitMember_pathOnly s e).1) _ s

theorem commitClaim_evq (s : Part) : (commitClaim s).evq = s.evq := by
  unfold commitClaim
  generalize s.eng.staging = l
  induction l generalizing s with
  | nil => rfl
  | cons a l ih => rw [List.foldl_cons, ih]; exact (commitMember_pathOnly s a).2

/-- The abort claim changes the block table only. -/
theorem abortClaim_keeps (s : Part) : abortClaim s = { s with tbl := (abortClaim s).tbl } := by
  have h : ∀ (l : List Staged) (t : Part), l.foldl (fun t e => setState e.id (.dirty (e.entry s.now).joined) t) t =
      { t with tbl := (l.foldl (fun t e => setState e.id (.dirty (e.entry s.now).joined) t) t).tbl } := by
    intro l
    induction l with
    | nil => exact fun t => rfl
    | cons a l ih =>
      intro t
      have h1 : setState a.id (.dirty (a.entry s.now).joined) t =
          { t with tbl := (setState a.id (.dirty (a.entry s.now).joined) t).tbl } := by
        unfold setState
        split <;> rfl
      rw [List.foldl_cons, ih, h1]
  unfold abortClaim
  dsimp only
  rw [h]

/-- The mailbox takes no part in the next capture start. -/
theorem nextCapture_mbox (s : Part) (m : Mailbox) : nextCapture { s with mbox := m } = { nextCapture s with mbox := m } := by
  have hl : leading { s with mbox := m } = leading s := rfl
  have he : endCapture { s with mbox := m } = { endCapture s with mbox := m } := by
    unfold endCapture enterIdle pauseAt
    dsimp only
    split
    · split <;> rfl
    · rfl
  unfold nextCapture
  dsimp only
  rw [hl]
  split
  · rfl
  · split
    · split
      · rename_i e _
        unfold captureEntry
        have hr : recOf { s with mbox := m } e.id = recOf s e.id := rfl
        rw [hr]
        rfl
      · exact he
    · exact he

end Sys2Proof.Machine
end

