-- ==== Sys2Proof/Laws/Mailbox.lean ====
section
/-! SUPPORT. What the bytes of a command's transaction leave in the mailbox, and how fields are read back from bytes. -/

namespace Sys2Proof.Machine

/-! ### Fields of bytes -/

theorem leBytes_length (n v : Nat) : (leBytes n v).length = n := by
  induction n generalizing v with
  | zero => rfl
  | succ n ih => simp [leBytes, ih]

/-- `n` bytes of a number, read back, are the number modulo 2^(8n). -/
theorem ofLe_leBytes (n v : Nat) : ofLe (leBytes n v) = v % 256 ^ n := by
  induction n generalizing v with
  | zero => simp [leBytes, ofLe, Nat.mod_one]
  | succ n ih =>
    have h : (BitVec.ofNat 8 v).toNat = v % 256 := BitVec.toNat_ofNat v 8
    rw [leBytes, ofLe, ih, h, Nat.pow_succ', Nat.mod_mul]

/-- A field is read back from where it was written. -/
theorem field_append (a b c : Payload) (off n : Nat) (ha : a.length = off) (hb : b.length = n) :
    field (a ++ (b ++ c)) off n = ofLe b := by
  subst ha hb
  simp [field]

/-! ### A command's transaction -/

/-- The argument bytes of a transaction, from argument byte `k` on. -/
theorem writeBytes_args (args : List Byte) : ∀ (k : Nat) (m : Mailbox), m.offset = BitVec.ofNat 8 (k + 1) → k + args.length ≤ 15 →
    writeBytes args m = { m with
      offset := BitVec.ofNat 8 (k + args.length + 1)
      args := Vector.ofFn fun i => if k ≤ i.val then (args[i.val - k]?).getD m.args[i] else m.args[i] } := by
  induction args with
  | nil =>
    intro k m h _
    have : (Vector.ofFn fun i : Fin 15 => if k ≤ i.val then (([] : List Byte)[i.val - k]?).getD m.args[i] else m.args[i]) = m.args := by
      apply Vector.ext
      intro i hi
      simp
    rw [this]
    show m = _
    rw [show BitVec.ofNat 8 (k + ([] : List Byte).length + 1) = m.offset from h.symm]
  | cons b args ih =>
    intro k m h hl
    have hk : k < 15 := by
      have := List.length_cons (a := b) (as := args)
      omega
    have ho : m.offset.toNat = k + 1 := by
      rw [h, BitVec.toNat_ofNat]
      exact Nat.mod_eq_of_lt (by omega)
    have hw : writeByte m.offset b m = { m with args := m.args.set k b } := by
      unfold writeByte
      rw [if_neg (by omega)]
      simp only [ho, Nat.add_sub_cancel, hk, dif_pos]
    have hn : m.offset + 1 = BitVec.ofNat 8 (k + 1 + 1) := by
      rw [h]
      exact (BitVec.ofNat_add _ _).symm
    unfold writeBytes
    rw [hw, ih (k + 1) _ hn (by simp at hl; omega)]
    have ha : (Vector.ofFn fun i : Fin 15 => if k + 1 ≤ i.val then (args[i.val - (k + 1)]?).getD (m.args.set k b)[i]
        else (m.args.set k b)[i]) =
        Vector.ofFn fun i : Fin 15 => if k ≤ i.val then ((b :: args)[i.val - k]?).getD m.args[i] else m.args[i] := by
      apply Vector.ext
      intro i hi
      simp only [Vector.getElem_ofFn, Fin.getElem_fin]
      by_cases h1 : k + 1 ≤ i
      · rw [if_pos h1, if_pos (by omega), Vector.getElem_set_ne (h := by omega)]
        rw [show i - k = (i - (k + 1)) + 1 by omega, List.getElem?_cons_succ]
      · rw [if_neg h1]
        by_cases h2 : k = i
        · subst h2
          rw [if_pos (Nat.le_refl _)]
          simp
        · rw [if_neg (by omega), Vector.getElem_set_ne (h := h2)]
    rw [ha, show k + 1 + args.length + 1 = k + (b :: args).length + 1 by simp; omega]

/-- A command's own transaction, of at most 15 argument bytes, leaves the mailbox as `Mailbox.taken` says. -/
theorem newCommand_writeTransaction (code : Byte) (args : List Byte) (h : args.length ≤ 15) (p : Part) :
    newCommand { p with mbox := writeTransaction (0#8 :: code :: args) p.mbox } =
      { p with mbox := p.mbox.taken code args } := by
  have hw : writeTransaction (0#8 :: code :: args) p.mbox =
      writeBytes args { p.mbox with code := code, offset := 1#8 } := rfl
  rw [hw, writeBytes_args args 0 _ rfl (by omega)]
  simp [newCommand, Mailbox.taken]

/-- A management command is taken, unless RESET ENGINE is completing. -/
theorem takeCommand_of {p : Part} (hc : p.mbox.completing = false) (code : Byte) (args : List Byte) (h : args.length ≤ 15)
    (effect : Part → Part) : takeCommand code args effect p = effect { p with mbox := p.mbox.taken code args } := by
  unfold takeCommand orHold
  rw [if_neg (by rw [hc]; exact Bool.false_ne_true)]
  exact congrArg effect (newCommand_writeTransaction code args h p)

/-- While RESET ENGINE is completing the transaction is held. -/
theorem takeCommand_held {p : Part} (hc : p.mbox.completing = true) (code : Byte) (args : List Byte) (effect : Part → Part) :
    takeCommand code args effect p =
      { p with mbox := { p.mbox with sclHeld := p.mbox.sclHeld ++ [0#8 :: code :: args] } } := by
  unfold takeCommand orHold
  rw [if_pos hc]

/-! ### The command code and the arguments of a transaction -/

theorem writesCode_iff (bytes : List Byte) :
    ∀ off, writesCode bytes off = true ↔ ∃ i, i < bytes.length ∧ off + BitVec.ofNat 8 i = 0 := by
  have hs : ∀ (off : Byte) (i : Nat), off + 1 + BitVec.ofNat 8 i = off + BitVec.ofNat 8 (i + 1) := by
    intro off i
    rw [BitVec.add_assoc]
    congr 1
    rw [BitVec.add_comm, BitVec.ofNat_add]
    rfl
  induction bytes with
  | nil => intro off; simp [writesCode]
  | cons b bs ih =>
    intro off
    simp only [writesCode, Bool.or_eq_true, beq_iff_eq, ih, List.length_cons, hs]
    constructor
    · rintro (h | ⟨i, hi, h⟩)
      · exact ⟨0, by omega, by simp [h]⟩
      · exact ⟨i + 1, by omega, h⟩
    · rintro ⟨i, hi, h⟩
      cases i with
      | zero => exact Or.inl (by simpa using h)
      | succ i => exact Or.inr ⟨i, by omega, h⟩

/-- An argument field is the number its bytes were written as. -/
theorem argField_taken (p : Part) (code : Byte) {args : List Byte} (a b c : List Byte) (k n : Nat)
    (h : args = a ++ (b ++ c)) (ha : a.length + 1 = k) (hb : b.length = n) (h15 : a.length + b.length ≤ 15) :
    argField { p with mbox := p.mbox.taken code args } k n = ofLe b := by
  subst h
  unfold argField field
  refine congrArg ofLe (List.ext_getElem? fun i => ?_)
  simp only [List.getElem?_take, List.getElem?_drop, Mailbox.taken]
  by_cases hi : i < n
  · rw [if_pos hi, List.getElem?_eq_getElem (by simp; omega)]
    simp only [Vector.getElem_toList, Vector.getElem_ofFn]
    rw [List.getElem?_append_right (by omega), List.getElem?_append_left (by omega)]
    rw [show k - 1 + i - a.length = i by omega, List.getElem?_eq_getElem (by omega)]
    simp
  · rw [if_neg hi, List.getElem?_eq_none (by omega)]

theorem argByte_taken (p : Part) (code : Byte) {args : List Byte} (a : List Byte) (b : Byte) (c : List Byte) (k : Nat)
    (h : args = a ++ b :: c) (ha : a.length + 1 = k) (h15 : a.length + 1 ≤ 15) :
    argByte { p with mbox := p.mbox.taken code args } k = b := by
  unfold argByte
  rw [argField_taken p code a [b] c k 1 h ha rfl h15]
  simp [ofLe]

theorem ofNat_ofLe_four (x : U32) : BitVec.ofNat 32 (ofLe (leBytes 4 x.toNat)) = x := by
  rw [ofLe_leBytes]
  apply BitVec.eq_of_toNat_eq
  simp
  omega

theorem ofNat_ofLe_two (x : U16) : BitVec.ofNat 16 (ofLe (leBytes 2 x.toNat)) = x := by
  rw [ofLe_leBytes]
  apply BitVec.eq_of_toNat_eq
  simp
  omega

/-- A code that names no command is refused (R203). -/
theorem runCommand_of_unknown (s : Part) (h : s.mbox.code.toNat = 0 ∨ 20 ≤ s.mbox.code.toNat) :
    runCommand s = refuse .badCommand s := by
  unfold runCommand
  generalize s.mbox.code.toNat = n at *
  rcases h with h | h
  · subst h
    rfl
  · obtain ⟨m, rfl⟩ := Nat.exists_eq_add_of_le h
    rw [Nat.add_comm]
    rfl

/-- A whole command's bytes written from offset 0 run the command their code names. -/
theorem windowWrite_command (p : Part) (rest : List Instr) (code : Byte) (args : List Byte) (hl : args.length ≤ 15)
    (hc : p.mbox.completing = false) : exec (.windowWrite p.mbox.address (0#8 :: code :: args)) ⟨p, rest⟩ =
      .next ⟨runCommand { p with mbox := p.mbox.taken code args }, rest⟩ := by
  simp only [exec, execWindowWrite, onPart, orHold, hc, windowTransaction]
  rw [if_pos trivial, if_neg (by simp), if_pos (by simp [writesCode])]
  have h := newCommand_writeTransaction code args hl p
  rw [← h]

/-! ### Operands of commands -/

theorem regionArg_of_lt (b : Byte) (r : Fin 8) (h : b.toNat = r.val) : regionArg b = some r := by
  unfold regionArg
  rw [dif_pos (by omega)]
  exact congrArg some (Fin.ext h)

theorem regionArg_of_ge (b : Byte) (h : 8 ≤ b.toNat) : regionArg b = none := by
  unfold regionArg
  rw [dif_neg (by omega)]

theorem committedStaged_iff (s : Part) (r : Fin 8) : committedStaged s r = true ↔
    ((∃ e ∈ s.eng.staging, e.id.region = r) ∧ ∀ batch, s.eng.batch = some batch → batch.committed = true) := by
  unfold committedStaged
  rw [Bool.and_eq_true, List.any_eq_true, and_comm]
  simp only [beq_iff_eq]
  refine and_congr_right fun _ => ?_
  split <;> rename_i h <;> simp [h]

end Sys2Proof.Machine
end

