-- ==== Sys2Proof/Laws/Status.lean ====
section
/-! SUPPORT. What a change of module status, an abort and a reset of the checkpoint engine leave alone. -/

namespace Sys2Proof.Machine

/-- A change to another status: the event, the regions, and a YIELDED run away from READY. -/
theorem changeStatus_of_new {new : ModStatus} {s : Part} (d : Option StatusDetail) (h : new ≠ s.pres.status) :
    changeStatus new d s =
      (let t := evalAll { s with
        pres.status := new
        evq := s.evq.post (.moduleStatus new d) s.now
        eng := if new = .none then { s.eng with journalHold := false, retryTimer := none } else s.eng }
      if new = .ready then t else failYielded t) := by
  unfold changeStatus
  rw [if_neg h]
  by_cases hn : new = .none
  · subst hn; rfl
  · simp only [hn, if_false]; rfl

/-- A change of status changes the status, the hold and the retry timer at NONE, the regions, and what the path unit changes. -/
theorem changeStatus_keeps (new : ModStatus) (d : Option StatusDetail) (s : Part) :
    let t := changeStatus new d s
    t = { s with
      tbl := t.tbl, path := t.path, fill := t.fill, evq := t.evq, out := t.out, regs := t.regs, eng := t.eng
      pres.status := new } ∧
    t.eng = { s.eng with journalHold := t.eng.journalHold, retryTimer := t.eng.retryTimer } := by
  intro t
  by_cases h : new = s.pres.status
  · have ht : t = s := by simp only [t, changeStatus, if_pos h]
    rw [ht, h]
    exact ⟨rfl, rfl⟩
  · obtain ⟨x, hx⟩ : ∃ x : Part, x = { s with
        pres.status := new
        evq := s.evq.post (.moduleStatus new d) s.now
        eng := if new = .none then { s.eng with journalHold := false, retryTimer := none } else s.eng } := ⟨_, rfl⟩
    have h0 : t = if new = .ready then evalAll x else failYielded (evalAll x) := by
      rw [hx]; exact changeStatus_of_new d h
    have e : PathOnly (evalAll x) t := by
      rw [h0]
      split
      · exact .refl _
      · exact failYielded_pathOnly _
    unfold PathOnly at e
    rw [evalAll_keeps x] at e
    have tr : t.regs = (evalAll x).regs := by rw [e]
    have te : t.eng = x.eng := by rw [e]
    constructor
    · conv_lhs => rw [e]
      rw [tr, te, hx]
    · rw [te, hx]
      dsimp only
      split <;> rfl

theorem changeStatus_state (new : ModStatus) (d : Option StatusDetail) (s : Part) :
    (changeStatus new d s).eng.state = s.eng.state := by rw [(changeStatus_keeps new d s).2]

theorem changeStatus_recovery (new : ModStatus) (d : Option StatusDetail) (s : Part) :
    (changeStatus new d s).eng.recovery = s.eng.recovery := by rw [(changeStatus_keeps new d s).2]

theorem changeStatus_mbox (new : ModStatus) (d : Option StatusDetail) (s : Part) :
    (changeStatus new d s).mbox = s.mbox := by rw [(changeStatus_keeps new d s).1]

theorem changeStatus_status (new : ModStatus) (d : Option StatusDetail) (s : Part) :
    (changeStatus new d s).pres.status = new := by rw [(changeStatus_keeps new d s).1]

/-- The module becomes READY (R177): its serial is remembered, MODULE_STATUS carries the serial detail, and the regions follow. -/
theorem becomeReady_of_new {s : Part} {i : Identity} (h : s.pres.identity = some i) (hs : s.pres.status ≠ .ready) :
    becomeReady s = evalAll { s with
      pres.status := .ready
      pres.serial := some i.serial
      evq := s.evq.post (.moduleStatus .ready (some (serialDetail s))) s.now } := by
  obtain ⟨x, hx⟩ : ∃ x : Part, x = { s with pres.serial := some i.serial } := ⟨_, rfl⟩
  have hb : becomeReady s = changeStatus .ready (some (serialDetail s)) x := by
    unfold becomeReady
    rw [h, hx]
  have hn : ModStatus.ready ≠ x.pres.status := by
    rw [hx]
    exact fun e => hs e.symm
  rw [hb, changeStatus_of_new _ hn]
  dsimp only
  rw [if_pos rfl, if_neg (by decide), hx]

/-- The serial detail of READY, by the serial remembered. -/
theorem serialDetail_of {s : Part} {i : Identity} (h : s.pres.identity = some i) : serialDetail s =
    match s.pres.serial with
    | none => .first
    | some old => if i.serial = old then .sameSerial else .newSerial := by
  unfold serialDetail
  cases s.pres.serial with
  | none => rfl
  | some old => simp only [h]

/-- An abort: the abort claim is made with the capture lane emptied, staging and the batch are gone, and BATCH_ABORTED is posted
when there were members. -/
theorem abortBatch_eq (why : AbortReason) (s : Part) :
    abortBatch why s =
      (let v := abortClaim { s with path.captureLane := [] }
      { v with
        eng.staging := [], eng.batch := none
        evq := if s.eng.staging = [] then v.evq
          else v.evq.post (.batchAborted (s.eng.batch.bind fun b => b.number) why) v.now }) := by
  unfold abortBatch
  by_cases h : s.eng.staging = []
  · have hl : s.eng.staging.length = 0 := by rw [h]; rfl
    dsimp only
    rw [if_pos hl]
    simp only [h, if_true]
    rfl
  · have hl : ¬ s.eng.staging.length = 0 := by simpa using h
    dsimp only
    rw [if_neg hl]
    simp only [h, if_false]
    rfl

theorem abortBatch_mbox (why : AbortReason) (s : Part) : (abortBatch why s).mbox = s.mbox := by
  rw [abortBatch_eq, abortClaim_keeps]

/-- RESET ENGINE at the checkpoint engine does not touch the mailbox. -/
theorem engineReset_mbox (s : Part) : (engineReset s).mbox = s.mbox := by
  unfold engineReset
  dsimp only
  split
  · rw [changeStatus_mbox]
    unfold clearEngine
    dsimp only
    split
    · rw [abortBatch_mbox]; rfl
    · rfl
  · unfold clearEngine
    dsimp only
    split
    · rw [abortBatch_mbox]; rfl
    · rfl

end Sys2Proof.Machine
end

