-- ==== Sys2Proof/Laws/Recovery.lean ====
section
/-! SUPPORT. What the end of a recovery, a stop of its replay and the settling of a batch in doubt do. -/

namespace Sys2Proof.Machine

/-- Leaving recovery changes the checkpoint engine and posts events. -/
theorem leaveRecovery_keeps (s : Part) :
    leaveRecovery s = { s with eng := (leaveRecovery s).eng, evq := (leaveRecovery s).evq } := by
  unfold leaveRecovery
  dsimp only
  by_cases hu : unsettled s = true
  · rw [if_pos hu]; rfl
  · rw [if_neg hu]
    by_cases hp : recoverPaused s = true
    · rw [if_pos hp]; rfl
    · rw [if_neg hp]
      unfold enterIdle dropBatch
      dsimp only
      by_cases hr : s.eng.pauseReq = true
      · rw [if_pos hr]; rfl
      · rw [if_neg hr]; rfl

/-- A stop of the replay: the hold, staging emptied, the request in flight given up, and JOURNAL_CORRUPT. -/
theorem journalCorrupt_eq (cause : CorruptCause) (s : Part) :
    journalCorrupt cause s = leaveRecovery { s with
      eng.journalHold := true
      eng.staging := []
      eng.batch := none
      link.current := s.link.current.map fun q => if q.requester = .recovery then { q with discard := true } else q
      evq := s.evq.post (.journalCorrupt ((recoveredBatch s).getD 0) cause) s.now } := rfl

theorem journalCorrupt_link (cause : CorruptCause) (s : Part) :
    (journalCorrupt cause s).link = (disown .recovery s).link := by
  rw [journalCorrupt_eq, leaveRecovery_keeps]
  rfl

/-- The newest record names the batch in doubt: its commit point within recovery, then its own homes (R84, R110). -/
theorem settleDoubt_of_named {s : Part} {slot : StatusSlot} {r : StatusRecord} (h : namesBatch s r = true) :
    settleDoubt (some (slot, r)) s = setStep (.homes 0) (commitPoint slot r.seq { s with
      eng.recovery := s.eng.recovery.map fun x => { x with unsettled := false, confirmed := true } }) := by
  unfold settleDoubt
  dsimp only
  rw [h]

/-- No valid record names it: an abort that is not counted, then the ordinary course (R110). -/
theorem settleDoubt_of_not_named {s : Part} {newest : Option (StatusSlot × StatusRecord)}
    (h : ∀ slot r, newest = some (slot, r) → namesBatch s r = false) :
    settleDoubt newest s = followRecord newest (abortBatch .verify { s with
      eng.recovery := s.eng.recovery.map fun x => { x with unsettled := false, confirmed := false } }) := by
  cases newest with
  | none => rfl
  | some x =>
    obtain ⟨slot, r⟩ := x
    have hr := h slot r rfl
    unfold settleDoubt
    dsimp only
    rw [hr]

end Sys2Proof.Machine
end

