-- ==== Sys2Proof/Tests/Slice0.lean ====
section
/-! SUPPORT. Small tests: well-formedness refuses each kind of ill-formed operand, and each statement's hypotheses are met
together by a small part, at the boundary values of its clauses. -/

namespace Sys2Proof.Tests

set_option Elab.async false

open Sys2Proof Sys2Proof.Machine

/-! ### Small parts -/

/-- A part with one region: region 0 at RAM 1000h and home 67, holding the given records. -/
def withRecs (rs : RegionState) (recs : List BlockRec) : Part :=
  { Part.reset with
    regs := Part.reset.regs.set 0 ⟨rs, 0x1000#32, recs.length, 67⟩
    tbl.recs := Part.reset.tbl.recs.set 0 recs
    now := 5 }

/-- The same with one block and no mark. -/
def withBlock (rs : RegionState) (st : BlockState) : Part := withRecs rs [⟨st, none⟩]

def blk : BlockId := ⟨0, 0⟩

def readAt (tag : Fin 16) (addr : U32) : HostReq := ⟨tag, false, addr, .single 4, [], []⟩

def writeAt (tag : Fin 16) (addr : U32) : HostReq :=
  ⟨tag, true, addr, .single 1, [0x5A#8], [true]⟩

/-- An access of the block of `withBlock` held since 3. -/
def heldEntry (tag : Fin 16) (write : Bool) (why : HoldReason) : Held :=
  ⟨if write then writeAt tag 0x1000#32 else readAt tag 0x1000#32, blk, why, 3⟩

/-- The part after one command. -/
def after (c : Instr) (p : Part) : Part :=
  match exec c ⟨p, []⟩ with
  | .next t => t.part
  | .fault _ => p
  | .refused _ => p

/-! ### Well-formed operands -/

theorem test_wf_refuses_a_size_of_three : (Instr.hostRequestAccepted ⟨0, false, 0#32, .single 3, [], []⟩).wf = false := by
  decide
theorem test_wf_refuses_an_unaligned_access :
    (Instr.hostRequestAccepted ⟨0, false, 2#32, .single 4, [], []⟩).wf = false := by decide
theorem test_wf_refuses_an_empty_burst : (Instr.hostRequestAccepted ⟨0, false, 0#32, .burst 0, [], []⟩).wf = false := by
  decide
theorem test_wf_refuses_a_burst_of_65 : (Instr.hostRequestAccepted ⟨0, false, 0#32, .burst 65, [], []⟩).wf = false := by
  decide
theorem test_wf_refuses_a_write_without_data :
    (Instr.hostRequestAccepted ⟨0, true, 0#32, .single 1, [], [true]⟩).wf = false := by decide
theorem test_wf_refuses_a_write_without_enables :
    (Instr.hostRequestAccepted ⟨0, true, 0#32, .single 1, [0#8], []⟩).wf = false := by decide
theorem test_wf_refuses_a_read_with_data :
    (Instr.hostRequestAccepted ⟨0, false, 0#32, .single 1, [0#8], []⟩).wf = false := by decide
theorem test_wf_refuses_an_error_with_data : (Instr.hostMemoryResponse 0 false [0#8]).wf = false := by decide
theorem test_wf_refuses_a_short_capture_read : (Instr.captureReadResponse 0 true [0#8]).wf = false := by decide
theorem test_wf_refuses_a_capture_error_with_data : (Instr.captureReadResponse 0 false [0#8]).wf = false := by decide
theorem test_wf_refuses_a_short_burst : (Instr.readBurstEnd ⟨0, [], List.replicate 16 0#8, 0#16, 0⟩).wf = false := by decide
theorem test_wf_refuses_a_burst_without_tag : (Instr.readBurstEnd ⟨0, List.replicate 256 0#8, [], 0#16, 0⟩).wf = false := by
  decide +kernel
theorem test_wf_refuses_a_known_code_as_unknown : (Instr.badCommand 0x13#8).wf = false := by decide
theorem test_wf_takes_the_first_unknown_code : (Instr.badCommand 0x14#8).wf = true := by decide
theorem test_wf_takes_a_full_line : (Instr.hostRequestAccepted ⟨15, false, 63#32, .burst 64, [], []⟩).wf = true := by decide

/-- The table gives no bits, so no word spells a command. -/
theorem test_no_word_spells_a_command : decodeTableWord 16 0x1234 = none := by decide

/-! ### The machine -/

theorem test_idle_hypotheses :
    Part.reset.now + 1 < 2 ^ 48 ∧ ({ Part.reset with now := 2 ^ 48 - 2 }).now + 1 < 2 ^ 48 ∧
      2 ^ 48 ≤ ({ Part.reset with now := 2 ^ 48 - 1 }).now + 1 := by decide

theorem test_reset_all_hypotheses : Part.reset.mbox.completing = false := by decide

theorem test_power_on_reads_the_pins :
    let t := after (.powerOnReset true true true true) (withBlock .mirrored .clean)
    t.mbox.address = 0x4F ∧ t.pres.state = .arriving false ∧ t.pres.settle = some 8 ∧ t.pwr.final = .done ∧
      t.evq.records.length = 1 ∧ t.regs[(0 : Fin 8)] = Region.reset := by decide +kernel

/-- RESET_ALL frees the tags of held accesses, keeps those of the host lane, and takes the requests that can be taken in order. -/
theorem test_reset_all_drains_the_port :
    let p := { withBlock .restoring .filling with
      path.held := [heldEntry 0 false .fill]
      path.hostLane := [readAt 1 0x1040#32]
      path.tags := (Part.reset.path.tags.set 0 .held).set 1 .lane
      path.own := Part.reset.path.own.set 5 .live
      path.port := [readAt 0 0x1000#32, readAt 1 0x1000#32, readAt 2 0x1000#32] }
    let t := after .resetAll p
    t.path.hostLane.map (fun r => r.tag) = [1, 0] ∧ t.path.port.map (fun r => r.tag) = [1, 2] ∧
      t.path.tags[(0 : Fin 16)] = .lane ∧ t.path.tags[(1 : Fin 16)] = .lane ∧ t.path.tags[(2 : Fin 16)] = .idle ∧
      t.path.own[(5 : Fin 12)] = .stale ∧ t.out.host = [⟨0, false, []⟩] := by decide +kernel

/-! ### Host accesses -/

/-- Eight accesses held. -/
def fullList : Part :=
  { withBlock .restoring .filling with
    path.held := (List.finRange 16).take 8 |>.map fun t => heldEntry t false (if t = 0 then .fill else .order)
    path.tags := Vector.ofFn fun t => if t.val < 8 then .held else .idle }

/-- One access held FILL. -/
def oneHeld : Part :=
  { withBlock .restoring .filling with
    path.held := [heldEntry 0 false .fill]
    path.tags := Part.reset.path.tags.set 0 .held }

theorem test_access_without_claim_hypotheses :
    (Quiet oneHeld ∧ oneHeld.path.tags[(0 : Fin 16)] ≠ .idle) ∧
    (Quiet fullList ∧ 8 ≤ fullList.path.held.length ∧ fullList.path.tags[(8 : Fin 16)] = .idle) ∧
    (Quiet oneHeld ∧ oneHeld.path.tags[(1 : Fin 16)] = .idle ∧ oneHeld.path.held.length < 8 ∧
      decodeAddr oneHeld 0x0FFF#32 = none ∧ decodeAddr oneHeld 0x1100#32 = none ∧
      decodeAddr oneHeld 0x10FF#32 = some blk ∧ heldEntry 0 false .fill ∈ oneHeld.path.held) := by decide +kernel

theorem test_decode_hypotheses :
    let p := withRecs .mirrored [⟨.clean, none⟩, ⟨.clean, none⟩]
    (p.regs[(0 : Fin 8)]).state ≠ .off ∧ (p.regs[(0 : Fin 8)]).ramBase.toNat ≤ 0x1000 ∧
      0x11FF < (p.regs[(0 : Fin 8)]).ramBase.toNat + 256 * (p.regs[(0 : Fin 8)]).size ∧
      (∀ q : Fin 8, q ≠ 0 → (p.regs[q]).state = .off) ∧
      decodeAddr p 0x11FF#32 = some ⟨0, 1⟩ ∧ decodeAddr p 0x1200#32 = none := by decide +kernel

/-- The hypotheses that every clause of a claim shares, for tag 1 and the first block. -/
def claimable (p : Part) (r : HostReq) : Bool :=
  decide (Quiet p) && p.path.tags[r.tag] == .idle && decide (p.path.held.length < 8) && decodeAddr p r.addr == some blk &&
    p.path.held.all fun e => e.id != blk

theorem test_read_claim_hypotheses :
    (∀ p ∈ [withBlock .restoring (.absent true), withBlock (.suspended .capacity) (.absent false),
        withBlock .restoring (.absent false), withBlock .restoring .filling, withBlock .mirrored .clean,
        withBlock .mirrored (.dirty 1), withBlock .mirrored (.capturing 0), withBlock .mirrored (.captured 63),
        withBlock .mirrored (.redirtied 1 0)], claimable p (readAt 1 0x10FC#32) = true) ∧
    (after (.hostRequestAccepted (readAt 1 0x1000#32)) (withBlock .restoring (.absent false))).fill.demand = [blk] := by
  decide +kernel

def frozen (p : Part) : Part := { p with pwr.freeze := true }

theorem test_write_claim_hypotheses :
    let clean := withBlock .mirrored .clean
    (∀ p ∈ [withBlock .restoring (.absent true), withBlock (.suspended .noModule) (.absent false), frozen clean,
        frozen (withBlock .restoring (.absent false)), withBlock .restoring (.absent false), withBlock .restoring .filling,
        { clean with tbl.budget := 0 }, clean, withBlock .mirrored (.dirty 1), withBlock .mirrored (.capturing 0),
        withBlock .mirrored (.captured 0), withBlock .mirrored (.redirtied 1 0)],
      claimable p (writeAt 1 0x1000#32) = true ∧ (recOf p blk).isSome = true) ∧
    dirtyCount clean = 0 := by decide +kernel

theorem test_write_reaches_two_watermarks :
    let p := { withBlock .mirrored .clean with tbl.thresholds := #v[0, 1, 2, 1] }
    let t := after (.hostRequestAccepted (writeAt 1 0x1000#32)) p
    t.evq.records = [.event (.watermark 1 blk) 0 5, .event (.watermark 3 blk) 1 5] ∧
      t.tbl.queue = [⟨blk, 5⟩] ∧ t.tbl.age.target = some 1005 := by decide +kernel

/-- A dirty block in the queue since 1, with the age timer where it must stand. -/
def dirtyPart : Part :=
  retime { withBlock .mirrored (.dirty 1) with tbl.queue := [⟨blk, 1⟩] }

theorem test_age_timer_hypotheses :
    ({ dirtyPart with tbl.interval := 0 }).tbl.interval = 0 ∧ eligibleQueue Part.reset = [] ∧
    (dirtyPart.tbl.interval ≠ 0 ∧ eligibleQueue dirtyPart = [⟨blk, 1⟩]) ∧
    ageTarget dirtyPart = dirtyPart.tbl.age.target ∧
    (let p := { dirtyPart with tbl.interval := 4 }
     ageTarget p = some 5 ∧ p.tbl.age.target ≠ some 5 ∧ (retime p).tbl.age = ⟨some ⟨blk, 1⟩, some 5, true⟩) ∧
    (let p := { dirtyPart with tbl.interval := 5 }
     ageTarget p = some 6 ∧ p.tbl.age.target ≠ some 6 ∧ (retime p).tbl.age = ⟨some ⟨blk, 1⟩, some 6, false⟩) ∧
    (let p := { dirtyPart with tbl.queue := [] }
     ageTarget p = none ∧ p.tbl.age.target ≠ none) := by decide +kernel

/-- A new leading entry with the old one's joined time, already past the interval (R11). -/
theorem test_age_is_reached_for_a_new_leading_entry :
    let p := retime { withRecs .mirrored [⟨.dirty 1, none⟩, ⟨.dirty 1, none⟩] with
      tbl.queue := [⟨⟨0, 0⟩, 1⟩, ⟨⟨0, 1⟩, 1⟩], tbl.interval := 9 }
    let later := { p with now := 10 }
    let next := { later with tbl.queue := [⟨⟨0, 1⟩, 1⟩] }
    p.tbl.age = ⟨some ⟨⟨0, 0⟩, 1⟩, some 10, false⟩ ∧ retime later = later ∧
    (next.tbl.age.lead ≠ some ⟨⟨0, 1⟩, 1⟩ ∧ next.tbl.age.target = some 10) ∧
    (retime next).tbl.age = ⟨some ⟨⟨0, 1⟩, 1⟩, some 10, true⟩ := by decide +kernel

theorem test_hold_limit_hypotheses :
    let p := { oneHeld with path.held := [heldEntry 0 false .fill, heldEntry 1 true .order], now := 53 }
    (heldByTag p 0 = some (heldEntry 0 false .fill) ∧ p.path.holdLimit ≠ 0 ∧ 3 + p.path.holdLimit ≤ p.now ∧
      oldestOf p blk = some (heldEntry 0 false .fill)) ∧
    (heldByTag p 1 = some (heldEntry 1 true .order) ∧ oldestOf p blk ≠ some (heldEntry 1 true .order)) ∧
    ({ p with now := 52 }).now < 3 + p.path.holdLimit ∧
    (after (.holdLimitExpiry 0) p).path.held = [{ heldEntry 1 true .fill with since := 3 }] := by decide +kernel

theorem test_block_release_hypotheses :
    (∀ e ∈ Part.reset.path.held, e.id ≠ blk) ∧
    (∀ x ∈ [((RegionState.mirrored, BlockState.clean, false, Answer.pass)), (.mirrored, .captured 0, true, .pass),
        (.restoring, .absent true, true, .error), (.mirrored, .capturing 0, true, .hold .capture)],
      let e := heldEntry 0 x.2.2.1 .fill
      let p := { withBlock x.1 x.2.1 with path.held := [e] }
      oldestOf p blk = some e ∧ answerOf p e.req blk = x.2.2.2) := by decide +kernel

theorem test_fill_hold_hypotheses :
    let p := { withBlock .restoring (.absent false) with path.held := [heldEntry 0 false .order, heldEntry 1 true .order] }
    (oldestOf p blk = some (heldEntry 0 false .order) ∧ answerOf p (heldEntry 0 false .order).req blk = .hold .fill ∧
      stateOf p blk = some (.absent false) ∧ (p.regs[(0 : Fin 8)]).state = .restoring) ∧
    (releaseBlock blk p).path.held = [heldEntry 0 false .fill, heldEntry 1 true .order] ∧
    (releaseBlock blk p).fill.demand = [blk] ∧
    stateOf oneHeld blk = some .filling ∧ (releaseBlock blk oneHeld).fill.demand = [] ∧
    (let q := { withBlock .restoring (.absent true) with path.held := [heldEntry 0 false .fill, heldEntry 1 true .order] }
     (failFillHolds blk q).out.host = [⟨0, false, []⟩, ⟨1, false, []⟩] ∧ (failFillHolds blk q).path.held = []) := by
  decide +kernel

/-- Two blocks, each with one write held for the same reason. -/
def heldWrites (why : HoldReason) (first second : BlockState) (budget : Nat) : Part :=
  { withRecs .mirrored [⟨first, none⟩, ⟨second, none⟩] with
    tbl.budget := budget
    path.held := [heldEntry 0 true why, ⟨writeAt 1 0x1100#32, ⟨0, 1⟩, why, 3⟩]
    path.tags := (Part.reset.path.tags.set 0 .held).set 1 .held }

/-- The budget walk stops at the first entry held BUDGET again; the freeze walk does not stop (R54, R55). -/
theorem test_release_walks :
    ((budgetRelease (heldWrites .budget .clean .clean 0)).path.held.map fun e => e.reason) = [.budget, .budget] ∧
    (let t := budgetRelease (heldWrites .budget .clean .clean 1)
     t.path.held.map (fun e => e.req.tag) = [1] ∧ t.path.hostLane.map (fun r => r.tag) = [0] ∧ dirtyCount t = 1) ∧
    (budgetRelease (heldWrites .budget .clean .clean 2)).path.held = [] ∧
    (let p := heldWrites .budget (.capturing 0) .clean 9
     (releaseEntry .budget p 0).path.held.map (fun e => e.reason) = [.capture, .budget] ∧
       (budgetRelease p).path.held.map (fun e => e.reason) = [.capture]) ∧
    ((freezeRelease (heldWrites .freeze .clean .clean 0)).path.held.map fun e => e.reason) = [.budget, .budget] := by
  decide +kernel

/-! ### The memory side port -/

theorem test_arbiter_hypotheses :
    let host := { Part.reset with path.hostLane := [readAt 1 0x1040#32], path.priority := [.capture, .fill, .host] }
    let capture := { host with path.captureLane := [⟨0, 0x1000, 1⟩] }
    let fill := { host with path.fillLane := [⟨1, 3, 0x10C0, [], 1⟩] }
    ((∀ l ∈ Part.reset.path.priority, laneReady Part.reset l = false) ∧
     (∀ l ∈ [Lane.capture, .fill], laneReady host l = false) ∧ laneReady host .host = true) ∧
    laneReady capture .capture = true ∧ laneReady { host with path.captureLane := [⟨0, 0x1040, 1⟩] } .capture = false ∧
    laneReady { host with path.captureLane := [⟨0, 0x1040, 0⟩] } .capture = true ∧
    (after .memoryPortGrant { host with path.captureLane := [⟨0, 0x1040, 1⟩] }).path.captureLane = [⟨0, 0x1040, 0⟩] ∧
    (laneReady fill .capture = false ∧ laneReady fill .fill = true) ∧
    (after .memoryPortGrant fill).out.mem = [.fill 27 0x10C0 []] := by decide +kernel

theorem test_memory_response_hypotheses :
    let p := { Part.reset with path.tags := Part.reset.path.tags.set 15 (.memory false) }
    p.path.tags[(15 : Fin 16)] = .memory false ∧
    (∀ (t : Fin 16), ((16 : Fin 32).val = t.val → p.path.tags[t] = .idle)) ∧
    (after (.hostMemoryResponse 15 true [1#8]) p).out.host = [⟨15, true, [1#8]⟩] := by decide +kernel

/-! ### Batches, timers, recovery, fills -/

def ready (p : Part) : Part := { p with pres.status := .ready, pres.binding := 7, pres.state := .present, link.state := .ready }

/-- The conditions of R69. -/
def mayStart (p : Part) : Bool :=
  p.pres.status == .ready && !p.eng.pauseReq && p.eng.state == .idle && eligibleQueue p != [] &&
    (decide (p.tbl.trigger ≤ (eligibleQueue p).length) || p.tbl.age.reached || p.eng.checkpointReq ||
      decide (0 < markCount p) || p.pwr.freeze)

theorem test_batch_start_hypotheses :
    let p := ready dirtyPart
    mayStart p = false ∧ (recOf p blk).isSome = true ∧ eligibleQueue p = [⟨blk, 1⟩] ∧ 0 < p.eng.batchLimit ∧
    mayStart { p with tbl.trigger := 1 } = true ∧ mayStart { p with tbl.trigger := 2 } = false ∧
    mayStart { p with tbl.age.reached := true } = true ∧ mayStart { p with eng.checkpointReq := true } = true ∧
    mayStart { p with tbl.recs := p.tbl.recs.set 0 [⟨.dirty 1, some .pending⟩] } = true ∧
    mayStart (frozen p) = true ∧ mayStart { frozen p with eng.pauseReq := true } = false := by decide +kernel

/-- A capture read in flight: the block CAPTURING in slot 0, the given number of responses taken. -/
def capturing (taken : Nat) (error : Bool) : Part :=
  { ready (withBlock .mirrored (.capturing 0)) with
    eng.state := .capture
    eng.batch := some ⟨1, 1, none, none, none, false, 0, 0⟩
    eng.staging := [⟨blk, zeros 256, some 1, none⟩]
    eng.capture := some ⟨blk, 0, taken, error⟩
    path.own := Part.reset.path.own.set 3 .live }

theorem test_capture_progress_hypotheses :
    (∀ p ∈ [capturing 0 false, capturing 2 true],
      p.path.own[captureOwn 3] = .live ∧ (p.eng.capture.map fun c => decide (c.taken < 3)) = some true) ∧
    (capturing 0 false).path.own[captureOwn 0] = .free ∧ (capturing 0 false).eng.resetWaiting = false ∧
    ({ capturing 0 false with path.own := Part.reset.path.own.set 0 .stale }).path.own[captureOwn 0] = .stale := by
  decide +kernel

/-- The shared hypotheses of the end of a capture read. -/
def captureEnds (p : Part) : Bool :=
  p.path.own[captureOwn 3] == .live && (p.eng.capture.map (·.taken)) == some 3 && (recOf p blk).isSome &&
    p.eng.batch.isSome && !p.eng.abortWaiting && !p.eng.resetWaiting

theorem test_capture_end_hypotheses :
    let ended (p : Part) (ok : Bool) := after (.captureReadResponse 3 ok (if ok then zeros 64 else [])) p
    let good := capturing 3 false
    let bad := capturing 3 true
    let more := { good with
      eng.batch := some ⟨2, 1, none, none, none, false, 0, 0⟩
      regs := good.regs.set 0 ⟨.mirrored, 0x1000#32, 2, 67⟩
      tbl.recs := good.tbl.recs.set 0 [⟨.capturing 0, none⟩, ⟨.dirty 2, none⟩]
      tbl.queue := [⟨⟨0, 1⟩, 2⟩] }
    (∀ p ∈ [good, bad, more, { good with eng.pauseReq := true }], captureEnds p = true) ∧
    (ended good true).eng.state = .journal ∧ stateOf (ended good true) blk = some (.captured 0) ∧
    (ended bad true).eng.state = .idle ∧ (ended good false).eng.state = .idle ∧
    stateOf (ended good false) blk = some (.dirty 5) ∧
    (ended { good with eng.pauseReq := true } true).eng.state = .paused .nextCapture ∧
    stateOf (ended more true) ⟨0, 1⟩ = some (.capturing 1) := by decide +kernel

/-- The MODULE_LOST abort and the RESET ENGINE that waited for the end of a capture read (R88, R91, R97, R190). -/
theorem test_waiting_capture_end_hypotheses :
    let good := capturing 3 false
    let lost := after (.captureReadResponse 3 true (zeros 64)) { good with eng.abortWaiting := true }
    let held := { good with
      eng.resetWaiting := true, mbox.completing := true, mbox.status := .running
      mbox.sclHeld := [[0x00#8, 0x04#8], [0x01#8, 0xAA#8]] }
    let reset := after (.captureReadResponse 3 true (zeros 64)) held
    good.eng.staging ≠ [] ∧ lost.eng.state = .idle ∧ lost.eng.staging = [] ∧ stateOf lost blk = some (.dirty 1) ∧
    lost.evq.records = [.event (.batchAborted none .moduleLost) 0 5] ∧
    reset.eng.state = .idle ∧ reset.mbox.completing = false ∧ reset.mbox.sclHeld = [] ∧ reset.eng.checkpointReq = true ∧
    reset.mbox.args[(0 : Fin 15)] = 0xAA ∧ stateOf reset blk = some (.dirty 1) := by decide +kernel

theorem test_timer_hypotheses :
    let p := { dirtyPart with now := 1001 }
    (p.tbl.age.target = some 1001 ∧ 1001 ≤ p.now) ∧ ({ p with now := 1000 }).now < 1001 ∧
    (let b := { Part.reset with eng.state := .backoff, eng.backoff := some 5, now := 5, eng.retryTimer := some 5 }
     b.eng.backoff = some 5 ∧ 5 ≤ b.now ∧ b.eng.pauseReq = false ∧ b.eng.retryTimer = some 5 ∧
       ({ b with now := 4 }).now < 5 ∧
       (after .backoffExpiry b).eng.state = .idle ∧
       (after .backoffExpiry { b with eng.state := .paused .backoff, eng.pauseReq := true }).eng.state = .paused .idle) := by
  decide +kernel

theorem test_recovery_start_hypotheses :
    let p := { ready Part.reset with pres.status := .unverified }
    (p.pres.status = .unverified ∧ p.link.state = .ready ∧ p.eng.journalHold = false ∧ p.eng.retryTimer = none) ∧
    (∀ e ∈ [EngineState.idle, .backoff, .inDoubt, .paused .idle, .paused .backoff],
      (after .recoveryStart { p with eng.state := e }).eng.state = .recover) ∧
    (∀ e ∈ [EngineState.halted .abortLimit, .paused .applyStart],
      (after .recoveryStart { p with eng.state := e }).eng.state = e) ∧
    (after .recoveryStart { p with eng.journalHold := true }).eng.state = .idle := by decide +kernel

/-- A fill being written: slot 2, group 1, the given number of responses taken. -/
def writing (taken : Nat) (error : Bool) : Part :=
  { ready (withBlock .restoring .filling) with
    fill.slots := Part.reset.fill.slots.set 2 (.writing blk (zeros 256) 1 taken error)
    path.own := Part.reset.path.own.set 11 .live
    path.held := [heldEntry 0 false .fill]
    path.tags := Part.reset.path.tags.set 0 .held }

theorem test_fill_write_hypotheses :
    (∀ p ∈ [writing 2 true, writing 3 false, writing 3 true], p.path.own[fillOwn 1 3] = .live ∧ slotOfGroup p 1 = some 2 ∧
      recOf p blk = some ⟨.filling, none⟩) ∧
    (writing 0 false).path.own[fillOwn 0 0] = .free ∧
    ({ writing 0 false with path.own := Part.reset.path.own.set 4 .stale }).path.own[fillOwn 0 0] = .stale ∧
    (let t := after (.fillWriteResponse 1 3 true) (writing 3 false)
     stateOf t blk = some .clean ∧ t.path.held = [] ∧ (t.regs[(0 : Fin 8)]).state = .mirrored) ∧
    (let t := after (.fillWriteResponse 1 3 true) (writing 3 true)
     stateOf t blk = some (.absent false) ∧ t.fill.queue = [blk] ∧ t.out.host = [⟨0, false, []⟩]) := by decide +kernel

/-- A fill run that fails with fill writes at memory: the block is ABSENT, its writes to be discarded, its accesses answered. -/
theorem test_fill_run_failure_hypotheses :
    let p := { writing 1 false with
      path.fillLane := [⟨1, 2, 0x1080, [], 0⟩]
      fill.demandRun := some (blk, 2) }
    let t := failDemand .link p
    p.fill.demandRun = some (blk, 2) ∧ (recOf p blk).isSome = true ∧ (p.fill.slots[(2 : Fin 8)]).group = some 1 ∧
    t.fill.queue = [blk] ∧ t.fill.slots[(2 : Fin 8)] = .free ∧ t.path.fillLane = [] ∧ t.path.own[(11 : Fin 12)] = .stale ∧
    stateOf t blk = some (.absent false) ∧ t.out.host = [⟨0, false, []⟩] ∧
    t.evq.records = [.event (.fillFailed blk .link) 0 5] := by decide +kernel

/-- A stale tag keeps its group taken until its response arrives, when a LOADED slot takes it (R60, R122). -/
theorem test_stale_group_hypotheses :
    let p := { ready (withBlock .restoring .filling) with
      fill.slots := (Part.reset.fill.slots.set 7 (.loaded blk (zeros 256))).set 1 (.writing ⟨0, 1⟩ [] 1 0 false)
      fill.arrivals := [7]
      path.own := Part.reset.path.own.set 4 .stale }
    freeGroup p = none ∧ takeGroups p = p ∧
    (after (.fillWriteResponse 0 0 true) p).fill.slots[(7 : Fin 8)] = .writing blk (zeros 256) 0 0 false := by
  decide +kernel

theorem test_count_signal_hypotheses :
    (let p := withBlock .restoring .clean
     absentCount p 0 = 0 ∧ (p.regs[(0 : Fin 8)]).state = .restoring ∧ absentCount (withBlock .restoring .filling) 0 ≠ 0) ∧
    (let p := withBlock (.suspended .noModule) .clean
     absentCount p 0 = 0 ∧ (p.regs[(0 : Fin 8)]).state = .suspended .noModule) ∧
    (let p := { Part.reset with mbox.long := some (.sync, .running) }
     markCount p = 0 ∧ markCount { p with tbl.recs := p.tbl.recs.set 0 [⟨.dirty 1, some .carry⟩] } ≠ 0) ∧
    (let p := { Part.reset with pwr := ⟨true, .running, some 9, 200⟩ }
     dirtyCount p = 0 ∧ p.pwr.freeze = true ∧ ({ p with pwr.final := .late }).pwr.final = .late ∧
       dirtyCount { dirtyPart with pwr := ⟨true, .done, none, 200⟩ } ≠ 0) ∧
    (let p := { dirtyPart with tbl.budget := 2 }
     (2 : Nat) ≤ 2 ∧ dirtyCount p < p.tbl.budget ∧ ({ p with tbl.budget := 1 }).tbl.budget ≤ dirtyCount p) := by
  decide +kernel

/-! ### The module link -/

def goodIdentity : Identity := ⟨0x0001#16, 128, 2, 16, 0x11#64⟩

/-- A link with a request in flight: its phase, and the request. -/
def flying (ph : Phase) (q : LinkReq) (p : Part) : Part :=
  { p with
    link.phase := ph
    link.current := some q
    link.state := if q.code.isRun then .run else .request
    link.runOpen := q.code.isRun }

def answer (code status : Byte) (arg : U32) : AnswerFrame := ⟨code, status, arg, answerCheck code status arg, true⟩

/-- A burst whose transfer check passes, whatever its payload and tag. -/
def burst (blank : BitVec 4) (payload tag : Payload) : ReadBurst :=
  ⟨blank, payload, tag, transferCheck [blank] payload tag, 0xF⟩

theorem test_a_full_burst_can_pass (payload tag : Payload) :
    transferCheck [(burst 1 payload tag).blank] (burst 1 payload tag).payload (burst 1 payload tag).tag =
      (burst 1 payload tag).check := rfl

/-- The checkpoint engine in a phase, with one captured block staged. -/
def batchIn (e : EngineState) : Part :=
  { ready (withBlock .mirrored (.captured 0)) with
    eng.state := e
    eng.batch := some ⟨1, 1, some 1, some 1, none, false, 0, 0⟩
    eng.staging := [⟨blk, zeros 256, some 1, none⟩]
    eng.knowledge := some (4, .a)
    pres.identity := some goodIdentity
    pres.header := some ⟨1, 7, 67, true⟩ }

def journalRun : LinkReq := request .checkpoint .writeRun 3 1
def demandRead : LinkReq := request .demand .readBlock 67 1
def commitWrite : LinkReq := request .checkpoint .writeBlock 2 1

/-- A background run in flight: one block received, one to come. -/
def backgroundRead : LinkReq := { request .background .readRun 67 2 with pos := 0 }

/-- A demand fill waiting for the link. -/
def demanding : Part := { ready (withBlock .restoring (.absent false)) with fill.demand := [blk] }

/-- A block on the fill queue, no request for it yet. -/
def restoringPart : Part := { ready (withBlock .restoring (.absent false)) with fill.queue := [blk] }

/-- What a grant makes of a part: the requester, the request code and its argument. -/
def granted (p : Part) : Option (Requester × ReqCode × Nat) :=
  (after .linkGrant p).link.current.map fun q => (q.requester, q.code, q.arg)

def attempting (st : IdentStep) : Part := { Part.reset with link.state := .identifying, pres.ident := some st }

theorem test_grant_hypotheses_of_identification :
    granted (attempting .identify) = some (.identification, .identify, 0) ∧
    granted (attempting .header) = some (.identification, .readBlock, 0) ∧
    granted (attempting .slotA) = some (.identification, .readBlock, 1) ∧
    granted { attempting (.slotB none) with link.state := .lost } = some (.identification, .readBlock, 2) := by decide +kernel

theorem test_grant_hypotheses_of_a_ready_link :
    (demanding.link.current = none ∧ demanding.link.state = .ready ∧ demandReady demanding = true ∧
      freeSlots demanding = List.finRange 8) ∧
    granted { demanding with mbox.format := some ⟨7, [], .clearA⟩ } = some (.format, .writeBlock, 1) ∧
    granted { demanding with
        eng.state := .recover, eng.recovery := some ⟨false, false, false, none, .readA⟩ } =
      some (.recovery, .readBlock, 1) ∧
    granted demanding = some (.demand, .readBlock, 67) ∧ stateOf (after .linkGrant demanding) blk = some .filling ∧
    granted (batchIn .journal) = some (.checkpoint, .writeRun, 3) ∧
    granted restoringPart = some (.background, .readBlock, 67) ∧ granted (ready Part.reset) = none := by decide +kernel

theorem test_grant_hypotheses_of_a_yielded_run :
    let p := { ready (withBlock .restoring .filling) with fill.background := some ⟨[⟨blk, 0, false⟩], 0, true⟩ }
    continueReady p = true ∧ demandReady p = false ∧ engineRequest p = none ∧ newRunReady restoringPart = true ∧
      continueReady restoringPart = false ∧
      (after .linkGrant p).link.current = some (request .background .readBlock 67 1) := by decide +kernel

/-- A new background run takes the blocks that follow one another, up to the run limit and the FREE slots (R125). -/
theorem test_run_formation_hypotheses :
    let absent : BlockRec := ⟨.absent false, none⟩
    let p := { ready (withRecs .restoring (List.replicate 12 absent)) with
      pres.identity := some goodIdentity
      fill.queue := [⟨0, 0⟩, ⟨0, 1⟩, ⟨0, 2⟩, ⟨0, 5⟩, ⟨0, 6⟩] }
    let t := after .linkGrant p
    newRunReady p = true ∧ continueReady p = false ∧ eligibleFill p = p.fill.queue ∧
    runBlocks p = [⟨0, 0⟩, ⟨0, 1⟩, ⟨0, 2⟩] ∧ t.fill.queue = [⟨0, 5⟩, ⟨0, 6⟩] ∧
    t.link.current = some (request .background .readRun 67 3) ∧
    t.fill.slots[(2 : Fin 8)] = .reserved ⟨0, 2⟩ ∧ stateOf t ⟨0, 2⟩ = some .filling ∧
    (runBlocks { p with fill.slots := (Vector.replicate 8 (.reserved blk)).set 7 .free }).length = 1 ∧
    (runBlocks { p with fill.queue := (List.range 12).map fun i => ⟨0, i⟩ }).length = 8 := by decide +kernel

theorem test_sending_hypotheses :
    let p := flying .writeBurst journalRun (batchIn .journal)
    (p.link.phase = .writeBurst ∧ p.link.current = some journalRun ∧ journalRun.requester = .checkpoint ∧
      journalRun.withdrawn = false ∧ p.eng.state = .journal) ∧
    (after .writeBurstSent (flying .writeBurst commitWrite (batchIn .commit))).link.phase = .writeAck ∧
    (after .requestFrameSent (flying (.frame .request) journalRun p)).link.wait = some 80 ∧
    (after .readAcknowledgeSent (flying .readAck backgroundRead p)).link.wait = some (2 ^ 20) ∧
    (after .requestFrameSent p).link.phase = .writeBurst := by decide +kernel

theorem test_sent_run_fixes_the_entry_check :
    ((after .writeBurstSent (flying .writeBurst journalRun (batchIn .journal))).eng.batch.bind (·.check)).isSome = true := by
  decide +kernel

theorem test_answer_hypotheses :
    let wait (q : LinkReq) := flying (.answer .request) q (batchIn .journal)
    let ph (q : LinkReq) (f : AnswerFrame) := (after (.answerTaken f) (wait q)).link.phase
    ph (request .identification .identify 0 1) (answer 0x01#8 0 0) = .readBurst ∧
    ph demandRead (answer 0x03#8 0 67) = .readBurst ∧ ph commitWrite (answer 0x05#8 0 2) = .writeBurst ∧
    ph backgroundRead (answer 0x04#8 0 67) = .readBurst ∧ ph journalRun (answer 0x06#8 0 3) = .writeBurst ∧
    ph { journalRun with withdrawn := true } (answer 0x06#8 0 3) = .frame .endRun ∧
    (after (.answerTaken (answer 0x06#8 0 3)) { wait journalRun with pres.status := .mismatched }).link.close =
      some .abandoned ∧
    (∀ st ∈ [LinkStatus.range, .writeProtected, .worn, .illegal],
      (after (.answerTaken (answer 0x03#8 st.toByte 67)) (wait { demandRead with withdrawn := true })).link.current = none) ∧
    (after (.answerTaken (answer 0x01#8 4 0))
      { flying (.answer .request) (request .identification .identify 0 1) (batchIn .idle) with
        link.runOpen := true }).link.runOpen = false := by
  decide +kernel

/-- The class under which a request of no retries ends, by the event posted. -/
def endsWith (c : Instr) (ph : Phase) (q : LinkReq) (cls : ErrClass) : Bool :=
  let p := { flying ph q (batchIn .commit) with link.retries := 2 }
  ((after c p).evq.records.head?.map fun r => decide (r = .event (.linkError cls q.code) 0 5)) == some true &&
    (after c { p with link.retries := 1 }).link.retries == 2

theorem test_transport_error_hypotheses :
    endsWith .mioContention (.frame .request) commitWrite .contention = true ∧
    endsWith .answerTimeout (.answer .request) commitWrite .answerTimeout = true ∧
    endsWith .answerTimeout .writeAck commitWrite .answerTimeout = true ∧
    endsWith (.answerTaken { answer 0x05#8 0 2 with check := ~~~ answerCheck 0x05#8 0 2 }) (.answer .request) commitWrite
      .answerCheck = true ∧
    endsWith (.answerTaken (answer 0x03#8 0 2)) (.answer .request) commitWrite .echoMismatch = true ∧
    endsWith (.answerTaken { answer 0x05#8 0 2 with stop := false }) (.answer .request) commitWrite .framing = true ∧
    endsWith (.answerTaken (answer 0x05#8 5 2)) (.answer .request) commitWrite .framing = true ∧
    endsWith .dataTimeout .readBurst demandRead .dataTimeout = true ∧
    endsWith (.readBurstEnd (burst 2 [] [])) .readBurst demandRead .answerCheck = true ∧
    endsWith (.readBurstEnd { burst 1 [] [] with stop := 0xE }) .readBurst demandRead .framing = true ∧
    endsWith (.writeAckTaken 0 true) .writeAck commitWrite .burstReject = true ∧
    endsWith (.writeAckTaken 2 true) .writeAck commitWrite .burstReject = true ∧
    endsWith (.writeAckTaken 3 true) .writeAck commitWrite .framing = true ∧
    endsWith (.writeAckTaken 1 false) .writeAck commitWrite .framing = true ∧
    endsWith .busyTimeout .busy commitWrite .busyTimeout = true := by decide +kernel

theorem test_run_close_hypotheses :
    let p (ph : Phase) := flying ph journalRun (batchIn .journal)
    let proc (ph : Phase) (noEnd : Bool) := { p ph with link.proc := some ⟨.framing, noEnd⟩ }
    let lost (s : Part) := { s with pres.status := .unverified }
    (∀ x ∈ [(Instr.answerTimeout, Phase.answer .request), (.answerTimeout, .writeAck), (.writeAckTaken 2 true, .writeAck),
        (.answerTimeout, .answer .endRun)], (after x.1 (p x.2)).link.phase = .frame .query) ∧
    (after .dataTimeout (flying .readBurst backgroundRead (batchIn .idle))).link.phase = .frame .query ∧
    (after .mioContention (lost (p (.frame .endRun)))).link.state = .lost ∧
    (after .mioContention (lost (proc (.frame .query) false))).link.state = .lost ∧
    (after .answerTimeout (lost (proc (.answer .query) false))).link.state = .lost ∧
    (after (.answerTaken (answer 0x02#8 0 0x80000000#32)) (proc (.answer .query) false)).link.phase = .frame .endRun ∧
    (after (.answerTaken (answer 0x02#8 0 0x80000000#32)) (lost (proc (.answer .query) true))).link.state = .lost ∧
    (let t := after (.answerTaken (answer 0x02#8 0 0#32)) (proc (.answer .query) false)
     t.link.phase = .frame .request ∧ t.link.retries = 1 ∧ t.link.current = some journalRun) := by decide +kernel

/-- What a lost link posts, and where it leaves the link (R159). -/
theorem test_lost_link_hypotheses :
    let p := { flying (.answer .endRun) journalRun (batchIn .journal) with pres.status := .unverified }
    let t := loseLink true .framing p
    t.link.state = .lost ∧ t.link.current = none ∧ t.pres.ident = some .identify ∧ t.link.attempts = 0 ∧
    (t.evq.records.take 2) =
      [.event (.runCloseError true (.cls .framing)) 0 5, .event (.linkLost true) 1 5] ∧
    (let q := { flying (.frame .endRun) backgroundRead (ready Part.reset) with
       link.current := some { backgroundRead with withdrawn := true } }
     (loseLink false .contention q).pres.status = .unverified) := by decide +kernel

/-- What the engine makes of an outcome handed to it, by its phase (R77, R80, R81, R86). -/
theorem test_outcome_hypotheses :
    let st (o : LinkOutcome) (p : Part) := (deliver journalRun o p).eng.state
    st (.status .range false) (batchIn .journal) = .backoff ∧ st (.status .range false) (batchIn .commit) = .backoff ∧
    st (.status .range false) (batchIn .verify) = .inDoubt ∧ st (.status .range false) (batchIn .retire) = .halted .applyFailed ∧
    st (.failed (some .framing)) (batchIn .commit) = .verify ∧ st (.failed none) (batchIn .commit) = .inDoubt ∧
    st (.failed (some .framing)) (batchIn .verify) = .inDoubt ∧
    st (.failed (some .framing)) (batchIn .apply) = .halted .applyFailed ∧
    (deliver journalRun (.failed none) (batchIn .apply)).pres.status = .unverified ∧
    deliver { journalRun with discard := true } .done (batchIn .journal) = batchIn .journal := by decide +kernel

theorem test_acknowledge_hypotheses :
    let two := { journalRun with count := 2 }
    let p (q : LinkReq) := flying .writeAck q (batchIn .journal)
    let ph (s : Part) := ((after (.writeAckTaken 1 true) s).link.phase, (after (.writeAckTaken 1 true) s).link.close)
    ph (p commitWrite) = (.busy, none) ∧ ph (p { two with withdrawn := true }) = (.frame .endRun, some .withdrawn) ∧
    ph (p journalRun) = (.frame .endRun, some .last) ∧
    ph { p two with pres.status := .mismatched } = (.frame .endRun, some .abandoned) ∧
    ph { p two with eng.pauseReq := true } = (.frame .endRun, some .yield) ∧
    ph (p two) = (.writeBurst, none) := by decide +kernel

/-- A background run of two blocks in flight. -/
def backgroundRun : Part :=
  flying .readBurst backgroundRead
    { ready (withRecs .restoring [⟨.filling, none⟩, ⟨.filling, none⟩]) with
      fill.slots := (Part.reset.fill.slots.set 0 (.reserved ⟨0, 0⟩)).set 1 (.reserved ⟨0, 1⟩)
      fill.background := some ⟨[⟨⟨0, 0⟩, 0, false⟩, ⟨⟨0, 1⟩, 1, false⟩], 0, false⟩ }

theorem test_read_burst_hypotheses :
    let b := burst 1 [] []
    let t (p : Part) := after (.readBurstEnd b) p
    (b.blank = 1 ∧ b.stop = 0xF ∧ transferCheck [b.blank] b.payload b.tag = b.check) ∧
    (t (flying .readBurst demandRead Part.reset)).link.current = none ∧
    (t (flying .readBurst { backgroundRead with withdrawn := true } Part.reset)).link.close = some .withdrawn ∧
    (t backgroundRun).link.phase = .readAck ∧
    (t (frozen backgroundRun)).link.close = some .yield ∧
    (t { backgroundRun with link.current := some { backgroundRead with pos := 1 } }).link.close = some .last := by
  decide +kernel

/-! ### The end of the engine's requests -/

theorem test_commit_point_hypotheses :
    let p := flying .busy commitWrite (batchIn .commit)
    let t := after .busyEnd p
    (p.eng.batch.map fun b => (b.number, b.count)) = some (some 1, some 1) ∧
    t.eng.lastCommitted = some 1 ∧ t.eng.knowledge = some (5, .b) ∧ t.eng.state = .apply ∧ stateOf t blk = some .clean ∧
    (after .busyEnd { p with eng.pauseReq := true }).eng.state = .paused .applyStart := by decide +kernel

/-- The reads of VERIFY: the commit point, a counted abort, and doubt (R81). -/
theorem test_verify_hypotheses :
    let base := batchIn .verify
    let p := { flying .readBurst (request .checkpoint .readBlock 2 1) base with
      eng.batch := some ⟨1, 1, some 1, some 1, some 0, false, 0, 0⟩, eng.verifyA := some none }
    let shown (r : StatusRecord) := burst 0 ((statusPayload r).take 23) []
    let t (r : StatusRecord) (p : Part) := after (.readBurstEnd (shown r)) p
    let named : StatusRecord := ⟨5, .committed, 1, 1, 0, 7⟩
    let known : StatusRecord := ⟨4, .applied, 0, 0, 0, 7⟩
    (after (.readBurstEnd (shown named)) { p with eng.verifyA := none }).eng.verifyA = some (some named) ∧
    (t named p).eng.state = .apply ∧ (t named p).eng.knowledge = some (5, .b) ∧
    (t known { p with eng.knowledge := some (4, .b) }).eng.state = .backoff ∧ (t known p).eng.state = .inDoubt ∧
    (after (.readBurstEnd (burst 1 [] [])) p).eng.state = .inDoubt := by decide +kernel

/-- What the engine asks for, and the length of a run of homes (R76, R78, R85). -/
theorem test_engine_request_hypotheses :
    let p := batchIn .apply
    engineRequest (batchIn .journal) = some journalRun ∧ engineRequest p = some (request .checkpoint .writeRun 67 1) ∧
    (engineBurst p 0).1.length = 256 ∧ (sortedStaging p).length = 1 ∧ engineRequest (batchIn .commit) = some commitWrite ∧
    homeRun 16 [67, 68, 70] = 2 ∧ homeRun 2 [67, 68, 69] = 2 ∧ homeRun 1 [67, 68] = 1 := by decide +kernel

theorem test_engine_write_hypotheses :
    let run (e : EngineState) (why : CloseWhy) (pos : Nat) :=
      { flying .busy { journalRun with pos := pos } (batchIn e) with link.close := some why, link.runOpen := false }
    (after .busyEnd (run .journal .last 0)).eng.state = .commit ∧
    (after .busyEnd (run .apply .last 0)).eng.state = .retire ∧
    (after .busyEnd (run .journal .yield 0)).eng.state = .journal ∧
    (after .busyEnd { run .journal .yield 0 with eng.pauseReq := true }).eng.state = .paused .journalNext ∧
    (after .busyEnd (run .apply .yield 0)).eng.state = .apply ∧
    (after .busyEnd { run .apply .yield 0 with eng.pauseReq := true }).eng.state = .paused .applyNext ∧
    (let t := after .busyEnd (flying .busy commitWrite (batchIn .retire))
     t.eng.state = .idle ∧ t.eng.staging = [] ∧ t.eng.knowledge = some (5, .b)) := by decide +kernel

theorem test_commit_member_hypotheses :
    let e : Staged := ⟨blk, [], some 1, none⟩
    let t (st : BlockState) (m : Option Mark) := recOf (commitMember (withRecs .mirrored [⟨st, m⟩]) e) blk
    t (.captured 0) (some .pending) = some ⟨.clean, none⟩ ∧ t (.captured 0) none = some ⟨.clean, none⟩ ∧
    t (.redirtied 2 0) (some .carry) = some ⟨.dirty 2, some .pending⟩ ∧
    t (.redirtied 2 0) (some .pending) = some ⟨.dirty 2, none⟩ ∧ t (.redirtied 2 0) none = some ⟨.dirty 2, none⟩ := by
  decide +kernel

theorem test_abort_hypotheses :
    let p := { batchIn .journal with tbl.queue := [⟨⟨0, 9⟩, 3⟩] }
    (p.eng.staging.map fun e => e.id).Nodup ∧ (recOf p blk).isSome = true ∧
    (abortClaim p).tbl.queue = [⟨blk, 1⟩, ⟨⟨0, 9⟩, 3⟩] := by decide +kernel

theorem test_refused_run_hypotheses :
    let p := flying (.answer .request) journalRun (batchIn .journal)
    let t (p : Part) := (after (.answerTaken (answer 0x06#8 2 3)) p).eng.state
    p.eng.staging ≠ [] ∧ t { p with eng.aborts := 1 } = .backoff ∧
    t { p with eng.aborts := 1, eng.pauseReq := true } = .paused .backoff ∧ t { p with eng.aborts := 2 } = .halted .abortLimit := by
  decide +kernel

/-! ### What is read from the module -/

def record (seq : U32) (st : RecordState) : StatusRecord := ⟨seq, st, 1, 1, 0, 7⟩

theorem test_newest_hypotheses :
    let ahead (a b : U32) : Bool := decide (0 < (a - b).toNat ∧ (a - b).toNat < 2 ^ 31)
    ahead 1 0 = true ∧ ahead 0x7FFFFFFF 0 = true ∧ ahead 0 0xFFFFFFFF = true ∧ ahead 0x80000000 0 = false ∧
    ahead 0 0x80000000 = false ∧ ahead 5 5 = false := by decide

/-- A demand run in flight for the first block. -/
def demandRun : Part :=
  flying .readBurst demandRead { ready (withBlock .restoring .filling) with
    fill.slots := Part.reset.fill.slots.set 0 (.reserved blk)
    fill.demandRun := some (blk, 0) }

theorem test_demand_burst_hypotheses :
    let t (b : ReadBurst) := after (.readBurstEnd b) demandRun
    let payload := [0xA5#8]
    let tag := homeTag blk 1 payload
    (demandRun.fill.demandRun = some (blk, 0) ∧ demandRun.fill.background = none ∧ (recOf demandRun blk).isSome = true) ∧
    (t (burst 1 payload tag)).fill.slots[(0 : Fin 8)] = .writing blk (zeros 256) 0 0 false ∧
    stateOf (t (burst 0 payload [])) blk = some (.absent true) ∧
    stateOf (t (burst 0 payload (homeTag ⟨1, 0⟩ 1 payload))) blk = some (.absent true) ∧
    stateOf (t (burst 0 payload (homeTag ⟨0, 1⟩ 1 payload))) blk = some (.absent true) ∧
    (t (burst 0 payload tag)).fill.slots[(0 : Fin 8)] = .writing blk payload 0 0 false := by decide +kernel

theorem test_loaded_slot_hypotheses :
    let p := { ready (withBlock .restoring .filling) with
      fill.slots := Part.reset.fill.slots.set 7 (.loaded blk (zeros 256)), fill.arrivals := [7] }
    freeGroup p = some 0 ∧ Part.reset.fill.arrivals = [] ∧
    freeGroup { p with fill.slots := (p.fill.slots.set 0 (.writing blk [] 0 0 false)).set 1 (.writing blk [] 1 0 false) } =
      none := by decide +kernel

def identityPayload (grade versions : Byte) : Payload :=
  ([versions, 0] ++ leBytes 4 128 ++ [grade] ++ leBytes 2 16 ++ leBytes 8 0x11)

/-- An identification attempt at a step. -/
def identifying (st : IdentStep) : Part :=
  flying .readBurst (request .identification (if st = .identify then .identify else .readBlock) 0 1)
    { withBlock (.suspended .moduleNotReady) .clean with
      pres.status := .identifying, pres.state := .present, pres.binding := 7, pres.ident := some st
      pres.identity := some goodIdentity, pres.header := some ⟨1, 7, 67, true⟩ }

theorem test_identification_hypotheses :
    let t (st : IdentStep) (payload : Payload) := after (.readBurstEnd (burst 0 payload [])) (identifying st)
    (t .identify (identityPayload 2 1)).link.rate = .normal ∧ (t .identify (identityPayload 3 1)).pres.status = .failed ∧
    (t .identify (identityPayload 1 2)).pres.status = .failed ∧
    (t .header ((headerPayload 7).take 14)).pres.ident = some .slotA ∧ (t .header ((headerPayload 0).take 14)).pres.status = .unformatted ∧
    (t .slotA ((statusPayload (record 4 .applied)).take 23)).pres.ident = some (.slotB (some (record 4 .applied))) ∧
    (t (.slotB none) []).pres.status = .unformatted ∧
    (t (.slotB none) ((statusPayload (record 4 .empty)).take 23)).pres.status = .unverified ∧
    (after (.readBurstEnd (burst 0 [] []))
      { identifying (.slotB (some (record 4 .empty))) with pres.binding := 8 }).pres.status = .mismatched := by decide +kernel

theorem test_identification_failure_hypotheses :
    (identFailed .noAnswer { identifying .header with link.attempts := 2 }).pres.ident = some .identify ∧
    (identFailed .noAnswer { identifying .header with link.attempts := 3 }).pres.status = .failed := by decide +kernel

/-- Recovery reading slot A, or slot B. -/
def recovering (st : RecoveryStep) : Part :=
  flying .readBurst (request .recovery .readBlock 1 1) { batchIn .recover with
    pres.status := .unverified, eng.batch := none, eng.staging := []
    eng.recovery := some ⟨false, false, false, none, st⟩ }

theorem test_recovery_read_hypotheses :
    let t (st : RecoveryStep) (payload : Payload) := after (.readBurstEnd (burst 0 payload [])) (recovering st)
    (t .readA []).eng.recovery = some ⟨false, false, false, none, .readB none⟩ ∧
    (t (.readB none) []).pres.status = .unformatted ∧
    (t (.readB none) ((statusPayload (record 4 .empty)).take 23)).pres.status = .ready ∧
    ((t (.readB none) ((statusPayload (record 4 .committed)).take 23)).eng.recovery.map (·.step)) = some (.entries []) := by
  decide +kernel

/-- Recovery with a batch in doubt, slot A read (R110). -/
def doubting : Part :=
  flying .readBurst (request .recovery .readBlock 2 1) { batchIn .recover with
    pres.status := .unverified
    eng.batch := some ⟨1, 1, some 1, some 1, some 0, false, 0, 0⟩
    eng.recovery := some ⟨true, false, false, none, .readB none⟩ }

theorem test_doubt_hypotheses :
    let t (r : StatusRecord) := after (.readBurstEnd (burst 0 ((statusPayload r).take 23) [])) doubting
    let confirmed := t (record 5 .committed)
    let aborted := t (record 5 .applied)
    confirmed.eng.recovery = some ⟨false, true, false, some (.b, record 5 .committed), .homes 0⟩ ∧
    stateOf confirmed blk = some .clean ∧ confirmed.eng.state = .recover ∧
    aborted.pres.status = .ready ∧ stateOf aborted blk = some (.dirty 1) ∧
    aborted.evq.records.take 1 = [.event (.batchAborted (some 1) .verify) 0 5] ∧
    (after (.readBurstEnd (burst 1 [] [])) doubting).pres.status = .unformatted := by decide +kernel

/-- Recovery reading the one entry of the record given. -/
def replaying (r : StatusRecord) : Part :=
  flying .readBurst (request .recovery .readRun 3 1) { batchIn .recover with
    pres.status := .unverified, eng.batch := none, eng.staging := []
    eng.recovery := some ⟨false, false, false, some (.a, r), .entries []⟩ }

/-- Each check of an entry, and the last one's entry check and placement (R111, R112, R115). -/
theorem test_entry_hypotheses :
    let entry (id : BlockId) (n : U32) : Staged × Payload := (⟨id, [0xA5#8], none, none⟩, entryTag n 0 ⟨id, [0xA5#8], none, none⟩)
    let check (id : BlockId) : U32 := entryCheckOf [((entry id 1).2, [0xA5#8])]
    let r (id : BlockId) : StatusRecord := { record 4 .committed with check := check id }
    let t (b : ReadBurst) (s : StatusRecord) := after (.readBurstEnd b) (replaying s)
    let good := burst 0 [0xA5#8] (entry blk 1).2
    let stopped (p : Part) (c : CorruptCause) : Bool :=
      p.evq.records == [.event (.journalCorrupt 1 c) 0 5] && p.eng.journalHold && p.eng.state == .idle &&
        p.link.current.map (fun q => q.discard) == some true && p.link.phase == .frame .endRun
    stopped (t (burst 1 [] []) (r blk)) (.blankEntry 0) = true ∧
    stopped (t (burst 0 [0xA5#8] (entry blk 2).2) (r blk)) (.entryTag 0) = true ∧
    stopped (t (burst 0 [0xA6#8] (entry blk 1).2) (r blk)) (.payload 0) = true ∧
    stopped (t good { r blk with check := 0 }) .entryCheck = true ∧
    stopped (t (burst 0 [0xA5#8] (entry ⟨0, 1⟩ 1).2) (r ⟨0, 1⟩)) (.unplaced ⟨0, 1⟩) = true ∧
    ((t good (r blk)).eng.recovery.map fun x => x.step) = some (.homes 0) ∧
    ((t good { r blk with count := 2 }).eng.recovery.map fun x => x.step) = some (.entries [(entry blk 1).2]) := by
  decide +kernel

/-- A replay's last writes, and what the end of recovery posts (R113, R114, R116). -/
theorem test_recovery_write_hypotheses :
    let p (st : RecoveryStep) (c : ReqCode) := { flying .busy (request .recovery c 67 1) (batchIn .recover) with
      pres.status := .unverified
      eng.recovery := some ⟨false, false, false, some (.a, record 4 .committed), st⟩
      link.close := if c = .writeRun then some .last else none }
    let t := after .busyEnd (p .applied .writeBlock)
    ((after .busyEnd (p (.homes 0) .writeRun)).eng.recovery.map fun x => x.step) = some .applied ∧
    t.eng.knowledge = some (5, .b) ∧ t.eng.lastCommitted = some 1 ∧ t.eng.state = .idle ∧
    t.evq.records.take 2 = [.event (.recoveryDone 1 1) 0 5, .event (.moduleStatus .ready (some .first)) 1 5] ∧
    (recoveryHalted .worn (p .applied .writeBlock)).evq.records =
      [.event (.engineHalted (some 1) .applyFailed (some .worn)) 0 5] ∧
    (recoveryFailed doubting).eng.state = .inDoubt ∧ (recoveryFailed doubting).eng.retryTimer = some 15 := by decide +kernel

theorem test_recovery_end_hypotheses :
    let p := recovering (.readB none)
    (p.eng.recovery.map (·.unsettled)) = some false ∧ p.pres.identity = some goodIdentity ∧ p.eng.pauseReq = false ∧
    (recoverySucceeded 1 0 { p with eng.pauseReq := true }).eng.state = .paused .idle := by decide +kernel

/-! ### Presence and power -/

def pres (st : PresenceState) (level : Bool) : Part :=
  { Part.reset with pres.state := st, pins.mpres := level, pres.settle := some 8, now := 8 }

theorem test_presence_hypotheses :
    (after .mpresRise (pres .empty false)).pres.state = .arriving false ∧
    (after .mpresRise (pres .leaving false)).pres.state = .arriving true ∧
    (after .mpresRise (pres .leaving true)).pres.state = .leaving ∧
    (after .mpresFall (pres (.arriving false) true)).pres.state = .empty ∧
    (after .mpresFall (pres (.arriving true) true)).pres.state = .leaving ∧
    (after .settleTimerExpiry (pres .leaving false)).pres.state = .empty ∧
    (after .settleTimerExpiry { pres .leaving false with now := 7 }).pres.state = .leaving ∧
    (after .settleTimerExpiry (pres (.arriving true) true)).pres.status = .identifying := by decide +kernel

theorem test_module_loss_hypotheses :
    let p := { demandRun with pins.mpres := true }
    let t := after .mpresFall p
    p.pres.state = .present ∧ p.pres.status ≠ .none ∧ (p.regs[(0 : Fin 8)]).state ≠ .off ∧
    (p.regs[(7 : Fin 8)]).state = .off ∧ (t.regs[(0 : Fin 8)]).state = .suspended .noModule ∧ t.link.state = .off := by
  decide +kernel

/-- The engine at a loss of READY, by its phase or remembered point (R91). -/
theorem test_engine_loss_hypotheses :
    let t (e : EngineState) := setStatus .mismatched none (batchIn e)
    (t .capture).eng.abortWaiting = true ∧ (t .journal).eng.state = .idle ∧ (t .journal).eng.staging = [] ∧
    (t .commit).eng.state = .inDoubt ∧ (t .verify).eng.state = .inDoubt ∧ (t .apply).eng.state = .idle ∧
    (t (.paused .journalNext)).eng.state = .paused .idle ∧ (t (.paused .applyNext)).eng.state = .paused .idle ∧
    (t (.paused .backoff)).eng.state = .paused .backoff ∧ (t (.halted .abortLimit)).eng.state = .halted .abortLimit ∧
    setStatus .ready none (batchIn .journal) = batchIn .journal ∧
    (setStatus .mismatched none (recovering .readA)).eng.state = .idle := by decide +kernel

/-- The FILL-held accesses of a region that goes to SUSPENDED (R65). -/
theorem test_suspension_hypotheses :
    let p := { withBlock .restoring (.absent false) with path.held := [heldEntry 0 false .fill, heldEntry 1 true .order] }
    let q := { p with regs := p.regs.set 0 { p.regs[(0 : Fin 8)] with state := .suspended .capacity } }
    (suspendHolds 0 q).path.held = [] ∧ (suspendHolds 0 q).out.host.length = 2 ∧ suspendHolds 0 oneHeld = oneHeld := by
  decide +kernel

theorem test_power_hypotheses :
    let low := ready dirtyPart
    let run := { low with pwr := ⟨true, .running, some 5, 200⟩, pins.pfw := true }
    let late (p : Part) := (after .finalDeadlineExpiry p).evq.records
    let is (d : LateDetail) := [EventRec.event (.finalLate d) 0 5]
    (after .pfwAsserted low).pwr.final = .running ∧ (after .pfwAsserted (ready Part.reset)).pwr.final = .done ∧
    (after .pfwWithdrawn run).pwr.freeze = false ∧
    (after .pfwAsserted { run with pins.pfw := false }).pwr = run.pwr ∧
    (after .finalDeadlineExpiry { run with now := 4 }).pwr.final = .running ∧
    (after .finalDeadlineExpiry { run with pwr.final := .done }).pwr = ⟨true, .done, none, 200⟩ ∧
    late { run with pres.status := .none } = is .noModule ∧ late { run with pres.status := .unverified } = is .notReady ∧
    late { run with eng.state := .halted .applyFailed } = is .halted ∧ late { run with eng.state := .inDoubt } = is .inDoubt ∧
    late { run with tbl.queue := [] } = is .ineligible ∧ late run = is .slow := by decide +kernel

/-! ### Events, regions and the management port -/

/-- A queue of n ordinary records, with an OVERFLOW record at the end when d is given. -/
def queueOf (n : Nat) (d : Option Nat) : EventQueue :=
  { EventQueue.reset with
    records := List.replicate n (.event .moduleLeft 0 0) ++ (d.map fun k => EventRec.overflow 0 0 k).toList }

theorem test_event_hypotheses :
    ({ EventQueue.reset with capture := EventQueue.reset.capture.set 16 false }).capture[(16 : Fin 25)] = false ∧
    (∀ n ∈ [0, 30, 31], (queueOf n none).records.length = n ∧
      (queueOf n none).records.getLast?.all fun r => !r.isOverflow) ∧
    (queueOf 31 (some 255)).records.length = 32 ∧ (queueOf 30 (some 1)).records.length = 31 ∧
    (((queueOf 31 (some 255)).post .moduleLeft 3).records.getLast?) = some (.overflow 0 0 255) ∧
    ((queueOf 30 none).post .moduleLeft 3).records.length = 31 ∧
    (((queueOf 31 none).post .moduleLeft 3).records.getLast?) = some (.overflow 0 3 1) := by decide +kernel

theorem test_evaluation_hypotheses :
    let at' (st : ModStatus) (capacity : Nat) (b : BlockState) := evalState
      { withBlock .mirrored b with pres.status := st, pres.identity := some { goodIdentity with capacity := capacity } } 0
    (∀ st ∈ [ModStatus.unformatted, .mismatched, .unverified], at' st 68 .clean = .suspended .moduleNotReady) ∧
    at' .ready 68 .clean = .mirrored ∧ at' .ready 68 .filling = .restoring ∧
    evalState { withRecs .mirrored [⟨.clean, none⟩, ⟨.clean, none⟩] with
      pres.status := .ready, pres.identity := some { goodIdentity with capacity := 68 } } 0 = .suspended .capacity ∧
    at' .none 68 .clean = .suspended .noModule ∧ at' .failed 68 .clean = .suspended .moduleNotReady ∧
    ((applyEval (withBlock .mirrored .clean) 0).regs[(0 : Fin 8)]).state = .suspended .noModule ∧
    (applyEval (withBlock (.suspended .capacity) .clean) 0).regs[(0 : Fin 8)].state = .suspended .noModule := by
  decide +kernel

theorem test_window_hypotheses :
    let w (bytes : List Byte) := after (.windowWrite 0x4C bytes) Part.reset
    Part.reset.mbox.address = 0x4C ∧ (0x4D : BitVec 7) ≠ Part.reset.mbox.address ∧
    (w [0x01#8, 0xAA#8]).mbox.args[(0 : Fin 15)] = 0xAA ∧ (w [0x0F#8, 0xAA#8, 0xBB#8]).mbox.args[(14 : Fin 15)] = 0xAA ∧
    (w [0x0F#8, 0xAA#8]).mbox.status = .idle ∧ (w [0xFF#8, 0xAA#8, 0x04#8]).eng.checkpointReq = true ∧
    (w [0x00#8, 0x14#8]).mbox.refusal = some .badCommand ∧
    (after (.windowWrite 0x4C [0x00#8, 0x04#8]) { Part.reset with mbox.completing := true }).mbox.sclHeld =
      [[0x00#8, 0x04#8]] := by decide +kernel

theorem test_command_transactions :
    Instr.transaction (.setLimits 0x09#8 0x0102#16) = some [0x00#8, 0x08#8, 0x09#8, 0x02#8, 0x01#8] ∧
    Instr.transaction (.setBinding 0x01020304#32) = some [0x00#8, 0x07#8, 0x04#8, 0x03#8, 0x02#8, 0x01#8] ∧
    (Instr.badCommand 0x14#8).wf = true ∧ (Instr.badCommand 0x14#8).transaction = some [0x00#8, 0x14#8] := by decide +kernel

/-- The refusal a command meets, if any. -/
def refusal (c : Instr) (p : Part) : Option RefusalCode := (after c p).mbox.refusal

theorem test_set_region_hypotheses :
    let p := withBlock .mirrored .clean
    let set (r : Byte) (ram : U32) (size : U16) (home : U32) := refusal (.setRegion r ram size home) p
    set 8#8 0#32 1#16 67#32 = some .badArgument ∧ set 0#8 0#32 1#16 67#32 = some .wrongState ∧
    refusal (.setRegion 1#8 0#32 1#16 68#32) { p with eng.staging := [⟨⟨1, 0⟩, [], none, none⟩] } = some .wrongState ∧
    set 1#8 1#32 1#16 68#32 = some .badArgument ∧ set 1#8 0#32 4097#16 68#32 = some .badArgument ∧
    set 1#8 0xFFFFFF00#32 2#16 68#32 = some .badArgument ∧ set 1#8 0#32 1#16 66#32 = some .badArgument ∧
    set 1#8 0#32 1#16 0x1000000#32 = some .badArgument ∧
    set 1#8 0x1000#32 1#16 68#32 = some .overlap ∧ set 1#8 0#32 1#16 67#32 = some .overlap ∧
    set 7#8 0xFFFFFF00#32 1#16 0xFFFFFF#32 = none ∧ set 1#8 0x1100#32 1#16 68#32 = none ∧ set 1#8 1#32 0#16 0#32 = none := by
  decide +kernel

/-- Region 1 set with one block and OFF, the part bound and the module READY. -/
def settled : Part :=
  let p := ready (withBlock .mirrored .clean)
  { p with regs := p.regs.set 1 ⟨.off, 0x2000#32, 1, 100⟩ }

theorem test_attach_hypotheses :
    let s := settled
    refusal (.attach 8#8 0#8) s = some .badArgument ∧ refusal (.attach 1#8 2#8) s = some .badArgument ∧
    refusal (.attach 0#8 0#8) s = some .wrongState ∧ refusal (.attach 2#8 0#8) s = some .wrongState ∧
    refusal (.attach 1#8 0#8) { s with pres.binding := 0 } = some .notBound ∧
    refusal (.attach 1#8 0#8) { s with regs := s.regs.set 0 ⟨.mirrored, 0x1000#32, 4096, 67⟩ } = some .capacity ∧
    refusal (.attach 1#8 0#8) { s with regs := s.regs.set 0 ⟨.mirrored, 0x1000#32, 4095, 67⟩ } = none ∧
    (after (.attach 1#8 1#8) s).fill.queue = [⟨1, 0⟩] ∧ s.tbl.recs[(1 : Fin 8)] = [] ∧
    (after (.attach 1#8 0#8) s).tbl.queue = [⟨⟨1, 0⟩, 5⟩] ∧
    (after (.attach 1#8 0#8) { frozen s with pwr.final := .done }).pwr.final = .late := by decide +kernel

theorem test_detach_hypotheses :
    refusal (.detach 8#8) settled = some .badArgument ∧ refusal (.detach 1#8) settled = some .wrongState ∧
    refusal (.detach 0#8) (withBlock .mirrored (.capturing 0)) = some .wrongState ∧
    refusal (.detach 0#8) (withBlock .restoring .filling) = some .wrongState ∧
    (after (.detach 0#8) settled).tbl.recs[(0 : Fin 8)] = [] ∧
    (let p := { withBlock .restoring (.absent false) with path.held := [heldEntry 0 false .fill, heldEntry 1 true .order] }
     (after (.detach 0#8) p).path.hostLane = [writeAt 1 0x1000#32] ∧
       (after (.detach 0#8) p).out.host = [⟨0, false, []⟩]) := by decide +kernel

/-- An engine in a state, pause requested or not. -/
def engineIn (e : EngineState) (requested : Bool) : Part :=
  { Part.reset with eng.state := e, eng.pauseReq := requested }

theorem test_pause_hypotheses :
    let paused (p : Part) := (after .pause p).eng.state
    refusal .pause (engineIn (.halted .abortLimit) false) = some .wrongState ∧
    refusal .pause (engineIn .inDoubt false) = some .wrongState ∧
    refusal .pause (frozen Part.reset) = some .wrongState ∧ paused (engineIn .commit true) = .commit ∧
    paused (engineIn .idle false) = .paused .idle ∧ paused (engineIn .backoff false) = .paused .backoff ∧
    paused (batchIn .journal) = .paused .journalNext ∧ paused (batchIn .apply) = .paused .applyNext ∧
    paused (flying .busy journalRun (batchIn .apply)) = .apply ∧
    (∀ e ∈ [EngineState.capture, .commit, .verify, .retire, .recover], paused (engineIn e false) = e) := by decide +kernel

theorem test_resume_hypotheses :
    let resumed (p : Part) := (after .resume p).eng.state
    refusal .resume Part.reset = some .notPaused ∧ resumed (engineIn (.paused .idle) true) = .idle ∧
    resumed (engineIn (.paused .backoff) true) = .backoff ∧
    resumed { batchIn (.paused .nextCapture) with eng.pauseReq := true } = .journal ∧
    resumed (engineIn (.paused .journalNext) true) = .journal ∧ resumed (engineIn (.paused .applyStart) true) = .apply ∧
    resumed (engineIn (.paused .applyNext) true) = .apply ∧ resumed (engineIn .commit true) = .commit ∧
    ((after .resume { engineIn .recover true with
      eng.recovery := some ⟨false, false, true, none, .readA⟩ }).eng.recovery.map (·.fromPaused)) = some false := by
  decide +kernel

theorem test_clear_fault_hypotheses :
    refusal .clearFault Part.reset = some .wrongState ∧
    (after .clearFault (engineIn (.halted .applyFailed) false)).eng.state = .idle ∧
    (after .clearFault (engineIn (.halted .abortLimit) true)).eng.state = .paused .idle ∧
    (after .checkpoint Part.reset).eng.checkpointReq = true := by decide +kernel

theorem test_limit_hypotheses :
    let set (sel : Byte) (v : U16) := refusal (.setLimits sel v) Part.reset
    set 14#8 0#16 = some .badArgument ∧ set 0#8 0#16 = some .badArgument ∧ set 0#8 4097#16 = some .badArgument ∧
    set 13#8 3#16 = some .badArgument ∧ getLimit Part.reset .budget = 4096 ∧
    set 0x00#8 1#16 = none ∧ set 0x01#8 4096#16 = none ∧ set 0x04#8 1#16 = none ∧ set 0x05#8 4096#16 = none ∧
    set 0x06#8 65535#16 = none ∧ set 0x07#8 1#16 = none ∧ set 0x08#8 255#16 = none ∧ set 0x09#8 255#16 = none ∧
    set 0x0A#8 1000#16 = none ∧ set 0x0B#8 7#16 = none ∧ set 0x0C#8 26#16 = none ∧ set 0x0D#8 32#16 = none := by
  decide +kernel

theorem test_binding_hypotheses :
    let p (st : ModStatus) := { batchIn .idle with pres.status := st }
    let s (st : ModStatus) (b : U32) := (after (.setBinding b) (p st)).pres.status
    refusal (.setBinding 1#32) { Part.reset with mbox.format := some ⟨7, [], .clearA⟩ } = some .busy ∧
    (∀ st ∈ [ModStatus.none, .identifying, .failed, .unformatted], s st 7#32 = st) ∧
    s .mismatched 7#32 = .unverified ∧ s .mismatched 8#32 = .mismatched ∧ s .unverified 7#32 = .unverified ∧
    s .ready 7#32 = .ready ∧ s .ready 0#32 = .mismatched ∧ s .unverified 8#32 = .mismatched := by decide +kernel

theorem test_mask_event_and_query_hypotheses :
    let p := withBlock .mirrored .clean
    let mask (k c a : Byte) := refusal (.setEventMasks k c a) p
    mask 0#8 1#8 1#8 = some .badArgument ∧ mask 26#8 1#8 1#8 = some .badArgument ∧
    mask 1#8 2#8 1#8 = some .badArgument ∧ mask 1#8 1#8 2#8 = some .badArgument ∧
    (after (.setEventMasks 24#8 0#8 1#8) p).evq.capture[(23 : Fin 25)] = false ∧
    (after (.setEventMasks 25#8 0#8 0#8) p).evq = p.evq ∧ p.evq.records = [] ∧
    (after .readEvent { p with evq := queueOf 1 none }).evq.records = [] ∧
    refusal (.queryBlock 8#8 0#16) p = some .badArgument ∧ refusal (.queryBlock 1#8 0#16) p = some .wrongState ∧
    refusal (.queryBlock 0#8 1#16) p = some .badArgument ∧ refusal (.queryBlock 0#8 0#16) p = none ∧
    refusal (.queryRegion 8#8) p = some .badArgument ∧ refusal (.queryRegion 7#8) p = none := by decide +kernel

theorem test_sync_and_cancel_hypotheses :
    let busy := { dirtyPart with mbox.long := some (.sync, .running) }
    dirtyCount dirtyPart ≠ 0 ∧ dirtyPart.mbox.long = none ∧ refusal .sync busy = some .busy ∧
    (after .sync dirtyPart).mbox.long = some (.sync, .running) ∧ markCount (after .sync dirtyPart) = 1 ∧
    (after .sync Part.reset).mbox.long = some (.sync, .done) ∧ refusal .cancel dirtyPart = some .wrongState ∧
    refusal .cancel { dirtyPart with mbox.long := some (.format, .running) } = some .wrongState ∧
    (after .cancel (after .sync dirtyPart)).mbox.status = .cancelled ∧
    markCount (after .cancel (after .sync dirtyPart)) = 0 := by decide +kernel

theorem test_format_hypotheses :
    let p := batchIn .idle
    refusal (.format 2#8) p = some .badArgument ∧
    refusal (.format 0#8) { p with mbox.long := some (.sync, .running) } = some .busy ∧
    refusal (.format 0#8) { p with pres.binding := 0 } = some .notBound ∧
    refusal (.format 0#8) { p with pres.status := .none } = some .noModule ∧
    refusal (.format 0#8) { p with pres.status := .identifying } = some .wrongState ∧
    refusal (.format 0#8) { p with link.state := .lost } = some .wrongState ∧
    refusal (.format 0#8) { p with eng.state := .apply } = some .wrongState ∧
    refusal (.format 1#8) { p with regs := p.regs.set 0 ⟨.mirrored, 0x1000#32, 1, 128⟩ } = some .capacity ∧
    refusal (.format 1#8) { p with regs := p.regs.set 0 ⟨.mirrored, 0x1000#32, 1, 127⟩ } = none ∧
    (after (.format 1#8) p).mbox.format = some ⟨7, [⟨67, blk⟩], .clearA⟩ ∧
    (after (.format 0#8) p).pres.status = .unformatted := by decide +kernel

/-- FORMAT's writes, their order, and both its ends (R198, R199). -/
theorem test_format_write_hypotheses :
    let p (st : FormatStep) (c : ReqCode) := { flying .busy (request .format c 1 1) (batchIn .idle) with
      pres.status := .unformatted
      mbox.format := some ⟨7, [⟨67, blk⟩], st⟩, mbox.long := some (.format, .running), mbox.lastLong := true
      link.close := if c = .writeRun then some .last else none }
    let step (st : FormatStep) (c : ReqCode) := (after .busyEnd (p st c)).mbox.format.map fun f => f.step
    let done := after .busyEnd (p .slotB .writeBlock)
    let failed := formatFailed .writeBlock (.cls .framing) (ready (p .clearA .writeBlock))
    step .clearA .writeBlock = some .clearB ∧ step .clearB .writeBlock = some (.homes 0) ∧
    step (.homes 0) .writeRun = some .header ∧ step .header .writeBlock = some .slotA ∧
    step .slotA .writeBlock = some .slotB ∧
    done.mbox.format = none ∧ done.mbox.status = .done ∧ done.pres.status = .ready ∧ done.eng.knowledge = some (1, .b) ∧
    done.evq.records = [.event (.moduleStatus .ready (some .first)) 0 5, .event (.commandDone .format .done none) 1 5] ∧
    failed.mbox.status = .failed ∧ failed.link.state = .identifying := by decide +kernel

theorem test_reset_link_hypotheses :
    let p := flying .readBurst (request .checkpoint .readBlock 1 1) (batchIn .verify)
    (p.pres.state = .present ∧ p.pres.status ≠ .unverified ∧ (p.link.current.map (·.withdrawn)) = some false) ∧
    (after .resetLink (ready Part.reset)).link.state = .identifying ∧
    (after .resetLink Part.reset).link.state = .off ∧
    (after .resetLink (flying .readBurst { backgroundRead with withdrawn := true } (ready Part.reset))).link.current = none ∧
    (let f := { Part.reset with mbox.format := some ⟨7, [], .clearA⟩, mbox.long := some (.format, .running) }
     f.link.state ≠ .ready ∧ (after .resetLink f).mbox.format = none) := by decide +kernel

theorem test_reset_engine_hypotheses :
    (let t := after .resetEngine (capturing 3 false)
     t.mbox.completing = true ∧ (after (.captureReadResponse 3 true (zeros 64)) t).mbox.completing = false) ∧
    (batchIn .journal).eng.capture = none ∧ (after .resetEngine (batchIn .journal)).pres.status = .unverified ∧
    (after .resetEngine (ready dirtyPart)).pres.status = .ready ∧
    (let p := { ready (withBlock .restoring .filling) with
      fill.slots := Part.reset.fill.slots.set 0 (.reserved blk), fill.demandRun := some (blk, 0) }
     (∀ e ∈ p.path.held, e.reason ≠ .fill) ∧ fillingOrder p = [blk] ∧ (fillReset p).fill.queue = [blk]) := by decide +kernel

theorem test_written_record_hypotheses :
    ({ record 1 .empty with count := 64 }).count ≤ 64 ∧ (8 : U32) ≠ (record 1 .empty).binding ∧ (7 : U32) ≠ 0 ∧
    goodIdentity.versions.getLsbD 0 = true ∧ blk.index < 65536 := by decide +kernel

theorem test_step_takes_the_front_command :
    step ⟨Part.reset, [.sync, .cancel]⟩ = exec .sync ⟨Part.reset, [.cancel]⟩ ∧
    (after .sync Part.reset).mbox.results.length = 28 := by
  constructor
  · rfl
  · decide +kernel

/-- What a step brings about when something waits: the demand list is refilled, and requests are accepted in order up to the first
that cannot be (R46, R48, R51, R120). -/
theorem test_settle_hypotheses :
    let p := { oneHeld with
      tbl.recs := oneHeld.tbl.recs.set 0 [⟨.absent false, none⟩]
      fill.queue := [blk]
      path.port := [readAt 1 0x0FFF#32, readAt 2 0x1000#32, readAt 0 0#32, readAt 3 0#32] }
    let t := settle p
    (refillCandidate p).isSome = true ∧ t.fill.demand = [blk] ∧ t.fill.queue = [] ∧
    t.path.hostLane = [readAt 1 0x0FFF#32] ∧ t.path.held.map (fun e => e.reason) = [.fill, .order] ∧
    t.path.port = [readAt 0 0#32, readAt 3 0#32] ∧
    drainPort [readAt 8 0#32] fullList = { fullList with path.port := [readAt 8 0#32] } ∧
    refillDemand 8 { p with fill.demand := List.replicate 8 ⟨1, 0⟩ } = { p with fill.demand := List.replicate 8 ⟨1, 0⟩ } := by
  decide +kernel

/-- The cases of R48 for an accepted access that makes a claim. -/
theorem test_acceptance_hypotheses :
    let accepted (r : HostReq) (p : Part) := (acceptAccess r p).path.held.map fun e => e.reason
    let absent (rs : RegionState) := withBlock rs (.absent false)
    accepted (readAt 1 0x1000#32) (absent .restoring) = [.fill] ∧
    (acceptAccess (readAt 1 0x1000#32) (absent .restoring)).fill.demand = [blk] ∧
    accepted (readAt 1 0x1000#32) (withBlock .restoring .filling) = [.fill] ∧
    accepted (writeAt 1 0x1000#32) (withBlock .mirrored (.capturing 0)) = [.capture] ∧
    (acceptAccess (readAt 1 0x1000#32) (absent (.suspended .capacity))).out.host = [⟨1, false, []⟩] ∧
    (acceptAccess (readAt 1 0x1000#32) (withBlock .mirrored .clean)).path.hostLane = [readAt 1 0x1000#32] ∧
    stateOf (acceptAccess (writeAt 1 0x1000#32) (withBlock .mirrored .clean)) blk = some (.dirty 5) := by decide +kernel

/-- The answer to END RUN, by the run and by why it was sent (R155 to R157). -/
theorem test_end_run_answer_hypotheses :
    let ok := Instr.answerTaken (answer 0x07#8 0 0)
    let closing (why : CloseWhy) (pos : Nat) :=
      { flying (.answer .endRun) { backgroundRead with pos := pos } backgroundRun with link.close := some why }
    let yielded (p : Part) := p.fill.background.map fun run => run.yielded
    (let t := after ok (flying (.answer .endRun) journalRun (batchIn .journal))
     t.link.state = .busy ∧ t.link.phase = .busy) ∧
    (let t := after ok { closing .last 2 with fill.background := none, fill.lastBlock := some ⟨0, 1⟩ }
     t.link.current = none ∧ t.fill.lastBlock = none) ∧
    yielded (after ok (closing .yield 1)) = some true ∧ yielded (after ok (closing .abandoned 1)) = some false ∧
    (after ok (closing .withdrawn 1)).link.current = none ∧
    (let t := after (.answerTaken (answer 0x07#8 1 0)) (closing .last 1)
     t.link.current = none ∧ t.fill.background = none ∧
     t.evq.records.head? = some (.event (.runCloseError true (.status .range)) 0 5)) := by decide +kernel

/-- A transport error on END RUN, and on the END RUN of the procedure below and at the retry count (R157). -/
theorem test_end_run_error_hypotheses :
    let p (proc : Option CloseProc) (n : Nat) := { flying (.answer .endRun) journalRun (batchIn .journal) with
      link.proc := proc, link.retries := n }
    let began (c : Instr) (p : Part) := ((after c p).link.proc, (after c p).link.retries)
    let again := some (⟨.framing, false⟩ : CloseProc)
    let bad := answer 0x07#8 0 0
    began .answerTimeout (p none 2) = (some ⟨.answerTimeout, false⟩, 2) ∧
    began .answerTimeout (p again 1) = (some ⟨.answerTimeout, false⟩, 2) ∧
    began .answerTimeout (p again 2) = (some ⟨.answerTimeout, true⟩, 2) ∧
    began (.answerTaken { bad with check := ~~~ bad.check }) (p none 0) = (some ⟨.answerCheck, false⟩, 0) ∧
    began (.answerTaken (answer 0x06#8 0 0)) (p none 0) = (some ⟨.echoMismatch, false⟩, 0) ∧
    began (.answerTaken { bad with stop := false }) (p none 0) = (some ⟨.framing, false⟩, 0) ∧
    began (.answerTaken (answer 0x07#8 5 0)) (p none 0) = (some ⟨.framing, false⟩, 0) ∧
    (∀ n ∈ [1, 2], (after .mioContention
      { p again n with link.phase := .frame .endRun, pres.status := .unverified }).link.state = .lost) := by decide +kernel

/-- The procedure closes a run: what is sent again, and how the run ends with no retry left (R157, R158). -/
theorem test_closed_run_hypotheses :
    let p (q : LinkReq) (s : Part) := { flying (.answer .query) q s with link.proc := some ⟨.framing, false⟩ }
    let t (q : LinkReq) (s : Part) := after (.answerTaken (answer 0x02#8 0 0#32)) (p q s)
    let sent (s : Part) := s.link.current.map fun q => (q.code, q.arg)
    let spent (s : Part) := { s with link.retryCount := 0 }
    let error := some (EventRec.event (.linkError .framing .readRun) 0 5)
    (t { backgroundRead with pos := 2 } backgroundRun).link.current = none ∧
    (t { backgroundRead with pos := 2 } (spent backgroundRun)).evq.records = [] ∧
    sent (t backgroundRead backgroundRun) = some (.readRun, 67) ∧
    sent (t { backgroundRead with pos := 1 } backgroundRun) = some (.readBlock, 68) ∧
    (t backgroundRead (spent backgroundRun)).evq.records.head? = error ∧
    (t { backgroundRead with withdrawn := true } backgroundRun).link.current = none ∧
    (t journalRun { batchIn .journal with pres.status := .unverified }).link.current = none ∧
    (t journalRun (spent (batchIn .journal))).eng.state = .backoff ∧
    (let b := { flying .busy journalRun (batchIn .journal) with link.state := .busy, link.runOpen := false }
     (after .busyTimeout b).link.state = .request ∧ (after .busyTimeout (spent b)).eng.state = .backoff ∧
     sent (after .busyEnd { b with link.close := some .procedure, link.proc := some ⟨.framing, false⟩ }) =
       some (.writeRun, 3)) := by decide +kernel

/-- The bursts of a background run, and of a demand run while a background run is YIELDED (R125, R127). -/
theorem test_background_burst_hypotheses :
    let t (b : ReadBurst) (p : Part) := after (.readBurstEnd b) p
    let last := { backgroundRun with
      link.current := some { backgroundRead with pos := 1 }
      fill.background := some ⟨[⟨⟨0, 0⟩, 0, false⟩, ⟨⟨0, 1⟩, 1, false⟩], 1, false⟩ }
    let single := { last with link.current := some { backgroundRead with code := .readBlock, count := 1 } }
    let both := { demandRun with fill.background := some ⟨[⟨blk, 0, false⟩], 0, true⟩ }
    let bad := burst 0 [0xA5#8] []
    (t (burst 1 [] []) backgroundRun).fill.background = some ⟨[⟨⟨0, 0⟩, 0, false⟩, ⟨⟨0, 1⟩, 1, false⟩], 1, false⟩ ∧
    (t bad backgroundRun).fill.background = some ⟨[⟨⟨0, 0⟩, 0, true⟩, ⟨⟨0, 1⟩, 1, false⟩], 1, false⟩ ∧
    stateOf (t bad backgroundRun) blk = some (.absent true) ∧
    (t (burst 1 [] []) last).fill.background = none ∧ (t (burst 1 [] []) last).fill.lastBlock = some ⟨0, 1⟩ ∧
    (t (burst 1 [] []) single).fill.lastBlock = none ∧ (t (burst 1 [] []) single).link.current = none ∧
    (t bad both).fill.background = some ⟨[⟨blk, 0, true⟩], 0, true⟩ := by decide +kernel

/-- The end of a pause when the freeze is set, by the engine's state (R95). -/
theorem test_pause_end_hypotheses :
    let ended (e : EngineState) := endPause true { batchIn e with eng.pauseReq := true }
    let resumed (pt : Point) := ended (.paused pt)
    (after .pfwAsserted (engineIn (.paused .idle) true)).eng.state = .idle ∧
    (ended .journal).eng.pauseReq = false ∧ (ended .journal).evq.records = [] ∧
    (resumed .nextCapture).eng.state = .journal ∧ (resumed .journalNext).eng.state = .journal ∧
    (resumed .applyStart).eng.state = .apply ∧ (resumed .applyNext).eng.state = .apply ∧
    (resumed .backoff).eng.state = .backoff ∧ (resumed .idle).evq.records = [.event (.resumed true) 0 5] ∧
    (let p := { engineIn .recover true with eng.recovery := some ⟨false, false, true, none, .readA⟩ }
     ((endPause true p).eng.recovery.map fun r => r.fromPaused) = some false ∧ (endPause true p).eng.pauseReq = false) := by
  decide +kernel

/-- Result bytes of records, of a block and of a region (R204). -/
theorem test_result_byte_hypotheses :
    let p := { withRecs .mirrored [⟨.redirtied 0x0102 3, some .carry⟩] with
      tbl.queue := [⟨blk, 0x0304⟩], fill.background := some ⟨[⟨blk, 0, true⟩], 1, false⟩ }
    let r (e : Event) := recordBytes (.event e 9#8 0x0201#16)
    blockBytes p blk ⟨.redirtied 0x0102 3, some .carry⟩ = [0, 0, 0, 7, 6, 0x02, 0x01, 0, 0, 0, 0, 3, 1, 0, 4] ∧
    blockBytes p blk ⟨.absent true, none⟩ = [0, 0, 0, 0, 0, 0, 0, 0, 0, 0, 0, 0, 0, 1, 4] ∧
    regionBytes p 0 = [0, 2, 0, 6, 0, 0x10, 0, 0, 1, 0, 67, 0, 0, 0, 0, 0, 1, 0, 0x04, 0x03, 0, 0, 0, 0] ∧
    regionBytes p 1 = [1, 0, 0, 0] ++ zeros 20 ∧
    r (.commandDone .format .failed (some (.writeBlock, .status .worn))) =
      [1, 1, 9, 1, 2, 24, 0, 0, 0, 0, 0, 0, 0, 0x13, 5, 0, 5, 0x13] ∧
    r (.engineHalted (some 0x0A0B0C0D) .applyFailed (some .illegal)) =
      [1, 4, 9, 1, 2, 12, 0, 0, 0, 0x0D, 0x0C, 0x0B, 0x0A, 1, 4, 0, 0, 0] ∧
    r (.journalCorrupt 7 (.unplaced ⟨3, 0x0102⟩)) = [1, 15, 9, 1, 2, 15, 3, 0x02, 0x01, 7, 0, 0, 0, 4, 0, 0, 0, 0] ∧
    r (.moduleStatus .unverified (some (.newest .b .applied))) = [1, 18, 9, 1, 2, 8, 0, 0, 0, 0, 0, 0, 0, 5, 0x25, 0, 0, 0] ∧
    r (.finalDone none) = [1, 22, 9, 1, 2, 0, 0, 0, 0, 0, 0, 0, 0, 0, 0, 0, 0, 0] := by decide +kernel

/-- FORMAT that fails with the module identified meanwhile: UNFORMATTED again (R170, R199); after LOST the status stays (log 48). -/
theorem test_format_failure_hypotheses :
    let p := { flying (.answer .request) (request .format .writeBlock 1 1) (batchIn .idle) with
      pres.status := .unverified, mbox.long := some (.format, .running), mbox.lastLong := true
      mbox.format := some ⟨7, [], .clearA⟩ }
    let t := after (.answerTaken (answer 0x05#8 2 1)) p
    t.pres.status = .unformatted ∧ t.link.state = .identifying ∧ t.mbox.long = some (.format, .failed) ∧
    t.evq.records = [.event (.commandDone .format .failed (some (.writeBlock, .status .writeProtected))) 0 5,
      .event (.moduleStatus .unformatted none) 1 5] ∧
    (formatFailed .writeRun (.cls .framing) { p with link.state := .lost }).pres.status = .unverified := by decide +kernel

/-- A fill reset while accesses of a FILLING block are held (R134). -/
theorem test_fill_reset_hypotheses :
    let p := { ready oneHeld with
      fill.slots := Part.reset.fill.slots.set 0 (.writing blk [] 0 1 false), fill.demandRun := none
      fill.demand := [⟨1, 0⟩], path.own := Part.reset.path.own.set (fillOwn 0 2) .live
      path.held := [heldEntry 0 false .fill, heldEntry 1 false .order] }
    let t := fillReset p
    fillingOrder p = [blk] ∧ t.fill.queue = [⟨1, 0⟩] ∧ t.fill.demand = [blk] ∧
    t.path.own[fillOwn 0 2] = .stale ∧ t.out.host = [⟨0, false, []⟩] ∧
    t.path.held = [heldEntry 1 false .fill] := by decide +kernel

/-- The counts and the reads of recovery outside the cases above: nothing to signal, slot A and slot B (R40, R109). -/
theorem test_quiet_count_and_slot_reads :
    absentCheck 0 (withBlock .mirrored .clean) = withBlock .mirrored .clean ∧ absentCheck 1 Part.reset = Part.reset ∧
    (recovering .readA).eng.recovery.map (fun r => r.newest) = some none ∧
    recoveryRequest (recovering .readA) = some (request .recovery .readBlock 1 1) ∧
    recoveryRequest (recovering (.readB none)) = some (request .recovery .readBlock 2 1) ∧
    (let t := after .busyEnd { flying .busy commitWrite (batchIn .retire) with eng.pauseReq := true }
     t.eng.state = .paused .idle ∧ t.evq.records = [.event (.paused .idle) 0 5]) := by decide +kernel

/-- A withdrawn request, or a write no longer allowed, ends at its error with retries left; a withdrawn write at its busy end (R160). -/
theorem test_given_up_hypotheses :
    let left (c : Instr) (ph : Phase) (q : LinkReq) (p : Part) := (after c (flying ph q p)).link.current
    let gone := { commitWrite with withdrawn := true }
    left .answerTimeout (.answer .request) gone (batchIn .commit) = none ∧
    left .dataTimeout .readBurst { demandRead with withdrawn := true } demanding = none ∧
    left .busyTimeout .busy commitWrite { batchIn .commit with pres.status := .unverified } = none ∧
    left .busyEnd .busy gone (batchIn .commit) = none ∧
    (left .busyTimeout .busy commitWrite (batchIn .commit)).isSome = true := by decide +kernel

/-- Errors at the opening of a run: its answer, the contention on its frame, and its write acknowledges (R148, R157, R206). -/
theorem test_run_opening_hypotheses :
    let p (ph : Phase) := { flying ph journalRun (batchIn .journal) with link.state := .request, link.runOpen := false }
    let class' (c : Instr) (ph : Phase) := (after c (p ph)).link.proc.map fun x => x.cls
    let ok := answer 0x06#8 0 3
    class' (.answerTaken { ok with check := ~~~ ok.check }) (.answer .request) = some .answerCheck ∧
    class' (.answerTaken (answer 0x05#8 0 3)) (.answer .request) = some .echoMismatch ∧
    class' (.answerTaken { ok with stop := false }) (.answer .request) = some .framing ∧
    class' (.answerTaken (answer 0x06#8 5 3)) (.answer .request) = some .framing ∧
    class' (.writeAckTaken 3 true) .writeAck = some .framing ∧ class' (.writeAckTaken 1 false) .writeAck = some .framing ∧
    (let t := after .mioContention (p (.frame .request))
     t.link.proc = none ∧ t.link.phase = .frame .request ∧ t.link.retries = 1) ∧
    (after .mioContention { p (.frame .request) with link.retryCount := 0 }).eng.state = .backoff := by decide +kernel

/-- A QUERY whose answer fails a check, or brings a module status, loses the link (R152, R157, log 15). -/
theorem test_query_untaken_hypotheses :
    let p := { flying (.answer .query) journalRun (batchIn .journal) with
      link.proc := some ⟨.framing, false⟩, pres.status := .unverified }
    let ok := answer 0x02#8 0 0
    ∀ f ∈ [{ ok with check := ~~~ ok.check }, answer 0x03#8 0 0, { ok with stop := false }, answer 0x02#8 5 0, answer 0x02#8 1 0],
      (after (.answerTaken f) p).link.state = .lost ∧
      (after (.answerTaken f) p).evq.records.head? = some (.event (.runCloseError false (.cls .framing)) 0 5) := by
  decide +kernel

/-- A read whose outcome is discarded: no burst is handed, and a run goes on to its end (R116, log 18). -/
theorem test_discarded_read_hypotheses :
    let run (pos : Nat) (p : Part) := after (.readBurstEnd (burst 1 [] []))
      (flying .readBurst { request .recovery .readRun 3 2 with pos := pos, discard := true } p)
    let p := batchIn .idle
    (run 0 p).link.phase = .readAck ∧ (run 0 p).eng = p.eng ∧ (run 1 p).link.close = some .last ∧
    (after (.readBurstEnd (burst 1 [] [])) (flying .readBurst { backgroundRead with discard := true } { p with
      pwr.freeze := true })).link.close = some .yield ∧
    (let t := after (.readBurstEnd (burst 1 [] []))
      (flying .readBurst { request .checkpoint .readBlock 1 1 with discard := true } p)
     t.link.current = none ∧ t.link.state = .ready ∧ t.eng = p.eng) := by decide +kernel

/-- An identification that ends with the status it began with evaluates the regions against the capacity it read (R39, R41); one that
finds another status changes it. -/
theorem test_identification_end_hypotheses :
    let p (st : ModStatus) (capacity : Nat) := { ready (withRecs (.suspended .moduleNotReady) [⟨.clean, none⟩, ⟨.clean, none⟩]) with
      pres.status := st, pres.identity := some { goodIdentity with capacity := capacity }
      pres.header := some ⟨1, 7, 67, true⟩, pres.summary := some (some ⟨.a, .applied, 1⟩) }
    let region (s : Part) := (s.regs[(0 : Fin 8)]).state
    region (identEnd (p .unverified 68)) = .suspended .capacity ∧ (identEnd (p .unverified 68)).evq.records = [] ∧
    region (identEnd (p .unverified 69)) = .suspended .moduleNotReady ∧
    (identEnd (p .mismatched 68)).pres.status = .unverified ∧
    (identEnd (p .mismatched 68)).evq.records = [.event (.moduleStatus .unverified (some (.newest .a .applied))) 0 5] := by
  decide +kernel

end Sys2Proof.Tests
end

section
/-! PROOFS. The block table and the dirty queue: a host read claim (R12), and the commit of one member (R18, R26). -/

namespace Sys2Proof.Machine

/-! ### Acceptance of an access whose block has no held entry -/

/-- Where the age timer stands is a fact about the block table and the regions alone. -/
theorem ageStands_congr {p t : Part} (htbl : t.tbl = p.tbl) (hregs : t.regs = p.regs) (h : AgeStands p) : AgeStands t := by
  simpa only [AgeStands, ageTarget, ageLead, leading, eligibleQueue, regionSuspended, htbl, hregs] using h

theorem askIfAbsent_of_restoring {s : Part} {id : BlockId} (hst : stateOf s id = some (.absent false))
    (hreg : (s.regs[id.region]).state = .restoring) : askIfAbsent id s = { s with fill := s.fill.asked id } := by
  rw [askIfAbsent, if_pos ⟨hst, hreg⟩, demandAsk_eq]

theorem askIfAbsent_of_not_absent {s : Part} {id : BlockId} (hst : stateOf s id ≠ some (.absent false)) :
    askIfAbsent id s = s :=
  if_neg fun h => hst h.1

section Acceptance

variable {s : Part} {r : HostReq} {id : BlockId}

/-- Third case of R48: the access is claimed, and the claim's answer decides. -/
theorem acceptAccess_pass (hd : decodeAddr s r.addr = some id) (hfree : ∀ e ∈ s.path.held, e.id ≠ id)
    (ha : answerOf s r id = .pass) : acceptAccess r s = passAccess r id s := by
  simp [acceptAccess, hd, oldestOf_of_none hfree, ha]

theorem acceptAccess_error (hd : decodeAddr s r.addr = some id) (hfree : ∀ e ∈ s.path.held, e.id ≠ id)
    (ha : answerOf s r id = .error) : acceptAccess r s = respondError r.tag s := by
  simp [acceptAccess, hd, oldestOf_of_none hfree, ha]

theorem acceptAccess_holdFill (hd : decodeAddr s r.addr = some id) (hfree : ∀ e ∈ s.path.held, e.id ≠ id)
    (ha : answerOf s r id = .hold .fill) : acceptAccess r s = joinHeld r id .fill (askIfAbsent id s) := by
  simp [acceptAccess, hd, oldestOf_of_none hfree, ha]

end Acceptance

/-- A request accepted in a quiet part, whose acceptance leaves the block table and the regions as they were: the step brings
about nothing more, the age timer included. -/
theorem exec_accept_of_tableKept {p t : Part} {r : HostReq} (rest : List Instr) (hq : Quiet p)
    (htag : p.path.tags[r.tag] = .idle) (hroom : p.path.held.length < 8)
    (hacc : acceptAccess r { p with path.port := [r] } = { t with path.port := [r] })
    (htbl : t.tbl = p.tbl) (hregs : t.regs = p.regs) (hport : t.path.port = []) :
    exec (.hostRequestAccepted r) ⟨p, rest⟩ = .next ⟨t, rest⟩ := by
  have ⟨_, _, hage⟩ := hq
  have hback : ({ ({ t with path.port := [r] } : Part) with path.port := [] } : Part) = t := by rw [← hport]
  rw [accept_of_quiet rest hq htag hroom, hacc, hback, retime_of_quiet (ageStands_congr htbl hregs hage)]

/-! ### The answer to a read claim, line by line (R12) -/

section ReadAnswer

variable {s : Part} {r : HostReq} {id : BlockId}

theorem answerOf_read (hr : r.write = false) : answerOf s r id = readAnswer s id := by simp [answerOf, hr]

theorem readAnswer_unreadable (hst : stateOf s id = some (.absent true)) : readAnswer s id = .error := by
  simp [readAnswer, hst]

theorem readAnswer_absent_suspended {why : SuspendReason} (hst : stateOf s id = some (.absent false))
    (hreg : (s.regs[id.region]).state = .suspended why) : readAnswer s id = .error := by
  have hsusp : regionSuspended s id.region = true := by rw [regionSuspended, hreg]
  simp [readAnswer, hst, hsusp]

theorem readAnswer_absent_restoring (hst : stateOf s id = some (.absent false))
    (hreg : (s.regs[id.region]).state = .restoring) : readAnswer s id = .hold .fill := by
  have hsusp : regionSuspended s id.region = false := by rw [regionSuspended, hreg]
  simp [readAnswer, hst, hsusp]

theorem readAnswer_filling (hst : stateOf s id = some .filling) : readAnswer s id = .hold .fill := by
  simp [readAnswer, hst]

/-- CAPTURING is among the resident states: a read passes it. -/
theorem readAnswer_resident {st : BlockState} (hst : stateOf s id = some st) (hback : st.notBack = false) :
    readAnswer s id = .pass := by
  cases st with
  | absent unreadable => simp [BlockState.notBack] at hback
  | filling => simp [BlockState.notBack] at hback
  | clean => simp [readAnswer, hst]
  | dirty since => simp [readAnswer, hst]
  | capturing slot => simp [readAnswer, hst]
  | captured slot => simp [readAnswer, hst]
  | redirtied since slot => simp [readAnswer, hst]

end ReadAnswer

/-! ### The read claim -/

/-- Settles O8: the answer of R12 is found line by line, and the acceptance it leads to keeps the block table. -/
theorem readClaim : Obligations.ReadClaim := by
  intro p rest r id hq htag hroom hr hd hfree error heldFill passed
  have ⟨hport, _, _⟩ := hq
  let q : Part := { p with path.port := [r] }
  have hans : answerOf q r id = readAnswer p id := answerOf_read hr
  have herror (ha : readAnswer p id = .error) : exec (.hostRequestAccepted r) ⟨p, rest⟩ = .next ⟨error, rest⟩ :=
    exec_accept_of_tableKept rest hq htag hroom (acceptAccess_error (s := q) hd hfree (hans.trans ha)) rfl rfl hport
  have hfill (ha : readAnswer p id = .hold .fill) := acceptAccess_holdFill (s := q) hd hfree (hans.trans ha)
  refine ⟨fun hst => ?unreadable, fun why hst hreg => ?suspended, fun hst hreg => ?restoring, fun hst => ?filling,
    fun st hst hback => ?resident⟩
  case unreadable => exact herror (readAnswer_unreadable hst)
  case suspended => exact herror (readAnswer_absent_suspended hst hreg)
  case restoring =>
    have hacc := hfill (readAnswer_absent_restoring hst hreg)
    rw [askIfAbsent_of_restoring (s := q) hst hreg] at hacc
    exact exec_accept_of_tableKept rest hq htag hroom hacc rfl rfl hport
  case filling =>
    have hacc := hfill (readAnswer_filling hst)
    have hnot : stateOf q id ≠ some (.absent false) := fun h => by cases hst.symm.trans h
    rw [askIfAbsent_of_not_absent hnot] at hacc
    exact exec_accept_of_tableKept rest hq htag hroom hacc rfl rfl hport
  case resident =>
    have hacc := acceptAccess_pass (s := q) hd hfree (hans.trans (readAnswer_resident hst hback))
    rw [passAccess, hr] at hacc
    exact exec_accept_of_tableKept rest hq htag hroom hacc rfl rfl hport

/-! ### The commit of one member (R18, R26) -/

@[simp] theorem recOf_joinTail (id x : BlockId) (joined : Time) (s : Part) : recOf (joinTail id joined s) x = recOf s x := rfl

@[simp] theorem markCount_joinTail (id : BlockId) (joined : Time) (s : Part) : markCount (joinTail id joined s) = markCount s := rfl

/-- A record written where it gives no new mark: the sync-mark count falls by one exactly when it takes one away (R26, R27). -/
theorem markCount_setRec_of_noNewMark {s : Part} {id : BlockId} {b r : BlockRec} (h : recOf s id = some b)
    (hnew : b.mark = none → r.mark = none) :
    markCount (setRec id r s) + (if b.mark ≠ none ∧ r.mark = none then 1 else 0) = markCount s := by
  have hcount : markCount (setRec id r s) + b.mark.isSome.toNat = markCount s + r.mark.isSome.toNat :=
    countRecs_setRec (fun x => x.mark.isSome) id r b s h
  cases hb : b.mark with
  | none => simpa [hb, hnew hb] using hcount
  | some m => cases hr : r.mark <;> simp_all

@[simp] theorem commitMark_false (m : Option Mark) : commitMark false m = none := by
  cases m with
  | none => rfl
  | some m => cases m <;> rfl

@[simp] theorem commitMark_none (redirtied : Bool) : commitMark redirtied none = none := rfl

@[simp] theorem commitMark_pending (redirtied : Bool) : commitMark redirtied (some .pending) = none := rfl

@[simp] theorem commitMark_carry_redirtied : commitMark true (some .carry) = some .pending := rfl

section Commit

variable {p : Part} {e : Staged} {b : BlockRec}

theorem commitMember_captured {slot : Nat} (h : recOf p e.id = some b) (hst : b.state = .captured slot) :
    commitMember p e = setRec e.id ⟨.clean, none⟩ p := by
  simp [commitMember, h, hst]

theorem commitMember_redirtied {since : Time} {slot : Nat} (h : recOf p e.id = some b) (hst : b.state = .redirtied since slot) :
    commitMember p e = joinTail e.id since (setRec e.id ⟨.dirty since, commitMark true b.mark⟩ p) := by
  simp [commitMember, h, hst]

/-- The record of a REDIRTIED member after its commit (R26). -/
theorem recOf_commitMember_redirtied {since : Time} {slot : Nat} (h : recOf p e.id = some b)
    (hst : b.state = .redirtied since slot) :
    recOf (commitMember p e) e.id = some ⟨.dirty since, commitMark true b.mark⟩ := by
  rw [commitMember_redirtied h hst, recOf_joinTail, recOf_setRec_self _ _ _ _ h]

theorem recOf_commitMember_other {id : BlockId} (h : recOf p e.id = some b) (hid : id ≠ e.id) :
    recOf (commitMember p e) id = recOf p id := by
  cases hst : b.state with
  | captured slot => rw [commitMember_captured h hst, recOf_setRec_other _ _ _ _ hid]
  | redirtied since slot => rw [commitMember_redirtied h hst, recOf_joinTail, recOf_setRec_other _ _ _ _ hid]
  | absent unreadable => simp [commitMember, h, hst]
  | filling => simp [commitMember, h, hst]
  | clean => simp [commitMember, h, hst]
  | dirty since => simp [commitMember, h, hst]
  | capturing slot => simp [commitMember, h, hst]

/-- The members a commit finds: a batch is committed when none is CAPTURING any more. -/
theorem captured_or_redirtied_of_isMember {st : BlockState} (hmem : st.isMember = true) (hcap : ∀ slot, st ≠ .capturing slot) :
    (∃ slot, st = .captured slot) ∨ ∃ since slot, st = .redirtied since slot := by
  cases st with
  | captured slot => exact .inl ⟨slot, rfl⟩
  | redirtied since slot => exact .inr ⟨since, slot, rfl⟩
  | capturing slot => exact absurd rfl (hcap slot)
  | absent unreadable => cases hmem
  | filling => cases hmem
  | clean => cases hmem
  | dirty since => cases hmem

theorem markCount_commitMember {b' : BlockRec} (h : recOf p e.id = some b) (hmem : b.state.isMember = true)
    (hcap : ∀ slot, b.state ≠ .capturing slot) (h' : recOf (commitMember p e) e.id = some b') :
    markCount (commitMember p e) + (if b.mark ≠ none ∧ b'.mark = none then 1 else 0) = markCount p := by
  obtain ⟨slot, hst⟩ | ⟨since, slot, hst⟩ := captured_or_redirtied_of_isMember hmem hcap
  · rw [commitMember_captured h hst] at h' ⊢
    obtain rfl := Option.some.inj ((recOf_setRec_self _ _ _ _ h).symm.trans h')
    exact markCount_setRec_of_noNewMark h fun _ => rfl
  · obtain rfl := Option.some.inj ((recOf_commitMember_redirtied h hst).symm.trans h')
    rw [commitMember_redirtied h hst, markCount_joinTail]
    exact markCount_setRec_of_noNewMark h fun hb => by rw [hb, commitMark_none]

end Commit

/-- Settles O31: by the state of the member's record, CAPTURED or REDIRTIED. -/
theorem commitChangesStateAndMark : Obligations.CommitChangesStateAndMark := by
  intro p e b h t
  refine ⟨fun slot hst _ => ?captured, fun since slot hst => ?redirtied, fun hmem hcap b' h' => ?count,
    fun id hid => ?other, rfl⟩
  case captured =>
    have ht : t = setRec e.id ⟨.clean, none⟩ p := commitMember_captured h hst
    rw [ht]
    exact ⟨rfl, recOf_setRec_self _ _ _ _ h⟩
  case redirtied =>
    have hqueue : t.tbl.queue = p.tbl.queue ++ [⟨e.id, since⟩] :=
      congrArg (fun s : Part => s.tbl.queue) (commitMember_redirtied h hst)
    have hrec : recOf t e.id = some ⟨.dirty since, commitMark true b.mark⟩ := recOf_commitMember_redirtied h hst
    exact ⟨hqueue, fun hm => by rw [hrec, hm, commitMark_carry_redirtied], fun hm => by rw [hrec, hm, commitMark_pending],
      fun hm => by rw [hrec, hm, commitMark_none]⟩
  case count => exact markCount_commitMember h hmem hcap h'
  case other => exact recOf_commitMember_other h hid

end Sys2Proof.Machine
end

section
/-! PROOFS. The machine: what a step answers, the values after reset, and the bounds every step keeps. -/

namespace Sys2Proof.Machine

/-! ### A step of the queue -/

/-- Settles O1. -/
theorem stepTakesTheFrontCommand : Obligations.StepTakesTheFrontCommand := by
  intro c rest p
  rw [step]

theorem idle_next {s : State} (h : s.part.now + 1 < Config.timeEnd) :
    idle s = .next { s with part := { s.part with now := s.part.now + 1 } } := if_pos h

theorem idle_fault {s : State} (h : ¬ s.part.now + 1 < Config.timeEnd) : idle s = .fault .timeBaseEnd := if_neg h

/-- Settles O2: by the two branches of the idle step, at the end of the 48-bit count. -/
theorem emptyQueuePassesOneMillisecond : Obligations.EmptyQueuePassesOneMillisecond := by
  intro p
  exact ⟨fun h => idle_next h, fun h => idle_fault (Nat.not_lt.mpr h)⟩

/-! ### Every command keeps the bounds and the queue -/

/-- A command that acts as a change of the part, where that change keeps each bound. -/
theorem onPart_keeps {f : Part → Part} (hf : ∀ (b : Bound) (s : Part), s.Holds b → (f s).Holds b) (s : State) :
    ∃ t, onPart f s = .next ⟨t, s.pending⟩ ∧ ∀ b, s.part.Holds b → t.Holds b :=
  ⟨f s.part, rfl, fun b => hf b s.part⟩

/-- What a management command does once it has been taken keeps each bound: so does the command. -/
theorem onPart_takeCommand_keeps (code : Byte) (args : List Byte) {effect : Part → Part}
    (he : ∀ (b : Bound) (s : Part), s.Holds b → (effect s).Holds b) (s : State) :
    ∃ t, onPart (takeCommand code args effect) s = .next ⟨t, s.pending⟩ ∧ ∀ b, s.part.Holds b → t.Holds b :=
  onPart_keeps (fun b _ => takeCommand_holds code args (he b)) s

/-- Every command answers a next state with the queue's rest as it was, and keeps each bound. -/
theorem exec_keeps (c : Instr) (s : State) :
    ∃ t, exec c s = .next ⟨t, s.pending⟩ ∧ ∀ b, s.part.Holds b → t.Holds b := by
  cases c with
  | powerOnReset a1 a0 m f => exact onPart_keeps (fun b p _ => powerOn_holds a1 a0 m f b p) s
  | hostRequestAccepted r =>
    rw [exec, execHostRequestAccepted]
    exact onPart_keeps (fun _ _ h => settle_holds (by simpa using h)) s
  | holdLimitExpiry tag => exact onPart_keeps (fun _ _ h => settle_holds (expireTag_holds tag h)) s
  | memoryPortGrant => exact onPart_keeps (fun _ _ h => arbiterGrant_holds h) s
  | hostMemoryResponse tag ok data =>
    rw [exec, execHostMemoryResponse]
    refine onPart_keeps (fun _ p h => ?_) s
    split
    · split <;> simp [h]
    · exact h
  | captureReadResponse k ok data =>
    exact onPart_keeps (fun _ _ h => finishReset_holds (settle_holds (captureResponse_holds k ok data h))) s
  | fillWriteResponse g k ok => exact onPart_keeps (fun _ _ h => fillResponse_holds g k ok h) s
  | ageTimerExpiry =>
    rw [exec, execAgeTimerExpiry]
    exact onPart_keeps (fun _ _ h => by split <;> simpa using h) s
  | batchStart =>
    rw [exec, execBatchStart]
    exact onPart_keeps (fun _ _ h => by split <;> simp [h]) s
  | backoffExpiry =>
    rw [exec, execBackoffExpiry]
    exact onPart_keeps (fun _ _ h => by split <;> simp [h]) s
  | recoveryRetryExpiry =>
    rw [exec, execRecoveryRetryExpiry]
    exact onPart_keeps (fun _ _ h => by split <;> simpa using h) s
  | recoveryStart =>
    rw [exec, execRecoveryStart]
    exact onPart_keeps (fun _ _ h => by split <;> simp [h]) s
  | linkGrant => exact onPart_keeps (fun _ _ h => settle_holds (linkGrant_holds h)) s
  | requestFrameSent => exact onPart_keeps (fun _ _ h => frameSent_holds h) s
  | mioContention =>
    rw [exec, execMioContention]
    exact onPart_keeps (fun _ _ h => by split <;> simp [h]) s
  | answerTaken frame =>
    rw [exec, execAnswerTaken]
    exact onPart_keeps (fun _ _ h => by split <;> simp [h]) s
  | answerTimeout =>
    rw [exec, execAnswerTimeout]
    exact onPart_keeps (fun _ _ h => by split <;> simp [h]) s
  | readBurstEnd burst =>
    rw [exec, execReadBurstEnd]
    exact onPart_keeps (fun _ _ h => by split <;> simp [h]) s
  | dataTimeout =>
    rw [exec, execDataTimeout]
    exact onPart_keeps (fun _ _ h => by split <;> simp [h]) s
  | writeBurstSent =>
    rw [exec, execWriteBurstSent]
    exact onPart_keeps (fun _ _ h => by split <;> simp [h]) s
  | writeAckTaken code stop =>
    rw [exec, execWriteAckTaken]
    exact onPart_keeps (fun _ _ h => by split <;> simp [h]) s
  | busyEnd =>
    rw [exec, execBusyEnd]
    exact onPart_keeps (fun _ _ h => by split <;> simp [h]) s
  | busyTimeout =>
    rw [exec, execBusyTimeout]
    exact onPart_keeps (fun _ _ h => by split <;> simp [h]) s
  | readAcknowledgeSent =>
    rw [exec, execReadAcknowledgeSent]
    exact onPart_keeps (fun _ _ h => by split <;> simp [h]) s
  | mpresRise =>
    rw [exec, execMpresRise]
    exact onPart_keeps (fun _ _ h => by split <;> simp [h]) s
  | mpresFall =>
    rw [exec, execMpresFall]
    exact onPart_keeps (fun _ _ h => by split <;> simp [h]) s
  | settleTimerExpiry =>
    rw [exec, execSettleTimerExpiry]
    exact onPart_keeps (fun _ _ h => by split <;> simp [h]) s
  | pfwAsserted =>
    rw [exec, execPfwAsserted]
    exact onPart_keeps (fun _ _ h => by split <;> simp [h]) s
  | pfwWithdrawn =>
    rw [exec, execPfwWithdrawn]
    exact onPart_keeps (fun _ _ h => by split <;> simp [h]) s
  | finalDeadlineExpiry =>
    rw [exec, execFinalDeadlineExpiry]
    exact onPart_keeps (fun _ _ h => by split <;> simp [h]) s
  | windowWrite address bytes =>
    rw [exec, execWindowWrite]
    refine onPart_keeps (fun _ p h => ?_) s
    split
    · exact orHold_holds bytes (fun _ => windowTransaction_holds bytes) h
    · exact h
  | badCommand code => exact onPart_takeCommand_keeps _ _ (fun _ _ => refuse_holds .badCommand) s
  | setRegion r ram size home => exact onPart_takeCommand_keeps _ _ (fun _ _ => setRegion_holds r ram size home) s
  | attach r mode => exact onPart_takeCommand_keeps _ _ (fun _ _ => attach_holds r mode) s
  | detach r => exact onPart_takeCommand_keeps _ _ (fun _ _ => detach_holds r) s
  | checkpoint => exact onPart_takeCommand_keeps _ _ (fun _ _ => checkpoint_holds) s
  | pause => exact onPart_takeCommand_keeps _ _ (fun _ _ => pause_holds) s
  | resume => exact onPart_takeCommand_keeps _ _ (fun _ _ => resume_holds) s
  | setBinding n => exact onPart_takeCommand_keeps _ _ (fun _ _ => setBinding_holds n) s
  | setLimits sel v => exact onPart_takeCommand_keeps _ _ (fun _ _ => setLimits_holds sel v) s
  | setEventMasks k c a => exact onPart_takeCommand_keeps _ _ (fun _ _ => setEventMasks_holds k c a) s
  | clearFault => exact onPart_takeCommand_keeps _ _ (fun _ _ => clearFault_holds) s
  | queryBlock r i => exact onPart_takeCommand_keeps _ _ (fun _ _ => queryBlock_holds r i) s
  | queryRegion r => exact onPart_takeCommand_keeps _ _ (fun _ _ => queryRegion_holds r) s
  | readEvent => exact onPart_takeCommand_keeps _ _ (fun _ _ => readEvent_holds) s
  | cancel => exact onPart_takeCommand_keeps _ _ (fun _ _ => cancel_holds) s
  | sync => exact onPart_takeCommand_keeps _ _ (fun _ _ => sync_holds) s
  | format mode => exact onPart_takeCommand_keeps _ _ (fun _ _ => format_holds mode) s
  | resetLink =>
    exact onPart_takeCommand_keeps _ _ (fun _ _ h => settle_holds (complete_holds [] (resetLink_holds h))) s
  | resetEngine => exact onPart_takeCommand_keeps _ _ (fun _ _ => resetEngine_holds) s
  | resetAll => exact onPart_takeCommand_keeps _ _ (fun b p _ => resetAll_holds b p) s

/-- Settles O3: every arm of `exec` is a change of the part alone. -/
theorem everyCommandAnswersANextState : Obligations.EveryCommandAnswersANextState := by
  intro c p rest
  obtain ⟨t, ht, _⟩ := exec_keeps c ⟨p, rest⟩
  exact ⟨t, ht⟩

/-! ### The bounds -/

/-- Passing time is no part of any bound. -/
theorem idle_keeps {s t : State} (h : idle s = .next t) (b : Bound) (hs : s.part.Holds b) : t.part.Holds b := by
  by_cases hnow : s.part.now + 1 < Config.timeEnd
  · rw [idle_next hnow] at h
    obtain rfl := Host.Outcome.next.inj h
    exact hs
  · rw [idle_fault hnow] at h
    cases h

/-- A step takes the front command or passes one millisecond; both keep each bound. -/
theorem step_keeps {s t : State} (h : step s = .next t) (b : Bound) (hs : s.part.Holds b) : t.part.Holds b := by
  obtain ⟨p, pending⟩ := s
  cases pending with
  | nil => exact idle_keeps h b hs
  | cons c rest =>
    obtain ⟨u, hu, hkeep⟩ := exec_keeps c ⟨p, rest⟩
    have hnext := hu.symm.trans h
    obtain rfl := Host.Outcome.next.inj hnext
    exact hkeep b hs

/-- Settles O59: one step lemma for the five bounds, by the command at the front of the queue. -/
theorem everyStepKeepsTheBounds : Obligations.EveryStepKeepsTheBounds := by
  intro s t h
  have hstep := step_keeps h
  exact ⟨hstep .events, hstep .held, hstep .priority,
    fun hs => (holds_limits _).mp (hstep .limits ((holds_limits _).mpr hs)), hstep .records⟩

/-- Settles O60: the reset state is the one `resetBlocks` makes of itself. -/
theorem theBoundsHoldAfterReset : Obligations.TheBoundsHoldAfterReset := by
  have hreset (b : Bound) : Part.reset.Holds b := by
    have h := resetBlocks_holds Part.reset.mbox b Part.reset
    cases b <;> exact h
  exact ⟨hreset .events, hreset .held, hreset .priority, (holds_limits _).mp (hreset .limits), hreset .records⟩

/-! ### The values after reset -/

theorem countRecs_reset (P : BlockRec → Bool) : countRecs P Part.reset = 0 := rfl

theorem alertEnables_reset : ∀ k : Fin 25, EventQueue.reset.alert[k] = true ↔
    k = 3 ∨ k = 4 ∨ k = 11 ∨ k = 14 ∨ k = 20 ∨ k = 22 ∨ k = 24 := by decide

/-- Settles O4: each value is the one its block's reset record gives. -/
theorem resetHoldsTheGivenValues : Obligations.ResetHoldsTheGivenValues := by
  let p := State.reset.part
  have hrec (r : Fin 8) : p.tbl.recs[r] = [] ∧ p.regs[r] = ⟨.off, 0, 0, 0⟩ := by
    constructor <;> exact Vector.getElem_replicate r.isLt
  have hthr (n : Fin 4) : p.tbl.thresholds[n] = 0 := Vector.getElem_replicate n.isLt
  have hslot (i : Fin 8) : p.fill.slots[i] = .free := Vector.getElem_replicate i.isLt
  have hcap (k : Fin 25) : p.evq.capture[k] = true := Vector.getElem_replicate k.isLt
  have harg (i : Fin 15) : p.mbox.args[i] = 0 := Vector.getElem_replicate i.isLt
  have halert := alertEnables_reset
  have hdirty : dirtyCount p = 0 := countRecs_reset _
  have hmark : markCount p = 0 := countRecs_reset _
  exact ⟨rfl, rfl, hrec, rfl, rfl, hthr, rfl, rfl, hdirty, hmark, rfl, rfl, rfl, rfl, rfl, rfl, rfl, rfl, rfl, rfl, rfl, rfl,
    rfl, rfl, rfl, rfl, rfl, rfl, rfl, rfl, hslot, rfl, rfl, rfl, rfl, rfl, rfl, rfl, rfl, rfl, rfl, rfl, rfl, rfl, rfl, rfl,
    rfl, rfl, rfl, rfl, rfl, rfl, rfl, rfl, rfl, rfl, hcap, halert, rfl, rfl, rfl, rfl, harg, rfl⟩

end Sys2Proof.Machine
end

section
/-! PROOFS. The path unit: address decode, acceptance, the write claim, the age timer, expiry and release of held accesses. -/

namespace Sys2Proof.Machine

/-! ### Address decode (R33) -/

theorem regionHolds_iff (g : Region) (a : Nat) :
    regionHolds g a = true ↔ g.state ≠ .off ∧ g.ramBase.toNat ≤ a ∧ a < g.ramBase.toNat + 256 * g.size := by
  simp [regionHolds]

theorem not_regionHolds_iff (g : Region) (a : Nat) :
    ¬ regionHolds g a = true ↔ g.state = .off ∨ a < g.ramBase.toNat ∨ g.ramBase.toNat + 256 * g.size ≤ a := by
  rw [regionHolds_iff, not_and_or, not_not, not_and_or, Nat.not_le, Nat.not_lt]

theorem decodeAddr_outside {p : Part} {a : U32} (h : ∀ r : Fin 8, ¬ regionHolds p.regs[r] a.toNat = true) :
    decodeAddr p a = none := by
  rw [decodeAddr, List.find?_eq_none.mpr fun r _ => h r, Option.map_none]

/-- The search through the regions finds the one region that holds the address. -/
theorem decodeAddr_inside {p : Part} {a : U32} {r : Fin 8} (hr : regionHolds p.regs[r] a.toNat = true)
    (hother : ∀ q : Fin 8, q ≠ r → ¬ regionHolds p.regs[q] a.toNat = true) :
    decodeAddr p a = some ⟨r, (a.toNat - (p.regs[r]).ramBase.toNat) / 256⟩ := by
  have hfind : (List.finRange 8).find? (fun q => regionHolds p.regs[q] a.toNat) = some r := by
    cases hq : (List.finRange 8).find? (fun q => regionHolds p.regs[q] a.toNat) with
    | none => exact absurd hr (List.find?_eq_none.mp hq r (List.mem_finRange r))
    | some q =>
      by_contra hne
      exact hother q (fun e => hne (congrArg some e)) (List.find?_some (p := fun q => regionHolds p.regs[q] a.toNat) hq)
  rw [decodeAddr, hfind, Option.map_some]

/-- Settles O7: the region whose RAM range holds the address, or none. -/
theorem addressDecode : Obligations.AddressDecode := by
  intro p a
  refine ⟨fun hout => decodeAddr_outside fun r => (not_regionHolds_iff _ _).mpr (hout r), ?_⟩
  intro r hoff hlow hhigh hother
  exact decodeAddr_inside ((regionHolds_iff _ _).mpr ⟨hoff, hlow, hhigh⟩)
    fun q hq => (not_regionHolds_iff _ _).mpr (hother q hq)

/-! ### The age timer (R11) -/

theorem ageLead_eq_none {p : Part} (h : p.tbl.interval = 0 ∨ eligibleQueue p = []) : ageLead p = none := by
  rw [ageLead]
  split
  · rfl
  · next hint => rw [leading, h.resolve_left hint, List.head?_nil]

theorem ageLead_eq_some {p : Part} {e : QEntry} {more : List QEntry} (hint : p.tbl.interval ≠ 0)
    (hq : eligibleQueue p = e :: more) : ageLead p = some e := by
  rw [ageLead, if_neg hint, leading, hq, List.head?_cons]

theorem retime_of_changed {p : Part} (h : ¬ AgeStands p) :
    retime p = { p with tbl.age := { lead := ageLead p, target := ageTarget p, reached := match ageTarget p with
        | some t => decide (t ≤ p.now)
        | none => false } } := if_neg h

/-- Settles O10: the timer stands at its entry's time already, or is set anew. -/
theorem ageTimerFollowsTheLeadingEntry : Obligations.AgeTimerFollowsTheLeadingEntry := by
  intro p
  refine ⟨fun hnone => ?_, fun e more hint hq => ?_⟩
  · have hlead := ageLead_eq_none hnone
    have htarget : ageTarget p = none := by rw [ageTarget, hlead, Option.map_none]
    refine ⟨fun h1 h2 => retime_of_quiet ⟨hlead.trans h1.symm, htarget.trans h2.symm⟩, fun h => ?_⟩
    have hchanged : ¬ AgeStands p := fun ⟨k1, k2⟩ =>
      h.elim (fun h1 => h1 (k1.symm.trans hlead)) fun h2 => h2 (k2.symm.trans htarget)
    simp [retime_of_changed hchanged, hlead, htarget]
  · have hlead := ageLead_eq_some hint hq
    have htarget : ageTarget p = some (e.joined + p.tbl.interval) := by rw [ageTarget, hlead, Option.map_some]
    refine ⟨fun h1 h2 => retime_of_quiet ⟨hlead.trans h1.symm, htarget.trans h2.symm⟩, fun h => ?_⟩
    have hchanged : ¬ AgeStands p := fun ⟨k1, k2⟩ =>
      h.elim (fun h1 => h1 (k1.symm.trans hlead)) fun h2 => h2 (k2.symm.trans htarget)
    simp [retime_of_changed hchanged, hlead, htarget]

/-! ### Claims again, and the walks of the releases (R49, R52 to R55) -/

section Reclaim

variable {p : Part} {e : Held}

theorem reclaim_pass (h : answerOf p e.req e.id = .pass) :
    reclaim e p = (passAccess e.req e.id (dropHeld e.req.tag p), true) := by simp [reclaim, h]

theorem reclaim_error (h : answerOf p e.req e.id = .error) :
    reclaim e p = (respondError e.req.tag (dropHeld e.req.tag p), true) := by simp [reclaim, h]

theorem reclaim_holdFill (h : answerOf p e.req e.id = .hold .fill) :
    reclaim e p = (reHold e.req.tag .fill (askIfAbsent e.id p), false) := by simp [reclaim, h]

theorem reclaim_hold {why : HoldReason} (h : answerOf p e.req e.id = .hold why) (hwhy : why ≠ .fill) :
    reclaim e p = (reHold e.req.tag why p, false) := by
  cases why with
  | fill => exact absurd rfl hwhy
  | capture => simp [reclaim, h]
  | budget => simp [reclaim, h]
  | freeze => simp [reclaim, h]
  | order => simp [reclaim, h]

end Reclaim

section Walk

variable {p t : Part} {id : BlockId} {e : Held}

theorem releaseBlock_of_noHeld (h : ∀ e ∈ p.path.held, e.id ≠ id) : releaseBlock id p = p := by
  rw [releaseBlock]
  cases p.path.held.length with
  | zero => rfl
  | succ n => rw [walkBlock, oldestOf_of_none h]

theorem walkBlock_left (n : Nat) (he : oldestOf p id = some e) (hc : reclaim e p = (t, true)) :
    walkBlock (n + 1) id p = walkBlock n id t := by
  simp [walkBlock, he, hc]

theorem walkBlock_held (n : Nat) (he : oldestOf p id = some e) (hc : reclaim e p = (t, false)) :
    walkBlock (n + 1) id p = t := by
  simp [walkBlock, he, hc]

theorem exists_length_of_oldest (he : oldestOf p id = some e) : ∃ n, p.path.held.length = n + 1 :=
  have ⟨hmem, _⟩ := oldestOf_mem he
  Nat.exists_eq_succ_of_ne_zero (List.length_pos_of_mem hmem).ne'

/-- The walk's bound is as many claims as there are entries, so one is left for the oldest. -/
theorem releaseBlock_of_left (he : oldestOf p id = some e) (hc : reclaim e p = (t, true))
    (hlt : t.path.held.length < p.path.held.length) : releaseBlock id p = releaseBlock id t := by
  obtain ⟨n, hn⟩ := exists_length_of_oldest he
  rw [releaseBlock, hn, walkBlock_left n he hc, releaseBlock]
  exact walkBlock_of_enough _ _ _ _ (by omega) le_rfl

theorem releaseBlock_of_held (he : oldestOf p id = some e) (hc : reclaim e p = (t, false)) : releaseBlock id p = t := by
  obtain ⟨n, hn⟩ := exists_length_of_oldest he
  rw [releaseBlock, hn, walkBlock_held n he hc]

theorem askIfAbsent_of_not {s : Part} (h : stateOf s id ≠ some (.absent false) ∨ (s.regs[id.region]).state ≠ .restoring) :
    askIfAbsent id s = s :=
  if_neg fun ⟨h1, h2⟩ => h.elim (fun k => k h1) fun k => k h2

end Walk

theorem failFillHolds_of_noHeld {p : Part} {id : BlockId} (h : ∀ e ∈ p.path.held, e.id ≠ id) : failFillHolds id p = p := by
  rw [failFillHolds, oldestOf_of_none h]

theorem failFillHolds_of_oldest {p : Part} {id : BlockId} {e : Held} (he : oldestOf p id = some e) :
    failFillHolds id p = if e.reason = .fill then releaseBlock id (respondError e.req.tag (dropHeld e.req.tag p)) else p := by
  rw [failFillHolds, he]

theorem heldFor_eq (p : Part) (why : HoldReason) :
    heldFor p why = (p.path.held.filter fun e => e.reason = why).map fun e => e.req.tag := by
  rw [heldFor]
  exact congrArg _ (List.filter_congr fun e _ => by rw [Bool.eq_iff_iff]; simp)

theorem heldAs_iff (p : Part) (why : HoldReason) (tag : Fin 16) :
    heldAs p why tag = true ↔ ∃ e, heldByTag p tag = some e ∧ e.reason = why := by
  cases h : heldByTag p tag <;> simp [heldAs, h]

theorem releaseEntry_of_held {p : Part} {why : HoldReason} {tag : Fin 16} {e : Held} (he : heldByTag p tag = some e)
    (hr : e.reason = why) : releaseEntry why p tag = releaseBlock e.id p := by
  simp [releaseEntry, he, hr]

theorem releaseEntry_of_other {p : Part} {why : HoldReason} {tag : Fin 16}
    (h : ∀ e, heldByTag p tag = some e → e.reason ≠ why) : releaseEntry why p tag = p := by
  cases he : heldByTag p tag with
  | none => simp [releaseEntry, he]
  | some e => simp [releaseEntry, he, h e he]

/-- Settles O12: the oldest entry's claim decides whether the walk goes on, by the answer to it. -/
theorem blockReleaseWalk : Obligations.BlockReleaseWalk := by
  intro p id
  refine ⟨releaseBlock_of_noHeld, fun e he => ?oldest, failFillHolds_of_noHeld, ?budget, rfl, fun tag more => ?walk,
    ?freeze, fun why tag => ⟨releaseEntry_of_other, fun e he hr => releaseEntry_of_held he hr⟩⟩
  case oldest =>
    intro left
    obtain ⟨hmem, hid⟩ := oldestOf_mem he
    subst hid
    have hlt : left.path.held.length < p.path.held.length := heldWithout_lt hmem
    refine ⟨fun ha hw => ?passRead, fun ha hw => ?passWrite, fun ha => ?error, fun why ha hwhy => ?held, fun ha => ?fill,
      fun hr => ?other, fun hr => ?failed⟩
    case passRead => exact releaseBlock_of_left he ((reclaim_pass ha).trans (by rw [passAccess, hw]; rfl)) hlt
    case passWrite =>
      refine releaseBlock_of_left he ((reclaim_pass ha).trans (by rw [passAccess, hw]; rfl)) ?_
      rw [forward_path, performWrite_path]
      exact hlt
    case error => exact releaseBlock_of_left he (reclaim_error ha) hlt
    case held => exact releaseBlock_of_held he (reclaim_hold ha hwhy)
    case fill =>
      refine ⟨fun hst hreg => ?_, fun hnot => ?_⟩
      · rw [releaseBlock_of_held he (reclaim_holdFill ha), askIfAbsent_of_restoring hst hreg]
        rfl
      · rw [releaseBlock_of_held he (reclaim_holdFill ha), askIfAbsent_of_not hnot]
        rfl
    case other => rw [failFillHolds_of_oldest he, if_neg hr]
    case failed =>
      rw [failFillHolds_of_oldest he, if_pos hr]
      rfl
  case budget => rw [budgetRelease, heldFor_eq]
  case walk =>
    intro t
    refine ⟨fun h => ?_, fun h => ?_⟩
    · rw [budgetWalk, if_pos ((heldAs_iff _ _ _).mpr h)]
    · rw [budgetWalk, if_neg fun k => ?_]
      obtain ⟨e, he, hr⟩ := (heldAs_iff _ _ _).mp k
      exact h e he hr
  case freeze => rw [freezeRelease, heldFor_eq]

/-! ### The hold limit (R56) -/

theorem holdReached_iff (p : Part) (e : Held) :
    holdReached p e = true ↔ p.path.holdLimit ≠ 0 ∧ e.since + p.path.holdLimit ≤ p.now := decide_eq_true_iff

theorem expireTag_of_reached {p : Part} {e : Held} (he : heldByTag p e.req.tag = some e) (h : holdReached p e = true) :
    expireTag p e.req.tag = expireEntry e p := by
  rw [expireTag, he]
  exact if_pos h

theorem expireTag_of_not_reached {p : Part} {e : Held} (he : heldByTag p e.req.tag = some e)
    (h : ¬ holdReached p e = true) : expireTag p e.req.tag = p := by
  rw [expireTag, he]
  exact if_neg h

theorem holdLimitExpiry_answers {p t : Part} (rest : List Instr) (tag : Fin 16) (h : expireTag p tag = t) :
    AnswersNext (.holdLimitExpiry tag) p rest t :=
  answersNext_of (by rw [← h]; rfl)

/-- Settles O11: by whether the limit is reached, and whether the entry is the oldest of its block. -/
theorem holdLimitExpiry : Obligations.HoldLimitExpiry := by
  intro p rest e he t
  have hreached (h1 : p.path.holdLimit ≠ 0) (h2 : e.since + p.path.holdLimit ≤ p.now) :=
    expireTag_of_reached he ((holdReached_iff p e).mpr ⟨h1, h2⟩)
  refine ⟨fun h1 h2 hold => ?_, fun h1 h2 hold => ?_, fun h => ?_⟩
  · exact holdLimitExpiry_answers rest _ ((hreached h1 h2).trans (if_pos hold))
  · exact holdLimitExpiry_answers rest _ ((hreached h1 h2).trans (if_neg hold))
  · refine holdLimitExpiry_answers rest _ (expireTag_of_not_reached he fun k => ?_)
    obtain ⟨k1, k2⟩ := (holdReached_iff p e).mp k
    exact h.elim k1 fun hlt => Nat.not_le.mpr hlt k2

/-! ### Acceptance, case by case (R46, R48, R51) -/

/-- First case of R48. -/
theorem acceptAccess_outside {p : Part} {r : HostReq} (h : decodeAddr p r.addr = none) : acceptAccess r p = forward r p := by
  rw [acceptAccess, h]

theorem oldestOf_isSome {p : Part} {id : BlockId} (h : ∃ e ∈ p.path.held, e.id = id) : (oldestOf p id).isSome = true := by
  obtain ⟨e, hmem, hid⟩ := h
  exact List.find?_isSome.mpr ⟨e, hmem, by simpa using hid⟩

/-- Second case of R48. -/
theorem acceptAccess_behind {p : Part} {r : HostReq} {id : BlockId} (hd : decodeAddr p r.addr = some id)
    (h : ∃ e ∈ p.path.held, e.id = id) : acceptAccess r p = joinHeld r id .order p := by
  simp [acceptAccess, hd, oldestOf_isSome h]

theorem acceptAccess_hold {p : Part} {r : HostReq} {id : BlockId} {why : HoldReason} (hd : decodeAddr p r.addr = some id)
    (hfree : ∀ e ∈ p.path.held, e.id ≠ id) (ha : answerOf p r id = .hold why) (hwhy : why ≠ .fill) :
    acceptAccess r p = joinHeld r id why p := by
  cases why with
  | fill => exact absurd rfl hwhy
  | capture => simp [acceptAccess, hd, oldestOf_of_none hfree, ha]
  | budget => simp [acceptAccess, hd, oldestOf_of_none hfree, ha]
  | freeze => simp [acceptAccess, hd, oldestOf_of_none hfree, ha]
  | order => simp [acceptAccess, hd, oldestOf_of_none hfree, ha]

theorem canAccept_iff (p : Part) (r : HostReq) :
    canAccept p r = true ↔ p.path.tags[r.tag] = .idle ∧ p.path.held.length < 8 := by
  rw [canAccept, Bool.and_eq_true, beq_iff_eq, decide_eq_true_iff]
  rfl

theorem drainPort_accepted {p : Part} {r : HostReq} (more : List HostReq)
    (h : p.path.tags[r.tag] = .idle ∧ p.path.held.length < 8) :
    drainPort (r :: more) p = drainPort more (acceptAccess r p) := by
  rw [drainPort, if_pos ((canAccept_iff p r).mpr h)]

theorem drainPort_waits {p : Part} {r : HostReq} (more : List HostReq)
    (h : p.path.tags[r.tag] ≠ .idle ∨ 8 ≤ p.path.held.length) :
    drainPort (r :: more) p = { p with path.port := r :: more } := by
  rw [drainPort, if_neg fun k => ?_]
  obtain ⟨k1, k2⟩ := (canAccept_iff p r).mp k
  exact h.elim (fun h1 => h1 k1) fun h2 => Nat.not_le.mpr k2 h2

/-! ### The refill of the demand list (R120) -/

/-- An entry that may refill the demand list. -/
def Refills (p : Part) (e : Held) : Prop :=
  e.reason = .fill ∧ oldestOf p e.id = some e ∧ stateOf p e.id = some (.absent false) ∧
    (p.regs[e.id.region]).state = .restoring ∧ e.id ∉ p.fill.demand

theorem refillTest_iff (p : Part) (e : Held) :
    (e.reason == .fill && oldestOf p e.id == some e && stateOf p e.id == some (.absent false) &&
      (p.regs[e.id.region]).state == .restoring && !p.fill.demand.contains e.id) = true ↔ Refills p e := by
  simp [Refills, and_assoc]

theorem refillCandidate_none {p : Part} (h : ∀ e ∈ p.path.held, ¬ Refills p e) : refillCandidate p = none :=
  List.find?_eq_none.mpr fun e he => mt (refillTest_iff p e).mp (h e he)

theorem refillCandidate_first {p : Part} {before after : List Held} {e : Held} (hl : p.path.held = before ++ e :: after)
    (hb : ∀ x ∈ before, ¬ Refills p x) (he : Refills p e) : refillCandidate p = some e := by
  have hnone := List.find?_eq_none.mpr fun x hx => mt (refillTest_iff p x).mp (hb x hx)
  rw [refillCandidate, hl, List.find?_append, hnone, Option.none_or]
  exact List.find?_cons_of_pos (p := fun x => x.reason == .fill && oldestOf p x.id == some x &&
    stateOf p x.id == some (.absent false) && (p.regs[x.id.region]).state == .restoring && !p.fill.demand.contains x.id)
    ((refillTest_iff p e).mpr he)

theorem refillDemand_succ {p : Part} {e : Held} (n : Nat) (hroom : p.fill.demand.length < 8)
    (hc : refillCandidate p = some e) : refillDemand (n + 1) p = refillDemand n (demandAsk e.id p) := by
  rw [refillDemand, if_pos (show p.fill.demand.length < Config.demandMax from hroom), hc]

theorem asked_of_room {id : BlockId} {f : Fill} (hroom : f.demand.length < 8) (hnot : id ∉ f.demand) :
    f.asked id = { f with queue := f.queue.filter (· ≠ id), demand := f.demand ++ [id] } :=
  if_neg fun h => h.elim hnot fun k => Nat.not_le.mpr hroom k

/-- A request that finds its tag outstanding or the list full waits at the port. -/
theorem exec_accept_waits {p : Part} {r : HostReq} (rest : List Instr) (hq : Quiet p)
    (h : p.path.tags[r.tag] ≠ .idle ∨ 8 ≤ p.path.held.length) :
    exec (.hostRequestAccepted r) ⟨p, rest⟩ = .next ⟨{ p with path.port := [r] }, rest⟩ := by
  obtain ⟨hport, hrefill, hage⟩ := hq
  let q : Part := { p with path.port := [r] }
  have hq : settle q = q := by
    rw [settle, refillDemand_of_quiet (p := q) Config.demandMax hrefill]
    refine (congrArg retime (drainPort_waits (p := q) [] h)).trans (retime_of_quiet (p := q) ?_)
    exact ageStands_congr rfl rfl hage
  show Host.Outcome.next (⟨settle { p with path.port := p.path.port ++ [r] }, rest⟩ : State) = _
  rw [hport, List.nil_append, show settle { p with path.port := [r] } = _ from hq]

/-- Settles O6: the cases of acceptance, refill and draining one by one. -/
theorem accessesWithoutClaim : Obligations.AccessesWithoutClaim := by
  refine ⟨fun p rest r hq => ?claimless, fun p => rfl, fun n p => ?refill, fun p r more => ?drain, fun p r => ?accept⟩
  case claimless =>
    have ⟨hport, _, _⟩ := hq
    let q : Part := { p with path.port := [r] }
    refine ⟨exec_accept_waits rest hq, fun htag hroom => ⟨fun hd => ?_, fun id e hd hmem hid => ?_⟩⟩
    · exact exec_accept_of_tableKept rest hq htag hroom (acceptAccess_outside (p := q) hd) rfl rfl hport
    · exact exec_accept_of_tableKept rest hq htag hroom (acceptAccess_behind (p := q) hd ⟨e, hmem, hid⟩) rfl rfl hport
  case refill =>
    refine ⟨rfl, fun h => refillDemand_of_quiet _ (h.imp id refillCandidate_none), fun before e after hroom hl hb he => ?_⟩
    rw [refillDemand_succ n hroom (refillCandidate_first hl hb he), demandAsk_eq]
    have ⟨_, _, _, _, hnot⟩ := he
    rw [asked_of_room hroom hnot]
  case drain => exact ⟨rfl, drainPort_accepted more, drainPort_waits more⟩
  case accept =>
    refine ⟨acceptAccess_outside, fun id hd => ⟨acceptAccess_behind hd, fun hfree => ⟨acceptAccess_error hd hfree,
      fun why ha hwhy => acceptAccess_hold hd hfree ha hwhy, fun ha => ⟨fun hst hreg => ?_, fun hnot => ?_⟩, fun ha => ?_⟩⟩⟩
    · rw [acceptAccess_holdFill hd hfree ha, askIfAbsent_of_restoring hst hreg]
      rfl
    · rw [acceptAccess_holdFill hd hfree ha, askIfAbsent_of_not hnot]
      rfl
    · exact acceptAccess_pass hd hfree ha

/-! ### The answer to a write claim, line by line (R13) -/

section WriteAnswer

variable {s : Part} {r : HostReq} {id : BlockId}

theorem answerOf_write (hr : r.write = true) : answerOf s r id = writeAnswer s id := by simp [answerOf, hr]

theorem writeAnswer_unreadable (hst : stateOf s id = some (.absent true)) : writeAnswer s id = .error := by
  simp [writeAnswer, hst]

theorem writeAnswer_absent_suspended {why : SuspendReason} (hst : stateOf s id = some (.absent false))
    (hreg : (s.regs[id.region]).state = .suspended why) : writeAnswer s id = .error := by
  have hsusp : regionSuspended s id.region = true := by rw [regionSuspended, hreg]
  simp [writeAnswer, hst, hsusp]

/-- Under the freeze every write that is not answered with error is held FREEZE. -/
theorem writeAnswer_frozen {st : BlockState} (hst : stateOf s id = some st) (hf : s.pwr.freeze = true)
    (h1 : st ≠ .absent true) (h2 : ¬ (st = .absent false ∧ regionSuspended s id.region = true)) :
    writeAnswer s id = .hold .freeze := by
  cases st with
  | absent unreadable =>
    cases unreadable with
    | true => exact absurd rfl h1
    | false =>
      have hsusp : regionSuspended s id.region = false := by simpa using h2
      simp [writeAnswer, hst, hf, hsusp]
  | filling => simp [writeAnswer, hst, hf]
  | clean => simp [writeAnswer, hst, hf]
  | dirty since => simp [writeAnswer, hst, hf]
  | capturing slot => simp [writeAnswer, hst, hf]
  | captured slot => simp [writeAnswer, hst, hf]
  | redirtied since slot => simp [writeAnswer, hst, hf]

variable (hf : s.pwr.freeze = false)

include hf

theorem writeAnswer_absent_restoring (hst : stateOf s id = some (.absent false))
    (hreg : (s.regs[id.region]).state = .restoring) : writeAnswer s id = .hold .fill := by
  have hsusp : regionSuspended s id.region = false := by rw [regionSuspended, hreg]
  simp [writeAnswer, hst, hf, hsusp]

theorem writeAnswer_filling (hst : stateOf s id = some .filling) : writeAnswer s id = .hold .fill := by
  simp [writeAnswer, hst, hf]

theorem writeAnswer_clean (hst : stateOf s id = some .clean) :
    writeAnswer s id = if s.tbl.budget ≤ dirtyCount s then .hold .budget else .pass := by
  simp [writeAnswer, hst, hf]

theorem writeAnswer_dirty {since : Time} (hst : stateOf s id = some (.dirty since)) : writeAnswer s id = .pass := by
  simp [writeAnswer, hst, hf]

theorem writeAnswer_capturing {slot : Nat} (hst : stateOf s id = some (.capturing slot)) :
    writeAnswer s id = .hold .capture := by
  simp [writeAnswer, hst, hf]

theorem writeAnswer_captured {slot : Nat} (hst : stateOf s id = some (.captured slot)) : writeAnswer s id = .pass := by
  simp [writeAnswer, hst, hf]

theorem writeAnswer_redirtied {since : Time} {slot : Nat} (hst : stateOf s id = some (.redirtied since slot)) :
    writeAnswer s id = .pass := by
  simp [writeAnswer, hst, hf]

end WriteAnswer

/-! ### The write performed (R13, R7) -/

theorem stateOf_of_rec {s : Part} {id : BlockId} {b : BlockRec} (h : recOf s id = some b) :
    stateOf s id = some b.state := by rw [stateOf, h, Option.map_some]

theorem setState_of_rec {s : Part} {id : BlockId} {b : BlockRec} (st : BlockState) (h : recOf s id = some b) :
    setState id st s = setRec id ⟨st, b.mark⟩ s := by rw [setState, h]

section PerformWrite

variable {s : Part} {id : BlockId} {b : BlockRec}

theorem performWrite_dirty {since : Time} (hst : stateOf s id = some (.dirty since)) : performWrite id s = s := by
  rw [performWrite, hst]

theorem performWrite_redirtied {since : Time} {slot : Nat} (hst : stateOf s id = some (.redirtied since slot)) :
    performWrite id s = s := by
  rw [performWrite, hst]

theorem performWrite_captured {slot : Nat} (h : recOf s id = some b) (hst : b.state = .captured slot) :
    performWrite id s = setRec id ⟨.redirtied s.now slot, b.mark⟩ s := by
  rw [performWrite, stateOf_of_rec h, hst]
  exact setState_of_rec _ h

/-- A CLEAN block becomes DIRTY and joins the queue; the watermarks are those of the count after it. -/
theorem performWrite_clean (h : recOf s id = some b) (hst : b.state = .clean) :
    performWrite id s = postWatermarks id (joinTail id s.now (setRec id ⟨.dirty s.now, b.mark⟩ s)) := by
  rw [performWrite, stateOf_of_rec h, hst]
  exact congrArg (fun t => postWatermarks id (joinTail id s.now t)) (setState_of_rec _ h)

theorem dirtyCount_dirtied (h : recOf s id = some b) (hst : b.state = .clean) :
    dirtyCount (joinTail id s.now (setRec id ⟨.dirty s.now, b.mark⟩ s)) = dirtyCount s + 1 := by
  have hcount := countRecs_setRec (fun r => r.state.dirtyCounting) id ⟨.dirty s.now, b.mark⟩ b s h
  have hb : b.state.dirtyCounting = false := by rw [hst]; rfl
  rwa [hb] at hcount

end PerformWrite

theorem postWatermarks_filter (id : BlockId) (s : Part) : postWatermarks id s =
    ((List.finRange 4).filter fun n => decide (s.tbl.thresholds[n] ≠ 0 ∧ s.tbl.thresholds[n] = dirtyCount s)).foldl
      (fun t n => post (.watermark n id) t) s :=
  foldl_filter_of (fun n => s.tbl.thresholds[n] ≠ 0 ∧ s.tbl.thresholds[n] = dirtyCount s)
    (fun t n => post (.watermark n id) t) (List.finRange 4) s

/-- Posting events and putting an access in the host lane touch different fields. -/
theorem foldl_post_forward {α : Type} (f : α → Event) (ns : List α) : ∀ (r : HostReq) (s : Part),
    forward r (ns.foldl (fun t n => post (f n) t) s) = ns.foldl (fun t n => post (f n) t) (forward r s) := by
  induction ns with
  | nil => intro r s; rfl
  | cons n ns ih => intro r s; exact ih r (post (f n) s)

theorem foldl_post_port {α : Type} (f : α → Event) (ns : List α) (port : List HostReq) : ∀ s : Part,
    { ns.foldl (fun t n => post (f n) t) s with path.port := port } =
      ns.foldl (fun t n => post (f n) t) { s with path.port := port } := by
  induction ns with
  | nil => intro s; rfl
  | cons n ns ih => intro s; exact ih (post (f n) s)

/-! ### The write claim -/

/-- Settles O9: the answer of R13 is found line by line, with the record change of the write performed. -/
theorem writeClaim : Obligations.WriteClaim := by
  intro p rest r id b hq htag hroom hw hd hfree hrec error heldAs passed dirtied reached
  have ⟨hport, _, hage⟩ := hq
  let q : Part := { p with path.port := [r] }
  have hst : stateOf q id = some b.state := stateOf_of_rec (s := q) hrec
  have hans : answerOf q r id = writeAnswer q id := answerOf_write hw
  have herror (ha : writeAnswer q id = .error) : exec (.hostRequestAccepted r) ⟨p, rest⟩ = .next ⟨error, rest⟩ :=
    exec_accept_of_tableKept rest hq htag hroom (acceptAccess_error (s := q) hd hfree (hans.trans ha)) rfl rfl hport
  have hheld {why : HoldReason} (ha : writeAnswer q id = .hold why) (hwhy : why ≠ .fill) :
      exec (.hostRequestAccepted r) ⟨p, rest⟩ = .next ⟨heldAs why, rest⟩ :=
    exec_accept_of_tableKept rest hq htag hroom (acceptAccess_hold (p := q) hd hfree (hans.trans ha) hwhy) rfl rfl hport
  have hfill (ha : writeAnswer q id = .hold .fill) := acceptAccess_holdFill (s := q) hd hfree (hans.trans ha)
  have hpass (ha : writeAnswer q id = .pass) : acceptAccess r q = forward r (performWrite id q) := by
    rw [acceptAccess_pass (s := q) hd hfree (hans.trans ha), passAccess, hw, if_pos rfl]
  have hkept (ha : writeAnswer q id = .pass) (hno : performWrite id q = q) :
      exec (.hostRequestAccepted r) ⟨p, rest⟩ = .next ⟨passed, rest⟩ := by
    refine exec_accept_of_tableKept rest hq htag hroom ?_ rfl rfl hport
    rw [show ({ p with path.port := [r] } : Part) = q from rfl, hpass ha, hno]
    rfl
  refine ⟨fun hb => ?unreadable, fun why hb hreg => ?suspended, fun hf h1 h2 => ?frozen, fun hf => ⟨fun hb hreg => ?restoring,
    fun hb => ?filling, fun hb hbudget => ?overBudget, fun hb hbudget => ⟨?clean, ?count⟩, fun since hb => ?dirty,
    fun slot hb => ?capturing, fun slot hb => ?captured, fun since slot hb => ?redirtied⟩⟩
  case unreadable => exact herror (writeAnswer_unreadable (hb ▸ hst))
  case suspended => exact herror (writeAnswer_absent_suspended (hb ▸ hst) hreg)
  case frozen => exact hheld (writeAnswer_frozen (s := q) hst hf h1 h2) (by decide)
  case restoring =>
    have hacc := hfill (writeAnswer_absent_restoring (s := q) hf (hb ▸ hst) hreg)
    rw [askIfAbsent_of_restoring (s := q) (hb ▸ hst) hreg] at hacc
    exact exec_accept_of_tableKept rest hq htag hroom hacc rfl rfl hport
  case filling =>
    have hacc := hfill (writeAnswer_filling (s := q) hf (hb ▸ hst))
    rw [askIfAbsent_of_not_absent (s := q) fun h => by rw [hst, hb] at h; cases h] at hacc
    exact exec_accept_of_tableKept rest hq htag hroom hacc rfl rfl hport
  case overBudget => exact hheld ((writeAnswer_clean (s := q) hf (hb ▸ hst)).trans (if_pos hbudget)) (by decide)
  case clean =>
    have ha := (writeAnswer_clean (s := q) hf (hb ▸ hst)).trans (if_neg (Nat.not_le.mpr hbudget))
    let base : Part := joinTail id q.now (setRec id ⟨.dirty q.now, b.mark⟩ q)
    have hcount : dirtyCount base = dirtyCount p + 1 := dirtyCount_dirtied (s := q) hrec hb
    have hacc : acceptAccess r q = reached.foldl (fun t n => post (.watermark n id) t) (forward r base) := by
      rw [hpass ha, performWrite_clean (s := q) hrec hb, postWatermarks_filter, foldl_post_forward, hcount]
      rfl
    have hback : ({ forward r base with path.port := [] } : Part) = dirtied := by
      show ({ dirtied with path.port := [] } : Part) = dirtied
      rw [← hport]
    rw [accept_of_quiet rest hq htag hroom, hacc, foldl_post_port, hback]
  case count => exact dirtyCount_dirtied hrec hb
  case dirty => exact hkept (writeAnswer_dirty (s := q) hf (hb ▸ hst)) (performWrite_dirty (hb ▸ hst))
  case capturing => exact hheld (writeAnswer_capturing (s := q) hf (hb ▸ hst)) (by decide)
  case captured =>
    have hacc := hpass (writeAnswer_captured (s := q) hf (hb ▸ hst))
    rw [performWrite_captured (s := q) hrec hb] at hacc
    have hback : ({ acceptAccess r q with path.port := [] } : Part) =
        setRec id ⟨.redirtied p.now slot, b.mark⟩ passed := by
      rw [hacc, ← hport]
      rfl
    rw [accept_of_quiet rest hq htag hroom, hback]
    exact congrArg (fun t => Host.Outcome.next (⟨t, rest⟩ : State)) (retime_of_quiet hage)
  case redirtied => exact hkept (writeAnswer_redirtied (s := q) hf (hb ▸ hst)) (performWrite_redirtied (hb ▸ hst))

/-! ### The resets of the whole part (R66, R135, R144, R167, R201) -/

theorem presenceRise_of_empty {s : Part} (h : s.pres.state = .empty) : presenceRise s = startSettle (.arriving false) s := by
  rw [presenceRise, h]

/-- Right after the reset of the blocks no block is dirty and the engine is IDLE: an assertion of PFW finds the final checkpoint
done (R135). -/
theorem assertFreeze_of_reset {s : Part} (ht : s.tbl = BlockTable.reset) (he : s.eng = Engine.reset) :
    assertFreeze s = { s with
      pwr := { s.pwr with freeze := true, deadline := some (s.now + s.pwr.finalDeadline), final := .done }
      evq := s.evq.post (.finalDone none) s.now } := by
  obtain ⟨now, pins, tbl, regs, path, eng, fill, link, pres, pwr, evq, mbox, out, choices⟩ := s
  obtain rfl : tbl = BlockTable.reset := ht
  obtain rfl : eng = Engine.reset := he
  rfl

theorem readPins_resetBlocks (m : Mailbox) (s : Part) : readPins (resetBlocks m s) = { resetBlocks m s with
    pres := if s.pins.mpres then { Presence.reset with state := .arriving false, settle := some 8 } else Presence.reset
    pwr := if s.pins.pfw then ⟨true, .done, some 200, 200⟩ else Power.reset
    evq := if s.pins.pfw then EventQueue.reset.post (.finalDone none) 0 else EventQueue.reset } := by
  cases hm : s.pins.mpres with
  | true =>
    have hrise : presenceRise (resetBlocks m s) = startSettle (.arriving false) (resetBlocks m s) := presenceRise_of_empty rfl
    have hread : readPins (resetBlocks m s) =
        if s.pins.pfw then assertFreeze (startSettle (.arriving false) (resetBlocks m s))
        else startSettle (.arriving false) (resetBlocks m s) := by
      rw [readPins, show (resetBlocks m s).pins.mpres = true from hm, if_pos rfl, hrise]
      rfl
    rw [hread]
    split
    · exact assertFreeze_of_reset rfl rfl
    · rfl
  | false =>
    have hread : readPins (resetBlocks m s) =
        if s.pins.pfw then assertFreeze (resetBlocks m s) else resetBlocks m s := by
      rw [readPins, show (resetBlocks m s).pins.mpres = false from hm]
      rfl
    rw [hread]
    split
    · exact assertFreeze_of_reset rfl rfl
    · rfl

/-- A reset of the whole part leaves the reset values, the pins as they were, and the given mailbox. -/
theorem resetPart_afterReset (m : Mailbox) (p : Part) :
    (resetPart m p).AfterReset p ∧ (resetPart m p).pins = p.pins ∧ (resetPart m p).mbox = m := by
  obtain ⟨held, hall⟩ := errorAll_eq p.path.held p
  have herr : errorAllHolds p = _ := hall
  have hq := readPins_resetBlocks m (errorAllHolds p)
  rw [herr] at hq
  obtain ⟨taken, waiting, hport, hnodup, hidle, hwait, hset⟩ := settle_of_reset (readPins (resetBlocks m (errorAllHolds p)))
    (by rw [herr, hq]; rfl) (by rw [herr, hq]; rfl) (by rw [herr, hq]; rfl)
  have ht : resetPart m p = _ := hset
  rw [herr, hq] at ht hport hidle hwait
  rw [ht]
  exact ⟨⟨rfl, rfl, rfl, rfl, rfl, rfl, rfl, rfl, rfl, rfl, rfl, rfl, rfl, rfl, rfl, rfl, rfl, rfl,
    taken, waiting, hport, rfl, rfl, rfl, hnodup, hidle, hwait⟩, rfl, rfl⟩

/-- Settles O5: both resets are `resetPart`, with the mailbox each of them leaves. -/
theorem resetsOfTheWholePart : Obligations.ResetsOfTheWholePart := by
  refine ⟨fun addr1 addr0 mpres pfw p rest => ⟨_, rfl, ?_⟩, fun p rest hc => ⟨resetAll { p with mbox := p.mbox.taken 0x11 [] }, ?_, ?_⟩⟩
  · exact resetPart_afterReset _ { p with pins := ⟨mpres, pfw, addr1, addr0⟩ }
  · have htake : takeCommand 0x11#8 [] resetAll p = _ := takeCommand_of hc 0x11#8 [] (Nat.zero_le 15) resetAll
    exact congrArg (fun t => Host.Outcome.next (⟨t, rest⟩ : State)) htake
  · exact resetPart_afterReset _ { p with mbox := p.mbox.taken 0x11 [] }

end Sys2Proof.Machine
end

section
/-! PROOFS. The memory side port, captures, batch and recovery starts, and the engine's timers. -/

namespace Sys2Proof.Machine

/-! ### The downstream arbiter (R60 to R62) -/

theorem lineClear_iff (p : Part) (ahead addr : Nat) :
    lineClear p ahead addr = true ↔ ∀ r ∈ p.path.hostLane.take ahead, r.addr.toNat / 64 ≠ addr / 64 := by
  simp [lineClear, lineOf]

theorem laneReady_host (p : Part) : laneReady p .host = true ↔ p.path.hostLane ≠ [] := by
  simp [laneReady]

theorem laneReady_capture (p : Part) : laneReady p .capture = true ↔
    ∃ c more, p.path.captureLane = c :: more ∧ p.path.own[captureOwn c.part] = .free ∧
      ∀ r ∈ p.path.hostLane.take c.ahead, r.addr.toNat / 64 ≠ c.addr / 64 := by
  cases h : p.path.captureLane with
  | nil => simp [laneReady, h]
  | cons c more => simp [laneReady, h, lineClear_iff]

theorem laneReady_fill (p : Part) : laneReady p .fill = true ↔
    ∃ f more, p.path.fillLane = f :: more ∧ p.path.own[fillOwn f.group f.part] = .free ∧
      ∀ r ∈ p.path.hostLane.take f.ahead, r.addr.toNat / 64 ≠ f.addr / 64 := by
  cases h : p.path.fillLane with
  | nil => simp [laneReady, h]
  | cons f more => simp [laneReady, h, lineClear_iff]

theorem arbiterGrant_none {p : Part} (h : ∀ l ∈ p.path.priority, laneReady p l = false) : arbiterGrant p = p := by
  rw [arbiterGrant, List.find?_eq_none.mpr fun l hl => by simp [h l hl]]

theorem arbiterGrant_first {p : Part} {before after : List Lane} {l : Lane} (hl : p.path.priority = before ++ l :: after)
    (hb : ∀ x ∈ before, laneReady p x = false) (hr : laneReady p l = true) :
    arbiterGrant p = { issueLane l p with path.priority := p.path.priority.filter (· ≠ l) ++ [l] } := by
  have hfind : p.path.priority.find? (laneReady p) = some l := by
    rw [hl, List.find?_append, List.find?_eq_none.mpr fun x hx => by simp [hb x hx], Option.none_or,
      List.find?_cons_of_pos hr]
  rw [arbiterGrant, hfind]

theorem issueLane_host {p : Part} {r : HostReq} {more : List HostReq} (h : p.path.hostLane = r :: more) :
    issueLane .host p = { setTag r.tag (.memory r.write) p with
      path.hostLane := more
      path.captureLane := p.path.captureLane.map CaptureReq.passed
      path.fillLane := p.path.fillLane.map FillReq.passed
      out.mem := p.out.mem ++ [.host r] } := by
  simp only [issueLane, h]

theorem issueLane_capture {p : Part} {c : CaptureReq} {more : List CaptureReq} (h : p.path.captureLane = c :: more) :
    issueLane .capture p = { setOwn (captureOwn c.part) .live p with
      path.captureLane := more, out.mem := p.out.mem ++ [.capture (16 + c.part.val) c.addr] } := by
  simp only [issueLane, h]

theorem issueLane_fill {p : Part} {f : FillReq} {more : List FillReq} (h : p.path.fillLane = f :: more) :
    issueLane .fill p = { setOwn (fillOwn f.group f.part) .live p with
      path.fillLane := more
      out.mem := p.out.mem ++ [.fill (20 + 4 * f.group.val + f.part.val) f.addr f.data] } := by
  simp only [issueLane, h]

theorem exec_memoryPortGrant {p t : Part} (rest : List Instr) (h : arbiterGrant p = t) :
    exec .memoryPortGrant ⟨p, rest⟩ = .next ⟨t, rest⟩ := by rw [← h]; rfl

/-- Settles O13: by the lane that the priority order finds first. -/
theorem arbiterGrant_spec : Obligations.ArbiterGrant := by
  intro p rest
  refine ⟨laneReady_host p, laneReady_capture p, laneReady_fill p,
    fun h => exec_memoryPortGrant rest (arbiterGrant_none h), fun before l after hl hb hr => ?_⟩
  have hgrant := arbiterGrant_first hl hb hr
  refine ⟨fun r more hlane h => ?_, fun c more hlane h => ?_, fun f more hlane h => ?_⟩
  · subst hlane
    rw [issueLane_host h] at hgrant
    exact exec_memoryPortGrant rest hgrant
  · subst hlane
    rw [issueLane_capture h] at hgrant
    exact exec_memoryPortGrant rest hgrant
  · subst hlane
    rw [issueLane_fill h] at hgrant
    exact exec_memoryPortGrant rest hgrant

/-! ### Memory's response (R47, R59) -/

/-- Settles O14: by what the tag names. -/
theorem memoryResponseIsRelayed : Obligations.MemoryResponseIsRelayed := by
  intro p rest tag ok data
  refine ⟨fun t write htag hmem => answersNext_of ?_, fun hnone => ?_⟩
  · have hlt : tag.val < 16 := by omega
    have ht : (⟨tag.val, hlt⟩ : Fin 16) = t := Fin.ext htag
    have hdata : (if ok && !write then data else []) = if ok = true ∧ write = false then data else [] := by
      cases ok <;> cases write <;> rfl
    simp only [exec, execHostMemoryResponse, onPart, dif_pos hlt, ht, hmem, hdata]
    rfl
  · by_cases hlt : tag.val < 16
    · have hno (write : Bool) := hnone ⟨tag.val, hlt⟩ write rfl
      simp only [exec, execHostMemoryResponse, onPart, dif_pos hlt]
      cases hst : p.path.tags[(⟨tag.val, hlt⟩ : Fin 16)] with
      | memory write => exact absurd hst (hno write)
      | idle => rfl
      | held => rfl
      | lane => rfl
    · simp only [exec, execHostMemoryResponse, onPart, dif_neg hlt]

/-! ### Batch start and capture start (R15, R69, R71, R72) -/

theorem lengthReached_iff (p : Part) : lengthReached p = true ↔ p.tbl.trigger ≤ (eligibleQueue p).length := decide_eq_true_iff

theorem eligibleLength_pos_iff (p : Part) : 0 < eligibleLength p ↔ eligibleQueue p ≠ [] := List.length_pos_iff

theorem batchMayStart_iff (p : Part) : batchMayStart p = true ↔
    p.pres.status = .ready ∧ p.eng.pauseReq = false ∧ p.eng.state = .idle ∧ eligibleQueue p ≠ [] ∧
      (p.tbl.trigger ≤ (eligibleQueue p).length ∨ p.tbl.age.reached = true ∨ p.eng.checkpointReq = true ∨
        0 < markCount p ∨ p.pwr.freeze = true) := by
  simp only [batchMayStart, Bool.and_eq_true, Bool.or_eq_true, beq_iff_eq, Bool.not_eq_true', decide_eq_true_eq,
    lengthReached_iff, eligibleLength_pos_iff, marksRemain, and_assoc, or_assoc]

theorem captureMark_eq (m : Option Mark) : captureMark m = if m = some .carry then some .pending else m := by
  cases m with
  | none => rfl
  | some m => cases m <;> rfl

theorem nextCapture_start {p : Part} {b : Batch} {e : QEntry} (hb : p.eng.batch = some b) (hlt : b.starts < b.limit)
    (he : leading p = some e) : nextCapture p = captureEntry e p := by
  simp [nextCapture, hb, hlt, he]

theorem nextCapture_end {p : Part} {b : Batch} (hb : p.eng.batch = some b) (h : b.limit ≤ b.starts ∨ leading p = none) :
    nextCapture p = endCapture p := by
  rw [nextCapture, hb]
  obtain hle | hnone := h
  · exact if_neg (Nat.not_lt.mpr hle)
  · simp [hnone]

theorem captureEntry_of_rec {p : Part} {e : QEntry} {b : BlockRec} (h : recOf p e.id = some b) :
    captureEntry e p = { p with
      tbl.recs := p.tbl.recs.set e.id.region
        ((p.tbl.recs[e.id.region]).set e.id.index ⟨.capturing p.eng.staging.length, captureMark b.mark⟩)
      tbl.queue := p.tbl.queue.filter fun x => x.id ≠ e.id
      eng.staging := p.eng.staging ++ [⟨e.id, zeros 256, some e.joined, captureMark b.mark⟩]
      eng.capture := some ⟨e.id, p.eng.staging.length, 0, false⟩
      eng.batch := p.eng.batch.map fun b => { b with starts := b.starts + 1 }
      path.captureLane := p.path.captureLane ++ captureReqs p.path.hostLane.length (ramOf p e.id) } := by
  simp only [captureEntry, h]
  rfl

/-- Settles O15: by the conditions of R69. -/
theorem batchStart : Obligations.BatchStart := by
  intro p rest may
  have hmay : batchMayStart p = true ↔ may := batchMayStart_iff p
  refine ⟨fun h => ?_, fun e more b h hlimit hq hrec => answersNext_of ?_⟩
  · simp only [exec, execBatchStart, onPart, if_neg (mt hmay.mp h)]
  · let q : Part := setEngine .capture { p with
      eng.checkpointReq := false
      eng.batch := some ⟨p.eng.batchLimit, 0, none, none, none, false, 0, 0⟩ }
    have hlead : leading q = some e := by
      rw [leading, show eligibleQueue q = eligibleQueue p from rfl, hq, List.head?_cons]
    have hstart : startBatch p = captureEntry e q := nextCapture_start rfl hlimit hlead
    simp only [exec, execBatchStart, onPart, if_pos (hmay.mpr h), hstart]
    rw [captureEntry_of_rec (p := q) hrec, captureMark_eq]
    rfl

/-! ### The capture read (R16, R60, R72 to R74) -/

theorem captureResponse_free {p : Part} {k : Fin 4} (ok : Bool) (data : Payload) (h : p.path.own[captureOwn k] = .free) :
    captureResponse k ok data p = p := by
  rw [captureResponse, h]

theorem captureResponse_stale {p : Part} {k : Fin 4} (ok : Bool) (data : Payload) (h : p.path.own[captureOwn k] = .stale) :
    captureResponse k ok data p = setOwn (captureOwn k) .free p := by
  rw [captureResponse, h]

theorem captureResponse_live {p : Part} {k : Fin 4} (ok : Bool) (data : Payload) (h : p.path.own[captureOwn k] = .live) :
    captureResponse k ok data p = captureTaken k ok data (setOwn (captureOwn k) .free p) := by
  rw [captureResponse, h]

theorem captureTaken_more {p : Part} {c : CaptureRead} (k : Fin 4) (ok : Bool) (data : Payload) (hc : p.eng.capture = some c)
    (hlt : c.taken < 3) : captureTaken k ok data p = { p with
      eng.capture := some { c with taken := c.taken + 1, error := c.error || !ok }
      eng.staging := if ok = true ∧ c.error = false then
          p.eng.staging.modify c.slot fun x => { x with payload := putPart x.payload k.val data }
        else p.eng.staging } := by
  have h4 : c.taken + 1 < 4 := by omega
  simp only [captureTaken, hc, if_pos h4, Bool.and_eq_true, Bool.not_eq_true']
  split <;> rfl

theorem captureTaken_last {p : Part} {c : CaptureRead} (k : Fin 4) (ok : Bool) (data : Payload) (hc : p.eng.capture = some c)
    (h3 : c.taken = 3) : captureTaken k ok data p =
      afterCapture (captureEnd { c with taken := c.taken + 1, error := c.error || !ok }
        (if ok && !c.error then storePart c.slot k data p else p)) := by
  have h4 : ¬ c.taken + 1 < 4 := by omega
  simp only [captureTaken, hc, if_neg h4]

theorem finishReset_of_not_waiting {p : Part} (h : p.eng.resetWaiting = false) : finishReset p = p := by
  simp [finishReset, h]

theorem finishReset_of_waiting {p : Part} (h : p.eng.resetWaiting = true) (hc : p.eng.capture = none) :
    finishReset p = releaseScl (settle (complete [] (engineReset p))) := by
  simp [finishReset, h, hc]

/-- With no RESET ENGINE waiting, the step is the response and what it brings about. -/
theorem captureReadResponse_answers {p t : Part} (rest : List Instr) {k : Fin 4} {ok : Bool} {data : Payload}
    (h : captureResponse k ok data p = t) (hr : t.eng.resetWaiting = false) :
    AnswersNext (.captureReadResponse k ok data) p rest t := by
  refine answersNext_of ?_
  have hfin : finishReset (settle t) = settle t := finishReset_of_not_waiting (by rw [settle_eng, hr])
  simp only [exec, execCaptureReadResponse, onPart, h, hfin]

/-- A capture read that still waits for responses is not ended by a RESET ENGINE that waits for it. -/
theorem captureReadResponse_answers_of_capture {p t : Part} (rest : List Instr) {k : Fin 4} {ok : Bool} {data : Payload}
    (h : captureResponse k ok data p = t) (hc : t.eng.capture.isNone = false) :
    AnswersNext (.captureReadResponse k ok data) p rest t := by
  refine answersNext_of ?_
  have hfin : finishReset (settle t) = settle t := by simp [finishReset, hc]
  simp only [exec, execCaptureReadResponse, onPart, h, hfin]

/-- Settles O16: by the use of the tag. -/
theorem captureReadProgress : Obligations.CaptureReadProgress := by
  intro p rest k ok data freed
  refine ⟨fun hfree hr => ?_, fun hstale hr => ?_, fun c hlive hc hlt => ?_⟩
  · exact captureReadResponse_answers rest (captureResponse_free ok data hfree) hr
  · exact captureReadResponse_answers rest (captureResponse_stale ok data hstale) hr
  · refine captureReadResponse_answers_of_capture rest ?_ rfl
    rw [captureResponse_live ok data hlive, captureTaken_more (p := setOwn (captureOwn k) .free p) k ok data hc hlt]
    rfl

theorem captureEnd_good {p : Part} {c : CaptureRead} {b : BlockRec} (h : recOf p c.id = some b) (he : c.error = false) :
    captureEnd c p = releaseBlock c.id (setRec c.id ⟨.captured c.slot, b.mark⟩ { p with eng.capture := none }) := by
  rw [captureEnd, he]
  exact congrArg (releaseBlock c.id) (setState_of_rec (s := { p with eng.capture := none }) _ h)

theorem captureEnd_bad {p : Part} {c : CaptureRead} {b : BlockRec} (h : recOf p c.id = some b) (he : c.error = true) :
    captureEnd c p = releaseBlock c.id (post (.captureFailed c.id) (joinTail c.id p.now
      (setRec c.id ⟨.dirty p.now, b.mark⟩ { p with eng.capture := none, eng.staging := p.eng.staging.take c.slot }))) := by
  rw [captureEnd, he]
  exact congrArg (fun t => releaseBlock c.id (post (.captureFailed c.id) (joinTail c.id p.now t)))
    (setState_of_rec (s := { p with eng.capture := none, eng.staging := p.eng.staging.take c.slot }) _ h)

theorem nextBatchNumber_eq (p : Part) : nextBatchNumber p = (p.eng.lastCommitted.map fun n => n + 1).getD 1 := by
  cases h : p.eng.lastCommitted <;> simp [nextBatchNumber, h]

theorem enterIdle_of_no_pause {p : Part} (h : p.eng.pauseReq = false) :
    enterIdle p = { p with eng.state := .idle, eng.batch := none } := by
  rw [enterIdle, h]
  rfl

/-- IDLE with a waiting pause request: paused at once (R92). -/
theorem enterIdle_eq (p : Part) : enterIdle p = { p with
    eng.state := if p.eng.pauseReq then .paused .idle else .idle
    eng.batch := none
    evq := if p.eng.pauseReq then p.evq.post (.paused .idle) p.now else p.evq } := by
  cases h : p.eng.pauseReq with
  | true => rw [enterIdle, h]; rfl
  | false => rw [enterIdle_of_no_pause h]; rfl

theorem endCapture_empty {p : Part} (h : p.eng.staging = []) : endCapture p = enterIdle p := by
  simp [endCapture, h]

theorem endCapture_journal {p : Part} {b : Batch} (h : p.eng.staging ≠ []) (hb : p.eng.batch = some b) :
    endCapture p = { p with
      eng.state := .journal
      eng.batch := some { b with
        number := some ((p.eng.lastCommitted.map fun n => n + 1).getD 1), count := some p.eng.staging.length } } := by
  simp only [endCapture, List.length_eq_zero_iff, if_neg h, hb, nextBatchNumber_eq]
  rfl

/-- The abort that waited for a capture read (R88, R91). -/
theorem afterCapture_abort {u : Part} {batch : Batch} (h : u.eng.abortWaiting = true) (hb : u.eng.batch = some batch) :
    afterCapture u =
      (let v := abortClaim { u with eng.abortWaiting := false, path.captureLane := [] }
       let posted := if u.eng.staging = [] then v.evq else v.evq.post (.batchAborted batch.number .moduleLost) v.now
       { v with
        eng.staging := []
        eng.batch := none
        eng.state := if u.eng.pauseReq then .paused .idle else .idle
        evq := if u.eng.pauseReq then posted.post (.paused .idle) v.now else posted }) := by
  have hnum : batchNumber { u with eng.abortWaiting := false } = batch.number := by simp [batchNumber, hb]
  have hpause (w : Part) : (abortClaim w).eng = w.eng := by rw [abortClaim_keeps]
  simp only [afterCapture, h, if_true, abortBatch, hnum, List.length_eq_zero_iff]
  rw [enterIdle_eq]
  by_cases hs : u.eng.staging = []
  · simp only [hs, if_true, dropBatch_eng, dropBatch_evq, dropBatch_now, hpause]
    rfl
  · simp only [hs, if_false, dropBatch_eng, dropBatch_evq, dropBatch_now, hpause, post_eng, post_evq, post_now]
    rfl

/-- Settles O17: the block's side by the four responses, then what waited for the end of the read. -/
theorem captureReadEnd : Obligations.CaptureReadEnd := by
  refine ⟨?_, fun p rest => ⟨rfl, fun bytes => ?_⟩⟩
  · intro p rest k ok data c b batch hlive hc h3 hrec hbatch good bad aborted goesOn
    let q : Part := setOwn (captureOwn k) .free p
    have hresp : captureResponse k ok data p = afterCapture (captureEnd { c with taken := c.taken + 1, error := c.error || !ok }
        (if ok && !c.error then storePart c.slot k data q else q)) := by
      rw [captureResponse_live ok data hlive, captureTaken_last (p := q) k ok data hc h3]
    have hgoes (u : Part) (hu : captureResponse k ok data p = afterCapture u)
        (heng : u.eng = { p.eng with capture := none, staging := u.eng.staging }) : goesOn u := by
      have hab : u.eng.abortWaiting = p.eng.abortWaiting := by rw [heng]
      have hre : u.eng.resetWaiting = p.eng.resetWaiting := by rw [heng]
      have hpa : u.eng.pauseReq = p.eng.pauseReq := by rw [heng]
      have hla : u.eng.lastCommitted = p.eng.lastCommitted := by rw [heng]
      have hca : u.eng.capture = none := by rw [heng]
      have hba : u.eng.batch = some batch := by rw [heng, hbatch]
      have haborted (ha : p.eng.abortWaiting = true) : afterCapture u = aborted u := by
        rw [afterCapture_abort (hab.trans ha) hba, hpa]
      have hon (ha : p.eng.abortWaiting = false) (hr : p.eng.resetWaiting = false) :
          afterCapture u = if u.eng.pauseReq then pauseAt .nextCapture u else nextCapture u := by
        simp [afterCapture, hab, hre, ha, hr]
      refine ⟨fun ha hr => ⟨fun hp => ?pause, fun e hp hlt he => ?start, fun hp hend hs => ?journal, fun hp hend hs => ?none⟩,
        fun ha hr => ?abort, fun hr => ?reset⟩
      case pause =>
        refine captureReadResponse_answers rest (hu.trans ?_) (hre.trans hr)
        rw [hon ha hr, hpa, hp]
        rfl
      case start =>
        refine captureReadResponse_answers rest (hu.trans ?_) (hre.trans hr)
        rw [hon ha hr, hpa, hp]
        exact nextCapture_start hba hlt he
      case journal =>
        refine captureReadResponse_answers rest (hu.trans ?_) (hre.trans hr)
        rw [hon ha hr, hpa, hp, ← hla]
        exact (nextCapture_end hba hend).trans (endCapture_journal hs hba)
      case none =>
        refine captureReadResponse_answers rest (hu.trans ?_) (hre.trans hr)
        rw [hon ha hr, hpa, hp]
        exact (nextCapture_end hba hend).trans ((endCapture_empty hs).trans (enterIdle_of_no_pause (hpa.trans hp)))
      case abort =>
        refine captureReadResponse_answers rest (hu.trans (haborted ha)) ?_
        show (abortClaim _).eng.resetWaiting = false
        rw [abortClaim_keeps]
        exact hre.trans hr
      case reset =>
        intro w
        let x := if p.eng.abortWaiting then aborted u else u
        have hx : captureResponse k ok data p = x := by
          rw [hu]
          cases ha : p.eng.abortWaiting with
          | true => simp only [x, ha, if_true, haborted ha]
          | false => simp [x, ha, afterCapture, hab, hre, hr]
        have hkeep : x.eng.resetWaiting = true ∧ x.eng.capture = none := by
          cases ha : p.eng.abortWaiting with
          | true =>
            have heq : (abortClaim { u with eng.abortWaiting := false, path.captureLane := [] }).eng =
              { u.eng with abortWaiting := false } := by rw [abortClaim_keeps]
            simp only [x, ha, if_true, aborted, heq]
            exact ⟨hre.trans hr, hca⟩
          | false => simpa [x, ha] using ⟨hre.trans hr, hca⟩
        have hfin := finishReset_of_waiting (p := settle x) (by rw [settle_eng, hkeep.1]) (by rw [settle_eng, hkeep.2])
        simp only [exec, execCaptureReadResponse, onPart, hx, hfin]
        rfl
    have hrel (id : BlockId) (s : Part) : (releaseBlock id s).eng = s.eng := releaseBlock_eng id s
    refine ⟨fun he hok => ?_, fun he => ?_, fun he hok => ?_⟩
    · refine hgoes good (hresp.trans (congrArg afterCapture ?_)) (by rw [hrel])
      simp only [he, hok, Bool.not_false, Bool.and_true, if_true]
      exact captureEnd_good (p := storePart c.slot k data q) hrec rfl
    · refine hgoes _ (hresp.trans (congrArg afterCapture ?_)) (by rw [hrel])
      simp only [he, Bool.not_true, Bool.and_false, Bool.true_or]
      exact captureEnd_bad (p := q) hrec rfl
    · refine hgoes _ (hresp.trans (congrArg afterCapture ?_)) (by rw [hrel])
      simp only [he, hok, Bool.not_false, Bool.and_true, Bool.false_or]
      exact captureEnd_bad (p := q) hrec rfl
  · simp only [exec, execWindowWrite, onPart, if_true]

/-! ### Timers and the start of recovery (R11, R89, R93, R108) -/

theorem expired_of_le {p : Part} {o : Option Time} {t : Time} (h : o = some t) (hle : t ≤ p.now) : expired p o = true := by
  rw [h]
  exact decide_eq_true hle

theorem not_expired_of_lt {p : Part} {o : Option Time} (h : ∀ t, o = some t → p.now < t) : expired p o = false := by
  cases o with
  | none => rfl
  | some t => exact decide_eq_false (Nat.not_le.mpr (h t rfl))

theorem backoffExpired_of_backoff {p : Part} (hst : p.eng.state = .backoff) (hp : p.eng.pauseReq = false) :
    backoffExpired p = { p with eng.backoff := none, eng.state := .idle, eng.batch := none } := by
  rw [backoffExpired, hst]
  exact enterIdle_of_no_pause (p := { p with eng.backoff := none }) hp

theorem backoffExpired_of_paused {p : Part} (hst : p.eng.state = .paused .backoff) :
    backoffExpired p = { p with eng.backoff := none, eng.state := .paused .idle } := by
  rw [backoffExpired, hst]
  rfl

/-- Settles O18: each timer at its expiry and before. -/
theorem engineTimersExpire : Obligations.EngineTimersExpire := by
  intro p rest
  refine ⟨fun t h hle => ?_, fun h => ?_, fun t h hle => ⟨fun hst hp => ?_, fun hst => ?_⟩, fun h => ?_, fun t h hle => ?_,
    fun h => ?_⟩
  · simp only [exec, execAgeTimerExpiry, onPart, expired_of_le h hle, if_true]
  · simp [exec, execAgeTimerExpiry, onPart, not_expired_of_lt h]
  · simp only [exec, execBackoffExpiry, onPart, expired_of_le h hle, if_true, backoffExpired_of_backoff hst hp]
  · simp only [exec, execBackoffExpiry, onPart, expired_of_le h hle, if_true, backoffExpired_of_paused hst]
  · simp [exec, execBackoffExpiry, onPart, not_expired_of_lt h]
  · simp only [exec, execRecoveryRetryExpiry, onPart, expired_of_le h hle, if_true]
  · simp [exec, execRecoveryRetryExpiry, onPart, not_expired_of_lt h]

/-- The states recovery may start from (R108). -/
theorem recoveryMayStart_iff (p : Part) : recoveryMayStart p = true ↔
    p.pres.status = .unverified ∧ p.link.state = .ready ∧ p.eng.journalHold = false ∧ p.eng.retryTimer = none ∧
      (p.eng.state = .idle ∨ p.eng.state = .backoff ∨ p.eng.state = .inDoubt ∨ p.eng.state = .paused .idle ∨
        p.eng.state = .paused .backoff) := by
  cases h : p.eng.state with
  | paused pt => cases pt <;> simp [recoveryMayStart, h, and_assoc]
  | idle => simp [recoveryMayStart, h, and_assoc]
  | backoff => simp [recoveryMayStart, h, and_assoc]
  | inDoubt => simp [recoveryMayStart, h, and_assoc]
  | capture => simp [recoveryMayStart, h]
  | journal => simp [recoveryMayStart, h]
  | commit => simp [recoveryMayStart, h]
  | verify => simp [recoveryMayStart, h]
  | apply => simp [recoveryMayStart, h]
  | retire => simp [recoveryMayStart, h]
  | recover => simp [recoveryMayStart, h]
  | halted why => simp [recoveryMayStart, h]

theorem startRecovery_eq {p : Part} (h : p.eng.state = .idle ∨ p.eng.state = .backoff ∨ p.eng.state = .inDoubt ∨
    p.eng.state = .paused .idle ∨ p.eng.state = .paused .backoff) : startRecovery p = { p with
      eng.state := .recover
      eng.backoff := none
      eng.recovery := some {
        unsettled := decide (p.eng.state = .inDoubt)
        confirmed := false
        fromPaused := decide (p.eng.state = .paused .idle ∨ p.eng.state = .paused .backoff)
        newest := none
        step := .readA } } := by
  obtain h | h | h | h | h := h <;> simp only [startRecovery, h] <;> rfl

/-- Settles O19: by the conditions of R108. -/
theorem recoveryStart : Obligations.RecoveryStart := by
  intro p rest may
  have hmay : recoveryMayStart p = true ↔ may := recoveryMayStart_iff p
  refine ⟨fun h => ?_, fun h => ?_⟩
  · simp only [exec, execRecoveryStart, onPart, if_neg (mt hmay.mp h)]
  · have ⟨_, _, _, _, hstate⟩ := h
    simp only [exec, execRecoveryStart, onPart, if_pos (hmay.mpr h), startRecovery_eq hstate]

end Sys2Proof.Machine
end

section
/-! PROOFS. Fills, the signals of the counts, the scheduler of the link, and the steps that finish a send. -/

namespace Sys2Proof.Machine

/-! ### Fill writes (R128 to R130) -/

theorem fillResponse_free {p : Part} {g : Fin 2} {k : Fin 4} (ok : Bool) (h : p.path.own[fillOwn g k] = .free) :
    fillResponse g k ok p = p := by
  rw [fillResponse, h]

theorem fillResponse_stale {p : Part} {g : Fin 2} {k : Fin 4} (ok : Bool) (h : p.path.own[fillOwn g k] = .stale) :
    fillResponse g k ok p = takeGroups (setOwn (fillOwn g k) .free p) := by
  rw [fillResponse, h]

theorem fillResponse_live {p : Part} {g : Fin 2} {k : Fin 4} (ok : Bool) (h : p.path.own[fillOwn g k] = .live) :
    fillResponse g k ok p = settle (fillTaken g ok (setOwn (fillOwn g k) .free p)) := by
  rw [fillResponse, h]

section FillTaken

variable {p : Part} {g : Fin 2} {i : Fin 8} {id : BlockId} {data : Payload} {n : Nat} {err : Bool}

theorem fillTaken_more (ok : Bool) (hi : slotOfGroup p g = some i) (hs : p.fill.slots[i] = .writing id data g n err)
    (hn : n < 3) : fillTaken g ok p = setSlot i (.writing id data g (n + 1) (err || !ok)) p := by
  have h4 : n + 1 < 4 := by omega
  simp only [fillTaken, hi, hs, if_pos h4]

theorem fillTaken_complete {ok : Bool} (hi : slotOfGroup p g = some i) (hs : p.fill.slots[i] = .writing id data g n err)
    (hn : n = 3) (he : err = false) (hok : ok = true) : fillTaken g ok p = takeGroups (fillComplete id i p) := by
  have h4 : ¬ n + 1 < 4 := by omega
  simp only [fillTaken, hi, hs, if_neg h4, he, hok]
  rfl

theorem fillTaken_failed {ok : Bool} (hi : slotOfGroup p g = some i) (hs : p.fill.slots[i] = .writing id data g n err)
    (hn : n = 3) (h : err = true ∨ ok = false) : fillTaken g ok p = takeGroups (fillWriteFailed id i p) := by
  have h4 : ¬ n + 1 < 4 := by omega
  have hbad : (err || !ok) = true := by simpa using h
  simp only [fillTaken, hi, hs, if_neg h4, hbad, if_true]

end FillTaken

theorem absentCount_setRec {p : Part} {id : BlockId} {b : BlockRec} (r : BlockRec) (h : recOf p id = some b) :
    absentCount (setRec id r p) id.region + b.state.notBack.toNat = absentCount p id.region + r.state.notBack.toNat := by
  have hcount := countP_set_add (fun x : BlockRec => x.state.notBack) (p.tbl.recs[id.region]) id.index r b h
  rw [absentCount, setRec_tbl, getElem_set_fin, if_pos rfl]
  exact hcount

theorem dropSlot_of_none {s : Part} {i : Fin 8} (h : (s.fill.slots[i]).group = none) : dropSlot i s = { s with
    fill := { s.fill with slots := s.fill.slots.set i .free, arrivals := s.fill.arrivals.filter (· ≠ i) } } := by
  simp only [dropSlot, h]
  rfl

/-- A slot given up while its block is at memory: the writes not yet issued are withdrawn, the responses to the others will be
discarded (R130). -/
theorem dropSlot_of_group {s : Part} {i : Fin 8} {g : Fin 2} (h : (s.fill.slots[i]).group = some g) : ∃ own,
    dropSlot i s = { s with
      path.own := own
      path.fillLane := s.path.fillLane.filter fun f => f.group ≠ g
      fill := { s.fill with slots := s.fill.slots.set i .free, arrivals := s.fill.arrivals.filter (· ≠ i) } } ∧
    (∀ k : Fin 4, own[fillOwn g k] = staleTag s.path.own[fillOwn g k]) ∧
    (∀ (h : Fin 2) (k : Fin 4), h ≠ g → own[fillOwn h k] = s.path.own[fillOwn h k]) := by
  have hlane : (s.path.fillLane.filter fun f => f.group != g) = s.path.fillLane.filter fun f => f.group ≠ g :=
    List.filter_congr fun f _ => by rw [Bool.eq_iff_iff]; simp
  obtain ⟨hkeep, hstale, hother⟩ := staleGroup_own g { s with path.fillLane := s.path.fillLane.filter fun f => f.group ≠ g }
  refine ⟨_, ?_, hstale, hother⟩
  simp only [dropSlot, h, hlane]
  rw [hkeep]
  rfl

theorem revertBlock_of_rec {s : Part} {id : BlockId} {b : BlockRec} (i : Fin 8) (h : recOf s id = some b) :
    revertBlock id i s = dropSlot i (setRec id ⟨.absent false, b.mark⟩ s) := congrArg (dropSlot i) (setState_of_rec _ h)

theorem failDemand_of_run {s : Part} {x : BlockId × Fin 8} (why : FillFail) (h : s.fill.demandRun = some x) :
    failDemand why s = failBlocks [x] why { s with fill.demandRun := none } := by
  rw [failDemand, h]

section Background

variable {s : Part} {run : BackgroundRun} (h : s.fill.background = some run)

include h

theorem failBackground_of_run (why : FillFail) : failBackground why s =
    failBlocks (stillFilling run 0) why { s with fill.background := none, fill.lastBlock := none } := by
  rw [failBackground, h]

theorem failUnreceived_of_run (why : FillFail) : failUnreceived why s =
    failBlocks (stillFilling run run.next) why { s with fill.background := none, fill.lastBlock := none } := by
  rw [failUnreceived, h]

theorem failYielded_of_run : failYielded s = if run.yielded then failBackground .notReady s else s := by
  rw [failYielded, h]

end Background

theorem exec_fillWriteResponse {p t : Part} (rest : List Instr) {g : Fin 2} {k : Fin 4} {ok : Bool}
    (h : fillResponse g k ok p = t) : exec (.fillWriteResponse g k ok) ⟨p, rest⟩ = .next ⟨t, rest⟩ := by
  rw [← h]
  rfl

theorem fillWriteResponse_answers {p t : Part} (rest : List Instr) {g : Fin 2} {k : Fin 4} {ok : Bool}
    (hlive : p.path.own[fillOwn g k] = .live) (h : fillTaken g ok (setOwn (fillOwn g k) .free p) = t) :
    AnswersNext (.fillWriteResponse g k ok) p rest t :=
  answersNext_of (exec_fillWriteResponse rest (by rw [fillResponse_live ok hlive, h]))

/-- Settles O20: a response by the use of its tag and its count; a failing run by what the slot of each block holds. -/
theorem fillWriteResponse : Obligations.FillWriteResponse := by
  refine ⟨fun p rest g k ok => ⟨fun hstale => ?stale, fun hfree => ?free, ?live⟩, fun s id i b h => ?revert, fun s why =>
    ⟨fun first others => rfl, fun x h => failDemand_of_run why h, fun run h => ⟨failBackground_of_run h why,
      failUnreceived_of_run h why, failYielded_of_run h⟩⟩⟩
  case stale => exact exec_fillWriteResponse rest (fillResponse_stale ok hstale)
  case free => exact exec_fillWriteResponse rest (fillResponse_free ok hfree)
  case live =>
    intro i id data n err b hlive hi hs hrec ended
    let q : Part := setOwn (fillOwn g k) .free p
    have hended (st : BlockState) : endInRun id (setSlot i .free (setState id st q)) = ended st := by
      rw [setState_of_rec (s := q) st hrec]
      rfl
    refine ⟨fun hn => ?_, fun hn he hok hb => ⟨?_, ?_⟩, fun hn hbad => ?_⟩
    · exact fillWriteResponse_answers rest hlive (fillTaken_more (p := q) ok hi hs hn)
    · refine fillWriteResponse_answers rest hlive ((fillTaken_complete (p := q) hi hs hn he hok).trans ?_)
      rw [fillComplete, hended]
    · have hcount := absentCount_setRec (p := q) ⟨.clean, b.mark⟩ hrec
      rw [hb] at hcount
      exact hcount
    · refine fillWriteResponse_answers rest hlive ((fillTaken_failed (p := q) hi hs hn hbad).trans ?_)
      rw [fillWriteFailed, hended]
      rfl
  case revert =>
    intro t
    let u : Part := setRec id ⟨.absent false, b.mark⟩ s
    have ht : t = dropSlot i u := revertBlock_of_rec i h
    have hself : recOf u id = some ⟨.absent false, b.mark⟩ := recOf_setRec_self _ _ _ _ h
    have hother (x : BlockId) (hx : x ≠ id) : recOf u x = recOf s x := recOf_setRec_other _ _ _ _ hx
    cases hg : (s.fill.slots[i]).group with
    | none =>
      rw [ht, dropSlot_of_none (s := u) hg]
      exact ⟨rfl, hself, hother, fun _ => rfl, fun g hg' => absurd hg' (by simp)⟩
    | some g =>
      obtain ⟨own, hdrop, hstale, hkept⟩ := dropSlot_of_group (s := u) hg
      rw [ht, hdrop]
      refine ⟨rfl, hself, hother, fun hnone => absurd hnone (by simp), fun g' hg' => ?_⟩
      obtain rfl := Option.some.inj hg'
      exact ⟨rfl, hstale, hkept⟩

/-! ### The signals of the counts (R6, R27, R40, R140) -/

/-- Settles O21: each check by its condition. -/
theorem signalsOfTheCounts : Obligations.SignalsOfTheCounts := by
  intro p r
  refine ⟨fun h => if_neg h, fun h hst => ?_, fun h hst => ?_, fun why h hst => ?_, fun h => if_neg fun k => ?_,
    fun h1 h2 => if_pos ⟨h1, h2⟩, fun h => if_neg fun k => ?_, fun h1 h2 h3 => if_pos ⟨h1, h2, h3⟩,
    fun h => if_neg fun k => ?_, fun h1 h2 h3 => ?_, fun count budget => ⟨fun h => if_neg fun k => ?_,
    fun h1 h2 => if_pos ⟨h1, h2⟩⟩⟩
  · rw [absentCheck, if_pos h, absentZero]
    obtain hst | hst := hst <;> rw [hst]
  · rw [absentCheck, if_pos h, absentZero, hst]
    rfl
  · rw [absentCheck, if_pos h, absentZero, hst]
    rfl
  · obtain ⟨k1, k2⟩ := k
    exact h.elim (fun h1 => h1 k1) fun h2 => h2 k2
  · obtain ⟨k1, k2, k3⟩ := k
    obtain h1 | h1 | h1 | h1 := h
    · rw [h1] at k1; cases k1
    · rw [h1] at k2; simp at k2
    · rw [h1] at k2; simp at k2
    · exact h1 k3
  · obtain ⟨k1, k2, k3⟩ := k
    obtain h1 | h1 | h1 := h
    · rw [h1] at k1; cases k1
    · exact h1 k2
    · exact k3 h1
  · rw [finalRise, if_pos ⟨h1, h2, h3⟩]
    cases p.pwr.deadline <;> rfl
  · obtain ⟨k1, k2⟩ := k
    omega

/-! ### The scheduler (R124 to R126, R162, R163) -/

theorem linkGrant_of_busy {p : Part} (h : p.link.current ≠ none) : linkGrant p = p := by
  rw [linkGrant, if_pos (Option.isSome_iff_ne_none.mpr h)]

theorem linkGrant_ident {p : Part} (h : p.link.current = none) (hl : p.link.state = .identifying ∨ p.link.state = .lost) :
    linkGrant p = grantOpt (identRequest p) p := by
  obtain hl | hl := hl <;> simp [linkGrant, h, hl]

theorem linkGrant_ready {p : Part} (h : p.link.current = none) (hl : p.link.state = .ready) : linkGrant p = grantReady p := by
  simp [linkGrant, h, hl]

theorem linkGrant_answers {p t : Part} (rest : List Instr) (h : linkGrant p = t) : AnswersNext .linkGrant p rest t :=
  answersNext_of (by rw [← h]; rfl)

theorem formatRequestOf_code (p : Part) (f : FormatRun) : (formatRequestOf p f).code ≠ .identify := by
  cases h : f.step <;> simp [formatRequestOf, h, request]

theorem recoveryRequest_eq {p : Part} {q : LinkReq} (h : recoveryRequest p = some q) :
    ∃ c first count, q = request .recovery c first count ∧ c ≠ .identify := by
  cases hr : p.eng.recovery with
  | none => simp [recoveryRequest, hr] at h
  | some rec =>
    cases hs : rec.step with
    | readA => simp only [recoveryRequest, hr, hs, Option.some.injEq] at h; exact ⟨_, _, _, h.symm, by decide⟩
    | readB a => simp only [recoveryRequest, hr, hs, Option.some.injEq] at h; exact ⟨_, _, _, h.symm, by decide⟩
    | entries tags =>
      cases hn : rec.newest with
      | none => simp [recoveryRequest, hr, hs, hn] at h
      | some x => simp only [recoveryRequest, hr, hs, hn, Option.some.injEq] at h; exact ⟨_, _, _, h.symm, by decide⟩
    | homes sent => simp only [recoveryRequest, hr, hs, Option.some.injEq] at h; exact ⟨_, _, _, h.symm, by decide⟩
    | applied => simp only [recoveryRequest, hr, hs, Option.some.injEq] at h; exact ⟨_, _, _, h.symm, by decide⟩

theorem engineRequest_eq {p : Part} {q : LinkReq} (h : engineRequest p = some q) :
    ∃ c first count, q = request .checkpoint c first count ∧ c ≠ .identify := by
  unfold engineRequest at h
  split at h <;> first | cases h; exact ⟨_, _, _, rfl, by decide⟩ | cases h

theorem grantable_of_allowed {p : Part} {q : LinkReq} (h : q.code.isWrite = false ∨ writeAllowed p q = true) :
    grantable p (some q) = some q := by
  have htest : (!q.code.isWrite || writeAllowed p q) = true := by simpa using h
  simp [grantable, Option.filter, htest]

section GrantReady

variable {p : Part}

theorem grantReady_format {f : FormatRun} (h : p.mbox.format = some f) : grantReady p = grant (formatRequestOf p f) p := by
  simp [grantReady, formatRequest, h, grantOpt]

theorem grantReady_recovery {q : LinkReq} (hf : p.mbox.format = none) (hr : p.eng.state = .recover)
    (hq : recoveryRequest p = some q) (h : q.code.isWrite = false ∨ p.pres.status = .unverified ∨ p.pres.status = .ready) :
    grantReady p = grant q p := by
  have hgrant : grantable p (recoveryRequest p) = some q := by
    rw [hq]
    refine grantable_of_allowed (h.imp id fun hs => ?_)
    obtain ⟨c, first, count, rfl, _⟩ := recoveryRequest_eq hq
    simpa [writeAllowed, request] using hs.symm
  simp [grantReady, hf, hr, hgrant, grantOpt]

variable (hf : p.mbox.format = none) (hr : p.eng.state ≠ .recover)

include hf hr

theorem grantReady_demand (hd : demandReady p = true) : grantReady p = grantDemand p := by
  simp [grantReady, hf, hr, hd]

variable (hd : demandReady p = false)

include hd

theorem grantReady_checkpoint {q : LinkReq} (hs : p.pres.status = .ready) (hq : engineRequest p = some q) :
    grantReady p = grant q p := by
  have hready : checkpointReady p = true := by simp [checkpointReady, hs, hq]
  have hgrant : grantable p (engineRequest p) = some q := by
    rw [hq]
    refine grantable_of_allowed (.inr ?_)
    obtain ⟨c, first, count, rfl, _⟩ := engineRequest_eq hq
    simpa [writeAllowed, request] using hs
  simp [grantReady, hf, hr, hd, hready, hgrant, grantOpt]

variable (hc : p.pres.status ≠ .ready ∨ engineRequest p = none)

include hc

theorem grantReady_background : grantReady p =
    if continueReady p then grantBackground (continueBackground p)
    else if newRunReady p then grantBackground (startBackground p)
    else p := by
  have hready : checkpointReady p = false := by
    obtain hs | hq := hc
    · simp [checkpointReady, hs]
    · simp [checkpointReady, hq]
  simp [grantReady, hf, hr, hd, hready]

end GrantReady

/-- A change of a block's state touches the records alone. -/
theorem setState_records (id : BlockId) (st : BlockState) (s : Part) :
    setState id st s = { s with tbl.recs := (setState id st s).tbl.recs } := by
  unfold setState
  split <;> rfl

@[simp] theorem setState_fill (id : BlockId) (st : BlockState) (s : Part) : (setState id st s).fill = s.fill := by
  rw [setState_records]

@[simp] theorem setState_regs (id : BlockId) (st : BlockState) (s : Part) : (setState id st s).regs = s.regs := by
  rw [setState_records]

theorem startDemand_of {p : Part} {id : BlockId} {more : List BlockId} {i : Fin 8} {others : List (Fin 8)}
    (hdem : p.fill.demand = id :: more) (hfree : freeSlots p = i :: others) : startDemand p = { setState id .filling p with
      fill.slots := p.fill.slots.set i (.reserved id)
      fill.demand := more
      fill.demandRun := some (id, i) } := by
  simp only [startDemand, hdem, hfree, reserve, setSlot, setState_fill]

theorem grantDemand_of {p : Part} {id : BlockId} {more : List BlockId} (hdem : p.fill.demand = id :: more) :
    grantDemand p = grant (request .demand .readBlock (homeOf p id) 1) (startDemand p) := by
  simp only [grantDemand, hdem]

theorem backgroundRequest_of {p : Part} {run : BackgroundRun} {x : RunBlock} (hb : p.fill.background = some run)
    (hx : run.blocks[run.next]? = some x) : backgroundRequest p =
      some (request .background (if run.blocks.length - run.next = 1 then .readBlock else .readRun) (homeOf p x.id)
        (run.blocks.length - run.next)) := by
  simp only [backgroundRequest, hb, hx]

theorem grantBackground_of {p : Part} {q : LinkReq} (h : backgroundRequest p = some q) : grantBackground p = grant q p := by
  rw [grantBackground, h]

theorem background_code_ne_identify (n : Nat) (first count : Nat) :
    (request .background (if n = 1 then .readBlock else .readRun) first count).code ≠ .identify := by
  by_cases h : n = 1 <;> simp [request, h]

/-! ### A new background run (R125) -/

/-- What a run start makes of the block table and the slots, step by step. -/
def reserveStep (t : Part) (x : BlockId × Fin 8) : Part :=
  { setState x.1 .filling t with fill.slots := t.fill.slots.set x.2 (.reserved x.1) }

theorem reserveFold_keeps (xs : List (BlockId × Fin 8)) : ∀ s : Part, xs.foldl reserveStep s = { s with
    tbl.recs := (xs.foldl reserveStep s).tbl.recs, fill.slots := (xs.foldl reserveStep s).fill.slots } := by
  induction xs with
  | nil => intro s; rfl
  | cons x xs ih =>
    intro s
    have hstep : reserveStep s x = { s with tbl.recs := (reserveStep s x).tbl.recs, fill.slots := (reserveStep s x).fill.slots } := by
      rw [reserveStep, setState_records]
    rw [List.foldl_cons, ih]
    generalize (xs.foldl reserveStep (reserveStep s x)).tbl.recs = recs
    generalize (xs.foldl reserveStep (reserveStep s x)).fill.slots = slots
    rw [hstep]

theorem runBlocks_of {p : Part} {id : BlockId} {more : List BlockId} (h : eligibleFill p = id :: more) :
    runBlocks p = id :: extendRun (min (min 8 (runLimit p)) (freeSlots p).length - 1) id more := by
  rw [runBlocks, h]

theorem startBackground_eq (p : Part) : startBackground p =
    (let run := (runBlocks p).zip (freeSlots p)
     { run.foldl reserveStep p with
      fill.queue := p.fill.queue.filter fun x => !(runBlocks p).contains x
      fill.background := some ⟨run.map fun x => ⟨x.1, x.2, false⟩, 0, false⟩ }) := by
  rw [startBackground, reserve_eq]
  rfl

/-- The new run's request reads from the home of its first block. -/
theorem backgroundRequest_start {p : Part} {id : BlockId} {more : List BlockId} (h : eligibleFill p = id :: more)
    (hfree : freeSlots p ≠ []) :
    let run := (runBlocks p).zip (freeSlots p)
    backgroundRequest (startBackground p) =
      some (request .background (if run.length = 1 then .readBlock else .readRun) (homeOf p id) run.length) := by
  intro run
  obtain ⟨i, others, hi⟩ := List.exists_cons_of_ne_nil hfree
  have hrun : run = (id, i) :: (extendRun (min (min 8 (runLimit p)) (freeSlots p).length - 1) id more).zip others := by
    simp only [run, runBlocks_of h, hi, List.zip_cons_cons]
  have hregs : (run.foldl reserveStep p).regs = p.regs := by rw [reserveFold_keeps]
  have hreq := backgroundRequest_of (p := startBackground p) (run := ⟨run.map fun x => ⟨x.1, x.2, false⟩, 0, false⟩)
    (x := ⟨id, i, false⟩) (by rw [startBackground_eq]) (by rw [hrun]; rfl)
  have hhome : homeOf (startBackground p) id = homeOf p id := by
    rw [startBackground_eq]
    show ((run.foldl reserveStep p).regs[id.region]).homeBase + id.index = _
    rw [hregs]
    rfl
  rw [hreq, hhome, List.length_map, Nat.sub_zero]

theorem runBlocks_spec {p : Part} {id : BlockId} {more : List BlockId} (h : eligibleFill p = id :: more) :
    let run := runBlocks p
    let most := min (min 8 (runLimit p)) (freeSlots p).length
    let follows (a b : BlockId) := b.region = a.region ∧ b.index = a.index + 1
    run <+: eligibleFill p ∧ 0 < run.length ∧ run.length ≤ max 1 most ∧
    (∀ j a b, run[j]? = some a → run[j + 1]? = some b → follows a b) ∧
    (∀ a b, run.getLast? = some a → (eligibleFill p)[run.length]? = some b → follows a b → most ≤ run.length) := by
  intro run most follows
  obtain ⟨hpre, hlen, hfirst, hnext, hlast⟩ := extendRun_spec (most - 1) id more
  have hrun : run = id :: extendRun (most - 1) id more := runBlocks_of h
  generalize extendRun (most - 1) id more = ext at hpre hlen hfirst hnext hlast hrun
  rw [hrun, h]
  refine ⟨(List.prefix_cons_inj id).mpr hpre, Nat.succ_pos _, ?_, fun j a b ha hb => ?_, fun a b ha hb hab => ?_⟩
  · rw [List.length_cons]
    omega
  · cases j with
    | zero =>
      obtain rfl : id = a := by simpa using ha
      exact hfirst b (by simpa using hb)
    | succ j => exact hnext j a b (by simpa using ha) (by simpa using hb)
  · have hdone := hlast a b (by simpa [List.getLast?_cons] using ha) (by simpa using hb) hab
    rw [List.length_cons]
    omega

/-- Settles O22: each requester in the order of R162. -/
theorem linkGrantOrder : Obligations.LinkGrantOrder := by
  refine ⟨?_, fun p id more h => runBlocks_spec h⟩
  intro p rest granted
  have hgranted (s : Part) {q : LinkReq} (h : q.code ≠ .identify) : grant q s = granted s q := grant_of h
  refine ⟨fun h => linkGrant_answers rest (linkGrant_of_busy h), fun hcur hl => ?ident, fun hcur hl => ⟨fun f hf => ?format,
    fun hf hr q hq h => ?recovery, fun hf hr => ⟨fun id more i others hd hdem hfree => ?demand, fun hd => ⟨fun q hs hq => ?checkpoint,
    fun hc => ⟨fun run x hcont hrun hx => ?continuation, fun id more hcont hnew hel => ?newRun, fun hcont hnew => ?nothing⟩⟩⟩⟩⟩
  case ident =>
    have hgrant := linkGrant_ident hcur hl
    refine ⟨fun hi => ?_, fun hi => ?_, fun hi => ?_, fun a hi => ?_⟩ <;> refine linkGrant_answers rest (hgrant.trans ?_) <;>
      rw [identRequest, hi] <;> rfl
  case format =>
    exact linkGrant_answers rest ((linkGrant_ready hcur hl).trans ((grantReady_format hf).trans
      (hgranted p (formatRequestOf_code p f))))
  case recovery =>
    obtain ⟨c, first, count, hqc, hcode⟩ := recoveryRequest_eq hq
    exact linkGrant_answers rest ((linkGrant_ready hcur hl).trans ((grantReady_recovery hf hr hq h).trans
      (hgranted p (by rw [hqc]; exact hcode))))
  case demand =>
    refine linkGrant_answers rest ((linkGrant_ready hcur hl).trans ((grantReady_demand hf hr hd).trans ?_))
    rw [grantDemand_of hdem, startDemand_of hdem hfree]
    exact hgranted _ (by simp [request])
  case checkpoint =>
    obtain ⟨c, first, count, hqc, hcode⟩ := engineRequest_eq hq
    exact linkGrant_answers rest ((linkGrant_ready hcur hl).trans ((grantReady_checkpoint hf hr hd hs hq).trans
      (hgranted p (by rw [hqc]; exact hcode))))
  case continuation =>
    refine linkGrant_answers rest ((linkGrant_ready hcur hl).trans ((grantReady_background hf hr hd hc).trans ?_))
    have hopen : continueBackground p = { p with fill.background := some { run with yielded := false } } := by
      rw [continueBackground, hrun, Option.map_some]
    rw [if_pos hcont, grantBackground_of (backgroundRequest_of (p := continueBackground p)
      (run := { run with yielded := false }) (by rw [hopen]) hx), hopen]
    exact hgranted _ (background_code_ne_identify _ _ _)
  case newRun =>
    refine linkGrant_answers rest ((linkGrant_ready hcur hl).trans ((grantReady_background hf hr hd hc).trans ?_))
    have hfree : freeSlots p ≠ [] := by
      intro hnone
      simp [newRunReady, hnone] at hnew
    rw [if_neg (by simp [hcont]), if_pos hnew, grantBackground_of (backgroundRequest_start hel hfree), startBackground_eq]
    exact hgranted _ (background_code_ne_identify _ _ _)
  case nothing =>
    refine linkGrant_answers rest ((linkGrant_ready hcur hl).trans ((grantReady_background hf hr hd hc).trans ?_))
    rw [if_neg (by simp [hcont]), if_neg (by simp [hnew])]

/-! ### The steps that finish a send (R75, R148, R149) -/

theorem frameSent_of_other {p : Part} (h : ∀ k, p.link.phase ≠ .frame k) : frameSent p = p := by
  cases hp : p.link.phase with
  | frame k => exact absurd hp (h k)
  | idle => simp [frameSent, hp]
  | answer k => simp [frameSent, hp]
  | readBurst => simp [frameSent, hp]
  | readAck => simp [frameSent, hp]
  | writeBurst => simp [frameSent, hp]
  | writeAck => simp [frameSent, hp]
  | busy => simp [frameSent, hp]

theorem exec_readAcknowledgeSent_other {p : Part} (rest : List Instr) (h : p.link.phase ≠ .readAck) :
    exec .readAcknowledgeSent ⟨p, rest⟩ = .next ⟨p, rest⟩ := by
  cases hp : p.link.phase <;> simp_all [exec, execReadAcknowledgeSent, onPart]

theorem exec_writeBurstSent_other {p : Part} (rest : List Instr) (h : p.link.phase ≠ .writeBurst) :
    exec .writeBurstSent ⟨p, rest⟩ = .next ⟨p, rest⟩ := by
  cases hp : p.link.phase <;> simp_all [exec, execWriteBurstSent, onPart]

theorem exec_writeBurstSent {p : Part} (rest : List Instr) (h : p.link.phase = .writeBurst) :
    exec .writeBurstSent ⟨p, rest⟩ = .next ⟨writeBurstDone p, rest⟩ := by
  simp only [exec, execWriteBurstSent, onPart, h]

theorem journalSent_of_other {p : Part} (pos : Nat) (h : p.eng.state ≠ .journal) : journalSent pos p = p := by
  cases hb : p.eng.batch <;> simp [journalSent, hb, h]

theorem journalSent_of_journal {p : Part} {batch : Batch} {n : U32} (pos : Nat) (h : p.eng.state = .journal)
    (hb : p.eng.batch = some batch) (hn : batch.number = some n) : journalSent pos p = { p with
      eng.batch := some { batch with
        check := if batch.sent + pos + 1 = p.eng.staging.length then some (entryCheck n p.eng.staging) else batch.check } } := by
  by_cases hlast : batch.sent + pos + 1 = p.eng.staging.length
  · rw [journalSent, hb, if_pos hlast]
    exact (if_pos ⟨h, hlast⟩).trans (by rw [hn]; rfl)
  · rw [journalSent, hb, if_neg hlast]
    refine (if_neg fun k => hlast k.2).trans ?_
    rw [← hb]

theorem writeBurstDone_of {p : Part} {q : LinkReq} (hq : p.link.current = some q) : writeBurstDone p =
    (let t := { p with link.phase := .writeAck, link.wait := some Config.answerClocks }
     if q.requester = .checkpoint && q.code.isRun && !q.withdrawn then journalSent q.pos t else t) := by
  rw [writeBurstDone, hq]

/-- Settles O23: each sending phase, and the others. -/
theorem sendingStepsStartTheirWaits : Obligations.SendingStepsStartTheirWaits := by
  intro p rest
  refine ⟨fun k h => ?_, fun h => ?_, fun h => ?_, exec_readAcknowledgeSent_other rest, exec_writeBurstSent_other rest,
    fun q hp hq => ⟨fun h hcode => ?_, fun batch n hreq hcode hw hst hb hn => ?_⟩⟩
  · simp only [exec, execRequestFrameSent, onPart, frameSent, h]
    rfl
  · exact congrArg (fun t => Host.Outcome.next (⟨t, rest⟩ : State)) (frameSent_of_other h)
  · simp only [exec, execReadAcknowledgeSent, onPart, h]
    rfl
  · rw [exec_writeBurstSent rest hp]
    refine congrArg (fun t => Host.Outcome.next (⟨t, rest⟩ : State)) ?_
    rw [writeBurstDone_of hq]
    dsimp only
    split
    · next hif =>
      have hstate : p.eng.state ≠ .journal := by
        simp only [Bool.and_eq_true, decide_eq_true_eq, Bool.not_eq_true'] at hif
        obtain ⟨⟨hreq, hrun⟩, hw⟩ := hif
        have hwr : q.code = .writeRun := by cases hc : q.code <;> simp_all [ReqCode.isRun]
        simpa [hreq, hwr, hw] using h
      exact journalSent_of_other q.pos hstate
    · rfl
  · rw [exec_writeBurstSent rest hp]
    refine congrArg (fun t => Host.Outcome.next (⟨t, rest⟩ : State)) ?_
    have hif : (decide (q.requester = .checkpoint) && q.code.isRun && !q.withdrawn) = true := by
      simp [hreq, hcode, hw, ReqCode.isRun]
    rw [writeBurstDone_of hq]
    refine (if_pos hif).trans ?_
    exact journalSent_of_journal (p := { p with link.phase := .writeAck, link.wait := some Config.answerClocks }) q.pos hst hb hn

end Sys2Proof.Machine
end

section
/-! PROOFS. The module link: answers taken, transport errors of single requests, acknowledges and bursts that pass. -/

namespace Sys2Proof.Machine

/-! ### The rows of the link, in the phase each of them waits for -/

section Rows

variable {p : Part} (rest : List Instr)

theorem exec_mioContention {k : FrameKind} (h : p.link.phase = .frame k) :
    exec .mioContention ⟨p, rest⟩ = .next ⟨settle (contention k p), rest⟩ := by
  simp only [exec, execMioContention, onPart, h]

theorem exec_answerTaken {k : FrameKind} (f : AnswerFrame) (h : p.link.phase = .answer k) :
    exec (.answerTaken f) ⟨p, rest⟩ = .next ⟨settle (answerTaken k f p), rest⟩ := by
  simp only [exec, execAnswerTaken, onPart, h]

theorem exec_answerTimeout_answer {k : FrameKind} (h : p.link.phase = .answer k) :
    exec .answerTimeout ⟨p, rest⟩ = .next ⟨settle (frameError k .answerTimeout p), rest⟩ := by
  simp only [exec, execAnswerTimeout, onPart, h]

theorem exec_answerTimeout_writeAck (h : p.link.phase = .writeAck) :
    exec .answerTimeout ⟨p, rest⟩ = .next ⟨settle (requestError .answerTimeout p), rest⟩ := by
  simp only [exec, execAnswerTimeout, onPart, h]

theorem exec_readBurstEnd (b : ReadBurst) (h : p.link.phase = .readBurst) :
    exec (.readBurstEnd b) ⟨p, rest⟩ = .next ⟨settle (burstEnd b p), rest⟩ := by
  simp only [exec, execReadBurstEnd, onPart, h]

theorem exec_dataTimeout (h : p.link.phase = .readBurst) :
    exec .dataTimeout ⟨p, rest⟩ = .next ⟨settle (requestError .dataTimeout p), rest⟩ := by
  simp only [exec, execDataTimeout, onPart, h]

theorem exec_writeAckTaken (code : BitVec 2) (stop : Bool) (h : p.link.phase = .writeAck) :
    exec (.writeAckTaken code stop) ⟨p, rest⟩ = .next ⟨settle (ackTaken code stop p), rest⟩ := by
  simp only [exec, execWriteAckTaken, onPart, h]

theorem exec_busyEnd (h : p.link.phase = .busy) : exec .busyEnd ⟨p, rest⟩ = .next ⟨settle (busyEnded p), rest⟩ := by
  simp only [exec, execBusyEnd, onPart, h]

theorem exec_busyTimeout (h : p.link.phase = .busy) :
    exec .busyTimeout ⟨p, rest⟩ = .next ⟨settle (busyTimedOut p), rest⟩ := by
  simp only [exec, execBusyTimeout, onPart, h]

end Rows

theorem answersNext_congr {c : Instr} {p t u : Part} {rest : List Instr}
    (h : exec c ⟨p, rest⟩ = .next ⟨settle u, rest⟩) (ht : u = t) : AnswersNext c p rest t :=
  answersNext_of (by rw [h, ht])

/-! ### An answer is checked (R148, R206) -/

theorem frameCode_request {p : Part} {q : LinkReq} (h : p.link.current = some q) : frameCode p .request = q.code := by
  simp only [frameCode, h]

theorem answerTaken_of_failed {p : Part} {k : FrameKind} {f : AnswerFrame} {c : ErrClass}
    (h : answerError (frameCode p k) f = some c) : answerTaken k f p = frameError k c p := by
  unfold answerTaken
  rw [h]

theorem answerStatus_toByte (st : LinkStatus) : answerStatus st.toByte = some (some st) := by
  cases st <;> rfl

theorem answerStatus_isSome_iff (b : Byte) : (answerStatus b).isSome = true ↔ b.toNat ≤ 4 := by
  constructor
  · intro h
    by_contra hgt
    rw [answerStatus] at h
    split at h <;> first | omega | cases h
  · intro h
    have hcase : b.toNat = 0 ∨ b.toNat = 1 ∨ b.toNat = 2 ∨ b.toNat = 3 ∨ b.toNat = 4 := by omega
    obtain h | h | h | h | h := hcase <;> simp [answerStatus, h]

/-- What the part makes of an answer that passes its checks, by the frame it answers (R148, R152, R155). -/
def answerMeaning (k : FrameKind) (st : Option LinkStatus) (arg : U32) (s : Part) : Part :=
  match k, st with
  | .request, none => requestAnswered s
  | .request, some st => finish (.status st false) (clearAnswered s)
  | .query, none => queryAnswered arg s
  | .query, some _ => queryUntaken s
  | .endRun, none => endRunAnswered s
  | .endRun, some st => endRunStatus st s

theorem answerTaken_of_passed {p : Part} {k : FrameKind} {f : AnswerFrame} {st : Option LinkStatus}
    (h1 : answerCheck f.code f.status f.arg = f.check) (h2 : f.code = (frameCode p k).toByte) (h3 : f.stop = true)
    (hst : answerStatus f.status = some st) : answerTaken k f p = answerMeaning k st f.arg p := by
  have hnone : answerError (frameCode p k) f = none := answerError_of_passed h1 h2 h3 (by rw [hst]; rfl)
  have htaken : takenStatus f = st := by rw [takenStatus, hst, Option.getD_some]
  unfold answerTaken
  rw [hnone]
  dsimp only
  rw [htaken]
  cases k <;> cases st <;> rfl

theorem finish_of {p : Part} {q : LinkReq} (o : LinkOutcome) (h : p.link.current = some q) :
    finish o p = deliver q o (endRequest p) := by
  rw [finish, h]

theorem finish_withdrawn {p : Part} {q : LinkReq} (h : p.link.current = some q) : finish .withdrawn p = endRequest p :=
  (finish_of _ h).trans (deliver_of_given_up q _).1

theorem finish_abandoned {p : Part} {q : LinkReq} (h : p.link.current = some q) : finish .abandoned p = endRequest p :=
  (finish_of _ h).trans (deliver_of_given_up q _).2

/-! ### The request frame answered OK (R151, R153, R154, R160) -/

section Answered

variable {p : Part} {q : LinkReq} (h : p.link.current = some q)

include h

theorem requestAnswered_identify (hc : q.code = .identify) :
    requestAnswered p = awaitBurst { p with link.runOpen := false } := by
  rw [requestAnswered, h]
  dsimp only
  rw [hc]

theorem requestAnswered_readBlock (hc : q.code = .readBlock) : requestAnswered p = awaitBurst p := by
  rw [requestAnswered, h]
  dsimp only
  rw [hc]

theorem requestAnswered_writeBlock (hc : q.code = .writeBlock) : requestAnswered p =
    if q.withdrawn = true ∨ writeAllowed p q = false then endRequest p else sendBurst q p := by
  rw [requestAnswered, h]
  dsimp only
  rw [hc]
  dsimp only
  rw [finish_withdrawn h, finish_abandoned h]
  cases q.withdrawn <;> cases writeAllowed p q <;> rfl

theorem requestAnswered_run (hc : q.code = .readRun ∨ q.code = .writeRun) : requestAnswered p = openRun q p := by
  rw [requestAnswered, h]
  dsimp only
  obtain hc | hc := hc <;> rw [hc]

end Answered

/-- The module status allows a write, or does not, whatever the link does meanwhile. -/
theorem writeAllowed_link (p : Part) (l : Link) (q : LinkReq) : writeAllowed { p with link := l } q = writeAllowed p q := rfl

theorem openRun_withdrawn {p : Part} {q : LinkReq} (h : q.withdrawn = true) :
    openRun q p = sendEndRun .withdrawn { p with link.state := .run, link.runOpen := true } := by
  rw [openRun, if_pos h]

theorem openRun_read {p : Part} {q : LinkReq} (h : q.withdrawn = false) (hc : q.code = .readRun) :
    openRun q p = awaitBurst { p with link.state := .run, link.runOpen := true } := by
  rw [openRun, if_neg (by simp [h]), if_neg (by simp [hc, ReqCode.isWrite])]

theorem openRun_write {p : Part} {q : LinkReq} (h : q.withdrawn = false) (hc : q.code = .writeRun) :
    openRun q p =
      (let t := { p with link.state := .run, link.runOpen := true }
       if writeAllowed p q then sendBurst q t else sendEndRun .abandoned t) := by
  rw [openRun, if_neg (by simp [h]), if_pos (by simp [hc, ReqCode.isWrite])]
  rfl

/-! ### What a requester makes of an outcome (R156) -/

theorem deliver_of_discarded {q : LinkReq} {p : Part} (o : LinkOutcome) (h : q.withdrawn = true ∨ q.discard = true) :
    deliver q o p = p := if_pos (by simpa using h)

/-- An outcome that is wanted goes to the requester. -/
theorem deliver_of_wanted {q : LinkReq} {p : Part} (o : LinkOutcome) (hw : q.withdrawn = false) (hd : q.discard = false) :
    deliver q o p =
      match q.requester with
      | .identification => identOutcome o p
      | .format => formatOutcome q o p
      | .recovery => recoveryOutcome q o p
      | .demand => demandOutcome o p
      | .checkpoint => engineOutcome q o p
      | .background => backgroundOutcome o p :=
  if_neg (by simp [hw, hd])

theorem unsettled_of {p : Part} {rec : Recovery} (h : p.eng.recovery = some rec) : unsettled p = rec.unsettled := by
  rw [unsettled, h]

/-- Settles O24: the answer's meaning by the request's code, and the status by its requester. -/
theorem answerTaken_spec : Obligations.AnswerTaken := by
  refine ⟨fun p rest q f hp hq hcheck hcode hstop => ?taken, fun p q => ⟨fun h o => deliver_of_discarded o h,
    fun hw hd st atEnd => ?status⟩⟩
  case taken =>
    have hfc : f.code = (frameCode p .request).toByte := by rw [frameCode_request hq, hcode]
    have hanswer {st : Option LinkStatus} {t : Part} (hst : answerStatus f.status = some st)
        (h : answerMeaning .request st f.arg p = t) : AnswersNext (.answerTaken f) p rest t :=
      answersNext_congr (exec_answerTaken rest f hp) ((answerTaken_of_passed hcheck hfc hstop hst).trans h)
    intro awaited sent closing
    refine ⟨fun h0 => ?_, fun st hst => ?_⟩
    · have hok : answerStatus f.status = some none := by rw [h0]; rfl
      have hwrite (hc : q.code = .writeBlock) := requestAnswered_writeBlock hq hc
      have hrun (hc : q.code = .readRun ∨ q.code = .writeRun) := requestAnswered_run hq hc
      refine ⟨fun hc => hanswer hok (requestAnswered_identify hq hc), fun hc => hanswer hok (requestAnswered_readBlock hq hc),
        fun hc hw ha => hanswer hok ((hwrite hc).trans (if_neg (by simp [hw, ha]))),
        fun hc h => hanswer hok ((hwrite hc).trans (if_pos h)),
        fun hc hw => hanswer hok ((hrun (.inl hc)).trans (openRun_read hw hc)),
        fun hc hw ha => hanswer hok ((hrun (.inr hc)).trans ((openRun_write hw hc).trans (if_pos ha))),
        fun hc hw ha => hanswer hok ((hrun (.inr hc)).trans ((openRun_write hw hc).trans (if_neg (by simp [ha])))),
        fun hc hw => hanswer hok ((hrun hc).trans (openRun_withdrawn hw))⟩
    · refine hanswer (hst ▸ answerStatus_toByte st) ?_
      rw [answerMeaning, clearAnswered, frameCode_request hq]
      split
      · exact finish_of (p := { p with link.runOpen := false }) _ hq
      · exact finish_of _ hq
  case status =>
    intro s
    have hs : s = _ := deliver_of_wanted (p := p) (.status st atEnd) hw hd
    refine ⟨fun hr => ?_, fun hr => ?_, fun rec hr hrec => ?_, fun hr => ?_, fun hr => ?_, fun hr => ?_⟩ <;>
      rw [hr] at hs
    · exact hs
    · exact hs
    · rw [hs, ← unsettled_of hrec]
      rfl
    · exact hs
    · exact hs
    · have hs' : s = engineRefused p := hs
      refine ⟨fun hst => ?_, fun hst => ?_, fun hst => ?_⟩
      · obtain hst | hst := hst <;> rw [hs', engineRefused, hst]
      · rw [hs', engineRefused, hst]
      · obtain hst | hst := hst <;> rw [hs', engineRefused, hst]

/-! ### A transport error taken (R158, R160) -/

section AttemptError

variable {s : Part} {q : LinkReq} (h : s.link.current = some q)

include h

/-- A request withdrawn, or a write no longer allowed, ends at its error. -/
theorem attemptError_givenUp (c : ErrClass) (hg : q.withdrawn = true ∨ q.code.isWrite = true ∧ writeAllowed s q = false) :
    attemptError c s = endRequest s := attemptError_of_given_up c h hg

theorem attemptError_wanted (c : ErrClass) (hg : ¬ (q.withdrawn = true ∨ q.code.isWrite = true ∧ writeAllowed s q = false)) :
    attemptError c s = if s.link.retries < s.link.retryCount then resend q s
      else deliver q (.failed (some c)) { endRequest s with evq := s.evq.post (.linkError c q.code) s.now } := by
  rw [attemptError, h]
  dsimp only
  rw [if_neg fun k => hg (.inl k), if_neg fun k => hg (.inr (by simpa using k)), finish_post _ _ h]

end AttemptError

theorem requestError_single {p : Part} {q : LinkReq} (c : ErrClass) (h : p.link.current = some q) (hc : q.code.isRun = false) :
    requestError c p = attemptError c p := by
  rw [requestError, h]
  exact if_neg (by simp [hc])

theorem burstEnd_of_failed {p : Part} {b : ReadBurst} {c : ErrClass} (h : burstError b = some c) :
    burstEnd b p = requestError c p := by
  rw [burstEnd, h]

theorem ackTaken_of_failed {p : Part} {code : BitVec 2} {stop : Bool} {c : ErrClass} (h : ackError code stop = some c) :
    ackTaken code stop p = requestError c p := by
  rw [ackTaken, h]

theorem ackError_of_reject {code : BitVec 2} (h : code = 0 ∨ code = 2) : ackError code true = some .burstReject := by
  obtain rfl | rfl := h <;> rfl

theorem ackError_of_stop (code : BitVec 2) : ackError code false = some .framing := rfl

theorem retried_single {q : LinkReq} (h : q.code = .identify ∨ q.code = .readBlock ∨ q.code = .writeBlock) : retried q = q := by
  obtain h | h | h := h <;> rw [retried, h]

/-- Settles O25: each finding of an error, then the error taken, then what each requester makes of the failure. -/
theorem transportErrorOfASingleBlockRequest : Obligations.TransportErrorOfASingleBlockRequest := by
  refine ⟨fun p rest q hq hcode => ?errors, fun p q cls hw hd => ?outcome⟩
  case errors =>
    intro givenUp ends
    have hrun : q.code.isRun = false := by obtain h | h | h := hcode <;> rw [h] <;> rfl
    have hwrite : q.code.isWrite = true ↔ q.code = .writeBlock := by
      obtain h | h | h := hcode <;> rw [h] <;> simp [ReqCode.isWrite]
    have hgiven : givenUp ↔ q.withdrawn = true ∨ q.code.isWrite = true ∧ writeAllowed p q = false := by rw [hwrite]
    have htaken (c : Instr) (cls : ErrClass) (close : Option CloseWhy) (proc : Option CloseProc)
        (h : exec c ⟨p, rest⟩ =
          .next ⟨settle (attemptError cls { p with link.close := close, link.proc := proc }), rest⟩) : ends c cls := by
      refine ⟨fun hg => ?_, fun hg hret => ?_, fun hg hret => ?_⟩
      · exact answersNext_congr h (attemptError_givenUp (s := { p with link.close := close, link.proc := proc }) hq cls
          (hgiven.mp hg))
      · refine answersNext_congr h ((attemptError_wanted (s := { p with link.close := close, link.proc := proc }) hq cls
          (mt hgiven.mpr hg)).trans ((if_pos hret).trans ?_))
        rw [resend, retried_single hcode, ← hq]
        rfl
      · exact answersNext_congr h ((attemptError_wanted (s := { p with link.close := close, link.proc := proc }) hq cls
          (mt hgiven.mpr hg)).trans (if_neg (Nat.not_lt.mpr hret)))
    have herror {c : Instr} {cls : ErrClass} (h : exec c ⟨p, rest⟩ = .next ⟨settle (requestError cls p), rest⟩) : ends c cls :=
      htaken c cls p.link.close p.link.proc (h.trans (by rw [requestError_single cls hq hrun]))
    have hanswer {f : AnswerFrame} {cls : ErrClass} (hp : p.link.phase = .answer .request)
        (he : answerError q.code f = some cls) : ends (.answerTaken f) cls := by
      refine herror ((exec_answerTaken rest f hp).trans ?_)
      rw [answerTaken_of_failed (by rw [frameCode_request hq, he])]
      rfl
    have hburst {b : ReadBurst} {cls : ErrClass} (hp : p.link.phase = .readBurst) (he : burstError b = some cls) :
        ends (.readBurstEnd b) cls :=
      herror ((exec_readBurstEnd rest b hp).trans (by rw [burstEnd_of_failed he]))
    have hack {code : BitVec 2} {stop : Bool} {cls : ErrClass} (hp : p.link.phase = .writeAck)
        (he : ackError code stop = some cls) : ends (.writeAckTaken code stop) cls :=
      herror ((exec_writeAckTaken rest code stop hp).trans (by rw [ackTaken_of_failed he]))
    refine ⟨fun hp => htaken _ _ p.link.close p.link.proc (exec_mioContention rest hp), fun hp => ?_, fun f hp => ?_, fun b hp => ?_,
      fun hp => herror (exec_dataTimeout rest hp), fun code hp h => hack hp (ackError_of_reject h),
      fun hp => ⟨hack hp rfl, fun code => hack hp (ackError_of_stop code)⟩,
      fun hp => htaken _ _ none none (exec_busyTimeout rest hp), fun hp hc hw => ?_⟩
    · obtain hp | hp := hp
      · exact herror (exec_answerTimeout_answer rest hp)
      · exact herror (exec_answerTimeout_writeAck rest hp)
    · obtain ⟨h1, h2, h3⟩ := answerError_of_failed q.code f
      exact ⟨fun k => hanswer hp (h1 k), fun k1 k2 => hanswer hp (h2 k1 k2), fun k1 k2 k3 => hanswer hp (h3 k1 k2 k3)⟩
    · obtain ⟨h1, h2⟩ := burstError_of_failed b
      exact ⟨fun k => hburst hp (h1 k), fun k1 k2 k3 => hburst hp (h2 k1 k2 k3)⟩
    · refine answersNext_congr (exec_busyEnd rest hp) ?_
      rw [busyEnded, hq]
      dsimp only
      rw [if_neg (by simp [hrun]), if_pos hw, finish_withdrawn hq]
  case outcome =>
    intro s
    have hs : s = _ := deliver_of_wanted (p := p) (.failed cls) hw hd
    refine ⟨fun hr => ?_, fun hr => ?_, fun hr => ?_, fun hr => ?_, fun hr => ?_, fun hr => ?_⟩ <;> rw [hr] at hs
    · exact hs
    · exact ⟨fun c hc => by rw [hs, hc]; rfl, fun hc => by rw [hs, hc]; rfl⟩
    · exact hs
    · exact hs
    · exact hs
    · have hs' : s = engineFailed cls p := hs
      refine ⟨fun hst => ?_, fun hst hready hcls => ?_, fun hst h => ?_, fun hst => ?_, fun hst => ?_⟩
      · rw [hs', engineFailed, hst]
      · rw [hs', engineFailed, hst]
        exact if_pos ⟨hready, Option.isSome_iff_ne_none.mpr hcls⟩
      · rw [hs', engineFailed, hst]
        refine if_neg fun ⟨k1, k2⟩ => h.elim (fun h1 => h1 k1) fun h2 => ?_
        rw [h2] at k2
        cases k2
      · rw [hs', engineFailed, hst]
      · obtain hst | hst := hst <;> rw [hs', engineFailed, hst]

/-! ### A burst accepted (R149, R150, R155, R164) -/

theorem burstAccepted_single {p : Part} {q : LinkReq} (h : p.link.current = some q) (hc : q.code.isRun = false) :
    burstAccepted p = awaitBusy p := by
  rw [burstAccepted, h]
  exact if_neg (by simp [hc])

theorem burstAccepted_run {p : Part} {q : LinkReq} (h : p.link.current = some q) (hc : q.code.isRun = true) :
    burstAccepted p = boundary { p with link.current := some { q with pos := q.pos + 1 } } := by
  rw [burstAccepted, h]
  refine (if_pos hc).trans (congrArg boundary ?_)
  rw [advancePos, h, Option.map_some]

theorem yieldCause_writeRun {p : Part} {q : LinkReq} (hc : q.code = .writeRun) :
    yieldCause p q = true ↔ q.requester = .checkpoint ∧ (demandReady p = true ∨ p.eng.pauseReq = true) := by
  cases hr : q.requester <;> simp [yieldCause, hr, hc]

theorem yieldCause_readRun {p : Part} {q : LinkReq} (hc : q.code = .readRun) :
    yieldCause p q = true ↔ q.requester = .background ∧ (demandReady p = true ∨ p.pwr.freeze = true) := by
  cases hr : q.requester <;> simp [yieldCause, hr, hc]

theorem writeAllowed_pos (p : Part) (q : LinkReq) (n : Nat) : writeAllowed p { q with pos := n } = writeAllowed p q := rfl

/-- Settles O27: the boundary after a burst of a run, in the order of its causes. -/
theorem writeAcknowledgeAccepted : Obligations.WriteAcknowledgeAccepted := by
  intro p rest q hp hq r closing
  have hexec := exec_writeAckTaken rest 1#2 true hp
  refine ⟨fun hc => answersNext_congr hexec (burstAccepted_single hq (by rw [hc]; rfl)), fun hc => ?_⟩
  let s : Part := { p with link.current := some r }
  have hb := (burstAccepted_run hq (by rw [hc]; rfl)).trans (boundary_of (s := s) (q := r) rfl)
  have hallowed : writeAllowed s r = writeAllowed p q := rfl
  have hyield : yieldCause s r = true ↔ q.requester = .checkpoint ∧ (demandReady p = true ∨ p.eng.pauseReq = true) :=
    yieldCause_writeRun (p := s) (q := r) hc
  have hwrite : r.code.isWrite = true := by rw [show r.code = q.code from rfl, hc]; rfl
  have hbound : burstAccepted p =
      if q.withdrawn then sendEndRun .withdrawn s
      else if q.count ≤ q.pos + 1 then sendEndRun .last s
      else if !writeAllowed p q then sendEndRun .abandoned s
      else if yieldCause s r then sendEndRun .yield s
      else sendBurst r s := by
    rw [hb, hwrite, hallowed]
    rfl
  refine ⟨fun hw => ?_, fun hw hlast => ?_, fun hw hmore ha => ?_, fun hw hmore ha hr hcause => ?_, fun hw hmore ha hno => ?_⟩ <;>
    refine answersNext_congr hexec (hbound.trans ?_)
  · rw [if_pos hw]
    rfl
  · rw [if_neg (by simp [hw]), if_pos hlast]
    rfl
  · rw [if_neg (by simp [hw]), if_neg (by omega), if_pos (by simp [ha])]
    rfl
  · rw [if_neg (by simp [hw]), if_neg (by omega), if_neg (by simp [ha]), if_pos (hyield.mpr ⟨hr, hcause⟩)]
    rfl
  · have hnot : ¬ yieldCause s r = true := fun k => by
      obtain ⟨k1, k2⟩ := hyield.mp k
      obtain h | ⟨h1, h2⟩ := hno
      · exact h k1
      · simp [h1, h2] at k2
    rw [if_neg (by simp [hw]), if_neg (by omega), if_neg (by simp [ha]), if_neg hnot]
    rfl

/-! ### A read burst that passes (R149, R154, R155) -/

/-- The boundary of a read run, in the order of its causes. -/
theorem boundary_readRun {s : Part} {q : LinkReq} (h : s.link.current = some q) (hc : q.code = .readRun) : boundary s =
    if q.withdrawn then sendEndRun .withdrawn s
    else if q.count ≤ q.pos then sendEndRun .last s
    else if yieldCause s q then sendEndRun .yield s
    else { s with link.phase := .readAck, link.wait := none, out.link := s.out.link ++ [.readAck] } := by
  rw [boundary_of h, hc]
  rfl

theorem backgroundBurst_current (b : ReadBurst) (s : Part) : (backgroundBurst b s).link = s.link := by
  rw [backgroundBurst_pathOnly b s]

/-- Settles O28: what the burst's requester makes of it, then the boundary. -/
theorem readBurstPassed : Obligations.ReadBurstPassed := by
  intro p rest q b hp hq hb ht hs
  have hsingle (hc : q.code = .identify ∨ q.code = .readBlock) := readBurstEnd_of_passed p rest q b hp hq hc hb ht hs
  have hrun (hc : q.code = .readRun) := readBurstEnd_of_run p rest q b hp hq hc hb ht hs
  refine ⟨fun hc => answersNext_congr (hsingle hc) rfl, fun hc h => ?given, fun hc hw hd => ?discarded, fun hc hw => ?withdrawn,
    fun hc hw hr hd => ?background⟩
  case given =>
    refine answersNext_congr (hsingle hc) ?_
    rw [handBurst_of_given_up b _ h, deliver_of_discarded _ h]
  case discarded =>
    intro s closing yields
    have hcause : yieldCause s { q with pos := q.pos + 1 } = true ↔ yields := yieldCause_readRun (p := s) hc
    have hbound := boundary_readRun (s := s) (q := { q with pos := q.pos + 1 }) rfl hc
    have hexec := hrun hc
    rw [handBurst_of_given_up b _ (.inr hd)] at hexec
    rw [if_neg (by simp [hw])] at hbound
    refine ⟨fun hl => answersNext_congr hexec (hbound.trans (if_pos hl)), fun hl hy => ?_, fun hl hy => ?_⟩ <;>
      rw [if_neg (Nat.not_le.mpr hl)] at hbound
    · exact answersNext_congr hexec (hbound.trans (if_pos (hcause.mpr hy)))
    · exact answersNext_congr hexec (hbound.trans (if_neg (mt hcause.mp hy)))
  case withdrawn =>
    have hexec := hrun hc
    rw [handBurst_of_given_up b _ (.inl hw)] at hexec
    refine answersNext_congr hexec ((boundary_readRun (q := { q with pos := q.pos + 1 }) rfl hc).trans (if_pos hw))
  case background =>
    intro s closing
    have hhand (u : Part) : handBurst q b u = backgroundBurst b u := by
      rw [handBurst, if_neg (by simp [hw, hd]), hr]
    have hcur : s.link.current = some { q with pos := q.pos + 1 } := by rw [backgroundBurst_current]
    have hexec := hrun hc
    have hbound := boundary_of_background hcur hw hc hr
    rw [hhand] at hexec
    refine ⟨fun hl => answersNext_congr hexec (hbound.trans (if_pos hl)), fun hl hy => ?_, fun hl h1 h2 => ?_⟩ <;>
      rw [if_neg (Nat.not_le.mpr hl)] at hbound
    · exact answersNext_congr hexec (hbound.trans (if_pos hy))
    · exact answersNext_congr hexec (hbound.trans (if_neg (by simp [h1, h2])))

end Sys2Proof.Machine
end

section
/-! PROOFS. The module link: the run close procedure, the closing of runs, and the loss of the link. -/

namespace Sys2Proof.Machine

/-! ### The procedure's beginnings (R157) -/

theorem requestError_run {p : Part} {q : LinkReq} (c : ErrClass) (h : p.link.current = some q) (hc : q.code.isRun = true) :
    requestError c p = beginClose c p := by
  rw [requestError, h]
  exact if_pos hc

theorem beginClose_of_ne {c : ErrClass} (h : c ≠ .contention) (p : Part) :
    beginClose c p = sendFrame .query .query 0 { p with link.proc := some ⟨c, false⟩, link.close := none } := if_neg h

theorem beginClose_contention (p : Part) : beginClose .contention p = loseLink false .contention p := rfl

theorem endRunError_first {p : Part} (c : ErrClass) (h : p.link.proc = none) : endRunError c p = beginClose c p := by
  rw [endRunError, h]
  rfl

theorem endRunError_again {p : Part} {proc : CloseProc} (c : ErrClass) (h : p.link.proc = some proc) :
    endRunError c p = beginCloseAgain c p := by
  rw [endRunError, h]
  rfl

theorem beginCloseAgain_retry {p : Part} (c : ErrClass) (h : p.link.retries < p.link.retryCount) :
    beginCloseAgain c p = beginClose c { p with link.retries := p.link.retries + 1 } := if_pos h

theorem beginCloseAgain_spent {p : Part} {c : ErrClass} (h : p.link.retryCount ≤ p.link.retries) (hc : c ≠ .contention) :
    beginCloseAgain c p = sendFrame .query .query 0 { p with link.proc := some ⟨c, true⟩, link.close := none } := by
  rw [beginCloseAgain, if_neg (Nat.not_lt.mpr h), if_neg hc]

theorem beginCloseAgain_spent_contention {p : Part} (h : p.link.retryCount ≤ p.link.retries) :
    beginCloseAgain .contention p = loseLink false .contention p := by
  rw [beginCloseAgain, if_neg (Nat.not_lt.mpr h), if_pos rfl]

theorem queryUntaken_of {p : Part} {proc : CloseProc} (h : p.link.proc = some proc) :
    queryUntaken p = loseLink false proc.cls p := by
  rw [queryUntaken, h]

theorem queryAnswered_of {p : Part} {proc : CloseProc} (arg : U32) (h : p.link.proc = some proc) : queryAnswered arg p =
    if arg.getLsbD 31 then
      (if proc.noEnd then loseLink true proc.cls { p with link.runOpen := true }
        else sendEndRun .procedure { p with link.runOpen := true })
    else closeEnded proc.cls p := by
  rw [queryAnswered, h]

/-! ### The closing of a run (R155 to R158) -/

section Closed

variable {s : Part} {q : LinkReq} (h : s.link.current = some q)

include h

theorem closeEnded_of (c : ErrClass) : closeEnded c s =
    (let t := { s with link.proc := none, link.close := none, link.runOpen := false }
     if q.code = .readRun ∧ q.pos = q.count then finish .done t else attemptError c t) := by
  rw [closeEnded, h]

theorem runClosed_last (hc : s.link.close = some .last) : runClosed s = deliver q .done (endRequest s) := by
  rw [← finish_of .done h]
  simp only [runClosed, h, hc]

theorem runClosed_yield (hc : s.link.close = some .yield) : runClosed s = deliver q (.yielded q.pos) (endRequest s) := by
  rw [← finish_of (.yielded q.pos) h]
  simp only [runClosed, h, hc]

theorem runClosed_givenUp (hc : s.link.close = some .withdrawn ∨ s.link.close = some .abandoned) :
    runClosed s = endRequest s := by
  obtain hc | hc := hc
  · rw [← finish_withdrawn h]
    simp only [runClosed, h, hc]
  · rw [← finish_abandoned h]
    simp only [runClosed, h, hc]

theorem runClosed_procedure {proc : CloseProc} (hc : s.link.close = some .procedure) (hp : s.link.proc = some proc) :
    runClosed s = closeEnded proc.cls s := by
  simp only [runClosed, h, hc, hp]

theorem endRunAnswered_of : endRunAnswered s =
    (let t := { s with link.runOpen := false }
     if q.code = .writeRun then awaitBusy t else runClosed t) := by
  rw [endRunAnswered, h]

end Closed

theorem busyEnded_run {p : Part} {q : LinkReq} (h : p.link.current = some q) (hc : q.code.isRun = true) :
    busyEnded p = runClosed p := by
  rw [busyEnded, h]
  exact if_pos hc

/-! ### The error taken on a run (R158) -/

theorem retried_writeRun {q : LinkReq} (h : q.code = .writeRun) : retried q = { q with arg := q.first, pos := 0 } := by
  rw [retried, h]

theorem retried_readRun {q : LinkReq} (h : q.code = .readRun) : retried q =
    if q.pos + 1 = q.count then { q with code := .readBlock, arg := q.first + q.pos } else { q with arg := q.first + q.pos } := by
  rw [retried, h]

/-! ### The loss of the link (R159) -/

/-- What the loss of the link leaves before anyone has taken it. -/
def linkLostPart (sent : Bool) (c : ErrClass) (p : Part) : Part := { p with
  link := { p.link with
    current := none, phase := .idle, wait := none, close := none, proc := none
    state := .lost, attempts := 0, rate := .slow }
  pres.ident := some .identify
  evq := (p.evq.post (.runCloseError sent (.cls c)) p.now).post (.linkLost sent) p.now }

theorem loseLink_eq (sent : Bool) (c : ErrClass) (p : Part) : loseLink sent c p =
    lossReports p.link.current (.failed (some c)) (p.pres.status == .ready) lostStatus (linkLostPart sent c p) := rfl

theorem lossReports_inOrder {q : LinkReq} {o : LinkOutcome} {changes : Bool} {change : Part → Part} {s : Part}
    (h : ¬ (q.withdrawn = false ∧ q.discard = false ∧ changes = true)) :
    lossReports (some q) o changes change s = change (deliver q o s) := by
  rw [lossReports, if_pos]
  simp only [Bool.or_eq_true, Bool.not_eq_true']
  cases hw : q.withdrawn <;> cases hd : q.discard <;> cases hc : changes <;> simp_all

theorem lossReports_eitherOrder {q : LinkReq} {o : LinkOutcome} {changes : Bool} {change : Part → Part} {s : Part}
    (h : q.withdrawn = false ∧ q.discard = false ∧ changes = true) :
    lossReports (some q) o changes change s = change (deliver q o { s with choices := s.choices + 1 }) ∨
      lossReports (some q) o changes change s = deliver q o (change { s with choices := s.choices + 1 }) := by
  obtain ⟨hw, hd, hc⟩ := h
  have heither : lossReports (some q) o changes change s = eitherOrder (deliver q o) change s := if_neg (by simp [hw, hd, hc])
  rw [heither]
  simp only [eitherOrder]
  split
  · exact .inl rfl
  · exact .inr rfl

/-! ### What a step does to a run, in the words of the statement -/

section Run

variable (p : Part) (rest : List Instr) (q : LinkReq)

/-- The close procedure begins with a QUERY. -/
def BeginsClose (c : Instr) (cls : ErrClass) (noEnd : Bool) (retries : Nat) : Prop :=
  AnswersNext c p rest { p with
    link.phase := .frame .query, link.wait := none, link.proc := some ⟨cls, noEnd⟩, link.close := none
    link.retries := retries
    out.link := p.out.link ++ [.frame .query 0] }

/-- END RUN ended with a transport error. -/
def EndRunFails (c : Instr) (cls : ErrClass) : Prop :=
  (p.link.proc = none → BeginsClose p rest c cls false p.link.retries) ∧
  (∀ proc, p.link.proc = some proc →
    (¬ p.link.retryCount ≤ p.link.retries → BeginsClose p rest c cls false (p.link.retries + 1)) ∧
    (p.link.retryCount ≤ p.link.retries → BeginsClose p rest c cls true p.link.retries))

/-- The request goes out again as `r`. -/
def SentAgain (c : Instr) (s : Part) (r : LinkReq) : Prop :=
  AnswersNext c p rest { s with
    link.current := some r
    link.state := if s.link.state = .busy then .request else s.link.state
    link.phase := .frame .request
    link.wait := none
    link.retries := p.link.retries + 1
    link.close := none
    link.proc := none
    out.link := p.out.link ++ [.frame r.code r.arg] }

/-- The error is taken as one error of the run. -/
def ErrorTaken (c : Instr) (cls : ErrClass) (s : Part) : Prop :=
  let allowed := q.code = .writeRun → writeAllowed p q = true
  (q.withdrawn = true ∨ ¬ allowed → AnswersNext c p rest (endRequest s)) ∧
  (q.withdrawn = false → allowed →
    (¬ p.link.retryCount ≤ p.link.retries →
      (q.code = .writeRun → SentAgain p rest c s { q with arg := q.first, pos := 0 }) ∧
      (q.code = .readRun → q.pos + 1 ≠ q.count → SentAgain p rest c s { q with arg := q.first + q.pos }) ∧
      (q.code = .readRun → q.pos + 1 = q.count →
        SentAgain p rest c s { q with code := .readBlock, arg := q.first + q.pos })) ∧
    (p.link.retryCount ≤ p.link.retries → AnswersNext c p rest (deliver q (.failed (some cls)) { endRequest s with
      evq := p.evq.post (.linkError cls q.code) p.now })))

/-- The close procedure has closed the run. -/
def RunIsClosed (c : Instr) (cls : ErrClass) (s : Part) : Prop :=
  let t := { s with link.proc := none, link.close := none, link.runOpen := false }
  (q.code = .readRun → q.pos = q.count → AnswersNext c p rest (deliver q .done (endRequest t))) ∧
  (q.code = .writeRun ∨ q.pos ≠ q.count → ErrorTaken p rest q c cls t)

/-- The run is closed, by why END RUN was sent. -/
def Closes (c : Instr) (s : Part) : Prop :=
  (p.link.close = some .last → AnswersNext c p rest (deliver q .done (endRequest s))) ∧
  (p.link.close = some .yield → AnswersNext c p rest (deliver q (.yielded q.pos) (endRequest s))) ∧
  (p.link.close = some .withdrawn ∨ p.link.close = some .abandoned → AnswersNext c p rest (endRequest s)) ∧
  (∀ proc, p.link.close = some .procedure → p.link.proc = some proc → RunIsClosed p rest q c proc.cls s)

end Run

section RunLemmas

variable {p : Part} {rest : List Instr} {q : LinkReq} {c : Instr} {cls : ErrClass}

theorem endRunFails_of (hne : cls ≠ .contention) (h : exec c ⟨p, rest⟩ = .next ⟨settle (endRunError cls p), rest⟩) :
    EndRunFails p rest c cls := by
  refine ⟨fun hproc => ?_, fun proc hproc => ⟨fun hs => ?_, fun hs => ?_⟩⟩
  · exact answersNext_congr h ((endRunError_first cls hproc).trans (beginClose_of_ne hne p))
  · exact answersNext_congr h ((endRunError_again cls hproc).trans
      ((beginCloseAgain_retry cls (Nat.not_le.mp hs)).trans (beginClose_of_ne hne _)))
  · exact answersNext_congr h ((endRunError_again cls hproc).trans (beginCloseAgain_spent hs hne))

theorem endRequest_clear (l : Link) (close : Option CloseWhy) (proc : Option CloseProc) :
    endRequest { p with link := { l with close := close, proc := proc } } = endRequest { p with link := l } := rfl

/-- An attempt that ends with an error, whatever the close procedure had noted on the link. -/
theorem errorTaken_of (l : Link) (close : Option CloseWhy) (proc : Option CloseProc)
    (hcode : q.code = .readRun ∨ q.code = .writeRun) (hcur : l.current = some q) (hret : l.retries = p.link.retries)
    (hcnt : l.retryCount = p.link.retryCount) (h : exec c ⟨p, rest⟩ =
      .next ⟨settle (attemptError cls { p with link := { l with close := close, proc := proc } }), rest⟩) :
    ErrorTaken p rest q c cls { p with link := l } := by
  let s : Part := { p with link := { l with close := close, proc := proc } }
  have hwrite : q.code.isWrite = true ↔ q.code = .writeRun := by obtain h | h := hcode <;> rw [h] <;> simp [ReqCode.isWrite]
  have hgiven : (q.withdrawn = true ∨ ¬ (q.code = .writeRun → writeAllowed p q = true)) ↔
      (q.withdrawn = true ∨ q.code.isWrite = true ∧ writeAllowed s q = false) := by
    rw [hwrite, show writeAllowed s q = writeAllowed p q from rfl, Classical.not_imp, Bool.not_eq_true]
  refine ⟨fun hg => answersNext_congr h (attemptError_givenUp (s := s) hcur cls (hgiven.mp hg)), fun hw ha => ?_⟩
  have hwanted := attemptError_wanted (s := s) hcur cls
    (mt hgiven.mpr fun k => k.elim (fun k1 => by simp [hw] at k1) fun k2 => k2 ha)
  have hret' : s.link.retries = p.link.retries := hret
  have hcnt' : s.link.retryCount = p.link.retryCount := hcnt
  have hagain (hs : ¬ p.link.retryCount ≤ p.link.retries) {r : LinkReq} (hr : retried q = r) :
      SentAgain p rest c { p with link := l } r := by
    refine answersNext_congr h (hwanted.trans ((if_pos (by rw [hret', hcnt']; exact Nat.not_le.mp hs)).trans ?_))
    rw [resend, hr, hret']
    rfl
  refine ⟨fun hs => ⟨fun hc => hagain hs (retried_writeRun hc),
    fun hc hpos => hagain hs ((retried_readRun hc).trans (if_neg hpos)),
    fun hc hpos => hagain hs ((retried_readRun hc).trans (if_pos hpos))⟩, fun hs => ?_⟩
  exact answersNext_congr h (hwanted.trans (if_neg (by rw [hret', hcnt']; exact Nat.not_lt.mpr hs)))

theorem runIsClosed_of (l : Link) (hcode : q.code = .readRun ∨ q.code = .writeRun) (hcur : l.current = some q)
    (hret : l.retries = p.link.retries) (hcnt : l.retryCount = p.link.retryCount)
    (h : exec c ⟨p, rest⟩ = .next ⟨settle (closeEnded cls { p with link := l }), rest⟩) :
    RunIsClosed p rest q c cls { p with link := l } := by
  have hend := closeEnded_of (s := { p with link := l }) hcur cls
  refine ⟨fun hc hpos => ?_, fun hnot => ?_⟩
  · exact answersNext_congr h (hend.trans ((if_pos ⟨hc, hpos⟩).trans (finish_of .done hcur)))
  · have hno : ¬ (q.code = .readRun ∧ q.pos = q.count) := fun ⟨k1, k2⟩ =>
      hnot.elim (fun k => by rw [k1] at k; cases k) fun k => k k2
    exact errorTaken_of { l with proc := none, close := none, runOpen := false } none none hcode hcur hret hcnt
      (h.trans (congrArg (fun u => Host.Outcome.next (⟨settle u, rest⟩ : State)) (hend.trans (if_neg hno))))

theorem closes_of (l : Link) (hcode : q.code = .readRun ∨ q.code = .writeRun) (hcur : l.current = some q)
    (hret : l.retries = p.link.retries) (hcnt : l.retryCount = p.link.retryCount) (hclose : l.close = p.link.close)
    (hproc : l.proc = p.link.proc) (h : exec c ⟨p, rest⟩ = .next ⟨settle (runClosed { p with link := l }), rest⟩) :
    Closes p rest q c { p with link := l } := by
  let s : Part := { p with link := l }
  refine ⟨fun hc => answersNext_congr h (runClosed_last (s := s) hcur (hclose.trans hc)),
    fun hc => answersNext_congr h (runClosed_yield (s := s) hcur (hclose.trans hc)),
    fun hc => answersNext_congr h (runClosed_givenUp (s := s) hcur (hc.imp hclose.trans hclose.trans)),
    fun proc hc hp => runIsClosed_of l hcode hcur hret hcnt (h.trans ?_)⟩
  rw [runClosed_procedure (s := s) hcur (hclose.trans hc) (hproc.trans hp)]

theorem exec_answerTaken_failed {k : FrameKind} {f : AnswerFrame} (hp : p.link.phase = .answer k)
    (he : answerError (frameCode p k) f = some cls) :
    exec (.answerTaken f) ⟨p, rest⟩ = .next ⟨settle (frameError k cls p), rest⟩ := by
  rw [exec_answerTaken rest f hp, answerTaken_of_failed he]

theorem exec_answerTaken_passed {k : FrameKind} {f : AnswerFrame} {st : Option LinkStatus} (hp : p.link.phase = .answer k)
    (h1 : answerCheck f.code f.status f.arg = f.check) (h2 : f.code = (frameCode p k).toByte) (h3 : f.stop = true)
    (hst : answerStatus f.status = some st) :
    exec (.answerTaken f) ⟨p, rest⟩ = .next ⟨settle (answerMeaning k st f.arg p), rest⟩ := by
  rw [exec_answerTaken rest f hp, answerTaken_of_passed h1 h2 h3 hst]

end RunLemmas

theorem status_zero_of_none {b : Byte} (h : answerStatus b = some none) : b = 0 := by
  refine BitVec.eq_of_toNat_eq ?_
  rw [answerStatus] at h
  split at h <;> simp_all

/-- An answer to QUERY that fails a check, or carries a module status, is not taken (R152, R157). -/
theorem queryAnswer_untaken {p : Part} {f : AnswerFrame}
    (h : answerCheck f.code f.status f.arg ≠ f.check ∨ f.code ≠ 2 ∨ f.stop = false ∨ f.status ≠ 0) :
    answerTaken .query f p = queryUntaken p := by
  cases he : answerError (frameCode p .query) f with
  | some cls => rw [answerTaken_of_failed he, frameError]
  | none =>
    obtain ⟨h1, h2, h3⟩ := answerError_of_failed .query f
    have k1 : answerCheck f.code f.status f.arg = f.check := by
      by_contra k
      exact absurd (he.symm.trans (h1 k)) (by simp)
    have k2 : f.code = ReqCode.query.toByte := by
      by_contra k
      exact absurd (he.symm.trans (h2 k1 k)) (by simp)
    have k3 : ¬ (f.stop = false ∨ 4 < f.status.toNat) := fun k => absurd (he.symm.trans (h3 k1 k2 k)) (by simp)
    have hstop : f.stop = true := by simpa using fun k => k3 (.inl k)
    obtain ⟨st, hst⟩ := Option.isSome_iff_exists.mp
      ((answerStatus_isSome_iff f.status).mpr (Nat.not_lt.mp fun k => k3 (.inr k)))
    rw [answerTaken_of_passed (k := .query) k1 k2 hstop hst]
    cases st with
    | some st => rfl
    | none =>
      have h0 := status_zero_of_none hst
      obtain h | h | h | h := h
      · exact absurd k1 h
      · exact absurd k2 h
      · exact absurd h (by simp [hstop])
      · exact absurd h0 h

/-- The transport errors found while a run's request, its answer, its bursts and its END RUN are on the way. -/
theorem runErrors {p : Part} {rest : List Instr} {q : LinkReq} (hq : p.link.current = some q)
    (hrun : q.code.isRun = true) :
    let begins (c : Instr) (cls : ErrClass) : Prop := BeginsClose p rest c cls false p.link.retries
    (p.link.phase = .answer .request ∨ p.link.phase = .writeAck → begins .answerTimeout .answerTimeout) ∧
    (p.link.phase = .readBurst → begins .dataTimeout .dataTimeout) ∧
    (∀ f cls, p.link.phase = .answer .request → answerError q.code f = some cls → cls ≠ .contention →
      begins (.answerTaken f) cls) ∧
    (∀ code stop cls, p.link.phase = .writeAck → ackError code stop = some cls → cls ≠ .contention →
      begins (.writeAckTaken code stop) cls) ∧
    (∀ b cls, p.link.phase = .readBurst → burstError b = some cls → cls ≠ .contention → begins (.readBurstEnd b) cls) := by
  intro begins
  have hbegins {c : Instr} {cls : ErrClass} (hne : cls ≠ .contention)
      (h : exec c ⟨p, rest⟩ = .next ⟨settle (requestError cls p), rest⟩) : begins c cls :=
    answersNext_congr h ((requestError_run cls hq hrun).trans (beginClose_of_ne hne p))
  refine ⟨fun hp => ?_, fun hp => hbegins (by decide) (exec_dataTimeout rest hp), fun f cls hp he hne => ?_,
    fun code stop cls hp he hne => ?_, fun b cls hp he hne => ?_⟩
  · obtain hp | hp := hp
    · exact hbegins (by decide) (exec_answerTimeout_answer rest hp)
    · exact hbegins (by decide) (exec_answerTimeout_writeAck rest hp)
  · exact hbegins hne (exec_answerTaken_failed hp (by rw [frameCode_request hq, he]))
  · exact hbegins hne ((exec_writeAckTaken rest code stop hp).trans (by rw [ackTaken_of_failed he]))
  · exact hbegins hne ((exec_readBurstEnd rest b hp).trans (by rw [burstEnd_of_failed he]))

/-- Contention while END RUN is being sent loses the link: END RUN cannot be sent again (R157). -/
theorem endRunContention {p : Part} {rest : List Instr} (hp : p.link.phase = .frame .endRun) :
    (p.link.proc = none ∨ p.link.retryCount ≤ p.link.retries →
      AnswersNext .mioContention p rest (loseLink false .contention p)) ∧
    (p.link.proc ≠ none → ¬ p.link.retryCount ≤ p.link.retries → AnswersNext .mioContention p rest
      (loseLink false .contention { p with link.retries := p.link.retries + 1 })) := by
  have hexec : exec .mioContention ⟨p, rest⟩ = .next ⟨settle (endRunError .contention p), rest⟩ := exec_mioContention rest hp
  refine ⟨fun h => answersNext_congr hexec ?_, fun hproc hs => answersNext_congr hexec ?_⟩
  · cases hproc : p.link.proc with
    | none => exact endRunError_first _ hproc
    | some proc =>
      exact (endRunError_again _ hproc).trans (beginCloseAgain_spent_contention (h.resolve_left (by simp [hproc])))
  · obtain ⟨proc, hproc⟩ := Option.ne_none_iff_exists'.mp hproc
    exact (endRunError_again _ hproc).trans (beginCloseAgain_retry _ (Nat.not_le.mp hs))

/-- END RUN answered (R155 to R157). -/
theorem endRunAnswers {p : Part} {rest : List Instr} {q : LinkReq} (hq : p.link.current = some q)
    (hcode : q.code = .readRun ∨ q.code = .writeRun) (f : AnswerFrame) (hp : p.link.phase = .answer .endRun)
    (h1 : answerCheck f.code f.status f.arg = f.check) (h2 : f.code = 7) (h3 : f.stop = true) :
    (f.status = 0 → q.code = .writeRun → AnswersNext (.answerTaken f) p rest { p with
      link.runOpen := false, link.state := .busy, link.phase := .busy, link.wait := some (2 ^ p.link.waitExp) }) ∧
    (f.status = 0 → q.code = .readRun →
      Closes p rest q (.answerTaken f) { p with link := { p.link with runOpen := false } }) ∧
    (∀ st : LinkStatus, f.status = st.toByte →
      AnswersNext (.answerTaken f) p rest (deliver q (.status st true) { endRequest { p with link.runOpen := false } with
        evq := p.evq.post (.runCloseError true (.status st)) p.now })) := by
  have hanswer {st : Option LinkStatus} (hst : answerStatus f.status = some st) :
      exec (.answerTaken f) ⟨p, rest⟩ = .next ⟨settle (answerMeaning .endRun st f.arg p), rest⟩ :=
    exec_answerTaken_passed hp h1 h2 h3 hst
  have hok (h0 : f.status = 0) := hanswer (st := none) (by rw [h0]; rfl)
  refine ⟨fun h0 hc => answersNext_congr (hok h0) ((endRunAnswered_of hq).trans (if_pos hc)), fun h0 hc => ?_, fun st hst => ?_⟩
  · have hnot : q.code ≠ .writeRun := by rw [hc]; decide
    exact closes_of { p.link with runOpen := false } hcode hq rfl rfl rfl rfl ((hok h0).trans
      (congrArg (fun u => Host.Outcome.next (⟨settle u, rest⟩ : State)) ((endRunAnswered_of hq).trans (if_neg hnot))))
  · exact answersNext_congr (hanswer (st := some st) (hst ▸ answerStatus_toByte st))
      (finish_post (s := { p with link.runOpen := false }) _ _ hq)

/-- QUERY answered OK: bit 31 says whether a run is open (R152, R157). -/
theorem queryAnswers {p : Part} {rest : List Instr} {q : LinkReq} {proc : CloseProc} (hq : p.link.current = some q)
    (hcode : q.code = .readRun ∨ q.code = .writeRun) (hproc : p.link.proc = some proc) (f : AnswerFrame)
    (hp : p.link.phase = .answer .query) (h1 : answerCheck f.code f.status f.arg = f.check) (h2 : f.code = 2)
    (h3 : f.stop = true) (h0 : f.status = 0) :
    (f.arg.getLsbD 31 = true → proc.noEnd = false → AnswersNext (.answerTaken f) p rest { p with
      link.runOpen := true, link.phase := .frame .endRun, link.wait := none, link.close := some .procedure
      out.link := p.out.link ++ [.frame .endRun 0] }) ∧
    (f.arg.getLsbD 31 = true → proc.noEnd = true →
      AnswersNext (.answerTaken f) p rest (loseLink true proc.cls { p with link.runOpen := true })) ∧
    (f.arg.getLsbD 31 = false → RunIsClosed p rest q (.answerTaken f) proc.cls p) := by
  have hexec : exec (.answerTaken f) ⟨p, rest⟩ = .next ⟨settle (queryAnswered f.arg p), rest⟩ :=
    exec_answerTaken_passed (st := none) hp h1 h2 h3 (by rw [h0]; rfl)
  have hquery := queryAnswered_of f.arg hproc
  refine ⟨fun hopen hno => ?_, fun hopen hno => ?_, fun hopen => ?_⟩
  · rw [if_pos hopen, if_neg (by simp [hno])] at hquery
    exact answersNext_congr hexec hquery
  · rw [if_pos hopen, if_pos hno] at hquery
    exact answersNext_congr hexec hquery
  · rw [if_neg (by rw [hopen]; decide)] at hquery
    exact runIsClosed_of p.link hcode hq rfl rfl
      (hexec.trans (congrArg (fun u => Host.Outcome.next (⟨settle u, rest⟩ : State)) hquery))

/-- The loss of the link, with the order of its two reports free where both are taken (R159, log 6). -/
theorem loseLink_spec {p : Part} {q : LinkReq} (hq : p.link.current = some q) (sent : Bool) (c : ErrClass) :
    let u := linkLostPart sent c p
    let wanted := q.withdrawn = false ∧ q.discard = false ∧ p.pres.status = .ready
    (¬ wanted → loseLink sent c p = lostStatus (deliver q (.failed (some c)) u)) ∧
    (wanted →
      loseLink sent c p = lostStatus (deliver q (.failed (some c)) { u with choices := u.choices + 1 }) ∨
        loseLink sent c p = deliver q (.failed (some c)) (lostStatus { u with choices := u.choices + 1 })) := by
  have hlose := loseLink_eq sent c p
  rw [hq] at hlose
  refine ⟨fun hnot => hlose.trans (lossReports_inOrder (by simpa using hnot)), fun hw => ?_⟩
  rw [hlose]
  exact lossReports_eitherOrder (by simpa using hw)

/-- Settles O26: the procedure's beginnings, the answers to its frames, the closing of the run, and the loss of the link. -/
theorem runCloseProcedure : Obligations.RunCloseProcedure := by
  refine ⟨fun p rest q hq hcode => ?procedure, fun p q hc hw hd => ⟨fun hr => ⟨?_, fun pos => ?_⟩, fun hr => ?_⟩⟩
  case procedure =>
    intro spent queried begins endRunFails errorTaken runIsClosed closes
    have hrun : q.code.isRun = true := by obtain h | h := hcode <;> rw [h] <;> rfl
    obtain ⟨htimeout, hdata, hanswer, hack, hburst⟩ := runErrors (rest := rest) hq hrun
    refine ⟨htimeout, hdata, fun f hp => ?answer,
      fun hp => errorTaken_of p.link p.link.close p.link.proc hcode hq rfl rfl (exec_mioContention rest hp),
      fun code hp h => hack _ _ _ hp (ackError_of_reject h) (by decide),
      fun hp => ⟨hack _ _ _ hp rfl (by decide), fun code => hack _ _ _ hp (ackError_of_stop code) (by decide)⟩,
      fun b hp => ?burst, fun hp => endRunFails_of (by decide) (exec_answerTimeout_answer rest hp), endRunContention,
      fun f hp => ?endRun, fun hc hp => ⟨?closes, ?busyTimeout⟩, fun proc hproc => ?query, fun sent c => ?lost⟩
    case answer =>
      obtain ⟨h1, h2, h3⟩ := answerError_of_failed q.code f
      exact ⟨fun k => hanswer f _ hp (h1 k) (by decide), fun k1 k2 => hanswer f _ hp (h2 k1 k2) (by decide),
        fun k1 k2 k3 => hanswer f _ hp (h3 k1 k2 k3) (by decide)⟩
    case burst =>
      obtain ⟨h1, h2⟩ := burstError_of_failed b
      exact ⟨fun k => hburst b _ hp (h1 k) (by decide), fun k1 k2 k3 => hburst b _ hp (h2 k1 k2 k3) (by decide)⟩
    case endRun =>
      obtain ⟨h1, h2, h3⟩ := answerError_of_failed .endRun f
      have hfails {cls : ErrClass} (hne : cls ≠ .contention) (he : answerError .endRun f = some cls) :
          EndRunFails p rest (.answerTaken f) cls := endRunFails_of hne (exec_answerTaken_failed (k := .endRun) hp he)
      exact ⟨fun k => hfails (by decide) (h1 k), fun k1 k2 => hfails (by decide) (h2 k1 k2),
        fun k1 k2 k3 => hfails (by decide) (h3 k1 k2 k3),
        fun ⟨k1, k2, k3⟩ => (endRunAnswers hq hcode f hp k1 k2 k3).1,
        fun ⟨k1, k2, k3⟩ => (endRunAnswers hq hcode f hp k1 k2 k3).2.1,
        fun st ⟨k1, k2, k3⟩ => (endRunAnswers hq hcode f hp k1 k2 k3).2.2 st⟩
    case closes =>
      exact closes_of p.link hcode hq rfl rfl rfl rfl ((exec_busyEnd rest hp).trans (by rw [busyEnded_run hq hrun]))
    case busyTimeout => exact errorTaken_of p.link none none hcode hq rfl rfl (exec_busyTimeout rest hp)
    case query =>
      have hlost := queryUntaken_of hproc
      exact ⟨fun hp => answersNext_congr (exec_mioContention rest hp) hlost,
        fun hp => answersNext_congr (exec_answerTimeout_answer rest hp) hlost,
        fun f hp h => answersNext_congr (exec_answerTaken rest f hp) ((queryAnswer_untaken h).trans hlost),
        fun f hp k1 k2 k3 h0 => queryAnswers hq hcode hproc f hp k1 k2 k3 h0⟩
    case lost =>
      intro u changed wanted
      exact loseLink_spec hq sent c
  · rw [deliver_of_wanted _ hw hd, hr]
    rfl
  · rw [deliver_of_wanted _ hw hd, hr]
    rfl
  · rw [deliver_of_wanted _ hw hd, hr]
    exact if_neg (by simp [hc])

end Sys2Proof.Machine
end

section
/-! PROOFS. The checkpoint engine at the end of its requests: the commit point, doubt, the other writes, and aborts. -/

namespace Sys2Proof.Machine

/-! ### The batch's number and count -/

theorem batchNumber_of {s : Part} {batch : Batch} (h : s.eng.batch = some batch) : batchNumber s = batch.number := by
  rw [batchNumber, h]
  rfl

theorem batchCount_of {s : Part} {batch : Batch} {count : Nat} (h : s.eng.batch = some batch)
    (hc : batch.count = some count) : batchCount s = count := by
  rw [batchCount, h]
  dsimp only
  rw [hc]
  rfl

/-! ### The commit point (R79) -/

theorem commitClaim_eng (s : Part) : (commitClaim s).eng = s.eng := by rw [commitClaim_pathOnly s]

theorem recordCommit_of {s : Part} {batch : Batch} {n : U32} (h : s.eng.batch = some batch) (hn : batch.number = some n)
    (slot : StatusSlot) (seq : U32) : recordCommit slot seq s = { s with
      eng.lastCommitted := some n
      eng.knowledge := some (seq, slot)
      eng.aborts := 0
      eng.batch := some { batch with committed := true } } := by
  have hnum : batchNumber s = some n := (batchNumber_of h).trans hn
  rw [recordCommit, hnum, h]
  rfl

theorem enterApply_eq (s : Part) : enterApply s = { s with
    eng.state := if s.eng.state = .recover then .recover else if s.eng.pauseReq then .paused .applyStart else .apply
    evq := if s.eng.state ≠ .recover ∧ s.eng.pauseReq = true then s.evq.post (.paused .applyStart) s.now else s.evq } := by
  by_cases hr : s.eng.state = .recover
  · rw [enterApply, if_pos hr, if_pos hr, if_neg fun k => k.1 hr, ← hr]
  · rw [enterApply, if_neg hr, if_neg hr]
    by_cases hp : s.eng.pauseReq = true
    · rw [if_pos hp, if_pos hp, if_pos ⟨hr, hp⟩]
      rfl
    · rw [if_neg hp, if_neg hp, if_neg fun k => hp k.2]
      rfl

theorem commitPoint_eq {s : Part} {batch : Batch} {n : U32} {count : Nat} (h : s.eng.batch = some batch)
    (hn : batch.number = some n) (hc : batch.count = some count) (slot : StatusSlot) (seq : U32) :
    let c := commitClaim s
    let named := c.evq.post (.batchCommitted (some n) count) c.now
    let u := { c with
      eng.lastCommitted := some n
      eng.knowledge := some (seq, slot)
      eng.aborts := 0
      eng.batch := some { batch with committed := true }
      eng.state := if s.eng.state = .recover then .recover else if s.eng.pauseReq then .paused .applyStart else .apply
      evq := if s.eng.state ≠ .recover ∧ s.eng.pauseReq = true then named.post (.paused .applyStart) c.now else named }
    commitPoint slot seq s = budgetCheck (dirtyCount s) s.tbl.budget (finalCheck (syncCheck u)) := by
  intro c named u
  have heng : c.eng = s.eng := commitClaim_eng s
  have hnum : batchNumber s = some n := (batchNumber_of h).trans hn
  have hrec := recordCommit_of (s := c) (heng ▸ h) hn slot seq
  have happly := enterApply_eq (post (.batchCommitted (some n) count) (recordCommit slot seq c))
  rw [hrec] at happly
  have hu : enterApply (post (.batchCommitted (some n) count) (recordCommit slot seq c)) = u := by
    rw [hrec]
    refine happly.trans ?_
    simp only [u]
    rw [← heng]
    rfl
  rw [← hu, commitPoint, hnum, batchCount_of h hc]

/-! ### Doubt (R82) -/

theorem enterInDoubt_of {s : Part} {batch : Batch} {n : U32} {count : Nat} (h : s.eng.batch = some batch)
    (hn : batch.number = some n) (hc : batch.count = some count) :
    let inDoubt := { s with eng.state := .inDoubt, eng.pauseReq := false, eng.verifyA := none }
    enterInDoubt s = post (.batchInDoubt (some n) count)
      (if s.pres.status = .ready then changeStatus .unverified none inDoubt else inDoubt) := by
  have hnum : batchNumber s = some n := (batchNumber_of h).trans hn
  rw [enterInDoubt, hnum, batchCount_of h hc]
  rfl

/-! ### What the link hands to the engine -/

theorem deliver_checkpoint {q : LinkReq} (o : LinkOutcome) (s : Part) (hr : q.requester = .checkpoint)
    (hw : q.withdrawn = false) (hd : q.discard = false) : deliver q o s = engineOutcome q o s := by
  rw [deliver_of_wanted o hw hd, hr]

theorem handBurst_checkpoint {q : LinkReq} (b : ReadBurst) (s : Part) (hr : q.requester = .checkpoint)
    (hw : q.withdrawn = false) (hd : q.discard = false) : handBurst q b s = verifyBurst b s := by
  rw [handBurst, if_neg (by simp [hw, hd]), hr]

theorem busyEnded_single {p : Part} {q : LinkReq} (h : p.link.current = some q) (hc : q.code.isRun = false)
    (hw : q.withdrawn = false) : busyEnded p = deliver q .done (endRequest p) := by
  rw [← finish_of .done h]
  simp only [busyEnded, h, hc, hw, Bool.false_eq_true, if_false]

theorem engineOutcome_done_write {q : LinkReq} (s : Part) (h : q.code.isWrite = true) :
    engineOutcome q .done s = engineWritten q.count s := if_pos h

theorem engineOutcome_done_read {q : LinkReq} (s : Part) (h : q.code.isWrite = false) : engineOutcome q .done s = s :=
  if_neg (by simp [h])

theorem engineWritten_commit (n : Nat) {s : Part} (h : s.eng.state = .commit) :
    engineWritten n s = commitPoint (knowledgeAfterWrite s).1 (knowledgeAfterWrite s).2 s := by
  rw [engineWritten, h]

theorem engineWritten_journal (n : Nat) {s : Part} (h : s.eng.state = .journal) : engineWritten n s = journalRunEnd n s := by
  rw [engineWritten, h]

theorem engineWritten_apply (n : Nat) {s : Part} (h : s.eng.state = .apply) : engineWritten n s = applyRunEnd n s := by
  rw [engineWritten, h]

theorem engineWritten_retire (n : Nat) {s : Part} (h : s.eng.state = .retire) : engineWritten n s = retireEnd s := by
  rw [engineWritten, h]

theorem StatusSlot.other_eq (slot : StatusSlot) : slot.other = if slot = .a then .b else .a := by cases slot <;> rfl

theorem knowledgeAfterWrite_of {s : Part} {seq : U32} {slot : StatusSlot} (h : s.eng.knowledge = some (seq, slot)) :
    knowledgeAfterWrite s = (if slot = .a then .b else .a, seq + 1) := by
  rw [← StatusSlot.other_eq]
  simp only [knowledgeAfterWrite, nextStatusSlot, batchRecord, h]

/-! ### VERIFY (R81) -/

theorem namesBatch_iff {s : Part} {batch : Batch} {n : U32} {count : Nat} (h : s.eng.batch = some batch)
    (hn : batch.number = some n) (hc : batch.count = some count) (x : StatusRecord) : namesBatch s x = true ↔
      x.state = .committed ∧ x.batch = n ∧ x.count = count ∧ batch.check = some x.check := by
  have hcheck : (s.eng.batch.bind fun b => b.check) = batch.check := by rw [h]; rfl
  rw [namesBatch, batchNumber_of h, hn, batchCount_of h hc, hcheck]
  simp only [Bool.and_eq_true, beq_iff_eq, Option.some.injEq, and_assoc]
  rw [eq_comm (a := some x.check)]

theorem verifyResult_none {a b : Option StatusRecord} (s : Part) (h : newestValid a b = none) :
    verifyResult a b s = enterInDoubt { s with eng.verifyA := none } := by
  rw [verifyResult, h]

theorem verifyResult_some {a b : Option StatusRecord} (s : Part) {slot : StatusSlot} {x : StatusRecord}
    (h : newestValid a b = some (slot, x)) : verifyResult a b s =
      (let t := { s with eng.verifyA := none }
       if namesBatch s x then commitPoint slot x.seq t
       else if s.eng.knowledge = some (x.seq, slot) then countedAbort .verify t
       else enterInDoubt t) := by
  rw [verifyResult, h]

theorem verifyBurst_first (b : ReadBurst) {s : Part} (h : s.eng.verifyA = none) : verifyBurst b s =
    { s with eng.verifyA := some (parseStatus (headerBinding s) (b.blank == 1) b.payload) } := by
  rw [verifyBurst, h]
  rfl

theorem verifyBurst_second (b : ReadBurst) {s : Part} {a : Option StatusRecord} (h : s.eng.verifyA = some a) :
    verifyBurst b s = verifyResult a (parseStatus (headerBinding s) (b.blank == 1) b.payload) s := by
  rw [verifyBurst, h]
  rfl

theorem headerBinding_of {s : Part} {header : HeaderCopy} (h : s.pres.header = some header) :
    headerBinding s = header.binding := by
  rw [headerBinding, h]

/-- Settles O29: the commit point, doubt, and the outcome of the two VERIFY reads, each from its own rule. -/
theorem commitPoint_spec : Obligations.CommitPoint := by
  refine ⟨fun p rest q batch n count seq slot hp hq hr hc hw hd hst hb hn hcount hk => ?commit,
    fun s batch n count hb hn hcount => ⟨fun hs => ?doubtReady, fun hs => ?doubt, fun slot seq => ?point⟩,
    fun p rest q b batch n count header hp hq hr hc hw hd hblank hcheck hstop hb hn hcount hh => ?verify⟩
  case commit =>
    intro s u
    have hexec := exec_busyEnd rest hp
    have hend : busyEnded p = commitPoint (if slot = .a then .b else .a) (seq + 1) (endRequest p) := by
      rw [busyEnded_single hq (by rw [hc]; rfl) hw, deliver_checkpoint _ _ hr hw hd,
        engineOutcome_done_write _ (by rw [hc]; rfl), engineWritten_commit _ (s := endRequest p) hst,
        knowledgeAfterWrite_of (s := endRequest p) hk]
    have hstate : (endRequest p).eng.state = .commit := hst
    refine answersNext_congr hexec (hend.trans ((commitPoint_eq (s := endRequest p) hb hn hcount _ _).trans ?_))
    simp only [hstate, reduceCtorEq, if_false, ne_eq, not_false_eq_true, true_and]
    rfl
  case doubtReady => exact (enterInDoubt_of hb hn hcount).trans (congrArg _ (if_pos hs))
  case doubt => exact (enterInDoubt_of hb hn hcount).trans (congrArg _ (if_neg hs))
  case point => exact commitPoint_eq hb hn hcount slot seq
  case verify =>
    intro r s t
    have hread : q.code.isWrite = false := by rw [hc]; rfl
    have hbind : headerBinding s = header.binding := headerBinding_of (s := s) hh
    have hexec := readBurstEnd_of_passed p rest q b hp hq (.inr hc) hblank hcheck hstop
    have htaken : deliver q .done (handBurst q b s) = verifyBurst b s := by
      rw [deliver_checkpoint _ _ hr hw hd, engineOutcome_done_read _ hread, handBurst_checkpoint _ _ hr hw hd]
    refine ⟨fun hv => answersNext_congr hexec (htaken.trans ?_), fun a hv => ?_⟩
    · rw [verifyBurst_first b (s := s) hv, hbind]
    · have hsecond : deliver q .done (handBurst q b s) = verifyResult a r s := by
        rw [htaken, verifyBurst_second b (s := s) hv, hbind]
      refine ⟨fun hnone => answersNext_congr hexec (hsecond.trans (verifyResult_none s hnone)), fun slot x hsome => ?_⟩
      have hresult := hsecond.trans (verifyResult_some s hsome)
      have hnames := namesBatch_iff (s := s) hb hn hcount x
      exact ⟨fun h => answersNext_congr hexec (hresult.trans (if_pos (hnames.mpr h))),
        fun h hk => answersNext_congr hexec (hresult.trans ((if_neg (mt hnames.mp h)).trans (if_pos hk))),
        fun h hk => answersNext_congr hexec (hresult.trans ((if_neg (mt hnames.mp h)).trans (if_neg hk)))⟩

/-! ### The ends of the engine's other writes (R76, R85, R87) -/

section WritesEnd

variable {s : Part} {batch : Batch} (h : s.eng.batch = some batch)

include h

theorem journalRunEnd_of (n : Nat) : journalRunEnd n s =
    (let t := { s with eng.batch := some { batch with sent := batch.sent + n } }
     if s.eng.staging.length ≤ batch.sent + n then setEngine .commit t
     else if s.eng.pauseReq then pauseAt .journalNext t else t) := by
  have hsent : advanceSent n s = { s with eng.batch := some { batch with sent := batch.sent + n } } := by
    rw [advanceSent, h]
    rfl
  rw [journalRunEnd, hsent]

theorem applyRunEnd_of (n : Nat) : applyRunEnd n s =
    (let t := { s with eng.batch := some { batch with applied := batch.applied + n } }
     if s.eng.staging.length ≤ batch.applied + n then setEngine .retire t
     else if s.eng.pauseReq then pauseAt .applyNext t else t) := by
  have happlied : advanceApplied n s = { s with eng.batch := some { batch with applied := batch.applied + n } } := by
    rw [advanceApplied, h]
    rfl
  rw [applyRunEnd, happlied]

end WritesEnd

theorem retireEnd_of {s : Part} {seq : U32} {slot : StatusSlot} (h : s.eng.knowledge = some (seq, slot)) : retireEnd s =
    enterIdle { s with
      eng.knowledge := some (seq + 1, if slot = .a then .b else .a)
      eng.staging := []
      eng.batch := none } := by
  rw [retireEnd, knowledgeAfterWrite_of h]
  rfl

theorem applyFailed_eq (s : Part) :
    let halted := { s with
      eng.state := .halted .applyFailed, eng.pauseReq := false, eng.staging := [], eng.batch := none }
    applyFailed s = post (.engineHalted (s.eng.batch.bind fun b => b.number) .applyFailed none)
      (if s.pres.status = .ready then changeStatus .unverified none halted else halted) := rfl

/-- A run of the engine that its link has closed has moved its bursts, all of them or those before a yield (R76, R164). -/
theorem runClosed_engine {p : Part} {q : LinkReq} {moved : Nat} (hq : p.link.current = some q)
    (hr : q.requester = .checkpoint) (hw : q.withdrawn = false) (hd : q.discard = false) (hc : q.code = .writeRun)
    (h : (p.link.close = some .last ∧ moved = q.count) ∨ (p.link.close = some .yield ∧ moved = q.pos)) :
    busyEnded p = engineWritten moved (endRequest p) := by
  rw [busyEnded_run hq (by rw [hc]; rfl)]
  obtain ⟨hclose, rfl⟩ | ⟨hclose, rfl⟩ := h
  · rw [runClosed_last hq hclose, deliver_checkpoint _ _ hr hw hd, engineOutcome_done_write _ (by rw [hc]; rfl)]
  · rw [runClosed_yield hq hclose, deliver_checkpoint _ _ hr hw hd]
    rfl

/-! ### What the engine asks for and sends -/

section Requests

variable {p : Part} {batch : Batch} {n : U32} (hb : p.eng.batch = some batch)

include hb

theorem engineRequest_journal (h : p.eng.state = .journal) : engineRequest p =
    some (request .checkpoint .writeRun (3 + batch.sent) (min (runLimit p) (p.eng.staging.length - batch.sent))) := by
  rw [engineRequest, h, hb]

theorem engineRequest_apply (h : p.eng.state = .apply) : engineRequest p =
    some (request .checkpoint .writeRun ((homesFrom p batch.applied).headD 0)
      (homeRun (runLimit p) (homesFrom p batch.applied))) := by
  rw [engineRequest, h, hb]

theorem engineRequest_status (h : p.eng.state = .commit ∨ p.eng.state = .retire) :
    engineRequest p = some (request .checkpoint .writeBlock (nextStatusSlot p).block 1) := by
  obtain h | h := h <;> rw [engineRequest, h, hb]

theorem engineRequest_verify (h : p.eng.state = .verify) : engineRequest p =
    some (request .checkpoint .readBlock (if p.eng.verifyA = none then 1 else 2) 1) := by
  rw [engineRequest, h, hb]
  cases p.eng.verifyA <;> rfl

theorem engineBurst_journal (h : p.eng.state = .journal) (pos : Nat) :
    engineBurst p pos = entryBurst p (batch.sent + pos) := by
  rw [engineBurst, hb, h]

theorem engineBurst_apply (h : p.eng.state = .apply) (pos : Nat) :
    engineBurst p pos = homeBurst p (batch.number.getD 0) (batch.applied + pos) := by
  rw [engineBurst, hb, h]

theorem engineBurst_commit (h : p.eng.state = .commit) (pos : Nat) :
    engineBurst p pos = (statusPayload (batchRecord .committed p), zeros 16) := by
  rw [engineBurst, hb, h]

theorem engineBurst_retire (h : p.eng.state = .retire) (pos : Nat) :
    engineBurst p pos = (statusPayload (batchRecord .applied p), zeros 16) := by
  rw [engineBurst, hb, h]

theorem batchRecord_of {seq : U32} {slot : StatusSlot} {count : Nat} {check : U32} (hn : batch.number = some n)
    (hk : p.eng.knowledge = some (seq, slot)) (hcount : batch.count = some count) (hcheck : batch.check = some check)
    (st : RecordState) : batchRecord st p =
      { seq := seq + 1, state := st, batch := n, count := count, check := check, binding := p.pres.binding } := by
  have hnum : batchNumber p = some n := (batchNumber_of hb).trans hn
  rw [batchRecord, hk, hnum, batchCount_of hb hcount, hb]
  simp only [Option.bind_some, hcheck, Option.getD_some]

end Requests

theorem entryBurst_of {p : Part} {i : Nat} {e : Staged} (h : p.eng.staging[i]? = some e) :
    entryBurst p i = (e.payload, entryTag ((batchNumber p).getD 0) i e) := by
  rw [entryBurst, h]

theorem homeBurst_of {p : Part} {batch : U32} {i : Nat} {e : Staged} (h : (sortedStaging p)[i]? = some e) :
    homeBurst p batch i = (e.payload, homeTag e.id batch.toNat e.payload) := by
  rw [homeBurst, h]

theorem nextStatusSlot_block {p : Part} {seq : U32} {slot : StatusSlot} (h : p.eng.knowledge = some (seq, slot)) :
    (nextStatusSlot p).block = if slot = .a then 2 else 1 := by
  rw [nextStatusSlot, h]
  cases slot <;> rfl

/-- A run of homes: those that follow the first without a gap, up to the limit (R85). -/
theorem homeRun_spec (limit home : Nat) (more : List Nat) (h : 1 ≤ limit) :
    let homes := home :: more
    let n := homeRun limit homes
    0 < n ∧ n ≤ limit ∧ (∀ j, j < n → homes[j]? = some (home + j)) ∧ (n < limit → homes[n]? ≠ some (home + n)) := by
  intro homes n
  obtain ⟨hle, hnext, hgap⟩ := followers_spec (limit - 1) home more
  have hn : n = followers (limit - 1) home more + 1 := rfl
  refine ⟨by omega, by omega, fun j hj => ?_, fun hlt => ?_⟩
  · cases j with
    | zero => rfl
    | succ j =>
      rw [List.getElem?_cons_succ, hnext j (by omega)]
      congr 1
      omega
  · rw [hn, List.getElem?_cons_succ, Nat.add_left_comm, Nat.add_comm]
    exact hgap (by omega)

/-- Settles O30: the ends of the engine's runs and of its RETIRE write, APPLY_FAILED, what it asks for and sends, the order of the
homes and the length of a run. -/
theorem engineWritesEnd : Obligations.EngineWritesEnd := by
  refine ⟨fun p rest q batch hp hq hr hw hd hb => ?ends, fun s => ⟨fun h => ?_, fun h => ?_⟩,
    fun p batch n hb hn => ?sends, fun p => ⟨sortHomes_perm _ _, sortHomes_sorted _ _, fun start => rfl⟩, homeRun_spec⟩
  case ends =>
    intro s
    have hexec := exec_busyEnd rest hp
    refine ⟨fun moved hc hclosed => ⟨fun hst => ?journal, fun hst => ?apply⟩, fun seq slot hc hst hk => ?retire⟩
    case journal =>
      have hend := (runClosed_engine hq hr hw hd hc hclosed).trans
        ((engineWritten_journal moved (s := s) hst).trans (journalRunEnd_of (s := s) hb moved))
      exact ⟨fun h => answersNext_congr hexec (hend.trans (if_pos h)),
        fun h hpause => answersNext_congr hexec (hend.trans ((if_neg (Nat.not_le.mpr h)).trans (if_neg (by simp [s, hpause])))),
        fun h hpause => answersNext_congr hexec (hend.trans ((if_neg (Nat.not_le.mpr h)).trans (if_pos hpause)))⟩
    case apply =>
      have hend := (runClosed_engine hq hr hw hd hc hclosed).trans
        ((engineWritten_apply moved (s := s) hst).trans (applyRunEnd_of (s := s) hb moved))
      exact ⟨fun h => answersNext_congr hexec (hend.trans (if_pos h)),
        fun h hpause => answersNext_congr hexec (hend.trans ((if_neg (Nat.not_le.mpr h)).trans (if_neg (by simp [s, hpause])))),
        fun h hpause => answersNext_congr hexec (hend.trans ((if_neg (Nat.not_le.mpr h)).trans (if_pos hpause)))⟩
    case retire =>
      intro ended
      have hend : busyEnded p = enterIdle ended := by
        rw [busyEnded_single hq (by rw [hc]; rfl) hw, deliver_checkpoint _ _ hr hw hd,
          engineOutcome_done_write _ (by rw [hc]; rfl), engineWritten_retire _ (s := endRequest p) hst,
          retireEnd_of (s := endRequest p) hk]
      exact ⟨fun hpause => answersNext_congr hexec (hend.trans (if_neg (by simp [ended, s, hpause]))),
        fun hpause => answersNext_congr hexec (hend.trans (if_pos hpause))⟩
  · exact (applyFailed_eq s).trans (congrArg _ (if_pos h))
  · exact (applyFailed_eq s).trans (congrArg _ (if_neg h))
  case sends =>
    refine ⟨fun h => ⟨engineRequest_journal hb h, fun pos e he => ?_⟩,
      fun h => ⟨engineRequest_apply hb h, fun pos e he => ?_⟩, fun seq slot count check hk hcount hcheck => ?status,
      engineRequest_verify hb, fun q hr => by rw [writeContent, hr]⟩
    · rw [engineBurst_journal hb h, entryBurst_of he, batchNumber_of hb, hn]
      rfl
    · rw [engineBurst_apply hb h, homeBurst_of he, hn]
      rfl
    case status =>
      intro other record
      have hask (h : p.eng.state = .commit ∨ p.eng.state = .retire) : engineRequest p = some other := by
        rw [engineRequest_status hb h, nextStatusSlot_block hk]
      have hrec (st : RecordState) : batchRecord st p = record st := batchRecord_of hb hn hk hcount hcheck st
      exact ⟨fun h => ⟨hask (.inl h), by rw [engineBurst_commit hb h, hrec]⟩,
        fun h => ⟨hask (.inr h), by rw [engineBurst_retire hb h, hrec]⟩⟩

/-! ### The abort claim (R10, R19) -/

/-- The members returned to DIRTY, one after another. -/
def dirtyMembers (now : Time) (members : List Staged) (s : Part) : Part :=
  members.foldl (fun t e => setState e.id (.dirty (e.entry now).joined) t) s

theorem abortClaim_eq (s : Part) : abortClaim s =
    (let t := dirtyMembers s.now s.eng.staging s
     { t with tbl.queue := s.eng.staging.map (Staged.entry s.now) ++ t.tbl.queue }) := rfl

theorem dirtyMembers_queue (now : Time) (members : List Staged) (s : Part) :
    (dirtyMembers now members s).tbl.queue = s.tbl.queue := by
  induction members generalizing s with
  | nil => rfl
  | cons e members ih => exact (ih _).trans setState_queue

theorem recOf_dirtyMembers_other (now : Time) {members : List Staged} {id : BlockId} (s : Part)
    (h : ∀ e ∈ members, e.id ≠ id) : recOf (dirtyMembers now members s) id = recOf s id := by
  induction members generalizing s with
  | nil => rfl
  | cons e members ih =>
    exact (ih _ fun x hx => h x (List.mem_cons_of_mem _ hx)).trans (setState_other (h e List.mem_cons_self).symm)

/-- A member of a list without repeats is DIRTY since its joined time, its mark kept. -/
theorem recOf_dirtyMembers_self (now : Time) {members : List Staged} {e : Staged} {b : BlockRec} {s : Part}
    (hnodup : (members.map fun e => e.id).Nodup) (he : e ∈ members) (hb : recOf s e.id = some b) :
    recOf (dirtyMembers now members s) e.id = some ⟨.dirty (e.joined.getD now), b.mark⟩ := by
  induction members generalizing s with
  | nil => cases he
  | cons x members ih =>
    obtain ⟨hx, hrest⟩ := List.nodup_cons.mp hnodup
    have hx' (y : Staged) (hy : y ∈ members) : y.id ≠ x.id := fun k => hx (List.mem_map.mpr ⟨y, hy, k⟩)
    obtain rfl | he := List.mem_cons.mp he
    · exact (recOf_dirtyMembers_other now _ hx').trans (setState_self hb)
    · exact ih hrest he ((setState_other (hx' e he)).trans hb)

/-- Settles O32: the foldl over the members touches each member's record once and no other, and leaves the queue alone. -/
theorem abortReturnsTheMembers : Obligations.AbortReturnsTheMembers := by
  intro p hnodup t
  refine ⟨?_, fun e b he hb => recOf_dirtyMembers_self p.now hnodup he hb,
    fun id h => recOf_dirtyMembers_other p.now p h⟩
  rw [show t = abortClaim p from rfl, abortClaim_eq]
  dsimp only
  rw [dirtyMembers_queue]
  rfl

/-! ### Counted aborts (R88, R89) -/

theorem countedAbort_of {why : AbortReason} {s u : Part}
    (hu : u = { abortBatch why s with eng.aborts := s.eng.aborts + 1 }) : countedAbort why s =
    (if 2 ≤ s.eng.aborts then halt .abortLimit none none u
     else
       let v := { u with eng.state := .backoff, eng.backoff := some (u.now + u.eng.backoffInterval) }
       if v.eng.pauseReq then pauseAt .backoff v else v) := by
  subst hu
  by_cases h : 2 ≤ s.eng.aborts
  · dsimp only
    rw [if_pos h]
    exact if_pos (Nat.succ_le_succ h)
  · dsimp only
    rw [if_neg h]
    exact if_neg fun k => h (Nat.le_of_succ_le_succ k)

/-- A counted abort, whatever queue its abort leaves. -/
theorem countedAbort_spec (s : Part) (why : AbortReason) (evq : EventQueue) (hevq : (abortBatch why s).evq = evq) :
    let t := { abortClaim { s with path.captureLane := [] } with
      eng.staging := []
      eng.batch := none
      eng.aborts := s.eng.aborts + 1
      evq := evq }
    (s.eng.aborts < 2 → s.eng.pauseReq = false → countedAbort why s = { t with
      eng.state := .backoff, eng.backoff := some (s.now + s.eng.backoffInterval) }) ∧
    (s.eng.aborts < 2 → s.eng.pauseReq = true → countedAbort why s = { t with
      eng.state := .paused .backoff
      eng.backoff := some (s.now + s.eng.backoffInterval)
      evq := t.evq.post (.paused .backoff) t.now }) ∧
    (2 ≤ s.eng.aborts → countedAbort why s = { t with
      eng.state := .halted .abortLimit
      eng.pauseReq := false
      evq := t.evq.post (.engineHalted none .abortLimit none) t.now }) := by
  intro t
  let v := abortClaim { s with path.captureLane := [] }
  have hv : v = { s with path.captureLane := [], tbl := v.tbl } := abortClaim_keeps _
  have ht : t = { abortBatch why s with eng.aborts := s.eng.aborts + 1 } := by
    simp only [t, ← hevq]
    rw [abortBatch_eq]
  have hcounted := countedAbort_of ht
  have hpause : v.eng.pauseReq = s.eng.pauseReq := by rw [hv]
  have hnow : v.now = s.now := by rw [hv]
  have hinterval : v.eng.backoffInterval = s.eng.backoffInterval := by rw [hv]
  refine ⟨fun h hp => ?_, fun h hp => ?_, fun h => hcounted.trans (if_pos h)⟩
  · rw [← hnow, ← hinterval]
    exact hcounted.trans ((if_neg (Nat.not_le.mpr h)).trans (if_neg (Bool.eq_false_iff.mp (hpause.trans hp))))
  · rw [← hnow, ← hinterval]
    exact hcounted.trans ((if_neg (Nat.not_le.mpr h)).trans (if_pos (hpause.trans hp)))

theorem engineRefused_journal {s : Part} (h : s.eng.state = .journal) : engineRefused s = countedAbort .moduleStatus s := by
  rw [engineRefused, h]

/-- Settles O33: a module status hands the engine a counted abort, and a counted abort is its claim and then BACKOFF, the pause or
the halt. -/
theorem journalRunRefused : Obligations.JournalRunRefused := by
  refine ⟨fun p rest q f st batch hp hq hr hc hw hd h1 h2 h3 hstatus hst hb hne => ?_, fun s why => ?_⟩
  case refine_2 => exact countedAbort_spec s why _ (by rw [abortBatch_eq])
  intro s t
  have hcode : f.code = (frameCode p .request).toByte := by rw [frameCode_request hq, hc, h2]; rfl
  have hexec := exec_answerTaken_passed (rest := rest) hp h1 hcode h3 (hstatus ▸ answerStatus_toByte st)
  have hclear : clearAnswered p = p := by
    rw [clearAnswered, frameCode_request hq, hc]
    rfl
  have hrefused : answerMeaning .request (some st) f.arg p = countedAbort .moduleStatus (endRequest p) := by
    rw [answerMeaning, hclear, finish_of _ hq, deliver_checkpoint _ _ hr hw hd]
    exact engineRefused_journal hst
  have hposted : (abortBatch .moduleStatus (endRequest p)).evq = s.evq.post (.batchAborted batch.number .moduleStatus) s.now := by
    rw [abortBatch_eq]
    dsimp only
    rw [if_neg (show (endRequest p).eng.staging ≠ [] from hne), show (endRequest p).eng.batch = some batch from hb]
    rfl
  obtain ⟨hbackoff, hpaused, hhalted⟩ := countedAbort_spec (endRequest p) .moduleStatus _ hposted
  exact ⟨fun h hpause => answersNext_congr hexec (hrefused.trans (hbackoff h hpause)),
    fun h hpause => answersNext_congr hexec (hrefused.trans (hpaused h hpause)),
    fun h => answersNext_congr hexec (hrefused.trans (hhalted h))⟩

end Sys2Proof.Machine
end

section
/-! PROOFS. What is read from the module: status records, home bursts, and the slots that ask for their fill writes. -/

namespace Sys2Proof.Machine

theorem seqAhead_iff (x y : U32) : seqAhead x y = true ↔ 0 < (x - y).toNat ∧ (x - y).toNat < 2 ^ 31 := decide_eq_true_iff

theorem newestValid_of_ahead {a b : StatusRecord} (h : seqAhead b.seq a.seq = true) :
    newestValid (some a) (some b) = some (.b, b) := if_pos h

theorem newestValid_of_not_ahead {a b : StatusRecord} (h : ¬ seqAhead b.seq a.seq = true) :
    newestValid (some a) (some b) = some (.a, a) := if_neg h

/-- Settles O34: at most one of two sequence numbers is ahead of the other. -/
theorem newestValidRecord : Obligations.NewestValidRecord := by
  refine ⟨rfl, fun a => rfl, fun b => rfl, fun a b h0 h1 => newestValid_of_not_ahead fun h => ?_,
    fun a b h0 h1 => newestValid_of_ahead ((seqAhead_iff _ _).mpr ⟨h0, h1⟩),
    fun a b _ h => newestValid_of_not_ahead (mt (seqAhead_iff _ _).mp h)⟩
  obtain ⟨k0, k1⟩ := (seqAhead_iff _ _).mp h
  rw [BitVec.toNat_sub] at h0 h1 k0 k1
  have ha := a.seq.isLt
  have hb := b.seq.isLt
  omega

/-! ### Home bursts (R127) -/

/-- A home burst `b` of block `id`, checked by the first case of R127, lands in slot `i` of `s`, and `onward` is what follows. -/
def Lands (p : Part) (rest : List Instr) (b : ReadBurst) (id : BlockId) (i : Fin 8) (r : BlockRec) (s : Part)
    (onward : Part → Part) : Prop :=
  let loaded (data : Payload) := takeGroups { s with
    fill.slots := p.fill.slots.set i (.loaded id data), fill.arrivals := p.fill.arrivals ++ [i] }
  let corrupt (tagged : Bool) := failFillHolds id { s with
    fill.slots := p.fill.slots.set i .free
    fill.background := s.fill.background.map fun run => { run with
      blocks := run.blocks.map fun x => if x.id = id then { x with ended := true } else x }
    tbl.recs := p.tbl.recs.set id.region ((p.tbl.recs[id.region]).set id.index ⟨.absent true, r.mark⟩)
    evq := p.evq.post (.homeCorrupt id tagged) p.now }
  let answers (t : Part) := AnswersNext (.readBurstEnd b) p rest (onward t)
  (b.blank = 1 → answers (loaded (zeros 256))) ∧
  (b.blank = 0 → field b.tag 7 4 ≠ (crc32 b.payload).toNat → answers (corrupt false)) ∧
  (b.blank = 0 → field b.tag 7 4 = (crc32 b.payload).toNat →
    (field b.tag 0 1 ≠ id.region.val ∨ field b.tag 1 2 ≠ id.index → answers (corrupt true)) ∧
    (field b.tag 0 1 = id.region.val → field b.tag 1 2 = id.index → answers (loaded b.payload)))

section Lands

variable {p : Part} {rest : List Instr} {b : ReadBurst} {id : BlockId} {i : Fin 8} {r : BlockRec} {s : Part}
  {onward : Part → Part}

theorem lands_of (hslots : s.fill.slots = p.fill.slots) (harrivals : s.fill.arrivals = p.fill.arrivals)
    (htbl : s.tbl = p.tbl) (hevq : s.evq = p.evq) (hnow : s.now = p.now) (hr : recOf p id = some r)
    (h : b.blank = 0 ∨ b.blank = 1 → AnswersNext (.readBurstEnd b) p rest (onward (landBurst i id b s))) :
    Lands p rest b id i r s onward := by
  have hrec : recOf s id = some r := by rw [recOf, htbl]; exact hr
  obtain ⟨hblank, hfail, hpass⟩ := homeCheck_cases id b
  have hload {data : Payload} (hb : b.blank = 0 ∨ b.blank = 1) (hc : homeCheck id b = .load data) := by
    have := h hb
    rwa [landBurst_of_load hc] at this
  have hcorrupt {tagged : Bool} (hb : b.blank = 0 ∨ b.blank = 1) (hc : homeCheck id b = .corrupt tagged) := by
    have := h hb
    rwa [landBurst_of_corrupt hrec hc] at this
  rw [Lands, ← hslots, ← harrivals, ← htbl, ← hevq, ← hnow]
  exact ⟨fun k => hload (.inr k) (hblank k), fun k k1 => hcorrupt (.inl k) (hfail k k1),
    fun k k1 => ⟨fun k2 => hcorrupt (.inl k) ((hpass k k1).1 k2), fun k2 k3 => hload (.inl k) ((hpass k k1).2 k2 k3)⟩⟩

end Lands

/-- The background run once it has taken the burst of its next position (R125). -/
def runMoved (run : BackgroundRun) (id : BlockId) (s : Part) : Part :=
  if run.next + 1 < run.blocks.length then { s with fill.background := some { run with next := run.next + 1 } }
  else { s with fill.background := none, fill.lastBlock := some id }

theorem backgroundBurst_of {s : Part} {run : BackgroundRun} {id : BlockId} {i : Fin 8} {ended : Bool} (b : ReadBurst)
    (h : s.fill.background = some run) (hx : run.blocks[run.next]? = some ⟨id, i, ended⟩) :
    backgroundBurst b s = landBurst i id b (runMoved run id s) := by
  simp only [backgroundBurst, h, hx, runMoved]
  split <;> rfl

theorem demandBurst_of {s : Part} {id : BlockId} {i : Fin 8} (b : ReadBurst) (h : s.fill.demandRun = some (id, i)) :
    demandBurst b s = landBurst i id b { s with fill.demandRun := none } := by
  rw [demandBurst, h]

theorem handBurst_demand {q : LinkReq} (b : ReadBurst) (s : Part) (hr : q.requester = .demand)
    (hw : q.withdrawn = false) (hd : q.discard = false) : handBurst q b s = demandBurst b s := by
  rw [handBurst, if_neg (by simp [hw, hd]), hr]

theorem handBurst_background {q : LinkReq} (b : ReadBurst) (s : Part) (hr : q.requester = .background)
    (hw : q.withdrawn = false) (hd : q.discard = false) : handBurst q b s = backgroundBurst b s := by
  rw [handBurst, if_neg (by simp [hw, hd]), hr]

theorem runMoved_keeps (run : BackgroundRun) (id : BlockId) (s : Part) :
    runMoved run id s = { s with fill.background := (runMoved run id s).fill.background
                                 fill.lastBlock := (runMoved run id s).fill.lastBlock } := by
  rw [runMoved]
  split <;> rfl

/-- Settles O35: a burst for the fill engine is its block's, and `Lands` says what its check makes of it. -/
theorem demandBurstIsChecked : Obligations.DemandBurstIsChecked := by
  intro p rest q b id i r hp hq hw hd hr hcheck hstop lands
  have hlands : lands = Lands p rest b id i r := rfl
  clear_value lands
  subst hlands
  refine ⟨fun hreq hc hrun => ?demand, fun run ended hreq hrun hx => ?background⟩
  case demand =>
    refine (lands_of (s := { endRequest p with fill.demandRun := none }) (onward := fun s => s) rfl rfl rfl rfl rfl hr fun hblank => ?_)
    refine answersNext_congr (readBurstEnd_of_passed p rest q b hp hq (.inr hc) hblank hcheck hstop) ?_
    rw [deliver_of_wanted _ hw hd, handBurst_demand _ _ hreq hw hd, hreq]
    exact demandBurst_of (s := endRequest p) b hrun
  case background =>
    intro taken onward
    have hmoves {s : Part} {onward : Part → Part} (hs : s = { p with link := s.link })
        (h : b.blank = 0 ∨ b.blank = 1 →
          AnswersNext (.readBurstEnd b) p rest (onward (landBurst i id b (runMoved run id s)))) :
        Lands p rest b id i r (runMoved run id s) onward := by
      have hmoved := runMoved_keeps run id s
      exact lands_of (by rw [hmoved, hs]) (by rw [hmoved, hs]) (by rw [hmoved, hs]) (by rw [hmoved, hs])
        (by rw [hmoved, hs]) hr h
    refine ⟨fun hc => ?run, fun hc => ?single⟩
    case run =>
      refine (hmoves (s := { p with link.current := some { q with pos := q.pos + 1 } }) (onward := onward) rfl
        fun hblank => ?_)
      refine answersNext_congr (readBurstEnd_of_run p rest q b hp hq hc hblank hcheck hstop) ?_
      have htaken : handBurst q b { p with link.current := some { q with pos := q.pos + 1 } } =
          landBurst i id b (runMoved run id { p with link.current := some { q with pos := q.pos + 1 } }) := by
        rw [handBurst_background _ _ hreq hw hd]
        exact backgroundBurst_of (s := { p with link.current := some { q with pos := q.pos + 1 } }) b hrun hx
      rw [htaken]
      refine boundary_of_background (q := { q with pos := q.pos + 1 }) ?_ hw hc hreq
      rw [landBurst_pathOnly, runMoved_keeps]
    case single =>
      refine (hmoves (s := endRequest p) (onward := fun s => { s with fill.lastBlock := none }) rfl fun hblank => ?_)
      refine answersNext_congr (readBurstEnd_of_passed p rest q b hp hq (.inr hc) hblank hcheck hstop) ?_
      rw [deliver_of_wanted _ hw hd, handBurst_background _ _ hreq hw hd, hreq]
      exact congrArg (backgroundOutcome .done) (backgroundBurst_of (s := endRequest p) b hrun hx)

/-! ### Slots and tag groups (R122) -/

theorem takeGroup_of_no_arrival {s : Part} (h : s.fill.arrivals = []) : takeGroup s = s := by
  rw [takeGroup, h]

theorem takeGroup_of_no_group {s : Part} (h : freeGroup s = none) : takeGroup s = s := by
  rw [takeGroup, h]
  cases s.fill.arrivals <;> rfl

theorem takeGroup_of_loaded {s : Part} {i : Fin 8} {more : List (Fin 8)} {g : Fin 2} {id : BlockId} {data : Payload}
    (ha : s.fill.arrivals = i :: more) (hg : freeGroup s = some g) (hs : s.fill.slots[i] = .loaded id data) :
    takeGroup s = { s with
      fill.slots := s.fill.slots.set i (.writing id data g 0 false)
      fill.arrivals := more
      path.fillLane := s.path.fillLane ++ fillReqs s.path.hostLane.length g (ramOf s id) data } := by
  simp only [takeGroup, ha, hg, hs]
  rfl

theorem freeGroup_eq (s : Part) : freeGroup s =
    if groupFree s 0 = true then some 0 else if groupFree s 1 = true then some 1 else none := by
  cases h0 : groupFree s 0 <;> cases h1 : groupFree s 1 <;> simp [freeGroup, List.finRange, h0, h1]

/-- The first free group is the second only when the first is not free. -/
theorem freeGroup_iff (s : Part) (g : Fin 2) :
    freeGroup s = some g ↔ groupFree s g = true ∧ (g = 1 → groupFree s 0 = false) := by
  rw [freeGroup_eq]
  obtain rfl | rfl : g = 0 ∨ g = 1 := by omega
  · cases h0 : groupFree s 0 <;> cases h1 : groupFree s 1 <;> simp
  · cases h0 : groupFree s 0 <;> cases h1 : groupFree s 1 <;> simp

theorem groupFree_iff (s : Part) (g : Fin 2) : groupFree s g = true ↔
    (∀ i : Fin 8, (s.fill.slots[i]).group ≠ some g) ∧ ∀ k : Fin 4, s.path.own[fillOwn g k] = .free := by
  simp [groupFree, slotOfGroup, List.find?_eq_none]

/-- Settles O36: one case for each branch of `takeGroup`, and what makes a tag group free. -/
theorem loadedSlotAsksForItsWrites : Obligations.LoadedSlotAsksForItsWrites := fun p =>
  ⟨fun h => h.elim takeGroup_of_no_arrival takeGroup_of_no_group, fun _ _ _ _ _ ha hg hs => takeGroup_of_loaded ha hg hs,
    fun g => ⟨freeGroup_iff p g, groupFree_iff p g⟩, rfl⟩

/-! ### Identification (R171 to R174) -/

theorem handBurst_identification {q : LinkReq} (b : ReadBurst) (s : Part) (hr : q.requester = .identification)
    (hw : q.withdrawn = false) (hd : q.discard = false) : handBurst q b s = identBurst b s := by
  rw [handBurst, if_neg (by simp [hw, hd]), hr]

theorem deliver_identification_done {q : LinkReq} (s : Part) (hr : q.requester = .identification)
    (hw : q.withdrawn = false) (hd : q.discard = false) : deliver q .done s = s := by
  rw [deliver_of_wanted _ hw hd, hr]
  rfl

section IdentBurst

variable {s : Part} (b : ReadBurst)

theorem identBurst_identify (h : s.pres.ident = some .identify) : identBurst b s = identityArrived b s := by
  rw [identBurst, h]

theorem identBurst_header (h : s.pres.ident = some .header) : identBurst b s = headerArrived b s := by
  rw [identBurst, h]

theorem identBurst_slotA (h : s.pres.ident = some .slotA) : identBurst b s =
    { s with pres.ident := some (.slotB (parseStatus (headerBinding s) (b.blank == 1) b.payload)) } := by
  rw [identBurst, h]
  rfl

theorem identBurst_slotB {a : Option StatusRecord} (h : s.pres.ident = some (.slotB a)) : identBurst b s =
    (let record := parseStatus (headerBinding s) (b.blank == 1) b.payload
     identEnd { s with pres.summary := some (summaryOf (newestValid a record)) }) := by
  rw [identBurst, h]
  rfl

theorem identityArrived_eq : identityArrived b s =
    (let i := parseIdentity b.payload
     if i.passes then { s with
       pres.identity := some i, pres.ident := some .header, link.rate := if i.grade = 2 then .normal else .slow }
     else setStatus .failed (some .badIdentity) { s with
       pres.identity := some i, pres.ident := none, link.state := .off }) := rfl

theorem headerArrived_eq : headerArrived b s =
    (let h := parseHeader s.pres.identity (b.blank == 1) b.payload
     if h.valid then { s with pres.header := some h, pres.ident := some .slotA }
     else identEnd { s with pres.header := some h, pres.summary := none }) := rfl

end IdentBurst

section IdentVerdict

variable {s : Part} {header : HeaderCopy} (h : s.pres.header = some header)

include h

theorem identVerdict_of_no_record (hs : s.pres.summary = none ∨ s.pres.summary = some none) :
    identVerdict s = .unformatted := by
  obtain hs | hs := hs <;> rw [identVerdict, h, hs]

theorem identVerdict_of_record {x : Newest} (hv : header.valid = true) (hs : s.pres.summary = some (some x)) :
    identVerdict s = if header.binding = s.pres.binding ∧ s.pres.binding ≠ 0 then .unverified else .mismatched := by
  simp only [identVerdict, h, hs, hv, Bool.not_true, Bool.false_eq_true, if_false]
  by_cases hb : header.binding = s.pres.binding ∧ s.pres.binding ≠ 0
  · rw [if_pos hb, if_neg fun k => k.elim (fun k => k hb.1) hb.2]
  · rw [if_neg hb, if_pos]
    by_contra k
    rw [not_or, Classical.not_not] at k
    exact hb k

end IdentVerdict

theorem summaryDetail_of_record {s : Part} {x : Newest} (hs : s.pres.summary = some (some x)) :
    summaryDetail s = some (.newest x.slot x.state) := by
  rw [summaryDetail, hs]

theorem summaryDetail_of_no_record {s : Part} (hs : s.pres.summary = none ∨ s.pres.summary = some none) :
    summaryDetail s = none := by
  obtain hs | hs := hs <;> rw [summaryDetail, hs]

theorem identEnd_of_no_record {s : Part} {header : HeaderCopy} (h : s.pres.header = some header)
    (hs : s.pres.summary = none ∨ s.pres.summary = some none) :
    identEnd s = identDecided .unformatted none { s with pres.ident := none, link.state := .ready } := by
  rw [identEnd, identVerdict_of_no_record h hs, summaryDetail_of_no_record hs]

theorem identEnd_of_record {s : Part} {header : HeaderCopy} {x : Newest} (h : s.pres.header = some header)
    (hv : header.valid = true) (hs : s.pres.summary = some (some x)) : identEnd s = identDecided
      (if header.binding = s.pres.binding ∧ s.pres.binding ≠ 0 then .unverified else .mismatched)
      (some (.newest x.slot x.state)) { s with pres.ident := none, link.state := .ready } := by
  rw [identEnd, identVerdict_of_record h hv hs, summaryDetail_of_record hs]

/-- Settles O37: what each read of an attempt leaves, the verdict of its end, and what a failed attempt leaves. -/
theorem identificationReads : Obligations.IdentificationReads := by
  refine ⟨fun p rest q b hp hq hr hc hw hd hblank hcheck hstop => ?reads, fun s detail =>
    ⟨fun h => if_pos h, fun h => if_neg (Nat.not_lt.mpr h)⟩⟩
  intro s i h found
  have hexec := readBurstEnd_of_passed p rest q b hp hq hc hblank hcheck hstop
  have htaken : deliver q .done (handBurst q b s) = identBurst b s := by
    rw [deliver_identification_done _ hr hw hd, handBurst_identification _ _ hr hw hd]
  have hanswer {t : Part} (ht : identBurst b s = t) : AnswersNext (.readBurstEnd b) p rest t :=
    answersNext_congr hexec (htaken.trans ht)
  have hfound {new : ModStatus} {detail : Option StatusDetail} {u : Part} (hu : u.pres.status = p.pres.status)
      (ht : identBurst b s = identDecided new detail u) : found new detail u :=
    ⟨fun k => hanswer (ht.trans (if_pos (k.trans hu.symm))), fun k => hanswer (ht.trans (if_neg fun k1 => k (k1.trans hu)))⟩
  refine ⟨fun hi hpass => ?_, fun hi hpass => ?_, fun hi hv => ?_, fun hi hv => ?_, fun header hh hvalid => ?slots⟩
  · exact hanswer ((identBurst_identify (s := s) b hi).trans ((identityArrived_eq b).trans (if_pos hpass)))
  · exact hanswer ((identBurst_identify (s := s) b hi).trans
      ((identityArrived_eq b).trans (if_neg (Bool.eq_false_iff.mp hpass))))
  · exact hanswer ((identBurst_header (s := s) b hi).trans ((headerArrived_eq b).trans (if_pos hv)))
  · have hend := (identBurst_header (s := s) b hi).trans ((headerArrived_eq b).trans (if_neg (Bool.eq_false_iff.mp hv)))
    exact hfound rfl (hend.trans
      (identEnd_of_no_record (s := { s with pres.header := some h, pres.summary := none }) rfl (.inl rfl)))
  case slots =>
    intro record
    have hbind : headerBinding s = header.binding := headerBinding_of (s := s) hh
    refine ⟨fun hi => ?_, fun a hi => ⟨fun hnone => ?_, fun slot r hsome => ?_⟩⟩
    · exact hanswer ((identBurst_slotA (s := s) b hi).trans (by rw [hbind]))
    · have hend := identBurst_slotB (s := s) b hi
      rw [hbind] at hend
      dsimp only at hend
      rw [hnone] at hend
      exact hfound rfl (hend.trans (identEnd_of_no_record (s := { s with pres.summary := some none }) hh (.inr rfl)))
    · have hend := identBurst_slotB (s := s) b hi
      rw [hbind] at hend
      dsimp only at hend
      rw [hsome] at hend
      exact hfound rfl (hend.trans (identEnd_of_record
        (s := { s with pres.summary := some (some ⟨slot, r.state, r.batch⟩) }) (x := ⟨slot, r.state, r.batch⟩) hh hvalid rfl))

end Sys2Proof.Machine
end

section
/-! PROOFS. Recovery: what its reads of the status slots and of the entries leave. -/

namespace Sys2Proof.Machine

/-! ### What the link hands to recovery -/

theorem handBurst_recovery {q : LinkReq} (b : ReadBurst) (s : Part) (hr : q.requester = .recovery)
    (hw : q.withdrawn = false) (hd : q.discard = false) : handBurst q b s = recoveryBurst b s := by
  rw [handBurst, if_neg (by simp [hw, hd]), hr]

theorem deliver_recovery {q : LinkReq} (o : LinkOutcome) (s : Part) (hr : q.requester = .recovery)
    (hw : q.withdrawn = false) (hd : q.discard = false) : deliver q o s = recoveryOutcome q o s := by
  rw [deliver_of_wanted o hw hd, hr]

theorem recoveryOutcome_read {q : LinkReq} (s : Part) (hc : q.code = .readBlock) : recoveryOutcome q .done s = s :=
  if_neg (by simp [hc])

theorem setStep_of {s : Part} {rec : Recovery} (h : s.eng.recovery = some rec) (st : RecoveryStep) :
    setStep st s = { s with eng.recovery := some { rec with step := st } } := by
  rw [setStep, h]
  rfl

section RecoveryBurst

variable {s : Part} {rec : Recovery} (b : ReadBurst) (h : s.eng.recovery = some rec)

include h

theorem recoveryBurst_readA (hs : rec.step = .readA) : recoveryBurst b s =
    { s with eng.recovery := some { rec with step := .readB (parseStatus (headerBinding s) (b.blank == 1) b.payload) } } := by
  simp only [recoveryBurst, h, hs]
  exact setStep_of h _

theorem recoveryBurst_readB {a : Option StatusRecord} (hs : rec.step = .readB a) : recoveryBurst b s =
    slotsRead a (parseStatus (headerBinding s) (b.blank == 1) b.payload) s := by
  simp only [recoveryBurst, h, hs]
  rfl

theorem recoveryBurst_entries {tags : List Payload} {slot : StatusSlot} {r : StatusRecord} (hs : rec.step = .entries tags)
    (hn : rec.newest = some (slot, r)) : recoveryBurst b s = entryArrived r tags b s := by
  simp only [recoveryBurst, h, hs, hn]

theorem slotsRead_of (x y : Option StatusRecord) : slotsRead x y s =
    (let newest := newestValid x y
     let t := { s with
       eng.knowledge := newest.map fun x => (x.2.seq, x.1)
       eng.recovery := some { rec with newest := newest } }
     if rec.unsettled then settleDoubt newest t else followRecord newest t) := by
  rw [slotsRead, unsettled_of h, h]
  rfl

end RecoveryBurst

/-! ### Following the newest record (R109) -/

theorem followRecord_closed {slot : StatusSlot} {r : StatusRecord} (s : Part) (h : r.state ≠ .committed) :
    followRecord (some (slot, r)) s = recoverySucceeded r.batch 0 s := by
  cases hs : r.state with
  | empty => simp only [followRecord, hs]
  | applied => simp only [followRecord, hs]
  | committed => exact absurd hs h

theorem followRecord_committed {slot : StatusSlot} {r : StatusRecord} {s : Part} {rec : Recovery}
    (h : s.eng.recovery = some rec) (hs : r.state = .committed) : followRecord (some (slot, r)) s =
      (let t := { s with eng.recovery := some { rec with step := .entries [] } }
       if r.count = 0 then finishEntries r [] t else t) := by
  simp only [followRecord, hs, setStep_of h]

theorem entryCheckOf_nil : entryCheckOf [] = 0 := by decide +kernel

theorem finishEntries_check {r : StatusRecord} {tags : List Payload} {s : Part}
    (h : entryCheckOf (tags.zip (s.eng.staging.map fun e => e.payload)) ≠ r.check) :
    finishEntries r tags s = journalCorrupt .entryCheck s := if_pos h

theorem finishEntries_unplaced {r : StatusRecord} {tags : List Payload} {s : Part} {e : Staged}
    (h : entryCheckOf (tags.zip (s.eng.staging.map fun e => e.payload)) = r.check)
    (hf : (s.eng.staging.find? fun e => !placed s e.id) = some e) :
    finishEntries r tags s = journalCorrupt (.unplaced e.id) s := by
  rw [finishEntries, if_neg (not_not.mpr h), hf]

theorem finishEntries_placed {r : StatusRecord} {tags : List Payload} {s : Part}
    (h : entryCheckOf (tags.zip (s.eng.staging.map fun e => e.payload)) = r.check)
    (hf : ∀ e ∈ s.eng.staging, placed s e.id = true) :
    finishEntries r tags s = setStep (if s.eng.staging.length = 0 then .applied else .homes 0) s := by
  have hnone : (s.eng.staging.find? fun e => !placed s e.id) = none := by
    rw [List.find?_eq_none]
    intro e he
    simp [hf e he]
  rw [finishEntries, if_neg (not_not.mpr h), hnone]

/-- What recovery makes of the newest valid record, once no batch is in doubt: `found` is the recovery record then. -/
def Follows (p : Part) (rest : List Instr) (b : ReadBurst) (newest : Option (StatusSlot × StatusRecord)) (found : Recovery)
    (u : Part) : Prop :=
  let answers (t : Part) := AnswersNext (.readBurstEnd b) p rest t
  (newest = none → answers (leaveRecovery (changeStatus .unformatted none { u with
    eng.lastCommitted := none
    eng.knowledge := none }))) ∧
  (∀ slot r, newest = some (slot, r) →
    (r.state ≠ .committed → answers (recoverySucceeded r.batch 0 u)) ∧
    (r.state = .committed → r.count ≠ 0 → answers { u with
      eng.recovery := some { found with step := .entries [] } }) ∧
    (r.state = .committed → r.count = 0 → u.eng.staging = [] →
      (r.check = 0 → answers { u with eng.recovery := some { found with step := .applied } }) ∧
      (r.check ≠ 0 → answers (journalCorrupt .entryCheck { u with
        eng.recovery := some { found with step := .entries [] } }))))

theorem follows_of {p : Part} {rest : List Instr} {b : ReadBurst} {newest : Option (StatusSlot × StatusRecord)}
    {found : Recovery} {u : Part} (hu : u.eng.recovery = some found)
    (h : exec (.readBurstEnd b) ⟨p, rest⟩ = .next ⟨settle (followRecord newest u), rest⟩) : Follows p rest b newest found u := by
  refine ⟨fun hn => ?_, fun slot r hn => ?_⟩ <;> subst hn
  · exact answersNext_congr h rfl
  · refine ⟨fun hs => ?_, fun hs hc => ?_, fun hs hc hstaging => ?_⟩
    · exact answersNext_congr h (followRecord_closed u hs)
    · exact answersNext_congr h ((followRecord_committed hu hs).trans (if_neg hc))
    · let t : Part := { u with eng.recovery := some { found with step := .entries [] } }
      have hzip : entryCheckOf (([] : List Payload).zip (t.eng.staging.map fun e => e.payload)) = 0 := entryCheckOf_nil
      have hend : followRecord (some (slot, r)) u = finishEntries r [] t :=
        (followRecord_committed hu hs).trans (if_pos hc)
      refine ⟨fun hcheck => answersNext_congr h (hend.trans ?_), fun hcheck => answersNext_congr h (hend.trans ?_)⟩
      · have hno : ∀ e ∈ t.eng.staging, placed t e.id = true := fun e he => by
          rw [show t.eng.staging = [] from hstaging] at he
          cases he
        rw [finishEntries_placed (hzip.trans hcheck.symm) hno, if_pos (by rw [show t.eng.staging = [] from hstaging]; rfl)]
        rfl
      · exact finishEntries_check (by rw [hzip]; exact Ne.symm hcheck)

/-- The reads of the two status slots (R109, R110). -/
theorem slotReads {p : Part} {rest : List Instr} {q : LinkReq} {b : ReadBurst} {rec : Recovery} {header : HeaderCopy}
    (hp : p.link.phase = .readBurst) (hq : p.link.current = some q) (hr : q.requester = .recovery)
    (hc : q.code = .readBlock) (hw : q.withdrawn = false) (hd : q.discard = false) (hblank : b.blank = 0 ∨ b.blank = 1)
    (hcheck : transferCheck [b.blank] b.payload b.tag = b.check) (hstop : b.stop = 0xF)
    (hrec : p.eng.recovery = some rec) (hh : p.pres.header = some header) :
    let record := parseStatus header.binding (b.blank == 1) b.payload
    let s := endRequest p
    let answers (t : Part) := AnswersNext (.readBurstEnd b) p rest t
    (rec.step = .readA → answers { s with eng.recovery := some { rec with step := .readB record } }) ∧
    (∀ a, rec.step = .readB a →
      let newest := newestValid a record
      let t := { s with
        eng.knowledge := newest.map fun x => (x.2.seq, x.1)
        eng.recovery := some { rec with newest := newest } }
      (rec.unsettled = false → Follows p rest b newest { rec with newest := newest } t) ∧
      (∀ batch n count, rec.unsettled = true → p.eng.batch = some batch → batch.number = some n → batch.count = some count →
        let names (r : StatusRecord) :=
          r.state = .committed ∧ r.batch = n ∧ r.count = count ∧ batch.check = some r.check
        let settled (confirmed : Bool) : Recovery :=
          { rec with newest := newest, unsettled := false, confirmed := confirmed }
        (∀ slot r, newest = some (slot, r) → names r →
          let c := commitPoint slot r.seq { t with eng.recovery := some (settled true) }
          answers { c with eng.recovery := c.eng.recovery.map fun x => { x with step := .homes 0 } }) ∧
        ((∀ slot r, newest = some (slot, r) → ¬ names r) →
          let v := abortClaim { t with path.captureLane := [], eng.recovery := some (settled false) }
          Follows p rest b newest (settled false) { v with
            eng.staging := []
            eng.batch := none
            evq := if p.eng.staging = [] then v.evq else v.evq.post (.batchAborted (some n) .verify) v.now }))) := by
  intro record s answers
  have hbind : headerBinding s = header.binding := headerBinding_of (s := s) hh
  have hexec := readBurstEnd_of_passed p rest q b hp hq (.inr hc) hblank hcheck hstop
  have htaken : deliver q .done (handBurst q b s) = recoveryBurst b s := by
    rw [deliver_recovery _ _ hr hw hd, recoveryOutcome_read _ hc, handBurst_recovery _ _ hr hw hd]
  rw [htaken] at hexec
  refine ⟨fun hs => answersNext_congr hexec ((recoveryBurst_readA (s := s) b hrec hs).trans (by rw [hbind])), fun a hs => ?_⟩
  intro newest t
  have hread : recoveryBurst b s = if rec.unsettled then settleDoubt newest t else followRecord newest t := by
    rw [recoveryBurst_readB (s := s) b hrec hs, hbind, slotsRead_of (s := s) hrec]
  refine ⟨fun hu => ?follow, fun batch n count hu hb hn hcount => ?doubt⟩
  case follow =>
    have hfollow : recoveryBurst b s = followRecord newest t := hread.trans (if_neg (by simp [hu]))
    rw [hfollow] at hexec
    exact follows_of rfl hexec
  case doubt =>
    intro names settled
    have hdoubt : recoveryBurst b s = settleDoubt newest t := hread.trans (if_pos hu)
    have hnames (r : StatusRecord) : namesBatch t r = true ↔ names r := namesBatch_iff (s := t) hb hn hcount r
    refine ⟨fun slot r hsome hname => ?_, fun hnone => ?_⟩
    · intro c
      exact answersNext_congr hexec (hdoubt.trans
        ((congrArg (settleDoubt · t) hsome).trans (settleDoubt_of_named (s := t) ((hnames r).mpr hname))))
    · intro v
      have habort := settleDoubt_of_not_named (newest := newest) (s := t) fun slot r hsome =>
        Bool.eq_false_iff.mpr (mt (hnames r).mp (hnone slot r hsome))
      rw [abortBatch_eq] at habort
      have hnumber : (t.eng.batch.bind fun b => b.number) = some n := by rw [show t.eng.batch = some batch from hb]; exact hn
      dsimp only at habort
      rw [hnumber] at habort
      rw [hdoubt, habort] at hexec
      have hv : v.eng.recovery = some (settled false) := by rw [show v = abortClaim _ from rfl, abortClaim_keeps]
      exact follows_of hv hexec

/-! ### The entries (R111, R112) -/

section EntryArrived

variable {r : StatusRecord} {tags : List Payload} {b : ReadBurst} {s : Part}

theorem entryArrived_blank (h : b.blank = 1) :
    entryArrived r tags b s = journalCorrupt (.blankEntry s.eng.staging.length) s := if_pos h

variable (h : b.blank = 0)

include h

theorem entryArrived_unnamed
    (hn : ¬ (field b.tag 0 4 = r.batch.toNat ∧ field b.tag 4 1 = s.eng.staging.length ∧ field b.tag 5 1 < 8)) :
    entryArrived r tags b s = journalCorrupt (.entryTag s.eng.staging.length) s := by
  rw [entryArrived, if_neg (by simp [h])]
  by_cases h1 : field b.tag 0 4 ≠ r.batch.toNat ∨ field b.tag 4 1 ≠ s.eng.staging.length
  · rw [if_pos h1]
  · rw [if_neg h1, dif_neg]
    simp only [not_or, ne_eq, Classical.not_not] at h1
    exact fun k => hn ⟨h1.1, h1.2, k⟩

variable (hn : field b.tag 0 4 = r.batch.toNat ∧ field b.tag 4 1 = s.eng.staging.length ∧ field b.tag 5 1 < 8)

include hn

theorem entryArrived_payload (hc : field b.tag 8 4 ≠ (crc32 b.payload).toNat) :
    entryArrived r tags b s = journalCorrupt (.payload s.eng.staging.length) s := by
  obtain ⟨h1, h2, h3⟩ := hn
  rw [entryArrived, if_neg (by simp [h]), if_neg (by simp [h1, h2]), dif_pos h3, if_pos hc]

theorem entryArrived_good {rec : Recovery} {region : Fin 8} (hrec : s.eng.recovery = some rec)
    (hregion : region.val = field b.tag 5 1) (hc : field b.tag 8 4 = (crc32 b.payload).toNat) : entryArrived r tags b s =
      (let t := { s with
         eng.staging := s.eng.staging ++ [⟨⟨region, field b.tag 6 2⟩, b.payload, none, none⟩]
         eng.recovery := some { rec with step := .entries (tags ++ [b.tag]) } }
       if s.eng.staging.length + 1 < r.count then t else finishEntries r (tags ++ [b.tag]) t) := by
  obtain ⟨h1, h2, h3⟩ := hn
  obtain rfl : region = ⟨field b.tag 5 1, h3⟩ := Fin.ext hregion
  rw [entryArrived, if_neg (by simp [h]), if_neg (by simp [h1, h2]), dif_pos h3, if_neg (by simp [hc])]
  dsimp only
  rw [setStep_of (s := { s with
    eng.staging := s.eng.staging ++ [⟨⟨⟨field b.tag 5 1, h3⟩, field b.tag 6 2⟩, b.payload, none, none⟩] }) hrec]

end EntryArrived

theorem finishEntries_link (r : StatusRecord) (tags : List Payload) (s : Part) :
    (finishEntries r tags s).link = s.link ∨ (finishEntries r tags s).link = (disown .recovery s).link := by
  rw [finishEntries]
  split
  · exact .inr (journalCorrupt_link _ _)
  · split
    · exact .inr (journalCorrupt_link _ _)
    · exact .inl rfl

/-- An entry leaves the link alone, or disowns recovery's request in flight (R115). -/
theorem entryArrived_link (r : StatusRecord) (tags : List Payload) (b : ReadBurst) (s : Part) :
    (entryArrived r tags b s).link = s.link ∨ (entryArrived r tags b s).link = (disown .recovery s).link := by
  rw [entryArrived]
  dsimp only
  split
  · exact .inr (journalCorrupt_link _ _)
  · split
    · exact .inr (journalCorrupt_link _ _)
    · split
      · split
        · exact .inr (journalCorrupt_link _ _)
        · split
          · exact .inl rfl
          · exact finishEntries_link r _ _
      · exact .inr (journalCorrupt_link _ _)

/-- After a burst of recovery's read run: END RUN after the last, else the next burst, also when recovery has given the run up
(R115, R154, log 18). -/
theorem boundary_recoveryRun {s t : Part} {q : LinkReq} (hs : s.link.current = some q)
    (ht : t.link = s.link ∨ t.link = (disown .recovery s).link) (hc : q.code = .readRun) (hr : q.requester = .recovery)
    (hw : q.withdrawn = false) : boundary t =
      if q.count ≤ q.pos then sendEndRun .last t
      else { t with link.phase := .readAck, link.wait := none, out.link := t.out.link ++ [.readAck] } := by
  have hq : ∃ discard, t.link.current = some { q with discard := discard } := by
    obtain ht | ht := ht
    · exact ⟨q.discard, by rw [ht]; exact hs⟩
    · refine ⟨true, ?_⟩
      rw [ht]
      show s.link.current.map _ = _
      rw [hs, Option.map_some, if_pos hr]
  obtain ⟨discard, hq⟩ := hq
  have hyield : ¬ yieldCause t { q with discard := discard } = true := fun k => by
    obtain ⟨k1, -⟩ := (yieldCause_readRun (q := { q with discard := discard }) hc).mp k
    cases hr.symm.trans k1
  rw [boundary_readRun hq hc, if_neg (by simp [hw]), if_neg hyield]

theorem belowCapacity_iff (s : Part) (block : Nat) : belowCapacity s block = true ↔
    ∀ i, s.pres.identity = some i → i.passes = true → block < i.capacity := by
  rw [belowCapacity, usableIdentity]
  cases s.pres.identity with
  | none => simp
  | some i => by_cases h : i.passes = true <;> simp [h]

theorem placed_iff (p : Part) (id : BlockId) : placed p id = true ↔
    (p.regs[id.region]).size ≠ 0 ∧ id.index < (p.regs[id.region]).size ∧
      ∀ i, p.pres.identity = some i → i.passes = true → (p.regs[id.region]).homeBase + id.index < i.capacity := by
  rw [placed, Bool.and_eq_true, decide_eq_true_iff, and_assoc, belowCapacity_iff]
  rfl

/-- Settles O38: `slotReads` for the status slots; an entry by the first check it fails, or by what it leaves. -/
theorem recoveryReadsTheSlots : Obligations.RecoveryReadsTheSlots := by
  refine ⟨fun p rest q b rec header hp hq hr hc hw hd hblank hcheck hstop hrec hh =>
      slotReads hp hq hr hc hw hd hblank hcheck hstop hrec hh,
    fun p rest q b rec tags slot r hp hq hr hc hw hd hblank hcheck hstop hrec hstep hnewest => ?entries,
    fun p id => ?placed, fun p rec slot r cause hrec hnewest => ?corrupt⟩
  case entries =>
    intro k s onward answers named
    have hs : s = { p with link := s.link } := by
      simp only [s]
      split <;> rfl
    have hrec' : s.eng.recovery = some rec := by rw [hs]; exact hrec
    have hstaging : s.eng.staging = p.eng.staging := by rw [hs]
    have hburst (s : Part) (h : s.eng.recovery = some rec) : handBurst q b s = entryArrived r tags b s := by
      rw [handBurst_recovery _ _ hr hw hd, recoveryBurst_entries b h hstep hnewest]
    have hanswer {t : Part} (ht : entryArrived r tags b s = t) : answers t := by
      obtain hc | hc := hc
      · have hsingle : s = endRequest p := if_pos hc
        have honward : onward t = t := if_pos hc
        refine answersNext_congr (readBurstEnd_of_passed p rest q b hp hq (.inr hc) hblank hcheck hstop) ?_
        rw [honward, deliver_recovery _ _ hr hw hd, recoveryOutcome_read _ hc, hburst (endRequest p) hrec, ← hsingle, ht]
      · have hnot : ¬ q.code = .readBlock := by rw [hc]; decide
        have hrun : s = { p with link.current := some { q with pos := q.pos + 1 } } := if_neg hnot
        have hlink := entryArrived_link r tags b s
        rw [ht] at hlink
        have hbound := boundary_recoveryRun (s := s) (t := t) (q := { q with pos := q.pos + 1 }) (by rw [hrun]) hlink hc hr hw
        refine answersNext_congr (readBurstEnd_of_run p rest q b hp hq hc hblank hcheck hstop) ?_
        rw [← hrun, hburst s hrec', ht, hbound]
        exact (if_neg hnot).symm
    have hk : s.eng.staging.length = k := by rw [hstaging]
    refine ⟨fun h1 => hanswer (hk ▸ entryArrived_blank h1),
      fun h0 hn => hanswer (hk ▸ entryArrived_unnamed h0 (by rwa [hk])),
      fun h0 hn hc => hanswer (hk ▸ entryArrived_payload h0 (by rwa [hk]) hc), fun region h0 hn hregion hc => ?good⟩
    intro entries at' received check
    have hgood := entryArrived_good (r := r) (tags := tags) h0 (by rwa [hk]) hrec' hregion hc
    rw [hk, hstaging] at hgood
    refine ⟨fun hmore => hanswer (hgood.trans (if_pos hmore)), fun hlast => ?_⟩
    have hfinish : entryArrived r tags b s = finishEntries r (tags ++ [b.tag]) received :=
      hgood.trans (if_neg (Nat.not_lt.mpr hlast))
    have hplaced (id : BlockId) : placed received id = placed p id := by
      show placed { s with eng := received.eng } id = placed p id
      rw [hs]
      rfl
    refine ⟨fun hbad => hanswer (hfinish.trans (finishEntries_check hbad)), fun hgood' =>
      ⟨fun e he => hanswer (hfinish.trans (finishEntries_unplaced hgood' ?_)), fun hall => hanswer (hfinish.trans ?_)⟩⟩
    · simp only [hplaced]
      exact he
    · have hlength : received.eng.staging.length ≠ 0 := by simp [received, at', entries]
      refine (finishEntries_placed hgood' fun e he => (hplaced e.id).trans (hall e he)).trans ?_
      rw [if_neg hlength]
      rfl
  case placed => exact placed_iff p id
  case corrupt =>
    have hbatch : recoveredBatch p = some r.batch := by
      simp only [recoveredBatch, hrec, hnewest, Option.bind_some, Option.map_some]
    rw [journalCorrupt_eq, hbatch]
    rfl

end Sys2Proof.Machine
end

section
/-! PROOFS. Recovery: its ends, its requests and bursts, and the ends of its writes. -/

namespace Sys2Proof.Machine

/-! ### Leaving recovery (R93, R114, R116) -/

section LeaveRecovery

variable {s : Part} {rec : Recovery} (h : s.eng.recovery = some rec)

include h

theorem leaveRecovery_unsettled (hu : rec.unsettled = true) : leaveRecovery s =
    { s with eng.recovery := none, eng.state := .inDoubt, eng.pauseReq := false } := by
  rw [leaveRecovery, unsettled_of h, if_pos hu]
  rfl

theorem recoverPaused_of : recoverPaused s = (s.eng.pauseReq && rec.fromPaused) := by
  rw [recoverPaused, h]

theorem leaveRecovery_settled (hu : rec.unsettled = false) : leaveRecovery s =
    (let t := { s with eng.recovery := none, eng.staging := [], eng.batch := none }
     if s.eng.pauseReq && rec.fromPaused then { t with eng.state := .paused .idle } else enterIdle t) := by
  rw [leaveRecovery, unsettled_of h, if_neg (by simp [hu]), recoverPaused_of h]
  rfl

theorem leaveRecovery_idle (hu : rec.unsettled = false) (hp : s.eng.pauseReq = false) : leaveRecovery s =
    { s with eng.recovery := none, eng.staging := [], eng.batch := none, eng.state := .idle } := by
  rw [leaveRecovery_settled h hu]
  exact (if_neg (by simp [hp])).trans (if_neg (Bool.eq_false_iff.mp hp))

theorem leaveRecovery_keptPause (hu : rec.unsettled = false) (hp : s.eng.pauseReq = true) (hf : rec.fromPaused = true) :
    leaveRecovery s =
      { s with eng.recovery := none, eng.staging := [], eng.batch := none, eng.state := .paused .idle } := by
  rw [leaveRecovery_settled h hu]
  exact if_pos (by simp [hp, hf])

theorem leaveRecovery_newPause (hu : rec.unsettled = false) (hp : s.eng.pauseReq = true) (hf : rec.fromPaused = false) :
    leaveRecovery s = { s with
      eng.recovery := none, eng.staging := [], eng.batch := none, eng.state := .paused .idle
      evq := s.evq.post (.paused .idle) s.now } := by
  rw [leaveRecovery_settled h hu]
  exact (if_neg (by simp [hf])).trans (if_pos hp)

/-- However a settled recovery ends, staging and the batch are gone and the engine is IDLE or PAUSED at IDLE; the rest of the
engine stands. -/
theorem leaveRecovery_eng (hu : rec.unsettled = false) : (leaveRecovery s).eng = { s.eng with
    recovery := none, staging := [], batch := none
    state := if s.eng.pauseReq then .paused .idle else .idle } := by
  cases hp : s.eng.pauseReq with
  | false => rw [leaveRecovery_idle h hu hp]; rfl
  | true =>
    cases hf : rec.fromPaused with
    | true => rw [leaveRecovery_keptPause h hu hp hf]; rfl
    | false => rw [leaveRecovery_newPause h hu hp hf]; rfl

theorem recoveredBatch_of : recoveredBatch s = rec.newest.map fun x => x.2.batch := by
  rw [recoveredBatch, h]
  rfl

end LeaveRecovery

/-! ### READY at the end (R114, R177) -/

theorem recoverySucceeded_eq (batch : U32) (replayed : Nat) (s : Part) : recoverySucceeded batch replayed s =
    leaveRecovery (becomeReady { s with
      eng.lastCommitted := some batch, eng.staging := [], eng.batch := none
      evq := s.evq.post (.recoveryDone batch replayed) s.now }) := rfl

/-- Becoming READY leaves the checkpoint engine alone but for the hold and the retry timer. -/
theorem becomeReady_keeps {s : Part} {i : Identity} (h : s.pres.identity = some i) :
    (becomeReady s).pres.status = .ready ∧ (becomeReady s).pres.serial = some i.serial ∧
    (becomeReady s).eng =
      { s.eng with journalHold := (becomeReady s).eng.journalHold, retryTimer := (becomeReady s).eng.retryTimer } := by
  have hready : becomeReady s =
      changeStatus .ready (some (serialDetail s)) { s with pres.serial := some i.serial } := by
    rw [becomeReady, h]
  rw [hready]
  obtain ⟨hpart, heng⟩ := changeStatus_keeps .ready (some (serialDetail s)) { s with pres.serial := some i.serial }
  exact ⟨changeStatus_status _ _ _, by rw [hpart], heng⟩

/-- The success of recovery: numbers, an empty staging area, the module READY, and the engine IDLE or PAUSED (R114). -/
theorem recoverySucceeded_fields {p : Part} {rec : Recovery} {identity : Identity} (batch : U32) (replayed : Nat)
    (hrec : p.eng.recovery = some rec) (hu : rec.unsettled = false) (hi : p.pres.identity = some identity) :
    let t := recoverySucceeded batch replayed p
    t.eng.lastCommitted = some batch ∧ t.eng.knowledge = p.eng.knowledge ∧ t.eng.staging = [] ∧ t.eng.recovery = none ∧
    t.eng.batch = none ∧ t.eng.aborts = p.eng.aborts ∧ t.pres.status = .ready ∧ t.pres.serial = some identity.serial ∧
    (p.eng.pauseReq = false → t.eng.state = .idle) ∧ (p.eng.pauseReq = true → t.eng.state = .paused .idle) := by
  intro t
  let s : Part := { p with
    eng.lastCommitted := some batch, eng.staging := [], eng.batch := none
    evq := p.evq.post (.recoveryDone batch replayed) p.now }
  obtain ⟨hstatus, hserial, heng⟩ := becomeReady_keeps (s := s) hi
  have hleave : t = leaveRecovery (becomeReady s) := recoverySucceeded_eq batch replayed p
  have hpres : t.pres = (becomeReady s).pres := by rw [hleave, leaveRecovery_keeps]
  have hrec' : (becomeReady s).eng.recovery = some rec := by rw [heng]; exact hrec
  have hteng := leaveRecovery_eng hrec' hu
  rw [← hleave, heng] at hteng
  rw [hpres, hteng]
  exact ⟨rfl, rfl, rfl, rfl, rfl, rfl, hstatus, hserial, fun hp => if_neg (by simp [s, hp]), fun hp => if_pos hp⟩

theorem recoverySucceeded_of_new {p : Part} {identity : Identity} (batch : U32) (replayed : Nat)
    (hi : p.pres.identity = some identity) (hs : p.pres.status ≠ .ready) : recoverySucceeded batch replayed p =
      leaveRecovery (evalAll { p with
        eng.lastCommitted := some batch
        eng.staging := []
        eng.batch := none
        pres.status := .ready
        pres.serial := some identity.serial
        evq := (p.evq.post (.recoveryDone batch replayed) p.now).post
          (.moduleStatus .ready (some (serialDetail p))) p.now }) := by
  let s : Part := { p with
    eng.lastCommitted := some batch, eng.staging := [], eng.batch := none
    evq := p.evq.post (.recoveryDone batch replayed) p.now }
  exact congrArg leaveRecovery (becomeReady_of_new (s := s) hi hs)

/-! ### Recovery's requests, bursts and writes (R109, R111, R113) -/

section Requests

variable {p : Part} {rec : Recovery} (h : p.eng.recovery = some rec)

include h

theorem recoveryRequest_slots (hs : rec.step = .readA ∨ ∃ a, rec.step = .readB a) : recoveryRequest p =
    some (request .recovery .readBlock (if rec.step = .readA then 1 else 2) 1) := by
  obtain hs | ⟨a, hs⟩ := hs <;> simp only [recoveryRequest, h, hs] <;> rfl

theorem recoveryRequest_homes {sent : Nat} (hs : rec.step = .homes sent) : recoveryRequest p =
    some (request .recovery .writeRun ((homesFrom p sent).headD 0) (homeRun (runLimit p) (homesFrom p sent))) := by
  simp only [recoveryRequest, h, hs]

theorem recoveryRequest_applied (hs : rec.step = .applied) :
    recoveryRequest p = some (request .recovery .writeBlock (nextStatusSlot p).block 1) := by
  simp only [recoveryRequest, h, hs]

theorem recoveryWritten_homes {sent : Nat} (n : Nat) (hs : rec.step = .homes sent) : recoveryWritten n p =
    { p with eng.recovery := some { rec with
        step := if p.eng.staging.length ≤ sent + n then .applied else .homes (sent + n) } } := by
  simp only [recoveryWritten, h, hs]
  exact setStep_of h _

variable {slot : StatusSlot} {r : StatusRecord} (hn : rec.newest = some (slot, r))

include hn

theorem recoveryRequest_entries {tags : List Payload} (hs : rec.step = .entries tags) : recoveryRequest p =
    some (request .recovery .readRun (3 + p.eng.staging.length) (min (runLimit p) (r.count - p.eng.staging.length))) := by
  simp only [recoveryRequest, h, hs, hn]

theorem recoveryWrite_homes {sent : Nat} (hs : rec.step = .homes sent) (pos : Nat) :
    recoveryWrite p pos = homeBurst p r.batch (sent + pos) := by
  simp only [recoveryWrite, h, hs, hn]

theorem recoveryWrite_applied (hs : rec.step = .applied) (pos : Nat) : recoveryWrite p pos =
    (statusPayload { r with seq := r.seq + 1, state := .applied, binding := p.pres.binding }, zeros 16) := by
  simp only [recoveryWrite, h, hs, hn]
  rfl

theorem recoveryWritten_applied (n : Nat) (hs : rec.step = .applied) : recoveryWritten n p =
    recoverySucceeded r.batch (if rec.confirmed then 0 else r.count)
      { p with eng.knowledge := some (r.seq + 1, if slot = .a then .b else .a) } := by
  simp only [recoveryWritten, h, hs, hn, ← StatusSlot.other_eq]

end Requests

/-- Settles O39: success by its fields and with its events, the other ends, what recovery asks for and sends, and the ends of its
writes. -/
theorem recoveryEndsWithSuccess : Obligations.RecoveryEndsWithSuccess := by
  refine ⟨fun p batch replayed rec identity hrec hu hi => recoverySucceeded_fields batch replayed hrec hu hi,
    fun p batch replayed identity hi hs => ?ready, fun p rec hrec => ?leaves,
    fun p rec hrec => ⟨fun hs => ?_, fun a hs => ?_⟩, fun p rec slot r hrec hn => ?asks,
    fun p rest q rec slot r hp hq hr hw hd hrec hn => ?written⟩
  case ready =>
    intro ready
    have hsucceeded := recoverySucceeded_of_new batch replayed hi hs
    have hdetail := serialDetail_of hi
    refine ⟨fun hserial => ?_, fun old hserial => ⟨fun heq => ?_, fun hne => ?_⟩⟩ <;> rw [hserial] at hdetail
    · rw [hdetail] at hsucceeded
      exact hsucceeded
    · rw [hdetail.trans (if_pos heq)] at hsucceeded
      exact hsucceeded
    · rw [hdetail.trans (if_neg hne)] at hsucceeded
      exact hsucceeded
  case leaves =>
    intro t
    refine ⟨leaveRecovery_unsettled hrec, leaveRecovery_idle hrec, leaveRecovery_keptPause hrec,
      leaveRecovery_newPause hrec, rfl, fun st => ?_⟩
    cases hstep : rec.step <;> simp only [recoveryHalted, recoveryApplying, hrec, hstep, recoveredBatch_of hrec] <;> rfl
  · rw [recoveryRequest_slots hrec (.inl hs), if_pos hs]
  · rw [recoveryRequest_slots hrec (.inr ⟨a, hs⟩), if_neg (by simp [hs])]
  case asks =>
    exact ⟨fun tags hs => recoveryRequest_entries hrec hn hs,
      fun sent hs => ⟨recoveryRequest_homes hrec hs,
        fun pos e he => (recoveryWrite_homes hrec hn hs pos).trans (homeBurst_of he)⟩,
      fun hs => ⟨recoveryRequest_applied hrec hs, recoveryWrite_applied hrec hn hs 0⟩,
      fun q hq => by rw [writeContent, hq]⟩
  case written =>
    intro s
    have hexec := exec_busyEnd rest hp
    refine ⟨fun sent hc hclose hs => answersNext_congr hexec ?_, fun hc hs => answersNext_congr hexec ?_⟩
    · rw [busyEnded_run hq (by rw [hc]; rfl), runClosed_last hq hclose, deliver_recovery _ _ hr hw hd]
      exact (if_pos (.inl hc)).trans (recoveryWritten_homes (p := s) hrec q.count hs)
    · rw [busyEnded_single hq (by rw [hc]; rfl) hw, deliver_recovery _ _ hr hw hd]
      exact (if_pos (.inr hc)).trans (recoveryWritten_applied (p := s) hrec hn q.count hs)

end Sys2Proof.Machine
end

section
/-! PROOFS. Presence and power: MPRES and the settle timer, the loss of the module, PFW and the final deadline. -/

namespace Sys2Proof.Machine

/-! ### The rows -/

section Rows

variable {p : Part} (rest : List Instr)

theorem exec_mpresRise_low (h : p.pins.mpres = false) : exec .mpresRise ⟨p, rest⟩ =
    .next ⟨presenceRise { p with pins.mpres := true }, rest⟩ := by
  simp only [exec, execMpresRise, onPart, h]
  rfl

theorem exec_mpresRise_high (h : p.pins.mpres = true) : exec .mpresRise ⟨p, rest⟩ = .next ⟨p, rest⟩ := by
  simp only [exec, execMpresRise, onPart, h, if_true]

theorem exec_mpresFall_high (h : p.pins.mpres = true) : exec .mpresFall ⟨p, rest⟩ =
    .next ⟨settle (presenceFall { p with pins.mpres := false }), rest⟩ := by
  simp only [exec, execMpresFall, onPart, h, if_true]

theorem exec_mpresFall_low (h : p.pins.mpres = false) : exec .mpresFall ⟨p, rest⟩ = .next ⟨p, rest⟩ := by
  simp [exec, execMpresFall, onPart, h]

theorem exec_settleTimerExpiry_due {t : Time} (h : p.pres.settle = some t) (hle : t ≤ p.now) :
    exec .settleTimerExpiry ⟨p, rest⟩ = .next ⟨settle (settleExpired p), rest⟩ := by
  simp only [exec, execSettleTimerExpiry, onPart, expired_of_le h hle, if_true]

theorem exec_settleTimerExpiry_early (h : ∀ t, p.pres.settle = some t → p.now < t) :
    exec .settleTimerExpiry ⟨p, rest⟩ = .next ⟨p, rest⟩ := by
  simp [exec, execSettleTimerExpiry, onPart, not_expired_of_lt h]

theorem exec_finalDeadlineExpiry_due {t : Time} (h : p.pwr.deadline = some t) (hle : t ≤ p.now) :
    exec .finalDeadlineExpiry ⟨p, rest⟩ = .next ⟨deadlineExpired p, rest⟩ := by
  simp only [exec, execFinalDeadlineExpiry, onPart, expired_of_le h hle, if_true]

theorem exec_finalDeadlineExpiry_early (h : ∀ t, p.pwr.deadline = some t → p.now < t) :
    exec .finalDeadlineExpiry ⟨p, rest⟩ = .next ⟨p, rest⟩ := by
  simp [exec, execFinalDeadlineExpiry, onPart, not_expired_of_lt h]

end Rows

/-! ### MPRES and the settle timer (R168) -/

theorem presenceRise_leaving {s : Part} (h : s.pres.state = .leaving) :
    presenceRise s = startSettle (.arriving true) s := by rw [presenceRise, h]

theorem presenceFall_arriving {s : Part} {returning : Bool} (h : s.pres.state = .arriving returning) :
    presenceFall s =
      if returning then startSettle .leaving s else { s with pres.state := .empty, pres.settle := none } := by
  cases returning <;> rw [presenceFall, h] <;> rfl

theorem presenceFall_present {s : Part} (h : s.pres.state = .present) :
    presenceFall s = startSettle .leaving (moduleGone s) := by rw [presenceFall, h]

theorem settleExpired_leaving {s : Part} (h : s.pres.state = .leaving) : settleExpired s =
    { s with pres.state := .empty, pres.settle := none, evq := s.evq.post .moduleLeft s.now } := by
  rw [settleExpired, h]
  rfl

theorem settleExpired_arriving {s : Part} {returning : Bool} (h : s.pres.state = .arriving returning) : settleExpired s =
    startIdent (setStatus .identifying none { s with
      pres.state := .present
      pres.settle := none
      link.state := .identifying
      evq := s.evq.post (.moduleArrived returning) s.now }) := by
  rw [settleExpired, h]
  rfl

/-- Settles O40: one case for each line of the table. -/
theorem presenceFollowsMpres : Obligations.PresenceFollowsMpres := by
  intro p rest restart
  refine ⟨exec_mpresRise_high rest, fun h hs => ?_, fun h hs => ?_, exec_mpresFall_low rest, fun h hs => ?_,
    fun h hs => ?_, exec_settleTimerExpiry_early rest, fun t ht hle => ⟨fun hs => ?_, fun returning hs hnone => ?_⟩⟩
  · rw [exec_mpresRise_low rest h, presenceRise_of_empty (s := { p with pins.mpres := true }) hs]
    rfl
  · rw [exec_mpresRise_low rest h, presenceRise_leaving (s := { p with pins.mpres := true }) hs]
    rfl
  · exact answersNext_congr (exec_mpresFall_high rest h) (presenceFall_arriving (s := { p with pins.mpres := false }) hs)
  · exact answersNext_congr (exec_mpresFall_high rest h) (presenceFall_arriving (s := { p with pins.mpres := false }) hs)
  · exact answersNext_congr (exec_settleTimerExpiry_due rest ht hle) (settleExpired_leaving hs)
  · exact answersNext_congr (exec_settleTimerExpiry_due rest ht hle) (settleExpired_arriving hs)

/-! ### What the loss of the module leaves alone (R161, R169) -/

/-- Only what the path unit changes, and the mailbox. -/
def PathOrMailbox (s t : Part) : Prop :=
  t = { s with tbl := t.tbl, path := t.path, fill := t.fill, evq := t.evq, out := t.out, mbox := t.mbox }

theorem PathOnly.pathOrMailbox {s t : Part} (h : PathOnly s t) : PathOrMailbox s t := by
  rw [PathOrMailbox]
  conv_lhs => rw [h]
  rw [show t.mbox = s.mbox by rw [h]]

theorem PathOrMailbox.trans {s t u : Part} (h : PathOrMailbox s t) (k : PathOrMailbox t u) : PathOrMailbox s u := by
  rw [PathOrMailbox] at *
  rw [k, h]

/-- A FORMAT that fails away from a READY link ends its command and no more (R170, R199). -/
theorem formatFailed_pathOrMailbox (code : ReqCode) (cause : FormatCause) {s : Part} (h : s.link.state ≠ .ready) :
    PathOrMailbox s (formatFailed code cause s) := by
  rw [formatFailed]
  split
  · rfl
  · dsimp only
    rw [if_neg h]
    rfl

theorem deliver_moduleLost {q : LinkReq} (s : Part) (hw : q.withdrawn = false) (hd : q.discard = false) :
    (q.requester = .format → deliver q .moduleLost s = formatFailed q.code .moduleLost s) ∧
    (q.requester = .demand → deliver q .moduleLost s = failDemand .moduleLost s) ∧
    (q.requester = .background → deliver q .moduleLost s = failBackground .moduleLost s) ∧
    (q.requester = .identification ∨ q.requester = .recovery ∨ q.requester = .checkpoint →
      deliver q .moduleLost s = s) := by
  rw [deliver_of_wanted _ hw hd]
  refine ⟨fun hr => ?_, fun hr => ?_, fun hr => ?_, fun hr => ?_⟩
  · rw [hr]; rfl
  · rw [hr]; rfl
  · rw [hr]; rfl
  · obtain hr | hr | hr := hr <;> rw [hr] <;> rfl

theorem deliver_moduleLost_pathOrMailbox (q : LinkReq) {s : Part} (h : s.link.state ≠ .ready) :
    PathOrMailbox s (deliver q .moduleLost s) := by
  by_cases hgiven : q.withdrawn = true ∨ q.discard = true
  · rw [deliver_of_discarded _ hgiven]
    rfl
  · rw [not_or, Bool.not_eq_true, Bool.not_eq_true] at hgiven
    obtain ⟨hformat, hdemand, hbackground, hother⟩ := deliver_moduleLost s hgiven.1 hgiven.2
    cases hr : q.requester with
    | format => rw [hformat hr]; exact formatFailed_pathOrMailbox _ _ h
    | demand => rw [hdemand hr]; exact (failDemand_pathOnly _ _).pathOrMailbox
    | background => rw [hbackground hr]; exact (failBackground_pathOnly _ _).pathOrMailbox
    | identification => rw [hother (.inl hr)]; rfl
    | recovery => rw [hother (.inr (.inl hr))]; rfl
    | checkpoint => rw [hother (.inr (.inr hr))]; rfl

theorem failWaitingFormat_pathOrMailbox (cause : FormatCause) {s : Part} (h : s.link.state ≠ .ready) :
    PathOrMailbox s (failWaitingFormat cause s) := by
  rw [failWaitingFormat]
  split
  · rfl
  · exact formatFailed_pathOrMailbox _ _ h

/-- The link abandoned: OFF with no request, and identification stopped. -/
def linkAbandoned (s : Part) : Part := { clearRequest s with link.state := .off, pres.ident := none }

theorem abandonForLoss_pathOrMailbox (s : Part) : PathOrMailbox (linkAbandoned s) (abandonForLoss s) := by
  have hoff : (linkAbandoned s).link.state ≠ .ready := (by decide : LinkState.off ≠ .ready)
  rw [abandonForLoss]
  cases s.link.current with
  | none => exact failWaitingFormat_pathOrMailbox _ hoff
  | some q =>
    have hq := deliver_moduleLost_pathOrMailbox q hoff
    refine hq.trans (failWaitingFormat_pathOrMailbox _ ?_)
    have hlink : (deliver q .moduleLost (linkAbandoned s)).link = (linkAbandoned s).link := by rw [hq]
    rw [hlink]
    exact hoff

/-! ### The regions without a module (R31, R39) -/

/-- A region without a module: SUSPENDED, unless it is OFF. -/
def regionWithoutModule (x : Region) : Region := if x.state = .off then x else { x with state := .suspended .noModule }

theorem regionWithoutModule_idem (x : Region) : regionWithoutModule (regionWithoutModule x) = regionWithoutModule x := by
  by_cases h : x.state = .off
  · simp [regionWithoutModule, h]
  · simp [regionWithoutModule, h]

theorem applyEval_regs (s : Part) (r : Fin 8) : (applyEval s r).regs =
    if (s.regs[r]).state = .off ∨ evalState s r = (s.regs[r]).state then s.regs
    else s.regs.set r { s.regs[r] with state := evalState s r } := by
  rw [applyEval]
  dsimp only
  split
  · rfl
  · split
    · rw [demandToQueue, suspendHolds_pathOnly]
      rfl
    · rfl

theorem applyEval_region_of_none {s : Part} (h : s.pres.status = .none) (r k : Fin 8) :
    (applyEval s r).regs[k] = if k = r then regionWithoutModule s.regs[k] else s.regs[k] := by
  have heval : evalState s r = .suspended .noModule := by rw [evalState, h]
  rw [applyEval_regs, heval]
  by_cases hk : k = r
  · subst hk
    rw [if_pos rfl, regionWithoutModule]
    by_cases hoff : (s.regs[k]).state = .off
    · rw [if_pos (.inl hoff), if_pos hoff]
    · rw [if_neg hoff]
      by_cases hsame : .suspended .noModule = (s.regs[k]).state
      · rw [if_pos (.inr hsame), hsame]
      · rw [if_neg (not_or.mpr ⟨hoff, hsame⟩)]
        simp
  · rw [if_neg hk]
    split
    · rfl
    · simp only [Fin.getElem_fin]
      exact Vector.getElem_set_ne _ _ fun e => hk (Fin.ext e.symm)

theorem applyEval_status (s : Part) (r : Fin 8) : (applyEval s r).pres.status = s.pres.status := by rw [applyEval_keeps]

theorem foldl_applyEval_region_of_none (l : List (Fin 8)) {s : Part} (h : s.pres.status = .none) (k : Fin 8) :
    (l.foldl applyEval s).regs[k] = if k ∈ l then regionWithoutModule s.regs[k] else s.regs[k] := by
  induction l generalizing s with
  | nil => rfl
  | cons r l ih =>
    rw [List.foldl_cons, ih ((applyEval_status s r).trans h), applyEval_region_of_none h]
    by_cases hl : k ∈ l
    · rw [if_pos hl, if_pos (List.mem_cons_of_mem _ hl)]
      split
      · exact regionWithoutModule_idem _
      · rfl
    · simp only [hl, if_false, List.mem_cons, or_false]

theorem evalAll_region_of_none {s : Part} (h : s.pres.status = .none) (k : Fin 8) :
    (evalAll s).regs[k] = regionWithoutModule s.regs[k] :=
  (foldl_applyEval_region_of_none _ h k).trans (if_pos (List.mem_finRange k))

/-- The module status NONE posted, before the regions take it. -/
def statusNone (d : Option StatusDetail) (s : Part) : Part := { s with
  pres.status := .none
  evq := s.evq.post (.moduleStatus .none d) s.now
  eng.journalHold := false
  eng.retryTimer := none }

theorem changeStatus_none_eq {s : Part} (h : s.pres.status ≠ .none) (d : Option StatusDetail) :
    changeStatus .none d s = failYielded (evalAll (statusNone d s)) := by
  rw [changeStatus_of_new d (Ne.symm h)]
  dsimp only
  rw [if_neg (by decide), if_pos rfl]
  rfl

theorem changeStatus_none_region {s : Part} (h : s.pres.status ≠ .none) (d : Option StatusDetail) (k : Fin 8) :
    (changeStatus .none d s).regs[k] = regionWithoutModule s.regs[k] := by
  have hregs : (changeStatus .none d s).regs = (evalAll (statusNone d s)).regs := by
    rw [changeStatus_none_eq h, failYielded_pathOnly]
  have hstatus : (statusNone d s).pres.status = .none := rfl
  rw [hregs, evalAll_region_of_none hstatus]
  rfl

theorem changeStatus_none_eng {s : Part} (h : s.pres.status ≠ .none) (d : Option StatusDetail) :
    (changeStatus .none d s).eng = { s.eng with journalHold := false, retryTimer := none } := by
  rw [changeStatus_none_eq h, failYielded_pathOnly, evalAll_keeps]
  rfl

/-! ### The engine without a module (R91, R116) -/

/-- What the checkpoint engine's loss of the module leaves alone. -/
structure LeavesModule (s t : Part) : Prop where
  now : t.now = s.now
  pins : t.pins = s.pins
  pres : t.pres = s.pres
  regs : t.regs = s.regs
  hold : t.eng.journalHold = s.eng.journalHold
  retry : t.eng.retryTimer = s.eng.retryTimer
  linkState : t.link.state = s.link.state
  current : s.link.current = none → t.link.current = none

theorem LeavesModule.refl (s : Part) : LeavesModule s s := ⟨rfl, rfl, rfl, rfl, rfl, rfl, rfl, id⟩

theorem LeavesModule.trans {s t u : Part} (h : LeavesModule s t) (k : LeavesModule t u) : LeavesModule s u :=
  ⟨k.now.trans h.now, k.pins.trans h.pins, k.pres.trans h.pres, k.regs.trans h.regs, k.hold.trans h.hold, k.retry.trans h.retry,
    k.linkState.trans h.linkState, fun hc => k.current (h.current hc)⟩

theorem withdraw_leavesModule (r : Requester) (s : Part) : LeavesModule s (withdraw r s) :=
  ⟨rfl, rfl, rfl, rfl, rfl, rfl, rfl, fun h => by rw [withdraw, h]; rfl⟩

theorem disown_leavesModule (r : Requester) (s : Part) : LeavesModule s (disown r s) :=
  ⟨rfl, rfl, rfl, rfl, rfl, rfl, rfl, fun h => by rw [disown, h]; rfl⟩

theorem abortBatch_leavesModule (why : AbortReason) (s : Part) : LeavesModule s (abortBatch why s) := by
  rw [abortBatch_eq, abortClaim_keeps]
  exact ⟨rfl, rfl, rfl, rfl, rfl, rfl, rfl, id⟩

theorem enterIdle_leavesModule (s : Part) : LeavesModule s (enterIdle s) := by
  rw [enterIdle_eq]
  exact ⟨rfl, rfl, rfl, rfl, rfl, rfl, rfl, id⟩

theorem dropBatch_leavesModule (s : Part) : LeavesModule s (dropBatch s) := ⟨rfl, rfl, rfl, rfl, rfl, rfl, rfl, id⟩

theorem setEngine_leavesModule (e : EngineState) (s : Part) : LeavesModule s (setEngine e s) :=
  ⟨rfl, rfl, rfl, rfl, rfl, rfl, rfl, id⟩

theorem enterInDoubt_leavesModule {s : Part} (h : s.pres.status ≠ .ready) : LeavesModule s (enterInDoubt s) := by
  rw [enterInDoubt]
  dsimp only
  rw [if_neg h]
  exact ⟨rfl, rfl, rfl, rfl, rfl, rfl, rfl, id⟩

theorem leaveRecovery_leavesModule (s : Part) : LeavesModule s (leaveRecovery s) := by
  rw [leaveRecovery]
  dsimp only
  split
  · exact ⟨rfl, rfl, rfl, rfl, rfl, rfl, rfl, id⟩
  · split
    · exact ⟨rfl, rfl, rfl, rfl, rfl, rfl, rfl, id⟩
    · have hdrop : LeavesModule s (dropBatch { s with eng.recovery := none }) := ⟨rfl, rfl, rfl, rfl, rfl, rfl, rfl, id⟩
      exact hdrop.trans (enterIdle_leavesModule _)

theorem engineLoss_leavesModule {s : Part} (h : s.pres.status ≠ .ready) : LeavesModule s (engineLoss s) := by
  have hwithdraw := withdraw_leavesModule .checkpoint s
  have hdisown := disown_leavesModule .checkpoint s
  have habort := abortBatch_leavesModule .moduleLost s
  have hdrop := dropBatch_leavesModule s
  have happlied : LeavesModule s (leaveApplied s) :=
    hwithdraw.trans ((dropBatch_leavesModule _).trans (enterIdle_leavesModule _))
  rw [engineLoss]
  split
  · exact ⟨rfl, rfl, rfl, rfl, rfl, rfl, rfl, id⟩
  · exact hwithdraw.trans ((abortBatch_leavesModule _ _).trans (enterIdle_leavesModule _))
  · exact hwithdraw.trans (enterInDoubt_leavesModule h)
  · exact hdisown.trans (enterInDoubt_leavesModule h)
  · exact happlied
  · exact happlied
  · exact habort.trans (setEngine_leavesModule _ _)
  · exact habort.trans (setEngine_leavesModule _ _)
  · exact hdrop.trans (setEngine_leavesModule _ _)
  · exact hdrop.trans (setEngine_leavesModule _ _)
  all_goals exact .refl s

theorem engineStatus_leavesModule {s : Part} (old new : ModStatus) (h : s.pres.status ≠ .ready) :
    LeavesModule s (engineStatus old new s) := by
  rw [engineStatus]
  split
  · split
    · exact .refl s
    · exact (disown_leavesModule .recovery s).trans (leaveRecovery_leavesModule _)
  · split
    · exact engineLoss_leavesModule h
    · exact .refl s

/-- The module status NONE, handed to its neighbours (R169, R175). -/
theorem setStatus_none_spec {s : Part} (h : s.pres.status ≠ .none) (d : Option StatusDetail) :
    let t := setStatus .none d s
    t.pins = s.pins ∧ t.pres = { s.pres with status := .none } ∧ t.now = s.now ∧ (∀ k : Fin 8, t.regs[k] = regionWithoutModule s.regs[k]) ∧
    t.eng.journalHold = false ∧ t.eng.retryTimer = none ∧ t.link.state = s.link.state ∧
    (s.link.current = none → t.link.current = none) := by
  intro t
  let u := changeStatus .none d s
  have ht : t = engineStatus s.pres.status .none u := if_neg (Ne.symm h)
  obtain ⟨hu, -⟩ := changeStatus_keeps .none d s
  have hnow : u.now = s.now := by rw [show u = _ from hu]
  have hpins : u.pins = s.pins := by rw [show u = _ from hu]
  have hpres : u.pres = { s.pres with status := .none } := by rw [show u = _ from hu]
  have hlink : u.link = s.link := by rw [show u = _ from hu]
  have heng : u.eng = _ := changeStatus_none_eng h d
  obtain ⟨k0, k1, k2, k3, k4, k5, k6, k7⟩ := engineStatus_leavesModule (s := u) s.pres.status .none 
    (by rw [hpres]; exact (by decide : ModStatus.none ≠ .ready))
  rw [← ht] at k0 k1 k2 k3 k4 k5 k6 k7
  rw [hlink] at k6 k7
  refine ⟨k1.trans hpins, k2.trans hpres, k0.trans hnow, fun k => ?_, by rw [k4, heng], by rw [k5, heng], k6, k7⟩
  rw [k3]
  exact changeStatus_none_region h d k

/-- A fall of MPRES in PRESENT (R169). -/
theorem moduleGone_spec {s : Part} (h : s.pres.status ≠ .none) :
    let t := moduleGone s
    t.pins = s.pins ∧
    t.pres = { s.pres with status := .none, identity := none, header := none, summary := none, ident := none } ∧
    t.now = s.now ∧ (∀ k : Fin 8, t.regs[k] = regionWithoutModule s.regs[k]) ∧
    t.eng.journalHold = false ∧ t.eng.retryTimer = none ∧ t.link.state = .off ∧ t.link.current = none := by
  intro t
  have hgone := abandonForLoss_pathOrMailbox s
  let u : Part := { abandonForLoss s with pres.identity := none, pres.header := none, pres.summary := none }
  have hpins : u.pins = s.pins := by simp only [u]; rw [hgone]; rfl
  have hpres : u.pres = { s.pres with identity := none, header := none, summary := none, ident := none } := by
    simp only [u]; rw [hgone]; rfl
  have hnow : u.now = s.now := by simp only [u]; rw [hgone]; rfl
  have hregs : u.regs = s.regs := by simp only [u]; rw [hgone]; rfl
  have hoff : u.link.state = .off := by simp only [u]; rw [hgone]; rfl
  have hcurrent : u.link.current = none := by simp only [u]; rw [hgone]; rfl
  obtain ⟨k1, k2, k3, k4, k5, k6, k7, k8⟩ := setStatus_none_spec (s := u) (by rw [hpres]; exact h) none
  rw [hpins] at k1
  rw [hpres] at k2
  rw [hnow] at k3
  rw [hregs] at k4
  exact ⟨k1, k2, k3, k4, k5, k6, k7.trans hoff, k8 hcurrent⟩

/-! ### The engine's loss, by its phase (R91) -/

theorem enterIdle_of_no_batch {s : Part} (h : s.eng.batch = none) : enterIdle s =
    if s.eng.pauseReq then { s with eng.state := .paused .idle, evq := s.evq.post (.paused .idle) s.now }
    else { s with eng.state := .idle } := by
  have hs : { s with eng.batch := none } = s := by rw [← h]
  rw [enterIdle, hs]
  rfl

/-- Settles O41: the part after a fall of MPRES by `moduleGone_spec`; a change of status and the engine's loss by their branches. -/
theorem moduleLossIsImmediate : Obligations.ModuleLossIsImmediate := by
  refine ⟨fun p rest hm hs hstatus => ⟨_, exec_mpresFall_high rest hm, ?fall⟩,
    fun p q hw hd => deliver_moduleLost p hw hd, fun new d s hne => ?change, fun new d s => ?status, fun s => ?loss⟩
  case fall =>
    obtain ⟨k1, k2, k3, k4, k5, k6, k7, k8⟩ := moduleGone_spec (s := { p with pins.mpres := false }) hstatus
    rw [presenceFall_present (s := { p with pins.mpres := false }) hs, startSettle]
    simp only [settle_pins, settle_pres, settle_regs, settle_eng, settle_link, k1, k2, k3, k4, k5, k6, k7, k8]
    refine ⟨trivial, trivial, trivial, trivial, trivial, trivial, trivial, trivial, trivial, trivial, trivial, trivial, trivial,
      fun r hr => ?_, fun r hr => ?_⟩
    · rw [regionWithoutModule, if_neg hr]
    · rw [regionWithoutModule, if_pos hr]
  case change =>
    intro t
    have hchange := changeStatus_of_new d hne
    exact ⟨fun h => hchange.trans (if_pos h), fun h => hchange.trans (if_neg h)⟩
  case status =>
    intro t given
    refine ⟨fun h => if_pos h, fun hne => ?_⟩
    have hset : setStatus new d s = engineStatus s.pres.status new t := if_neg hne
    have hstate : t.eng.state = s.eng.state := changeStatus_state new d s
    refine ⟨fun hr hu => ?_, fun hr hu => ?_, fun hr hs => ?_, fun hr hs => ?_⟩ <;> rw [hset, engineStatus, hstate]
    · rw [if_pos hr, if_pos hu]
    · rw [if_pos hr, if_neg hu]
      rfl
    · rw [if_neg hr, if_pos ⟨hs, fun h => hne (h.trans hs.symm)⟩]
    · rw [if_neg hr, if_neg fun k => hs k.1]
  case loss =>
    intro w d aborted dropped idle
    have haborted (u : Part) : abortBatch .moduleLost u = aborted u := abortBatch_eq _ _
    have hidle (u : Part) (h : u.eng.batch = none) : enterIdle u = idle u := enterIdle_of_no_batch h
    refine ⟨fun h => ?_, fun h => ?_, fun h => ?_, fun h => ?_, fun h => ?_, fun h => ?_, fun h => ?_, fun h => ?_⟩
    · rw [engineLoss, h]
    · rw [← hidle _ rfl, ← haborted, engineLoss, h]
      rfl
    · rw [engineLoss, h]
      rfl
    · rw [engineLoss, h]
      rfl
    · rw [← hidle (dropped w) rfl]
      obtain h | h := h <;> rw [engineLoss, h] <;> rfl
    · rw [← haborted]
      obtain h | h := h <;> rw [engineLoss, h] <;> rfl
    · obtain h | h := h <;> rw [engineLoss, h] <;> rfl
    · obtain h | ⟨why, h⟩ := h
      · simp only [List.mem_cons, List.not_mem_nil, or_false] at h
        obtain h | h | h | h | h | h := h <;> rw [engineLoss, h]
      · rw [engineLoss, h]

/-! ### The end of a pause (R94, R95) -/

theorem endPause_paused {s : Part} {pt : Point} (byFreeze : Bool) (h : s.eng.state = .paused pt) : endPause byFreeze s =
    continueFrom pt { s with eng.pauseReq := false, evq := s.evq.post (.resumed byFreeze) s.now } := by
  rw [endPause, h]
  rfl

theorem recoverPaused_iff (s : Part) : recoverPaused s = true ↔
    s.eng.pauseReq = true ∧ ∃ rec, s.eng.recovery = some rec ∧ rec.fromPaused = true := by
  rw [recoverPaused, Bool.and_eq_true]
  cases s.eng.recovery <;> simp

theorem endPause_recover {s : Part} (byFreeze : Bool) (h : s.eng.state = .recover) : endPause byFreeze s =
    if recoverPaused s then { s with
      eng.pauseReq := false
      eng.recovery := s.eng.recovery.map fun r => { r with fromPaused := false }
      evq := s.evq.post (.resumed byFreeze) s.now }
    else { s with eng.pauseReq := false } := by
  rw [endPause, h]
  rfl

/-- A pause request not yet in effect is cleared without an event (R94). -/
theorem endPause_waiting {s : Part} (byFreeze : Bool) (hp : ∀ pt, s.eng.state ≠ .paused pt)
    (hr : s.eng.state = .recover → ¬ recoverPaused s = true) : endPause byFreeze s = { s with eng.pauseReq := false } := by
  cases hs : s.eng.state with
  | paused pt => exact absurd hs (hp pt)
  | recover => exact (endPause_recover byFreeze hs).trans (if_neg (hr hs))
  | _ => rw [endPause, hs]

/-! ### The final deadline (R141) -/

theorem isHalted_iff (e : EngineState) : isHalted e = true ↔ e = .halted .abortLimit ∨ e = .halted .applyFailed := by
  cases e with
  | halted why => cases why <;> simp [isHalted]
  | _ => simp [isHalted]

theorem deadlineExpired_running {s : Part} (h : s.pwr.final = .running) : deadlineExpired s = { s with
    pwr.deadline := none, pwr.final := .late, evq := s.evq.post (.finalLate (lateDetail s)) s.now } := by
  rw [deadlineExpired, if_pos h]
  rfl

theorem deadlineExpired_other {s : Part} (h : s.pwr.final ≠ .running) :
    deadlineExpired s = { s with pwr.deadline := none } := if_neg h

section LateDetail

variable {s : Part}

theorem lateDetail_noModule (h : s.pres.status = .none) : lateDetail s = .noModule := if_pos h

theorem lateDetail_notReady (h : s.pres.status ≠ .none) (hr : s.pres.status ≠ .ready) : lateDetail s = .notReady := by
  rw [lateDetail, if_neg h, if_pos hr]

variable (hr : s.pres.status = .ready)

include hr

theorem lateDetail_ready : lateDetail s =
    if isHalted s.eng.state then .halted
    else if s.eng.state = .inDoubt then .inDoubt
    else if eligibleLength s = 0 ∧ noBatch s = true then .ineligible
    else .slow := by
  rw [lateDetail, if_neg (by simp [hr]), if_neg (by simp [hr])]

end LateDetail

theorem noEligible_iff (s : Part) :
    (eligibleLength s = 0 ∧ noBatch s = true) ↔ eligibleQueue s = [] ∧ s.eng.batch = none := by
  rw [eligibleLength, noBatch, List.length_eq_zero_iff, Option.isNone_iff_eq_none]

/-! ### PFW (R136, R142) -/

theorem assertFreeze_eq (s : Part) : assertFreeze s = endPause true (if dirtyCount s = 0 then { s with
      pwr := { s.pwr with freeze := true, final := .done, deadline := some (s.now + s.pwr.finalDeadline) }
      evq := s.evq.post (.finalDone s.eng.lastCommitted) s.now }
    else { s with
      pwr := { s.pwr with freeze := true, final := .running, deadline := some (s.now + s.pwr.finalDeadline) } }) := rfl

theorem exec_pfwAsserted_new {p : Part} (rest : List Instr) (h : p.pins.pfw = false) (hf : p.pwr.freeze = false) :
    exec .pfwAsserted ⟨p, rest⟩ = .next ⟨settle (assertFreeze { p with pins.pfw := true }), rest⟩ := by
  simp only [exec, execPfwAsserted, onPart, h, hf]
  rfl

theorem exec_pfwAsserted_again {p : Part} (rest : List Instr) (hf : p.pwr.freeze = true) :
    exec .pfwAsserted ⟨p, rest⟩ = .next ⟨{ p with pins.pfw := true }, rest⟩ := by
  simp only [exec, execPfwAsserted, onPart, hf, Bool.or_true, if_true]

theorem exec_pfwWithdrawn_frozen {p : Part} (rest : List Instr) (h : p.pins.pfw = true) (hf : p.pwr.freeze = true) :
    exec .pfwWithdrawn ⟨p, rest⟩ = .next ⟨settle (withdrawFreeze { p with pins.pfw := false }), rest⟩ := by
  simp only [exec, execPfwWithdrawn, onPart, h, hf]
  rfl

/-- Settles O42: PFW's edges, the deadline with the first detail that holds, and the end of a pause by the engine's state. -/
theorem powerFailSteps : Obligations.PowerFailSteps := by
  refine ⟨fun p rest => ⟨exec_pfwAsserted_again rest, fun h hf hd => ?_, fun h hf hd => ?_, fun h hf => ?_,
    exec_finalDeadlineExpiry_early rest, fun t ht hle => ?deadline⟩, fun s => ?pause⟩
  · exact answersNext_congr (exec_pfwAsserted_new rest h hf)
      ((assertFreeze_eq { p with pins.pfw := true }).trans (congrArg (endPause true) (if_pos hd)))
  · exact answersNext_congr (exec_pfwAsserted_new rest h hf)
      ((assertFreeze_eq { p with pins.pfw := true }).trans (congrArg (endPause true) (if_neg hd)))
  · exact answersNext_congr (exec_pfwWithdrawn_frozen rest h hf) rfl
  case deadline =>
    intro late halted
    have hexec := exec_finalDeadlineExpiry_due rest ht hle
    refine ⟨fun hf => by rw [hexec, deadlineExpired_other hf], fun hf => ?_⟩
    have hlate {why : LateDetail} (h : lateDetail p = why) : late why := by
      rw [deadlineExpired_running hf, h] at hexec
      exact hexec
    have hnothalted (h : ¬ halted) : ¬ isHalted p.eng.state = true := mt (isHalted_iff p.eng.state).mp h
    refine ⟨fun h => hlate (lateDetail_noModule h), fun h hr => hlate (lateDetail_notReady h hr),
      fun hr h => hlate ?_, fun hr h => hlate ?_, fun hr h hd he hb => hlate ?_, fun hr h hd hne => hlate ?_⟩ <;>
      rw [lateDetail_ready hr]
    · exact if_pos ((isHalted_iff p.eng.state).mpr h)
    · rw [if_neg (by rw [h]; decide), if_pos h]
    · rw [if_neg (hnothalted h), if_neg hd, if_pos ((noEligible_iff p).mpr ⟨he, hb⟩)]
    · rw [if_neg (hnothalted h), if_neg hd, if_neg]
      intro k
      obtain ⟨k1, k2⟩ := (noEligible_iff p).mp k
      exact hne.elim (· k1) (· k2)
  case pause =>
    intro cleared resumed goesOn
    refine ⟨fun h => endPause_paused true h, fun h => endPause_paused true h, fun h => endPause_paused true h,
      fun h => endPause_paused true h, fun h => ?_, fun rec h hrec hf hp => ?_, fun hp hr => ?_⟩
    · obtain h | h := h
      · exact endPause_paused true h
      · exact endPause_paused true h
    · rw [endPause_recover true h, if_pos ((recoverPaused_iff s).mpr ⟨hp, rec, hrec, hf⟩), hrec]
      rfl
    · refine endPause_waiting true hp fun h k => ?_
      obtain ⟨k1, rec, hrec, hf⟩ := (recoverPaused_iff s).mp k
      simp [hr h k1 rec hrec] at hf

end Sys2Proof.Machine
end

section
/-! PROOFS. The event queue and the region evaluation. -/

namespace Sys2Proof.Machine

/-! ### Events (R180, R181, R183) -/

theorem post_of_masked {q : EventQueue} {e : Event} (now : Time) (h : q.capture[e.kind] = false) : q.post e now = q :=
  if_neg (by simp [h])

theorem post_of_captured {q : EventQueue} {e : Event} (now : Time) (h : q.capture[e.kind] = true) : q.post e now =
    { q with records := placeEvent e q.seq (BitVec.ofNat 16 now) q.records, seq := q.seq + 1 } := if_pos h

/-- Behind records that do not end with OVERFLOW. -/
theorem placeEvent_plain (e : Event) (seq : Byte) (time : U16) {recs : List EventRec}
    (h : ∀ r, recs.getLast? = some r → r.isOverflow = false) : placeEvent e seq time recs =
      if recs.length < 31 then recs ++ [.event e seq time] else recs ++ [.overflow seq time 1] := by
  rw [placeEvent]
  split
  · rename_i sq t d hlast
    exact absurd (h _ hlast) (by simp [EventRec.isOverflow])
  · rfl

/-- Before or into the OVERFLOW record that ends the queue. -/
theorem placeEvent_overflow (e : Event) (seq : Byte) (time : U16) (older : List EventRec) (sq : Byte) (t : U16) (d : Nat) :
    placeEvent e seq time (older ++ [.overflow sq t d]) =
      if (older ++ [EventRec.overflow sq t d]).length < 32 then older ++ [.event e seq time, .overflow sq t d]
      else older ++ [.overflow sq t (min 255 (d + 1))] := by
  rw [placeEvent, List.getLast?_concat, List.dropLast_concat]
  rfl

theorem kind_eq_overflow_iff (r : EventRec) : r.kind = 24 ↔ r.isOverflow = true := by
  cases r with
  | overflow sq t d => simp [EventRec.kind, EventRec.isOverflow]
  | event e sq t => cases e <;> simp [EventRec.kind, EventRec.isOverflow, Event.kind]

theorem alertOf_iff (q : EventQueue) :
    alertOf q = true ↔ ∃ r ∈ q.records, q.alert[r.kind] = true ∨ r.isOverflow = true := by
  simp only [alertOf, List.any_eq_true, Bool.or_eq_true, beq_iff_eq, kind_eq_overflow_iff]

/-- Settles O43: a captured event by where the queue ends, and ALERT by the records held. -/
theorem eventPlacement : Obligations.EventPlacement := by
  intro q e now rec'
  refine ⟨post_of_masked now, fun h => ?_, alertOf_iff q⟩
  rw [post_of_captured now h]
  refine ⟨fun hlast hlen => ?_, fun hlast hlen => ?_, fun older sq t d hrecs hlen => ?_, fun older sq t d hrecs hlen => ?_⟩
  · rw [placeEvent_plain _ _ _ hlast, if_pos hlen]
  · rw [placeEvent_plain _ _ _ hlast, if_neg (by omega)]
  · rw [hrecs] at hlen ⊢
    rw [placeEvent_overflow, if_neg (by omega)]
  · rw [hrecs] at hlen ⊢
    rw [placeEvent_overflow, if_pos hlen]

/-! ### The region evaluation (R31, R39) -/

theorem withinCapacity_iff (s : Part) (r : Fin 8) : withinCapacity s r = true ↔
    ∀ i, s.pres.identity = some i → i.passes = true → (s.regs[r]).homeBase + (s.regs[r]).size ≤ i.capacity := by
  rw [withinCapacity, usableIdentity]
  cases s.pres.identity with
  | none => simp
  | some i => by_cases h : i.passes = true <;> simp [h]

section EvalState

variable {p : Part} (r : Fin 8)

theorem evalState_none (h : p.pres.status = .none) : evalState p r = .suspended .noModule := by rw [evalState, h]

theorem evalState_unknown (h : p.pres.status = .identifying ∨ p.pres.status = .failed) :
    evalState p r = .suspended .moduleNotReady := by
  obtain h | h := h <;> rw [evalState, h]

theorem evalState_bound (h : p.pres.status = .unformatted ∨ p.pres.status = .mismatched ∨ p.pres.status = .unverified) :
    evalState p r = if withinCapacity p r then .suspended .moduleNotReady else .suspended .capacity := by
  obtain h | h | h := h <;> rw [evalState, h]

theorem evalState_ready (h : p.pres.status = .ready) : evalState p r =
    if withinCapacity p r then (if absentCount p r = 0 then .mirrored else .restoring) else .suspended .capacity := by
  rw [evalState, h]

end EvalState

/-- A state that changes: the region's own, and what a suspension gives up on the way (R39, R121). -/
theorem applyEval_of_change {p : Part} {r : Fin 8} (hoff : (p.regs[r]).state ≠ .off)
    (hne : evalState p r ≠ (p.regs[r]).state) : applyEval p r =
      (let t := setRegionState r (evalState p r) p
       if (evalState p r).isSuspended && !(p.regs[r]).state.isSuspended then demandToQueue r (suspendHolds r t) else t) :=
  if_neg (not_or.mpr ⟨hoff, hne⟩)

/-- Settles O44: the states line by line, what a change does, and the held accesses of a suspended region. -/
theorem regionEvaluation : Obligations.RegionEvaluation := by
  refine ⟨fun p r => ?_, fun p r => ?holds⟩
  · intro within bound
    have hwithin : withinCapacity p r = true ↔ within := withinCapacity_iff p r
    refine ⟨evalState_none r, evalState_unknown r, fun h hw => ?_, fun h hw => ?_, fun h hw ha => ?_, fun h hw ha => ?_,
      fun h => if_pos h, fun hoff hne => ?change, rfl⟩
    · obtain h | h := h
      · rw [evalState_bound r h, if_neg (mt hwithin.mp hw)]
      · rw [evalState_ready r h, if_neg (mt hwithin.mp hw)]
    · rw [evalState_bound r h, if_pos (hwithin.mpr hw)]
    · rw [evalState_ready r h, if_pos (hwithin.mpr hw), if_neg ha]
    · rw [evalState_ready r h, if_pos (hwithin.mpr hw), if_pos ha]
    case change =>
      intro t
      have heval := applyEval_of_change hoff hne
      refine ⟨fun h => heval.trans (if_neg ?_), fun h1 h2 => heval.trans (if_pos (by rw [h1, h2]; rfl))⟩
      obtain h | h := h <;> simp only [h, Bool.not_true, Bool.and_false, Bool.false_and, Bool.false_eq_true, not_false_eq_true]
  case holds =>
    rw [suspendHolds]
    congr 1
    · funext t e
      cases hs : stateOf t e.id with
      | none => rfl
      | some st =>
        cases st with
        | absent unreadable => cases unreadable <;> rfl
        | _ => rfl
    · refine List.filter_congr fun e _ => ?_
      rw [Bool.eq_iff_iff, Bool.and_eq_true, beq_iff_eq, beq_iff_eq, decide_eq_true_iff]

end Sys2Proof.Machine
end

section
/-! PROOFS. The management port: window writes, and the commands as the transactions they are. -/

namespace Sys2Proof.Machine

/-! ### A command taken (R188) -/

/-- A command's row takes the command of its transaction. -/
theorem exec_taken {c : Instr} {p : Part} {rest : List Instr} {code : Byte} {args : List Byte} {effect : Part → Part}
    (hrow : exec c ⟨p, rest⟩ = .next ⟨takeCommand code args effect p, rest⟩) (hc : p.mbox.completing = false)
    (hl : args.length ≤ 15) : exec c ⟨p, rest⟩ = .next ⟨effect { p with mbox := p.mbox.taken code args }, rest⟩ := by
  rw [hrow, takeCommand_of hc code args hl effect]

/-! ### Bytes written to the window (R186, R187) -/

/-- One byte of a write transaction: the command code at offset 0, the argument bytes behind it, any other byte discarded. -/
theorem writeByte_eq (b : Byte) (m : Mailbox) : writeByte m.offset b m = { m with
    code := if m.offset = 0 then b else m.code
    args := Vector.ofFn fun i => if m.offset.toNat = i.val + 1 then b else m.args[i] } := by
  have hzero : m.offset.toNat = 0 ↔ m.offset = 0 := by rw [BitVec.toNat_eq]; rfl
  rw [writeByte]
  by_cases h0 : m.offset = 0
  · have hargs : (Vector.ofFn fun i : Fin 15 => if m.offset.toNat = i.val + 1 then b else m.args[i]) = m.args := by
      ext i hi
      simp [h0]
    rw [if_pos (hzero.mpr h0), if_pos h0, hargs]
  · rw [if_neg (mt hzero.mp h0), if_neg h0]
    have hpos : m.offset.toNat ≠ 0 := mt hzero.mp h0
    split
    · rename_i hlt
      have hargs : (Vector.ofFn fun i : Fin 15 => if m.offset.toNat = i.val + 1 then b else m.args[i]) =
          m.args.set (m.offset.toNat - 1) b := by
        ext i hi
        rw [Vector.getElem_ofFn, Vector.getElem_set]
        by_cases hi' : m.offset.toNat = i + 1
        · rw [if_pos hi', if_pos (by omega)]
        · rw [if_neg hi', if_neg (by omega)]
          rfl
      rw [hargs]
    · rename_i hge
      have hargs : (Vector.ofFn fun i : Fin 15 => if m.offset.toNat = i.val + 1 then b else m.args[i]) = m.args := by
        ext i hi
        rw [Vector.getElem_ofFn, if_neg (by omega)]
        rfl
      rw [hargs]

theorem writeBytes_cons (b : Byte) (more : List Byte) (m : Mailbox) : writeBytes (b :: more) m = writeBytes more { m with
    offset := m.offset + 1
    code := if m.offset = 0 then b else m.code
    args := Vector.ofFn fun i => if m.offset.toNat = i.val + 1 then b else m.args[i] } := by
  rw [writeBytes, writeByte_eq]

theorem exec_windowWrite {p : Part} (rest : List Instr) (bytes : List Byte) :
    exec (.windowWrite p.mbox.address bytes) ⟨p, rest⟩ = .next ⟨orHold bytes (windowTransaction bytes) p, rest⟩ := by
  simp only [exec, execWindowWrite, onPart, if_true]

theorem exec_windowWrite_other {p : Part} (rest : List Instr) {address : BitVec 7} (bytes : List Byte)
    (h : address ≠ p.mbox.address) : exec (.windowWrite address bytes) ⟨p, rest⟩ = .next ⟨p, rest⟩ := by
  simp only [exec, execWindowWrite, onPart, if_neg h]

theorem orHold_completing {s : Part} (bytes : List Byte) (taken : Part → Part) (h : s.mbox.completing = true) :
    orHold bytes taken s = { s with mbox.sclHeld := s.mbox.sclHeld ++ [bytes] } := if_pos h

theorem orHold_free {s : Part} (bytes : List Byte) (taken : Part → Part) (h : s.mbox.completing = false) :
    orHold bytes taken s = taken s := if_neg (by simp [h])

theorem windowTransaction_cons (off : Byte) (bytes : List Byte) (s : Part) : windowTransaction (off :: bytes) s =
    (let t := { s with mbox := writeBytes bytes { s.mbox with offset := off } }
     if writesCode bytes off then runCommand (newCommand t) else t) := rfl

/-- Settles O45: who is addressed, whether SCL is held, and what the bytes write. -/
theorem windowWrite : Obligations.WindowWrite := by
  intro p rest
  refine ⟨fun address bytes h => exec_windowWrite_other rest bytes h, fun bytes h => ?_, fun h => ⟨?_, fun off bytes => ?_,
    fun code hcode => ?_⟩, fun m => rfl, writeBytes_cons⟩
  · rw [exec_windowWrite, orHold_completing bytes _ h]
  · rw [exec_windowWrite, orHold_free _ _ h]
    rfl
  · intro written
    rw [exec_windowWrite, orHold_free _ _ h, windowTransaction_cons]
    refine ⟨fun hno => ?_, fun hyes => ?_⟩
    · have hcode : ¬ writesCode bytes off = true := fun k => by
        obtain ⟨i, hi, hz⟩ := (writesCode_iff bytes off).mp k
        exact hno i hi hz
      exact congrArg (fun t => Host.Outcome.next (⟨t, rest⟩ : State)) (if_neg hcode)
    · exact congrArg (fun t => Host.Outcome.next (⟨t, rest⟩ : State)) (if_pos ((writesCode_iff bytes off).mpr hyes))
  · exact exec_taken (effect := refuse .badCommand) rfl h (by simp)

/-! ### Commands as transactions (R188, R203) -/

/-- A row is its transaction when its code and bytes name its effect. -/
theorem exec_eq_windowWrite {c : Instr} {p : Part} {rest : List Instr} {code : Byte} {args : List Byte}
    {effect : Part → Part} (hrow : exec c ⟨p, rest⟩ = .next ⟨takeCommand code args effect p, rest⟩)
    (hl : args.length ≤ 15)
    (hrun : runCommand { p with mbox := p.mbox.taken code args } = effect { p with mbox := p.mbox.taken code args }) :
    exec c ⟨p, rest⟩ = exec (.windowWrite p.mbox.address (0#8 :: code :: args)) ⟨p, rest⟩ := by
  cases hc : p.mbox.completing with
  | true => rw [hrow, takeCommand_held hc, exec_windowWrite, orHold_completing _ _ hc]
  | false => rw [exec_taken hrow hc hl, windowWrite_command p rest code args hl hc, hrun]

/-- The words of SET LIMITS and QUERY BLOCK: a byte and two bytes behind it. -/
theorem args_byte_word (p : Part) (code : Byte) (b : Byte) (x : U16) :
    let q : Part := { p with mbox := p.mbox.taken code ([b] ++ leBytes 2 x.toNat) }
    argByte q 1 = b ∧ BitVec.ofNat 16 (argField q 2 2) = x := by
  refine ⟨argByte_taken p code [] b (leBytes 2 x.toNat) 1 rfl rfl (by simp), ?_⟩
  rw [argField_taken p code [b] (leBytes 2 x.toNat) [] 2 2 (by simp) rfl (leBytes_length _ _) (by simp [leBytes_length]),
    ofNat_ofLe_two]

theorem argByte_of_one (p : Part) (code a : Byte) : argByte { p with mbox := p.mbox.taken code [a] } 1 = a :=
  argByte_taken p code [] a [] 1 rfl rfl (by simp)

theorem argWord_of_four (p : Part) (code : Byte) (x : U32) :
    BitVec.ofNat 32 (argField { p with mbox := p.mbox.taken code (leBytes 4 x.toNat) } 1 4) = x := by
  rw [argField_taken p code [] (leBytes 4 x.toNat) [] 1 4 (by simp) rfl (leBytes_length _ _) (by simp [leBytes_length]),
    ofNat_ofLe_four]

theorem args_setRegion (p : Part) (region : Byte) (ram : U32) (size : U16) (home : U32) :
    let args := [region] ++ leBytes 4 ram.toNat ++ leBytes 2 size.toNat ++ leBytes 4 home.toNat
    let q : Part := { p with mbox := p.mbox.taken 0x01#8 args }
    argByte q 1 = region ∧ BitVec.ofNat 32 (argField q 2 4) = ram ∧ BitVec.ofNat 16 (argField q 6 2) = size ∧
      BitVec.ofNat 32 (argField q 8 4) = home := by
  intro args q
  have hlen (n v : Nat) := leBytes_length n v
  refine ⟨argByte_taken p _ [] region (leBytes 4 ram.toNat ++ leBytes 2 size.toNat ++ leBytes 4 home.toNat) 1 (by simp [args])
    rfl (by simp), ?_, ?_, ?_⟩
  · rw [argField_taken p _ [region] (leBytes 4 ram.toNat) (leBytes 2 size.toNat ++ leBytes 4 home.toNat) 2 4 (by simp [args])
      rfl (hlen _ _) (by simp [hlen]), ofNat_ofLe_four]
  · rw [argField_taken p _ ([region] ++ leBytes 4 ram.toNat) (leBytes 2 size.toNat) (leBytes 4 home.toNat) 6 2
      (by simp [args]) (by simp [hlen]) (hlen _ _) (by simp [hlen]), ofNat_ofLe_two]
  · rw [argField_taken p _ ([region] ++ leBytes 4 ram.toNat ++ leBytes 2 size.toNat) (leBytes 4 home.toNat) [] 8 4
      (by simp [args]) (by simp [hlen]) (hlen _ _) (by simp [hlen]), ofNat_ofLe_four]

theorem argBytes_of_two (p : Part) (code a b : Byte) :
    let q : Part := { p with mbox := p.mbox.taken code [a, b] }
    argByte q 1 = a ∧ argByte q 2 = b :=
  ⟨argByte_taken p code [] a [b] 1 rfl rfl (by simp), argByte_taken p code [a] b [] 2 rfl rfl (by simp)⟩

theorem argBytes_of_three (p : Part) (code a b c : Byte) :
    let q : Part := { p with mbox := p.mbox.taken code [a, b, c] }
    argByte q 1 = a ∧ argByte q 2 = b ∧ argByte q 3 = c :=
  ⟨argByte_taken p code [] a [b, c] 1 rfl rfl (by simp), argByte_taken p code [a] b [c] 2 rfl rfl (by simp),
    argByte_taken p code [a, b] c [] 3 rfl rfl (by simp)⟩

/-! ### The command a code names (R203) -/

section RunCommand

variable {s : Part}

theorem runCommand_setRegion (h : s.mbox.code = 0x01#8) : runCommand s =
    setRegion (argByte s 1) (BitVec.ofNat 32 (argField s 2 4)) (BitVec.ofNat 16 (argField s 6 2))
      (BitVec.ofNat 32 (argField s 8 4)) s := by
  rw [runCommand, h]
  rfl

theorem runCommand_attach (h : s.mbox.code = 0x02#8) : runCommand s =
    attach (argByte s 1) (argByte s 2) s := by
  rw [runCommand, h]
  rfl

theorem runCommand_detach (h : s.mbox.code = 0x03#8) : runCommand s =
    detach (argByte s 1) s := by
  rw [runCommand, h]
  rfl

theorem runCommand_setBinding (h : s.mbox.code = 0x07#8) : runCommand s =
    setBinding (BitVec.ofNat 32 (argField s 1 4)) s := by
  rw [runCommand, h]
  rfl

theorem runCommand_setLimits (h : s.mbox.code = 0x08#8) : runCommand s =
    setLimits (argByte s 1) (BitVec.ofNat 16 (argField s 2 2)) s := by
  rw [runCommand, h]
  rfl

theorem runCommand_setEventMasks (h : s.mbox.code = 0x09#8) : runCommand s =
    setEventMasks (argByte s 1) (argByte s 2) (argByte s 3) s := by
  rw [runCommand, h]
  rfl

theorem runCommand_queryBlock (h : s.mbox.code = 0x0B#8) : runCommand s =
    queryBlock (argByte s 1) (BitVec.ofNat 16 (argField s 2 2)) s := by
  rw [runCommand, h]
  rfl

theorem runCommand_queryRegion (h : s.mbox.code = 0x0C#8) : runCommand s =
    queryRegion (argByte s 1) s := by
  rw [runCommand, h]
  rfl

theorem runCommand_format (h : s.mbox.code = 0x13#8) : runCommand s =
    format (argByte s 1) s := by
  rw [runCommand, h]
  rfl

end RunCommand

/-- Settles O46: each command by its code and the bytes its operands are laid out in. -/
theorem commandIsItsWindowWrite : Obligations.CommandIsItsWindowWrite := by
  intro c bytes p rest htrans hwf
  cases c with
  | badCommand code =>
    obtain rfl := Option.some.inj htrans
    exact exec_eq_windowWrite (args := []) rfl (by simp) (runCommand_of_unknown _ (of_decide_eq_true hwf))
  | setRegion region ram size home =>
    obtain rfl := Option.some.inj htrans
    obtain ⟨h1, h2, h3, h4⟩ := args_setRegion p region ram size home
    refine exec_eq_windowWrite (code := 0x01#8)
      (args := [region] ++ leBytes 4 ram.toNat ++ leBytes 2 size.toNat ++ leBytes 4 home.toNat) rfl
      (by simp [leBytes_length]) ?_
    rw [runCommand_setRegion rfl, h1, h2, h3, h4]
  | attach region mode =>
    obtain rfl := Option.some.inj htrans
    obtain ⟨h1, h2⟩ := argBytes_of_two p 0x02#8 region mode
    exact exec_eq_windowWrite (code := 0x02#8) (args := [region, mode]) rfl (by simp)
      (by rw [runCommand_attach rfl, h1, h2])
  | detach region =>
    obtain rfl := Option.some.inj htrans
    exact exec_eq_windowWrite (code := 0x03#8) (args := [region]) rfl (by simp)
      (by rw [runCommand_detach rfl, argByte_of_one])
  | setBinding binding =>
    obtain rfl := Option.some.inj htrans
    exact exec_eq_windowWrite (code := 0x07#8) (args := leBytes 4 binding.toNat) rfl (by simp [leBytes_length])
      (by rw [runCommand_setBinding rfl, argWord_of_four])
  | setLimits selector value =>
    obtain rfl := Option.some.inj htrans
    obtain ⟨h1, h2⟩ := args_byte_word p 0x08#8 selector value
    exact exec_eq_windowWrite (code := 0x08#8) (args := [selector] ++ leBytes 2 value.toNat) rfl (by simp [leBytes_length])
      (by rw [runCommand_setLimits rfl, h1, h2])
  | setEventMasks kind capture alert =>
    obtain rfl := Option.some.inj htrans
    obtain ⟨h1, h2, h3⟩ := argBytes_of_three p 0x09#8 kind capture alert
    exact exec_eq_windowWrite (code := 0x09#8) (args := [kind, capture, alert]) rfl (by simp)
      (by rw [runCommand_setEventMasks rfl, h1, h2, h3])
  | queryBlock region index =>
    obtain rfl := Option.some.inj htrans
    obtain ⟨h1, h2⟩ := args_byte_word p 0x0B#8 region index
    exact exec_eq_windowWrite (code := 0x0B#8) (args := [region] ++ leBytes 2 index.toNat) rfl (by simp [leBytes_length])
      (by rw [runCommand_queryBlock rfl, h1, h2])
  | queryRegion region =>
    obtain rfl := Option.some.inj htrans
    exact exec_eq_windowWrite (code := 0x0C#8) (args := [region]) rfl (by simp)
      (by rw [runCommand_queryRegion rfl, argByte_of_one])
  | format mode =>
    obtain rfl := Option.some.inj htrans
    exact exec_eq_windowWrite (code := 0x13#8) (args := [mode]) rfl (by simp)
      (by rw [runCommand_format rfl, argByte_of_one])
  | checkpoint | pause | resume | clearFault | readEvent | cancel | resetLink | resetEngine | resetAll | sync =>
    obtain rfl := Option.some.inj htrans
    exact exec_eq_windowWrite (args := []) rfl (by simp) rfl
  | _ => cases htrans

end Sys2Proof.Machine
end

section
/-! PROOFS. The region commands: SET REGION, ATTACH and DETACH. -/

namespace Sys2Proof.Machine

/-! ### SET REGION (R34, R35) -/

theorem rangesMeet_iff (a n b m : Nat) :
    rangesMeet a n b m = true ∧ n ≠ 0 ∧ m ≠ 0 ↔ ∃ x, a ≤ x ∧ x < a + n ∧ b ≤ x ∧ x < b + m := by
  rw [rangesMeet, decide_eq_true_iff]
  constructor
  · rintro ⟨⟨h1, h2⟩, h3, h4⟩
    exact ⟨max a b, by omega, by omega, by omega, by omega⟩
  · rintro ⟨x, h1, h2, h3, h4⟩
    omega

/-- Two ranges that are not empty share a number. -/
theorem overlapsOther_iff (s : Part) (r : Fin 8) (ram home : Nat) {size : Nat} (hs : size ≠ 0) :
    overlapsOther s r ram size home = true ↔ ∃ x : Fin 8, x ≠ r ∧
      ((∃ a, ram ≤ a ∧ a < ram + 256 * size ∧
        (s.regs[x]).ramBase.toNat ≤ a ∧ a < (s.regs[x]).ramBase.toNat + 256 * (s.regs[x]).size) ∨
      (∃ a, home ≤ a ∧ a < home + size ∧ (s.regs[x]).homeBase ≤ a ∧ a < (s.regs[x]).homeBase + (s.regs[x]).size)) := by
  simp only [overlapsOther, List.any_eq_true, List.mem_finRange, true_and, Bool.and_eq_true, Bool.or_eq_true, bne_iff_ne,
    ← rangesMeet_iff]
  refine exists_congr fun x => ?_
  constructor
  · rintro ⟨⟨hx, hsize⟩, h⟩
    exact ⟨hx, h.imp (fun k => ⟨k, by omega, by omega⟩) (fun k => ⟨k, hs, hsize⟩)⟩
  · rintro ⟨hx, h⟩
    have hsize : (s.regs[x]).size ≠ 0 := h.elim (fun k => by omega) (fun k => k.2.2)
    exact ⟨⟨hx, hsize⟩, h.imp (fun k => k.1) (fun k => k.1)⟩

theorem setRegion_noRegion {region : Byte} (ram : U32) (size : U16) (home : U32) (s : Part) (h : 8 ≤ region.toNat) :
    setRegion region ram size home s = refuse .badArgument s := by
  rw [setRegion, regionArg_of_ge _ h]

/-- The sizes and bases SET REGION accepts (R34). -/
def regionFits (ram size home : Nat) : Prop :=
  size = 0 ∨ (size ≤ 4096 ∧ ram % 256 = 0 ∧ ram + 256 * size ≤ 2 ^ 32 ∧ 67 ≤ home ∧ home + size ≤ 16777216)

section SetRegion

variable {region : Byte} {r : Fin 8} (ram : U32) (size : U16) (home : U32) {s : Part} (hr : region.toNat = r.val)

include hr

theorem setRegion_of : setRegion region ram size home s =
    if (s.regs[r]).state ≠ .off then refuse .wrongState s
    else if committedStaged s r then refuse .wrongState s
    else if 4096 < size.toNat then refuse .badArgument s
    else if size.toNat ≠ 0 ∧ ¬(ram.toNat % 256 = 0 ∧ ram.toNat + 256 * size.toNat ≤ 2 ^ 32) then refuse .badArgument s
    else if size.toNat ≠ 0 ∧ ¬(67 ≤ home.toNat ∧ home.toNat + size.toNat ≤ 16777216) then refuse .badArgument s
    else if size.toNat ≠ 0 ∧ overlapsOther s r ram.toNat size.toNat home.toNat = true then refuse .overlap s
    else complete [] { s with regs := s.regs.set r (regionSettings (s.regs[r]).state ram size.toNat home.toNat) } := by
  rw [setRegion, regionArg_of_lt _ r hr]
  rfl

variable (hoff : (s.regs[r]).state = .off) (hst : ¬ committedStaged s r = true)

include hoff hst

theorem setRegion_unfit (h : ¬ regionFits ram.toNat size.toNat home.toNat) :
    setRegion region ram size home s = refuse .badArgument s := by
  rw [setRegion_of ram size home hr, if_neg (not_not.mpr hoff), if_neg hst]
  rw [regionFits, not_or] at h
  obtain ⟨h0, h1⟩ := h
  split
  · rfl
  · split
    · rfl
    · rename_i hlarge hram
      rw [if_pos]
      refine ⟨h0, fun hhome => ?_⟩
      have hram' : ram.toNat % 256 = 0 ∧ ram.toNat + 256 * size.toNat ≤ 2 ^ 32 := by
        by_contra k
        exact hram ⟨h0, k⟩
      exact h1 ⟨Nat.not_lt.mp hlarge, hram'.1, hram'.2, hhome.1, hhome.2⟩

theorem setRegion_fit (h : regionFits ram.toNat size.toNat home.toNat) : setRegion region ram size home s =
    if size.toNat ≠ 0 ∧ overlapsOther s r ram.toNat size.toNat home.toNat = true then refuse .overlap s
    else complete [] { s with
      regs := s.regs.set r (if size.toNat = 0 then ⟨.off, 0, 0, 0⟩ else ⟨.off, ram, size.toNat, home.toNat⟩) } := by
  rw [setRegion_of ram size home hr, if_neg (not_not.mpr hoff), if_neg hst]
  rw [regionFits] at h
  rw [if_neg (by omega), if_neg (by omega), if_neg (by omega), hoff, regionSettings]

end SetRegion

/-- Settles O47: the checks in their order, then the settings. -/
theorem setRegion_spec : Obligations.SetRegion := by
  intro p rest region ram size home hc args q answers refused
  have hexec : exec (.setRegion region ram size home) ⟨p, rest⟩ = .next ⟨setRegion region ram size home q, rest⟩ :=
    exec_taken (args := args) rfl hc (by simp [args, leBytes_length])
  have hans {t : Part} (h : setRegion region ram size home q = t) : answers t := hexec.trans (by rw [h])
  have hsame : q.regs = p.regs := rfl
  refine ⟨fun h => hans (setRegion_noRegion ram size home q h), fun r hr => ?_⟩
  intro staged good overlaps
  have hof := setRegion_of ram size home (s := q) hr
  have hstaged : committedStaged q r = true ↔ staged := committedStaged_iff q r
  refine ⟨fun hon => hans (hof.trans (if_pos hon)), fun hoff => ⟨fun hst => ?_, fun hst => ⟨fun hbad => ?_, fun hgood hover => ?_,
    fun hgood hover => ?_⟩⟩⟩
  · exact hans (hof.trans ((if_neg (not_not.mpr hoff)).trans (if_pos (hstaged.mpr hst))))
  · exact hans (setRegion_unfit ram size home (s := q) hr hoff (mt hstaged.mp hst) hbad)
  · have hne : size.toNat ≠ 0 := by
      obtain ⟨x, -, h | h⟩ := hover
      · obtain ⟨a, h1, h2, -⟩ := h
        omega
      · obtain ⟨a, h1, h2, -⟩ := h
        omega
    exact hans ((setRegion_fit ram size home (s := q) hr hoff (mt hstaged.mp hst) hgood).trans
      (if_pos ⟨hne, (overlapsOther_iff q r _ _ hne).mpr hover⟩))
  · refine hans ((setRegion_fit ram size home (s := q) hr hoff (mt hstaged.mp hst) hgood).trans (if_neg ?_))
    rintro ⟨hne, k⟩
    exact hover ((overlapsOther_iff q r _ _ hne).mp k)

/-! ### ATTACH (R3, R36, R140) -/

theorem attachMode_of_ge {mode : Byte} (h : 2 ≤ mode.toNat) : attachMode mode = none := by
  obtain ⟨n, hn⟩ := Nat.exists_eq_add_of_le' h
  rw [attachMode, hn]
  rfl

theorem attachMode_ram {mode : Byte} (h : mode.toNat = 0) : attachMode mode = some true := by
  rw [attachMode, h]
  rfl

theorem attachMode_module {mode : Byte} (h : mode.toNat = 1) : attachMode mode = some false := by
  rw [attachMode, h]
  rfl

theorem attach_badArgument {region mode : Byte} (s : Part) (h : 8 ≤ region.toNat ∨ 2 ≤ mode.toNat) :
    attach region mode s = refuse .badArgument s := by
  obtain h | h := h
  · rw [attach, regionArg_of_ge _ h]
  · rw [attach, attachMode_of_ge h]
    cases regionArg region <;> rfl

theorem attach_of {region mode : Byte} {r : Fin 8} {adoptRam : Bool} (s : Part) (hr : region.toNat = r.val)
    (hm : attachMode mode = some adoptRam) : attach region mode s =
      if (s.regs[r]).state ≠ .off then refuse .wrongState s
      else if (s.regs[r]).size = 0 then refuse .wrongState s
      else if committedStaged s r then refuse .wrongState s
      else if s.pres.binding = 0 then refuse .notBound s
      else if 4096 < attachedBlocks s + (s.regs[r]).size then refuse .capacity s
      else attachClaim r adoptRam s := by
  rw [attach, regionArg_of_lt _ r hr, hm]
  rfl

/-- The final checkpoint once a count has risen (R140). -/
theorem finalRise_eq (s : Part) : finalRise s = { s with
    pwr.final := if s.pwr.freeze = true ∧ s.pwr.final = .done ∧ dirtyCount s ≠ 0 then
        (if s.pwr.deadline = none then .late else .running)
      else s.pwr.final } := by
  rw [finalRise]
  by_cases h : s.pwr.freeze = true ∧ s.pwr.final = .done ∧ dirtyCount s ≠ 0
  · rw [if_pos h, if_pos h]
    cases s.pwr.deadline <;> rfl
  · rw [if_neg h, if_neg h]

/-- What ATTACH makes of its new records: the region's state and the final checkpoint (R36, R140). -/
def attached (r : Fin 8) (s : Part) : Part := { s with
  regs := s.regs.set r { s.regs[r] with state := evalState s r }
  pwr.final := if s.pwr.freeze = true ∧ s.pwr.final = .done ∧ dirtyCount s ≠ 0 then
      (if s.pwr.deadline = none then .late else .running)
    else s.pwr.final
  mbox := s.mbox.doneWith (attachBytes (evalState s r)) }

theorem attachClaim_eq (r : Fin 8) (adoptRam : Bool) (s : Part) :
    attachClaim r adoptRam s = settle (attached r (createRecords r adoptRam s)) := by
  rw [attachClaim, finalRise_eq]
  rfl

theorem createRecords_module (r : Fin 8) (s : Part) : createRecords r false s = { s with
    tbl.recs := s.tbl.recs.set r (List.replicate (s.regs[r]).size ⟨.absent false, none⟩)
    fill.queue := s.fill.queue ++ (List.range (s.regs[r]).size).map fun i => ⟨r, i⟩ } := by
  simp only [createRecords, Bool.false_eq_true, if_false, Vector.set_set]

/-- The records of adopt-RAM, in a region that has none (R3, R7). -/
theorem createRecords_ram {r : Fin 8} {s : Part} (h : s.tbl.recs[r] = []) : createRecords r true s = { s with
    tbl.recs := s.tbl.recs.set r (List.replicate (s.regs[r]).size ⟨.dirty s.now, none⟩)
    tbl.queue := s.tbl.queue ++ (List.range (s.regs[r]).size).map fun i => ⟨⟨r, i⟩, s.now⟩
    evq := ((List.range (s.regs[r]).size).flatMap fun i =>
      reachedAt s.tbl.thresholds (dirtyCount s + i + 1) ⟨r, i⟩).foldl (fun x e => x.post e s.now) s.evq } := by
  have hset : s.tbl.recs.set r [] = s.tbl.recs := by rw [← h]; simp
  have hsame : { s with tbl.recs := s.tbl.recs.set r [] } = s := by rw [hset]
  have hcreate : createRecords r true s = (List.range (s.regs[r]).size).foldl (adoptDirty r) s := by
    rw [createRecords, hsame]
    rfl
  rw [hcreate, List.range_eq_range', adoptDirty_foldl, h]
  simp only [List.nil_append, Nat.zero_add, List.range_eq_range']

/-- Settles O48: the checks in their order, then the records, the region's state and the final checkpoint. -/
theorem attach_spec : Obligations.Attach := by
  intro p rest region mode hc q refused
  have hexec : exec (.attach region mode) ⟨p, rest⟩ = .next ⟨attach region mode q, rest⟩ :=
    exec_taken (args := [region, mode]) rfl hc (by simp)
  have hrefused {c : RefusalCode} (h : attach region mode q = refuse c q) : refused c := hexec.trans (by rw [h]; rfl)
  refine ⟨fun h => hrefused (attach_badArgument q h), fun r hr hm => ?_, by decide, by decide, by decide, by decide,
    by decide⟩
  intro g staged sizes ended
  obtain ⟨adoptRam, hmode, hram⟩ : ∃ adoptRam, attachMode mode = some adoptRam ∧ (adoptRam = true ↔ mode.toNat = 0) := by
    obtain h | h : mode.toNat = 0 ∨ mode.toNat = 1 := by omega
    · exact ⟨true, attachMode_ram h, by simp [h]⟩
    · exact ⟨false, attachMode_module h, by simp [h]⟩
  have hof := attach_of q hr hmode
  have hstaged : committedStaged q r = true ↔ staged := committedStaged_iff q r
  refine ⟨fun h => hrefused (hof.trans ?_), fun hoff hsize hst => ?_⟩
  · by_cases hon : (q.regs[r]).state ≠ .off
    · exact if_pos hon
    · rw [if_neg hon]
      by_cases hz : (q.regs[r]).size = 0
      · exact if_pos hz
      · rw [if_neg hz]
        exact if_pos (hstaged.mpr ((h.resolve_left hon).resolve_left hz))
  · have hchecked := hof.trans ((if_neg (not_not.mpr hoff)).trans ((if_neg hsize).trans (if_neg (mt hstaged.mp hst))))
    have hclaim (hb : p.pres.binding ≠ 0) (hroom : sizes + g.size ≤ 4096) : exec (.attach region mode) ⟨p, rest⟩ =
        .next ⟨settle (attached r (createRecords r adoptRam q)), rest⟩ := by
      rw [hexec, hchecked.trans ((if_neg hb).trans (if_neg (Nat.not_lt.mpr hroom))), attachClaim_eq]
    refine ⟨fun hb => hrefused (hchecked.trans (if_pos hb)),
      fun hb hroom => hrefused (hchecked.trans ((if_neg hb).trans (if_pos hroom))),
      fun hb hroom => ⟨fun h => ?_, fun h hempty => ?_⟩⟩
    · obtain rfl : adoptRam = false := by simpa [h] using hram
      exact answersNext_congr (hclaim hb hroom) (congrArg (attached r) (createRecords_module r q))
    · obtain rfl : adoptRam = true := hram.mpr h
      exact answersNext_congr (hclaim hb hroom) (congrArg (attached r) (createRecords_ram (s := q) hempty))

/-! ### DETACH (R28, R42, R64) -/

theorem regionBusy_iff (s : Part) (r : Fin 8) :
    regionBusy s r = true ↔ ∃ b ∈ s.tbl.recs[r], b.state.isMember = true ∨ b.state = .filling := by
  simp only [regionBusy, List.any_eq_true, Bool.or_eq_true, beq_iff_eq]

/-- The held entries of a region that is detached leave the list one by one (R64). -/
def leaveHeld (t : Part) (e : Held) : Part :=
  if e.reason = .fill then respondError e.req.tag (dropHeld e.req.tag t) else forward e.req (dropHeld e.req.tag t)

theorem detachHolds_eq (r : Fin 8) (s : Part) :
    detachHolds r s = (s.path.held.filter fun e => e.id.region == r).foldl leaveHeld s := rfl

theorem leaveHeld_eq (t : Part) (e : Held) : leaveHeld t e = { t with
    path.held := t.path.held.filter fun x => decide (x.req.tag ≠ e.req.tag)
    path.tags := t.path.tags.set e.req.tag (if e.reason = .fill then .idle else .lane)
    path.hostLane := t.path.hostLane ++ if e.reason = .fill then [] else [e.req]
    out.host := t.out.host ++ if e.reason = .fill then [⟨e.req.tag, false, []⟩] else [] } := by
  by_cases h : e.reason = .fill
  · simp only [leaveHeld, if_pos h, List.append_nil]
    rfl
  · simp only [leaveHeld, if_neg h, List.append_nil]
    rfl

/-- The held entries of a list leave in its order, FILL with an error response and the others forwarded (R64). -/
theorem foldl_leaveHeld (mine : List Held) (s : Part) : mine.foldl leaveHeld s = { s with
    path.held := s.path.held.filter fun x => mine.all fun e => decide (x.req.tag ≠ e.req.tag)
    path.tags := mine.foldl (fun v e => v.set e.req.tag (if e.reason = .fill then .idle else .lane)) s.path.tags
    path.hostLane := s.path.hostLane ++ (mine.filter fun e => e.reason ≠ .fill).map fun e => e.req
    out.host := s.out.host ++ (mine.filter fun e => e.reason = .fill).map fun e => ⟨e.req.tag, false, []⟩ } := by
  induction mine generalizing s with
  | nil => simp
  | cons e mine ih =>
    rw [List.foldl_cons, ih, leaveHeld_eq]
    simp only [List.filter_filter, List.all_cons, List.foldl_cons, List.filter_cons]
    by_cases h : e.reason = .fill <;> simp [h, Bool.and_comm]

theorem detach_noRegion {region : Byte} (s : Part) (h : 8 ≤ region.toNat) : detach region s = refuse .badArgument s := by
  rw [detach, regionArg_of_ge _ h]

theorem detach_of {region : Byte} {r : Fin 8} (s : Part) (hr : region.toNat = r.val) : detach region s =
    if (s.regs[r]).state = .off then refuse .wrongState s
    else if regionBusy s r then refuse .wrongState s
    else detachClaim r s := by
  rw [detach, regionArg_of_lt _ r hr]

theorem removeRegion_eq (r : Fin 8) (s : Part) : removeRegion r s = { s with
    tbl.recs := s.tbl.recs.set r []
    tbl.queue := s.tbl.queue.filter fun e => e.id.region ≠ r
    fill.queue := s.fill.queue.filter fun id => id.region ≠ r
    fill.demand := s.fill.demand.filter fun id => id.region ≠ r
    regs := s.regs.set r { s.regs[r] with state := .off } } := by
  have hne (x : Fin 8) : (x != r) = decide (x ≠ r) := by by_cases h : x = r <;> simp [h]
  simp only [removeRegion, setRegionState, hne]

/-- Settles O49: the checks, then the region's removal and the leaving of its held accesses. -/
theorem detach_spec : Obligations.Detach := by
  intro p rest region hc q refused
  have hexec : exec (.detach region) ⟨p, rest⟩ = .next ⟨detach region q, rest⟩ :=
    exec_taken (args := [region]) rfl hc (by simp)
  have hrefused {c : RefusalCode} (h : detach region q = refuse c q) : refused c := hexec.trans (by rw [h]; rfl)
  refine ⟨fun h => hrefused (detach_noRegion q h), fun r hr => ?_⟩
  intro busy mine gone
  have hof := detach_of q hr
  have hbusy : regionBusy q r = true ↔ busy := regionBusy_iff q r
  refine ⟨fun h => hrefused (hof.trans ?_), fun hon hfree => ?_⟩
  · by_cases hoff : (q.regs[r]).state = .off
    · exact if_pos hoff
    · rw [if_neg hoff]
      exact if_pos (hbusy.mpr (h.resolve_left hoff))
  · have hgone : complete [] (detachHolds r (removeRegion r q)) = gone := by
      have hmine : ((removeRegion r q).path.held.filter fun e => e.id.region == r) = mine := rfl
      rw [detachHolds_eq, hmine, foldl_leaveHeld, removeRegion_eq]
      rfl
    have hclaim := hof.trans ((if_neg hon).trans (if_neg (mt hbusy.mp hfree)))
    rw [detachClaim, hgone] at hclaim
    rw [hclaim] at hexec
    exact answersNext_congr hexec rfl

end Sys2Proof.Machine
end

section
/-! PROOFS. The engine's commands and the settings: CHECKPOINT, PAUSE, RESUME, CLEAR FAULT, SET LIMITS and SET BINDING. -/

namespace Sys2Proof.Machine

/-- A command that is refused changes the mailbox only. -/
theorem exec_refused {c : Instr} {p : Part} {rest : List Instr} {code : Byte} {args : List Byte} {effect : Part → Part}
    {why : RefusalCode} (hexec : exec c ⟨p, rest⟩ = .next ⟨effect { p with mbox := p.mbox.taken code args }, rest⟩)
    (h : effect { p with mbox := p.mbox.taken code args } = refuse why { p with mbox := p.mbox.taken code args }) :
    exec c ⟨p, rest⟩ = .next ⟨{ p with mbox := (p.mbox.taken code args).refusedWith why }, rest⟩ := by
  rw [hexec, h]
  rfl

/-! ### PAUSE (R92) -/

theorem pause_refused {s : Part}
    (h : (s.eng.state = .halted .abortLimit ∨ s.eng.state = .halted .applyFailed) ∨ s.eng.state = .inDoubt ∨
      s.pwr.freeze = true) : pause s = refuse .wrongState s := by
  refine if_pos ?_
  rw [Bool.or_eq_true, Bool.or_eq_true, isHalted_iff, beq_iff_eq, or_assoc]
  exact h

theorem pause_taken {s : Part} (hh : ¬ (s.eng.state = .halted .abortLimit ∨ s.eng.state = .halted .applyFailed))
    (hd : s.eng.state ≠ .inDoubt) (hf : s.pwr.freeze = false) :
    pause s = if s.eng.pauseReq then complete [] s else complete [] (pauseEngine s) := by
  refine if_neg ?_
  rw [Bool.or_eq_true, Bool.or_eq_true, isHalted_iff, beq_iff_eq, hf]
  exact fun k => k.elim (fun k => k.elim hh hd) Bool.false_ne_true

section PauseEngine

variable {s : Part}

theorem pauseEngine_idle (h : s.eng.state = .idle) : pauseEngine s = pauseAt .idle { s with eng.pauseReq := true } := by
  rw [pauseEngine, h]

theorem pauseEngine_backoff (h : s.eng.state = .backoff) :
    pauseEngine s = pauseAt .backoff { s with eng.pauseReq := true } := by
  rw [pauseEngine, h]

theorem pauseEngine_journal (h : s.eng.state = .journal) : pauseEngine s =
    if inFlight s .checkpoint then { s with eng.pauseReq := true }
    else pauseAt .journalNext { s with eng.pauseReq := true } := by
  rw [pauseEngine, h]

theorem pauseEngine_apply (h : s.eng.state = .apply) : pauseEngine s =
    if inFlight s .checkpoint then { s with eng.pauseReq := true }
    else pauseAt .applyNext { s with eng.pauseReq := true } := by
  rw [pauseEngine, h]

theorem pauseEngine_waits
    (h : s.eng.state = .capture ∨ s.eng.state = .commit ∨ s.eng.state = .verify ∨ s.eng.state = .retire ∨
      s.eng.state = .recover) : pauseEngine s = { s with eng.pauseReq := true } := by
  obtain h | h | h | h | h := h <;> rw [pauseEngine, h]

end PauseEngine

/-! ### RESUME (R94) and CLEAR FAULT (R90) -/

theorem resume_refused {s : Part} (h : s.eng.pauseReq = false) : resume s = refuse .notPaused s := if_neg (by simp [h])

theorem resume_taken {s : Part} (h : s.eng.pauseReq = true) : resume s = settle (complete [] (endPause false s)) := if_pos h

theorem complete_nextCapture (s : Part) :
    complete [] (nextCapture s) = nextCapture { s with mbox := s.mbox.doneWith [] } := by
  have hsame : nextCapture s = { nextCapture s with mbox := s.mbox } := nextCapture_mbox s s.mbox
  have hmbox : (nextCapture s).mbox = s.mbox := by rw [hsame]
  rw [nextCapture_mbox s (s.mbox.doneWith []), ← hmbox]
  rfl

theorem clearFault_refused {s : Part} (h : ¬ (s.eng.state = .halted .abortLimit ∨ s.eng.state = .halted .applyFailed)) :
    clearFault s = refuse .wrongState s := if_neg (mt (isHalted_iff s.eng.state).mp h)

theorem clearFault_taken {s : Part} (h : s.eng.state = .halted .abortLimit ∨ s.eng.state = .halted .applyFailed) :
    clearFault s = complete [] (enterIdle { s with eng.aborts := 0 }) := if_pos ((isHalted_iff s.eng.state).mpr h)

/-- Settles O50: each command by the state of the engine. -/
theorem engineCommands : Obligations.EngineCommands := by
  intro p rest hc q refused halted
  have hcheckpoint : exec .checkpoint ⟨p, rest⟩ = _ := exec_taken (args := []) rfl hc (by simp)
  have hpause : exec .pause ⟨p, rest⟩ = _ := exec_taken (code := 0x05#8) (args := []) (effect := pause) rfl hc (by simp)
  have hresume : exec .resume ⟨p, rest⟩ = _ := exec_taken (code := 0x06#8) (args := []) (effect := resume) rfl hc (by simp)
  have hclear : exec .clearFault ⟨p, rest⟩ = _ :=
    exec_taken (code := 0x0A#8) (args := []) (effect := clearFault) rfl hc (by simp)
  refine ⟨hcheckpoint, fun h => exec_refused hpause (pause_refused h), fun hh hd hf => ?pause,
    fun h => exec_refused hresume (resume_refused h), fun h => ?resume, fun h => exec_refused hclear (clearFault_refused h),
    fun h => ?clear⟩
  case pause =>
    intro asked pausedAt waits
    let s : Part := { p with mbox := p.mbox.taken 0x05#8 [] }
    have htaken : pause s = if s.eng.pauseReq then complete [] s else complete [] (pauseEngine s) := pause_taken hh hd hf
    refine ⟨fun h => hpause.trans ?_, fun h => ?_⟩
    · rw [show pause _ = _ from htaken.trans (if_pos h)]
      rfl
    · have hnew : pause s = complete [] (pauseEngine s) := htaken.trans (if_neg (Bool.eq_false_iff.mp h))
      have hans {t : Part} (ht : pauseEngine s = t) :
          exec .pause ⟨p, rest⟩ = .next ⟨complete [] t, rest⟩ := by
        rw [hpause, show pause _ = _ from hnew, ht]
      refine ⟨fun hs => hans (pauseEngine_idle hs), fun hs => hans (pauseEngine_backoff hs),
        fun hs hi => hans ((pauseEngine_journal (s := s) hs).trans (if_neg (Bool.eq_false_iff.mp hi))),
        fun hs hi => hans ((pauseEngine_apply (s := s) hs).trans (if_neg (Bool.eq_false_iff.mp hi))), fun hs hi => ?_, fun hs => ?_⟩
      · obtain hs | hs := hs
        · exact hans ((pauseEngine_journal (s := s) hs).trans (if_pos hi))
        · exact hans ((pauseEngine_apply (s := s) hs).trans (if_pos hi))
      · simp only [List.mem_cons, List.not_mem_nil, or_false] at hs
        exact hans (pauseEngine_waits hs)
  case resume =>
    intro cleared resumed goesOn
    let s : Part := { p with mbox := p.mbox.taken 0x06#8 [] }
    have htaken : resume s = settle (complete [] (endPause false s)) := resume_taken h
    have hans {t u : Part} (ht : endPause false s = t) (hu : complete [] t = u) : AnswersNext .resume p rest u := by
      rw [show resume _ = _ from htaken, ht] at hresume
      exact answersNext_congr hresume hu
    refine ⟨fun hs => hans (endPause_paused (s := s) false hs) rfl, fun hs => hans (endPause_paused (s := s) false hs) rfl,
      fun hs => hans (endPause_paused (s := s) false hs) (complete_nextCapture _), fun hs => hans (endPause_paused (s := s) false hs) rfl,
      fun hs => ?_, fun rec hs hrec hf => ?_, fun hp hr => ?_⟩
    · obtain hs | hs := hs
      · exact hans (endPause_paused (s := s) false hs) rfl
      · exact hans (endPause_paused (s := s) false hs) rfl
    · refine hans ((endPause_recover (s := s) false hs).trans (if_pos ((recoverPaused_iff s).mpr ⟨h, rec, hrec, hf⟩))) ?_
      rw [show s.eng.recovery = some rec from hrec]
      rfl
    · refine hans (endPause_waiting (s := s) false hp fun hs k => ?_) rfl
      obtain ⟨-, rec, hrec, hf⟩ := (recoverPaused_iff s).mp k
      simp [hr hs rec hrec] at hf
  case clear =>
    intro idle
    let s : Part := { p with mbox := p.mbox.taken 0x0A#8 [], eng.aborts := 0 }
    have htaken := clearFault_taken (s := { p with mbox := p.mbox.taken 0x0A#8 [] }) h
    rw [htaken] at hclear
    have hans {t : Part} (ht : enterIdle s = t) : exec .clearFault ⟨p, rest⟩ = .next ⟨complete [] t, rest⟩ :=
      hclear.trans (by rw [← ht])
    exact ⟨fun hp => hans (enterIdle_of_no_pause (p := s) hp), fun hp => hans (if_pos hp)⟩

/-! ### SET LIMITS (R6, R56, R191) -/

theorem ofSelector_of_ge {sel : Byte} (h : 14 ≤ sel.toNat) : Limit.ofSelector sel = none := by
  obtain ⟨n, hn⟩ := Nat.exists_eq_add_of_le' h
  rw [Limit.ofSelector, hn]
  rfl

/-- A limit's new value, and what it brings about at once, leave the mailbox alone. -/
theorem limitEffect_mbox (l : Limit) (v : Nat) (s : Part) : (limitEffect l (putLimit l v s) s).mbox = s.mbox := by
  cases l with
  | budget => rw [limitEffect, budgetCheck_pathOnly]; rfl
  | holdLimit => rw [limitEffect, expireAll, foldl_pathOnly expireTag expireTag_pathOnly]; rfl
  | _ => rfl

section SetLimits

variable {sel : Byte} {value : U16} {s : Part}

theorem setLimits_noLimit (h : Limit.ofSelector sel = none) : setLimits sel value s = refuse .badArgument s := by
  rw [setLimits, h]

variable {l : Limit} (h : Limit.ofSelector sel = some l)

include h

theorem setLimits_outOfRange (hr : l.inRange value.toNat = false) : setLimits sel value s = refuse .badArgument s := by
  rw [setLimits, h]
  exact if_neg (by simp [hr])

theorem setLimits_inRange (hr : l.inRange value.toNat = true) : setLimits sel value s =
    if getLimit s l = value.toNat then complete [] s
    else settle (complete [] (limitEffect l (putLimit l value.toNat s) s)) := by
  rw [setLimits, h]
  exact if_pos hr

end SetLimits

/-- Settles O51: the selectors and ranges as the model decides them, the refusals, and each limit's own effect. -/
theorem setLimits_spec : Obligations.SetLimits := by
  refine ⟨by decide, fun sel h => ofSelector_of_ge h, fun l v => ?range, fun p tag rest => rfl,
    fun p rest sel value hc => ?command⟩
  case range => cases l <;> simp [Limit.inRange, or_assoc]
  case command =>
    intro q v done takes refused
    have hexec : exec (.setLimits sel value) ⟨p, rest⟩ = .next ⟨setLimits sel value q, rest⟩ :=
      exec_taken (args := [sel] ++ leBytes 2 value.toNat) rfl hc (by simp [leBytes_length])
    have hrefused (h : setLimits sel value q = refuse .badArgument q) : refused := exec_refused (effect := setLimits sel value) hexec h
    have hget (l : Limit) : getLimit q l = getLimit p l := by cases l <;> rfl
    have htakes (l : Limit) {t : Part} (ht : limitEffect l (putLimit l v q) q = t) : takes l t := by
      intro hl hr hne
      rw [← hget] at hne
      have hset := (setLimits_inRange (s := q) hl hr).trans (if_neg hne)
      rw [hset] at hexec
      have hmbox := limitEffect_mbox l v q
      refine answersNext_congr hexec ?_
      rw [complete, ← ht]
      show ({ limitEffect l (putLimit l v q) q with mbox := (limitEffect l (putLimit l v q) q).mbox.doneWith [] } : Part) = _
      rw [hmbox]
    refine ⟨fun h => hrefused (setLimits_noLimit h), fun l h hr => hrefused (setLimits_outOfRange h hr), fun l h hr hv => ?_,
      htakes .budget rfl, fun n => htakes (.watermark n) rfl, htakes .trigger rfl, htakes .interval rfl,
      htakes .batchLimit rfl, htakes .backoffInterval rfl, htakes .holdLimit rfl, htakes .finalDeadline rfl,
      htakes .retryCount rfl, htakes .waitExp rfl, htakes .settleInterval rfl⟩
    have hsame := (setLimits_inRange (s := q) h hr).trans (if_pos ((hget l).trans hv))
    rw [hexec, hsame]
    rfl

/-! ### SET BINDING (R176, R193) -/

/-- A valid header copy carries the binding number (R176). -/
def HeaderBound (s : Part) (binding : U32) : Prop :=
  ∃ h, s.pres.header = some h ∧ h.valid = true ∧ h.binding = binding ∧ binding ≠ 0

theorem headerBound_iff (s : Part) (binding : U32) : HeaderBound s binding ↔
    (s.pres.header.any fun h => h.valid && h.binding == binding && binding != 0) = true := by
  cases hh : s.pres.header with
  | none => simp [HeaderBound, hh]
  | some h => simp [HeaderBound, hh, and_assoc]

section Rebound

variable {s : Part} {binding : U32}

theorem rebound_unknown (h : s.pres.status = .none ∨ s.pres.status = .identifying ∨ s.pres.status = .failed ∨
    s.pres.status = .unformatted) : rebound s binding = s.pres.status := by
  obtain h | h | h | h := h <;> rw [rebound, h]

theorem rebound_bound (hb : HeaderBound s binding) :
    rebound s binding = if s.pres.status = .mismatched then .unverified else s.pres.status := by
  rw [headerBound_iff] at hb
  cases hh : s.pres.header with
  | none => simp [hh] at hb
  | some h =>
    rw [hh, Option.any_some] at hb
    cases hs : s.pres.status <;> simp only [rebound, hs, hh, hb, if_true, reduceCtorEq, if_false]

theorem rebound_unbound (hb : ¬ HeaderBound s binding)
    (h : s.pres.status = .mismatched ∨ s.pres.status = .unverified ∨ s.pres.status = .ready) :
    rebound s binding = .mismatched := by
  rw [headerBound_iff] at hb
  cases hh : s.pres.header with
  | none => obtain h | h | h := h <;> simp [rebound, h, hh]
  | some x =>
    rw [hh, Option.any_some] at hb
    obtain h | h | h := h <;> simp only [rebound, h, hh, hb, Bool.false_eq_true, if_false]

end Rebound

theorem setBinding_refused {s : Part} (binding : U32) (h : s.mbox.format ≠ none) :
    setBinding binding s = refuse .busy s := if_pos (Option.isSome_iff_ne_none.mpr h)

theorem setBinding_taken {s : Part} {new : ModStatus} (binding : U32) (h : s.mbox.format = none)
    (hn : rebound s binding = new) : setBinding binding s =
      (let t := setStatus new none { s with pres.binding := binding }
       settle (complete (leBytes 1 t.pres.status.code) t)) := by
  rw [setBinding, hn, h]
  rfl

/-- Settles O52: the refusal, and the status as the header copy decides it. -/
theorem setBinding_spec : Obligations.SetBinding := by
  intro p rest binding hc q bound stays becomes
  have hexec : exec (.setBinding binding) ⟨p, rest⟩ = .next ⟨setBinding binding q, rest⟩ :=
    exec_taken (args := leBytes 4 binding.toNat) rfl hc (by simp [leBytes_length])
  refine ⟨fun h => exec_refused (effect := setBinding binding) hexec (setBinding_refused (s := q) binding h), fun h => ?_,
    by decide⟩
  have hbecomes {new : ModStatus} (hn : rebound q binding = new) : becomes new := by
    rw [setBinding_taken (s := q) binding h hn] at hexec
    exact answersNext_congr hexec rfl
  have hstays (hn : rebound q binding = p.pres.status) : stays := by
    have hsame : setStatus p.pres.status none { q with pres.binding := binding } = { q with pres.binding := binding } :=
      if_pos rfl
    have ht := setBinding_taken (s := q) binding h hn
    rw [hsame] at ht
    rw [ht] at hexec
    exact answersNext_congr hexec rfl
  refine ⟨fun hs => ?_, fun hs hb => ?_, fun hs hb => ?_, fun hs hb => ?_, fun hs hb => ?_⟩
  · simp only [List.mem_cons, List.not_mem_nil, or_false] at hs
    exact hstays (rebound_unknown (s := q) hs)
  · exact hbecomes ((rebound_bound (s := q) hb).trans (if_pos hs))
  · exact hstays ((rebound_unbound (s := q) hb (.inl hs)).trans hs.symm)
  · refine hstays ((rebound_bound (s := q) hb).trans (if_neg fun k => ?_))
    have hk : p.pres.status = .mismatched := k
    obtain hs | hs := hs <;> rw [hs] at hk <;> cases hk
  · exact hbecomes (rebound_unbound (s := q) hb (.inr hs))

end Sys2Proof.Machine
end

section
/-! PROOFS. The queries: SET EVENT MASKS, READ EVENT, QUERY BLOCK and QUERY REGION, and the bytes they return. -/

namespace Sys2Proof.Machine

/-! ### SET EVENT MASKS (R180, R184, R192) -/

theorem enableArg_of_gt {b : Byte} (h : 1 < b.toNat) : enableArg b = none := by
  obtain ⟨n, hn⟩ := Nat.exists_eq_add_of_le' h
  rw [enableArg, hn]
  rfl

theorem enableArg_of_le {b : Byte} (h : b.toNat ≤ 1) : enableArg b = some (decide (b.toNat = 1)) := by
  rw [enableArg]
  obtain h | h : b.toNat = 0 ∨ b.toNat = 1 := by omega
  · rw [h]; rfl
  · rw [h]; rfl

theorem kindArg_of_bad {b : Byte} (h : b.toNat = 0 ∨ 25 < b.toNat) : kindArg b = none := dif_neg (by omega)

theorem kindArg_of {b : Byte} (k : Fin 25) (h : b.toNat = k.val + 1) : kindArg b = some k := by
  rw [kindArg, dif_pos (by omega)]
  exact congrArg some (Fin.ext (by simp only [h, Nat.add_sub_cancel]))

theorem setEventMasks_refused {kind capture alert : Byte} (s : Part)
    (h : kind.toNat = 0 ∨ 25 < kind.toNat ∨ 1 < capture.toNat ∨ 1 < alert.toNat) :
    setEventMasks kind capture alert s = refuse .badArgument s := by
  rw [setEventMasks]
  by_cases hk : kind.toNat = 0 ∨ 25 < kind.toNat
  · rw [kindArg_of_bad hk]
  · cases kindArg kind with
    | none => rfl
    | some k =>
      by_cases hc : 1 < capture.toNat
      · rw [enableArg_of_gt hc]
      · rw [enableArg_of_gt (b := alert) (by omega)]
        cases enableArg capture <;> rfl

theorem setEventMasks_taken {kind capture alert : Byte} (s : Part) (k : Fin 25) (hk : kind.toNat = k.val + 1)
    (hc : capture.toNat ≤ 1) (ha : alert.toNat ≤ 1) : setEventMasks kind capture alert s =
      complete [] { s with evq := writeMasks k (decide (capture.toNat = 1)) (decide (alert.toNat = 1)) s.evq } := by
  rw [setEventMasks, kindArg_of k hk, enableArg_of_le hc, enableArg_of_le ha]

/-! ### READ EVENT and the queries (R182, R194) -/

theorem readEvent_empty {s : Part} (h : s.evq.records = []) : readEvent s = complete [0] s := by
  rw [readEvent, h]
  rfl

theorem readEvent_next {s : Part} {r : EventRec} {more : List EventRec} (h : s.evq.records = r :: more) :
    readEvent s = complete (recordBytes r) { s with evq.records := more } := by
  rw [readEvent, h]

theorem queryBlock_noRegion {region : Byte} (index : U16) (s : Part) (h : 8 ≤ region.toNat) :
    queryBlock region index s = refuse .badArgument s := by
  rw [queryBlock, regionArg_of_ge _ h]

section QueryBlock

variable {region : Byte} {r : Fin 8} {index : U16} {s : Part} (hr : region.toNat = r.val)

include hr

theorem queryBlock_off (h : (s.regs[r]).state = .off) : queryBlock region index s = refuse .wrongState s := by
  rw [queryBlock, regionArg_of_lt _ r hr]
  exact if_pos h

variable (hon : (s.regs[r]).state ≠ .off)

include hon

theorem queryBlock_noRecord (h : recOf s ⟨r, index.toNat⟩ = none) :
    queryBlock region index s = refuse .badArgument s := by
  rw [queryBlock, regionArg_of_lt _ r hr]
  exact (if_neg hon).trans (by rw [h])

theorem queryBlock_record {b : BlockRec} (h : recOf s ⟨r, index.toNat⟩ = some b) :
    queryBlock region index s = complete (blockBytes s ⟨r, index.toNat⟩ b) s := by
  rw [queryBlock, regionArg_of_lt _ r hr]
  exact (if_neg hon).trans (by rw [h])

end QueryBlock

theorem queryRegion_noRegion {region : Byte} (s : Part) (h : 8 ≤ region.toNat) :
    queryRegion region s = refuse .badArgument s := by
  rw [queryRegion, regionArg_of_ge _ h]

theorem queryRegion_of {region : Byte} {r : Fin 8} (s : Part) (hr : region.toNat = r.val) :
    queryRegion region s = complete (regionBytes s r) s := by
  rw [queryRegion, regionArg_of_lt _ r hr]

/-- A command that completes with results. -/
theorem exec_done {c : Instr} {p : Part} {rest : List Instr} {effect : Part → Part}
    {code : Byte} {args results : List Byte} {evq : EventQueue}
    (hexec : exec c ⟨p, rest⟩ = .next ⟨effect { p with mbox := p.mbox.taken code args }, rest⟩)
    (h : effect { p with mbox := p.mbox.taken code args } =
      complete results { p with mbox := p.mbox.taken code args, evq := evq }) :
    exec c ⟨p, rest⟩ = .next ⟨{ p with evq := evq, mbox := (p.mbox.taken code args).doneWith results }, rest⟩ := by
  rw [hexec, h]
  rfl

/-! ### The bytes of a record (R179, R204) -/

/-- The bytes of an event record by its fields, absent ones 0. -/
theorem recordBytes_event {e : Event} {kind presence region block batch a b c d : Nat} (seq : Byte) (time : U16)
    (hkind : e.kind.val + 1 = kind) (hpresence : e.fields.presence = presence)
    (hregion : optNat e.fields.region = region) (hblock : optNat e.fields.block = block)
    (hbatch : optNat (e.fields.batch.map fun b => b.toNat) = batch) (ha : optNat e.fields.detailA = a)
    (hb : optNat e.fields.detailB = b) (hc : optNat (e.fields.detailsCD.map fun x => x.1) = c)
    (hd : optNat (e.fields.detailsCD.map fun x => x.2) = d) :
    recordBytes (.event e seq time) = leBytes 1 1 ++ leBytes 1 kind ++ [seq] ++ leBytes 2 time.toNat ++
      leBytes 1 presence ++ leBytes 1 region ++ leBytes 2 block ++ leBytes 4 batch ++ leBytes 1 a ++ leBytes 1 b ++
      leBytes 1 0 ++ leBytes 1 c ++ leBytes 1 d := by
  subst hkind hpresence hregion hblock hbatch ha hb hc hd
  rfl

/-- The presence byte of an event with a batch number that may be absent, and a detail. -/
theorem presence_of_batch (n : Option U32) (a : Option Nat) (b : Option Nat) :
    (⟨none, none, n, a, b, none⟩ : EventFields).presence = 8 * a.isSome.toNat + if n = none then 0 else 4 := by
  cases n <;> cases a <;> rfl

theorem optNat_batch (n : Option U32) : optNat (n.map fun b => b.toNat) = (n.map fun x => x.toNat).getD 0 := rfl

theorem toNat_flag (x : Bool) : x.toNat = if x then 1 else 0 := by cases x <;> rfl

theorem longCode_eq (cmd : LongCmd) : cmd.code = if cmd = .sync then 0x12 else 0x13 := by cases cmd <;> rfl

theorem restoredCode_eq (st : FinalState) : restoredCode st = if st = .late then 1 else if st = .done then 2 else 0 := by
  cases st <;> rfl

theorem newestCode_eq (slot : StatusSlot) (st : RecordState) : (StatusDetail.newest slot st).code =
    0x20 + (if slot = .b then 1 else 0) + (if st = .empty then 0 else if st = .committed then 2 else 4) := by
  cases slot <;> cases st <;> rfl

/-! ### The bytes of a block (R194, R204) -/

theorem fillPosition_eq (s : Part) (id : BlockId) : fillPosition s id =
    if id ∈ s.fill.queue then 1
    else if id ∈ s.fill.demand then 2
    else if ∃ i, s.fill.demandRun = some (id, i) then 3
    else if ∃ run, s.fill.background = some run ∧ ∃ x ∈ run.blocks, x.id = id then 4
    else 0 := by
  rw [fillPosition]
  refine if_congr List.contains_iff_mem rfl (if_congr List.contains_iff_mem rfl (if_congr ?_ rfl (if_congr ?_ rfl rfl)))
  · cases s.fill.demandRun with
    | none => simp
    | some x => simp [Prod.ext_iff]
  · cases s.fill.background with
    | none => simp
    | some run => simp

theorem blockBytes_eq (s : Part) (id : BlockId) (st : BlockState) (mark : Option Mark) : blockBytes s id ⟨st, mark⟩ =
    leBytes 1 id.region.val ++ leBytes 2 id.index ++
      leBytes 1 (st.since.isSome.toNat + 2 * st.slot.isSome.toNat + if mark = none then 0 else 4) ++
      leBytes 1 st.code ++ leBytes 6 (optNat st.since) ++ leBytes 1 (optNat st.slot) ++
      leBytes 1 (if mark = some .carry then 1 else 0) ++ leBytes 1 st.unreadable.toNat ++
      leBytes 1 (fillPosition s id) := by
  cases mark with
  | none => rfl
  | some m => cases m <;> rfl

/-! ### The bytes of a region (R194, R204) -/

theorem absentField_off {s : Part} {r : Fin 8} (h : (s.regs[r]).state = .off) : absentField s r = none := if_pos h

theorem absentField_on {s : Part} {r : Fin 8} (h : (s.regs[r]).state ≠ .off) : absentField s r = some (absentCount s r) :=
  if_neg h

theorem regionBytes_of {s : Part} {r : Fin 8} {st : RegionState} {absent : Option Nat} (hst : (s.regs[r]).state = st)
    (habsent : absentField s r = absent) :
    let g := s.regs[r]
    let entries := s.tbl.queue.filter fun e => e.id.region == r
    regionBytes s r = leBytes 1 r.val ++ leBytes 1 st.code ++ leBytes 1 (optNat (st.reason.map SuspendReason.code)) ++
      leBytes 1 (st.reason.isSome.toNat + 2 * absent.isSome.toNat + if entries = [] then 0 else 4) ++
      leBytes 4 g.ramBase.toNat ++ leBytes 2 g.size ++ leBytes 4 g.homeBase ++ leBytes 2 (optNat absent) ++
      leBytes 2 entries.length ++ leBytes 6 ((entries.head?.map fun e => e.joined).getD 0) := by
  intro g entries
  have hpresent : 4 * entries.head?.isSome.toNat = if entries = [] then 0 else 4 := by cases entries <;> rfl
  subst hst habsent
  rw [← hpresent]
  rfl

/-- Settles O53: the commands by their operands, then the bytes of a record by its kind, of a block by its state, and of a region by
its state. -/
theorem masksEventsAndQueries : Obligations.MasksEventsAndQueries := by
  refine ⟨fun p rest hc => ?commands, fun seq time => ?events, ⟨rfl, rfl, rfl, rfl, rfl, rfl, rfl, rfl, rfl, fun st => rfl,
    newestCode_eq, fun c => rfl, fun st => rfl, rfl, rfl⟩, fun p id st mark => ?block, fun p r => ?region⟩
  case commands =>
    refine ⟨fun kind capture alert => ?masks, fun h => ?_, fun r more h => ?_, fun seq time dropped => rfl,
      fun region index => ?queryBlock, fun region => ?queryRegion⟩
    case masks =>
      intro m answers
      have hexec : exec (.setEventMasks kind capture alert) ⟨p, rest⟩ = _ :=
        exec_taken (args := [kind, capture, alert]) (effect := setEventMasks kind capture alert) rfl hc (by simp)
      refine ⟨fun h => exec_refused hexec (setEventMasks_refused _ h), fun hcap ha => ⟨fun k hk hkind => ?_, fun hkind => ?_⟩⟩
      · have hset := setEventMasks_taken { p with mbox := m } k hkind hcap ha
        rw [show writeMasks k _ _ _ = _ from if_neg hk] at hset
        exact hexec.trans (by rw [hset]; rfl)
      · have hset := setEventMasks_taken { p with mbox := m } 24 hkind hcap ha
        exact hexec.trans (by rw [hset]; rfl)
    · have hexec : exec .readEvent ⟨p, rest⟩ = _ :=
        exec_taken (code := 0x0D#8) (args := []) (effect := readEvent) rfl hc (by simp)
      exact exec_done hexec (readEvent_empty h)
    · have hexec : exec .readEvent ⟨p, rest⟩ = _ :=
        exec_taken (code := 0x0D#8) (args := []) (effect := readEvent) rfl hc (by simp)
      exact exec_done hexec (readEvent_next h)
    case queryBlock =>
      intro m answers
      have hexec : exec (.queryBlock region index) ⟨p, rest⟩ = _ :=
        exec_taken (args := [region] ++ leBytes 2 index.toNat) (effect := queryBlock region index) rfl hc
          (by simp [leBytes_length])
      refine ⟨fun h => exec_refused hexec (queryBlock_noRegion index _ h), fun r hr =>
        ⟨fun hoff => exec_refused hexec (queryBlock_off hr hoff),
          fun hon hlen => exec_refused hexec (queryBlock_noRecord hr hon (List.getElem?_eq_none hlen)),
          fun b hon hb => exec_done hexec (queryBlock_record (s := { p with mbox := m }) hr hon hb)⟩⟩
    case queryRegion =>
      intro m answers
      have hexec : exec (.queryRegion region) ⟨p, rest⟩ = _ :=
        exec_taken (args := [region]) (effect := queryRegion region) rfl hc (by simp)
      exact ⟨fun h => exec_refused hexec (queryRegion_noRegion _ h), fun r hr => exec_done hexec (queryRegion_of _ hr)⟩
  case events =>
    intro fields is has num flag outcome
    have hbatch (n : Option U32) (a : Nat) (b : Option Nat) :
        (⟨none, none, n, some a, b, none⟩ : EventFields).presence = 8 + has n := presence_of_batch n (some a) b
    have hnone (n : Option U32) : (⟨none, none, n, none, none, none⟩ : EventFields).presence = has n := by cases n <;> rfl
    exact ⟨fun cmd o => recordBytes_event seq time rfl rfl rfl rfl rfl (longCode_eq cmd) rfl rfl rfl,
      fun cmd o code cause => recordBytes_event seq time rfl rfl rfl rfl rfl (longCode_eq cmd) rfl rfl rfl,
      fun n count => recordBytes_event seq time rfl (hbatch n count none) rfl rfl rfl rfl rfl rfl rfl,
      fun n why => recordBytes_event seq time rfl (hbatch n why.code none) rfl rfl rfl rfl rfl rfl rfl,
      fun n why => recordBytes_event seq time rfl (hbatch n why.code none) rfl rfl rfl rfl rfl rfl rfl,
      fun n why st => recordBytes_event seq time rfl (hbatch n why.code (some st.toByte.toNat)) rfl rfl rfl rfl rfl rfl rfl,
      fun n count => recordBytes_event seq time rfl (hbatch n count none) rfl rfl rfl rfl rfl rfl rfl,
      fun pt => recordBytes_event seq time rfl rfl rfl rfl rfl rfl rfl rfl rfl,
      fun byFreeze => recordBytes_event seq time rfl rfl rfl rfl rfl (toNat_flag byFreeze) rfl rfl rfl,
      fun n id => recordBytes_event seq time rfl rfl rfl rfl rfl rfl rfl rfl rfl,
      fun id why write => recordBytes_event seq time rfl rfl rfl rfl rfl rfl (toNat_flag write) rfl rfl,
      fun id => recordBytes_event seq time rfl rfl rfl rfl rfl rfl rfl rfl rfl,
      fun id why => recordBytes_event seq time rfl rfl rfl rfl rfl rfl rfl rfl rfl,
      fun id tagged => recordBytes_event seq time rfl rfl rfl rfl rfl (toNat_flag tagged) rfl rfl rfl,
      fun r => recordBytes_event seq time rfl rfl rfl rfl rfl rfl rfl rfl rfl,
      fun n count => recordBytes_event seq time rfl rfl rfl rfl rfl rfl rfl rfl rfl,
      fun n slot => recordBytes_event seq time rfl rfl rfl rfl rfl rfl rfl rfl rfl,
      fun n slot => recordBytes_event seq time rfl rfl rfl rfl rfl rfl rfl rfl rfl,
      fun n slot => recordBytes_event seq time rfl rfl rfl rfl rfl rfl rfl rfl rfl,
      fun n => recordBytes_event seq time rfl rfl rfl rfl rfl rfl rfl rfl rfl,
      fun n id => recordBytes_event seq time rfl rfl rfl rfl rfl rfl rfl rfl rfl,
      fun back => recordBytes_event seq time rfl rfl rfl rfl rfl (toNat_flag back) rfl rfl rfl,
      recordBytes_event seq time rfl rfl rfl rfl rfl rfl rfl rfl rfl,
      fun st => recordBytes_event seq time rfl rfl rfl rfl rfl rfl rfl rfl rfl,
      fun st detail => recordBytes_event seq time rfl rfl rfl rfl rfl rfl rfl rfl rfl,
      fun cls code => recordBytes_event seq time rfl rfl rfl rfl rfl rfl rfl rfl rfl,
      fun sent cls => recordBytes_event seq time rfl rfl rfl rfl rfl (toNat_flag sent) rfl rfl rfl,
      fun sent st => recordBytes_event seq time rfl rfl rfl rfl rfl (toNat_flag sent) rfl rfl rfl,
      fun sent => recordBytes_event seq time rfl rfl rfl rfl rfl (toNat_flag sent) rfl rfl rfl,
      fun n => recordBytes_event seq time rfl (hnone n) rfl rfl rfl rfl rfl rfl rfl,
      fun why => recordBytes_event seq time rfl rfl rfl rfl rfl rfl rfl rfl rfl,
      fun st => recordBytes_event seq time rfl rfl rfl rfl rfl (restoredCode_eq st) rfl rfl rfl⟩
  case block =>
    intro listed is
    have hlisted : fillPosition p id = listed := fillPosition_eq p id
    clear_value listed
    have his {presence state since slot unreadable : Nat}
        (hp : st.since.isSome.toNat + 2 * st.slot.isSome.toNat = presence) (hstate : st.code = state)
        (hsince : optNat st.since = since) (hslot : optNat st.slot = slot) (hunreadable : st.unreadable.toNat = unreadable) :
        is presence state since slot unreadable := by
      subst hp hstate hsince hslot hunreadable
      have hbytes := blockBytes_eq p id st mark
      rw [hlisted] at hbytes
      exact hbytes
    refine ⟨fun unreadable h => ?_, fun h => ?_, fun h => ?_, fun since h => ?_, fun slot h => ?_, fun slot h => ?_,
      fun since slot h => ?_⟩ <;> subst h
    · exact his rfl rfl rfl rfl (toNat_flag unreadable)
    · exact his rfl rfl rfl rfl rfl
    · exact his rfl rfl rfl rfl rfl
    · exact his rfl rfl rfl rfl rfl
    · exact his rfl rfl rfl rfl rfl
    · exact his rfl rfl rfl rfl rfl
    · exact his rfl rfl rfl rfl rfl
  case region =>
    intro g entries joined is
    have his {st : RegionState} {field : Option Nat} {state reason presence absent : Nat} (h : g.state = st)
        (habsent : absentField p r = field) (hstate : st.code = state)
        (hreason : optNat (st.reason.map SuspendReason.code) = reason)
        (hpresence : st.reason.isSome.toNat + 2 * field.isSome.toNat = presence) (hcount : optNat field = absent) :
        is state reason presence absent := by
      subst hstate hreason hpresence hcount
      exact regionBytes_of h habsent
    have hon {st : RegionState} (h : g.state = st) (hne : st ≠ .off) : absentField p r = some (absentCount p r) :=
      absentField_on (h ▸ hne)
    exact ⟨fun h => his h (absentField_off h) rfl rfl rfl rfl, fun h => his h (hon h (by decide)) rfl rfl rfl rfl,
      fun h => his h (hon h (by decide)) rfl rfl rfl rfl, fun h => his h (hon h (by decide)) rfl rfl rfl rfl,
      fun h => his h (hon h (by decide)) rfl rfl rfl rfl, fun h => his h (hon h (by decide)) rfl rfl rfl rfl⟩

end Sys2Proof.Machine
end

section
/-! PROOFS. The long commands and the link's reset: SYNC, CANCEL, RESET LINK and RESET ENGINE. -/

namespace Sys2Proof.Machine

/-! ### SYNC and CANCEL (R24, R27, R195, R196) -/

theorem longRunning_iff (s : Part) : longRunning s = true ↔ ∃ cmd, s.mbox.long = some (cmd, .running) := by
  rw [longRunning]
  cases s.mbox.long with
  | none => simp
  | some l =>
    obtain ⟨cmd, o⟩ := l
    cases o <;> simp

/-- The counts over marks written anew. -/
theorem countRecs_mapMarks (P : BlockRec → Bool) (f : BlockRec → Option Mark) (s : Part) :
    countRecs P (mapMarks f s) = countRecs (fun b => P { b with mark := f b }) s := by
  simp only [countRecs, mapMarks, Vector.toList_map, List.map_map]
  refine congrArg List.sum (List.map_congr_left fun l _ => ?_)
  simp only [Function.comp_apply, List.countP_map]
  rfl

/-- SYNC marks the blocks that count as dirty (R4, R24). -/
theorem syncMark_isSome (st : BlockState) : (syncMark st).isSome = st.dirtyCounting := by cases st <;> rfl

theorem markCount_syncMarks (s : Part) : markCount (mapMarks (fun b => syncMark b.state) s) = dirtyCount s := by
  rw [markCount, countRecs_mapMarks, dirtyCount]
  simp only [syncMark_isSome]

theorem sync_busy {s : Part} (h : ∃ cmd, s.mbox.long = some (cmd, .running)) : sync s = refuse .busy s :=
  if_pos ((longRunning_iff s).mpr h)

theorem sync_taken {s : Part} (h : ∀ cmd, s.mbox.long ≠ some (cmd, .running)) : sync s =
    syncCheck (acceptLong .sync (leBytes 2 (dirtyCount s)) (mapMarks (fun b => syncMark b.state) s)) := by
  rw [← markCount_syncMarks]
  exact if_neg (mt (longRunning_iff s).mp fun ⟨cmd, k⟩ => h cmd k)

theorem syncCheck_marked {s : Part} (h : markCount s ≠ 0) : syncCheck s = s := if_neg fun k => h k.2

theorem syncCheck_unmarked {s : Part} (hl : s.mbox.long = some (.sync, .running)) (h : markCount s = 0) :
    syncCheck s = endLong .sync .done none s := if_pos ⟨hl, h⟩

theorem cancel_running {s : Part} (h : s.mbox.long = some (.sync, .running)) : cancel s =
    (let t := endLong .sync .cancelled none (mapMarks (fun _ => none) s)
     { t with mbox.status := .cancelled, mbox.refusal := none, mbox.results := padTo 28 [] }) := if_pos h

/-- Settles O54: SYNC's marks are as many as the dirty blocks; CANCEL takes them away. -/
theorem syncAndCancel : Obligations.SyncAndCancel := by
  intro p rest hc m c mark marked running
  have hmark : mark = syncMark := by
    funext st
    cases st <;> rfl
  have hmarked : marked = mapMarks (fun b => syncMark b.state) p := by
    rw [← hmark]
    rfl
  have hcount : markCount marked = dirtyCount p := by rw [hmarked, markCount_syncMarks]
  have hsync : exec .sync ⟨p, rest⟩ = _ := exec_taken (code := 0x12#8) (args := []) (effect := sync) rfl hc (by simp)
  have hcancel : exec .cancel ⟨p, rest⟩ = _ := exec_taken (code := 0x0E#8) (args := []) (effect := cancel) rfl hc (by simp)
  let s : Part := { marked with mbox := running }
  refine ⟨hcount, fun h => exec_refused hsync (sync_busy h), fun h => ?_, fun h => exec_refused hcancel (if_neg h),
    fun h => hcancel.trans ?_⟩
  · have htaken : sync { p with mbox := m } = syncCheck s := by
      rw [sync_taken (s := { p with mbox := m }) h]
      simp only [s, hmarked]
      rfl
    have hs : markCount s = dirtyCount p := hcount
    refine ⟨fun hd => hsync.trans ?_, fun hd => hsync.trans ?_⟩
    · rw [show sync _ = _ from htaken, syncCheck_marked (hs.trans_ne hd)]
    · rw [show sync _ = _ from htaken, syncCheck_unmarked rfl (hs.trans hd)]
      rfl
  · rw [cancel_running (s := { p with mbox := c }) h]
    rfl

/-! ### RESET LINK (R161, R165, R199) -/

theorem resetLinkState_eq (s : Part) :
    let present := s.pres.state = .present
    resetLinkState s = { s with
      link := { s.link with
        current := none, phase := .idle, wait := none, close := none, proc := none, runOpen := false, retries := 0
        attempts := 0, rate := .slow, state := if present then .identifying else .off }
      pres.ident := if present then some .identify else none } := by
  intro present
  by_cases h : present
  · rw [if_pos h, if_pos h]
    exact if_pos h
  · rw [if_neg h, if_neg h]
    exact if_neg h

theorem failWaitingFormat_none {s : Part} (cause : FormatCause) (h : s.mbox.format = none) :
    failWaitingFormat cause s = s := by
  rw [failWaitingFormat, h]

theorem failWaitingFormat_some {s : Part} {f : FormatRun} (cause : FormatCause) (h : s.mbox.format = some f) :
    failWaitingFormat cause s = formatFailed (formatRequestOf s f).code cause s := by
  rw [failWaitingFormat, h]

theorem formatFailed_away {s : Part} {f : FormatRun} (code : ReqCode) (cause : FormatCause) (h : s.mbox.format = some f)
    (hl : s.link.state ≠ .ready) :
    formatFailed code cause s = endLong .format .failed (some (code, cause)) { s with mbox.format := none } := by
  rw [formatFailed, h]
  exact if_neg hl

/-- Settles O56: the cleared link, then the two reports in the order `lossReports` gives, and FORMAT's end. -/
theorem resetLink_spec : Obligations.ResetLink := by
  intro p rest hc q present cleared changed ended wanted
  have hexec : exec .resetLink ⟨p, rest⟩ = .next ⟨settle (complete [] (resetLink q)), rest⟩ :=
    exec_taken (code := 0x0F#8) (args := []) (effect := fun p => settle (complete [] (resetLink p))) rfl hc (by simp)
  let changes : Bool := q.pres.state == .present && q.pres.status != .unverified
  have hcleared : resetLinkState q = cleared := resetLinkState_eq q
  have hreset : resetLink q = failWaitingFormat .resetLink
      (lossReports p.link.current (.failed none) changes resetLinkStatus cleared) := by
    rw [← hcleared]
    rfl
  have hanswer {s : Part} (h : lossReports p.link.current (.failed none) changes resetLinkStatus cleared = s) :
      AnswersNext .resetLink p rest (ended s) := by
    rw [hreset, h] at hexec
    exact answersNext_congr hexec rfl
  have hchanges : changes = true ↔ present ∧ p.pres.status ≠ .unverified := by
    simp only [changes, Bool.and_eq_true, beq_iff_eq, bne_iff_ne]
    rfl
  refine ⟨fun hq => hanswer (by rw [hq]; rfl), fun r hr hw => hanswer ?_, fun r hr hw => ?_,
    fun s h => failWaitingFormat_none _ h, fun s f h hl => ?_⟩
  · rw [hr, lossReports_inOrder (by rw [hchanges]; exact hw)]
    rfl
  · have heither := lossReports_eitherOrder (q := r) (o := .failed none) (changes := changes) (change := resetLinkStatus)
      (s := cleared) (by rw [hchanges]; exact hw)
    rw [← hr] at heither
    exact heither.imp (fun h => hanswer h) (fun h => hanswer h)
  · rw [failWaitingFormat_some _ h, formatFailed_away _ _ h hl]
    rfl

/-! ### RESET ENGINE (R96, R97, R134, R200) -/

theorem withdraw_withdraw (r x : Requester) (s : Part) : withdraw r (withdraw x s) = { s with
    link.current := s.link.current.map fun q =>
      if q.requester = x ∨ q.requester = r then { q with withdrawn := true } else q } := by
  have hmap : (withdraw x s).link.current.map (fun q => if q.requester = r then { q with withdrawn := true } else q) =
      s.link.current.map fun q => if q.requester = x ∨ q.requester = r then { q with withdrawn := true } else q := by
    cases hq : s.link.current with
    | none => rw [withdraw, hq]; rfl
    | some q =>
      rw [withdraw, hq]
      by_cases hx : q.requester = x <;> simp [hx]
  rw [withdraw, hmap]
  rfl

theorem failFillHolds_of_noFill {s : Part} (id : BlockId) (h : ∀ e ∈ s.path.held, e.reason ≠ .fill) :
    failFillHolds id s = s := by
  cases he : oldestOf s id with
  | none => rw [failFillHolds, he]
  | some e => rw [failFillHolds_of_oldest he, if_neg (h e (oldestOf_mem he).1)]

theorem foldl_failFillHolds_of_noFill (ids : List BlockId) {s : Part} (h : ∀ e ∈ s.path.held, e.reason ≠ .fill) :
    ids.foldl (fun u id => failFillHolds id u) s = s := by
  induction ids with
  | nil => rfl
  | cons id ids ih => rw [List.foldl_cons, failFillHolds_of_noFill id h, ih]

theorem beforeCommit_eq (s : Part) : beforeCommit s = s.eng.batch.any fun batch => !batch.committed := by
  rw [beforeCommit]
  cases s.eng.batch <;> rfl

theorem pastJournal_iff (s : Part) : pastJournal s = true ↔
    s.eng.journalHold = true ∨ (∃ why, s.eng.state = .halted why) ∨
      s.eng.state ∈ [.journal, .commit, .verify, .apply, .retire, .inDoubt, .paused .journalNext, .paused .applyStart,
        .paused .applyNext] := by
  rw [pastJournal, Bool.or_eq_true]
  refine or_congr_right ?_
  cases s.eng.state with
  | paused pt => cases pt <;> simp
  | _ => simp

/-- What RESET ENGINE keeps of the engine (R96, R108). -/
theorem clearEngine_of {x : Part} {e : Engine} (h1 : x.eng.lastCommitted = e.lastCommitted)
    (h2 : x.eng.knowledge = e.knowledge) (h3 : x.eng.batchLimit = e.batchLimit)
    (h4 : x.eng.backoffInterval = e.backoffInterval) : clearEngine x = { x with eng := { Engine.reset with
      lastCommitted := e.lastCommitted, knowledge := e.knowledge
      batchLimit := e.batchLimit, backoffInterval := e.backoffInterval } } := by
  rw [← h1, ← h2, ← h3, ← h4]
  rfl

theorem resetEngine_eq (s : Part) : resetEngine s =
    (let t := fillReset (withdraw .background (withdraw .demand s))
     if t.eng.capture.isSome then settle { t with
       eng.resetWaiting := true
       mbox := { t.mbox with status := .running, refusal := none, results := zeros 28, completing := true } }
     else settle { engineReset t with mbox := (engineReset t).mbox.doneWith [] }) := rfl

theorem engineReset_eq (s : Part) : engineReset s =
    (let v := clearEngine (if beforeCommit s then abortBatch .reset (withdraw .recovery (withdraw .checkpoint s))
       else withdraw .recovery (withdraw .checkpoint s))
     if pastJournal s && s.pres.status == .ready then changeStatus .unverified none v else v) := rfl

/-- Settles O57: the fill engine's reset, whose held accesses `fillReset_eq` answers block by block, and the engine's. -/
theorem resetEngine_spec : Obligations.ResetEngine := by
  refine ⟨fun p rest hc => ?command, fun s hfill => ?noFill, fillReset_eq, fun s => ?engine⟩
  case command =>
    intro t
    have hexec : exec .resetEngine ⟨p, rest⟩ = _ :=
      exec_taken (code := 0x10#8) (args := []) (effect := resetEngine) rfl hc (by simp)
    have hcapture : t.eng.capture = p.eng.capture := by
      simp only [t]
      rw [fillReset_pathOnly]
    rw [resetEngine_eq, withdraw_withdraw] at hexec
    refine ⟨fun h => answersNext_congr (hexec.trans ?_) rfl, fun c h => answersNext_congr (hexec.trans ?_) rfl⟩
    · exact congrArg (fun x => Host.Outcome.next (⟨x, rest⟩ : State)) (if_neg (by rw [hcapture.trans h]; decide))
    · exact congrArg (fun x => Host.Outcome.next (⟨x, rest⟩ : State)) (if_pos (by rw [hcapture.trans h]; rfl))
  case noFill =>
    intro t
    obtain ⟨recs, own, hown, -, hfilling, hother, hreset⟩ := fillReset_eq s
    have ht : t = _ := hreset.trans (foldl_failFillHolds_of_noFill _ hfill)
    rw [ht]
    exact ⟨rfl, rfl, hown, hfilling, hother⟩
  case engine =>
    intro past uncommitted u v cleared w
    have hwithdrawn : withdraw .recovery (withdraw .checkpoint s) = u := withdraw_withdraw _ _ s
    have habort : abortBatch .reset u = { v with
        eng.staging := [], eng.batch := none
        evq := if s.eng.staging = [] then v.evq
          else v.evq.post (.batchAborted (s.eng.batch.bind fun b => b.number) .reset) v.now } := abortBatch_eq _ _
    have hv : v.eng = s.eng := by
      simp only [v]
      rw [abortClaim_keeps]
    have hw : clearEngine (if beforeCommit s then abortBatch .reset u else u) = w := by
      rw [beforeCommit_eq]
      by_cases h : uncommitted = true
      · have hcleared : w = cleared { v with
            evq := if s.eng.staging = [] then v.evq
              else v.evq.post (.batchAborted (s.eng.batch.bind fun b => b.number) .reset) v.now } :=
          congrArg cleared (if_pos h)
        rw [if_pos h, hcleared, habort]
        have hlast : v.eng.lastCommitted = s.eng.lastCommitted := congrArg Engine.lastCommitted hv
        have hknown : v.eng.knowledge = s.eng.knowledge := congrArg Engine.knowledge hv
        have hlimit : v.eng.batchLimit = s.eng.batchLimit := congrArg Engine.batchLimit hv
        have hinterval : v.eng.backoffInterval = s.eng.backoffInterval := congrArg Engine.backoffInterval hv
        exact clearEngine_of hlast hknown hlimit hinterval
      · have hcleared : w = cleared u := congrArg cleared (if_neg h)
        rw [if_neg h, hcleared]
        exact clearEngine_of (e := s.eng) rfl rfl rfl rfl
    have hreset : engineReset s = if pastJournal s && s.pres.status == .ready then changeStatus .unverified none w else w := by
      rw [engineReset_eq, hwithdrawn, hw]
    have hpast : (pastJournal s && s.pres.status == .ready) = true ↔ past ∧ s.pres.status = .ready := by
      rw [Bool.and_eq_true, pastJournal_iff, beq_iff_eq]
    exact ⟨fun h1 h2 => hreset.trans (if_pos (hpast.mpr ⟨h1, h2⟩)),
      fun h => hreset.trans (if_neg fun k => h.elim (fun h1 => h1 (hpast.mp k).1) fun h2 => h2 (hpast.mp k).2)⟩

end Sys2Proof.Machine
end

section
/-! PROOFS. What is written to a module and read back (O58). -/

namespace Sys2Proof.Machine

/-! ### Fields of a layout -/

theorem field_leBytes_first (n v : Nat) (rest : Payload) : field (leBytes n v ++ rest) 0 n = v % 256 ^ n :=
  (field_append [] (leBytes n v) rest 0 n rfl (leBytes_length n v)).trans (ofLe_leBytes n v)

theorem field_after_leBytes {m off : Nat} (v n : Nat) (rest : Payload) (h : m ≤ off) :
    field (leBytes m v ++ rest) off n = field rest (off - m) n := by
  rw [field, field, List.drop_append, leBytes_length, List.drop_eq_nil_of_le (by rw [leBytes_length]; exact h),
    List.nil_append]

theorem padTo_length {n : Nat} {p : Payload} (h : p.length ≤ n) : (padTo n p).length = n := by
  rw [padTo, List.length_append, zeros, List.length_replicate]
  exact Nat.add_sub_cancel' h

theorem toNat_mod_256_pow_four (x : U32) : x.toNat % 256 ^ 4 = x.toNat := Nat.mod_eq_of_lt x.isLt

/-! ### Status records (R101, R205) -/

theorem recordState_ofCode_code (st : RecordState) : RecordState.ofCode st.code = some st := by
  cases st <;> rfl

theorem recordState_code_mod (st : RecordState) : st.code % 256 ^ 1 = st.code := by
  cases st <;> rfl

theorem statusBody_length (r : StatusRecord) : (statusBody r).length = 18 := by
  simp [statusBody, leBytes_length]

theorem statusPayload_length (r : StatusRecord) : (statusPayload r).length = 256 :=
  padTo_length (by simp [statusBody_length, leBytes_length])

theorem statusPayload_take (r : StatusRecord) : (statusPayload r).take 18 = statusBody r := by
  rw [statusPayload, padTo, List.append_assoc, List.take_left' (statusBody_length r)]

theorem statusPayload_fields {r : StatusRecord} (h : r.count ≤ 64) :
    field (statusPayload r) 0 4 = r.seq.toNat ∧ field (statusPayload r) 4 1 = r.state.code ∧
    field (statusPayload r) 5 4 = r.batch.toNat ∧ field (statusPayload r) 9 1 = r.count ∧
    field (statusPayload r) 10 4 = r.check.toNat ∧ field (statusPayload r) 14 4 = r.binding.toNat ∧
    field (statusPayload r) 18 4 = (crc32 (statusBody r)).toNat := by
  have hcount : r.count % 256 ^ 1 = r.count := Nat.mod_eq_of_lt (by omega)
  generalize hcheck : crc32 (statusBody r) = check
  rw [statusPayload, hcheck, statusBody, padTo]
  simp only [List.append_assoc]
  refine ⟨?_, ?_, ?_, ?_, ?_, ?_, ?_⟩ <;>
    simp only [field_after_leBytes, field_leBytes_first, toNat_mod_256_pow_four, recordState_code_mod, hcount,
      Nat.reduceLeDiff, Nat.reduceSub, Nat.le_refl, Nat.sub_self]

theorem parseStatus_statusPayload {r : StatusRecord} (h : r.count ≤ 64) (binding : U32) :
    parseStatus binding false (statusPayload r) = if r.binding = binding then some r else none := by
  obtain ⟨hseq, hstate, hbatch, hcount, hcheck, hbinding, hcrc⟩ := statusPayload_fields h
  rw [parseStatus, hstate, recordState_ofCode_code, hseq, hbatch, hcount, hcheck, hbinding, hcrc, statusPayload_take]
  by_cases hb : r.binding = binding
  · subst hb
    simp [h]
  · have hne : r.binding.toNat ≠ binding.toNat := fun e => hb (BitVec.eq_of_toNat_eq e)
    simp [hb, hne]

theorem parseStatus_blank (binding : U32) (p : Payload) : parseStatus binding true p = none := by
  rw [parseStatus]
  cases RecordState.ofCode (field p 4 1) <;> rfl

/-! ### The format header (R100, R104) -/

theorem headerBody_length (binding : U32) : (headerBody binding).length = 10 := by
  simp [headerBody, leBytes_length]

theorem headerPayload_length (binding : U32) : (headerPayload binding).length = 256 :=
  padTo_length (by simp [headerBody_length, leBytes_length])

theorem headerPayload_take (binding : U32) : (headerPayload binding).take 10 = headerBody binding := by
  rw [headerPayload, padTo, List.append_assoc, List.take_left' (headerBody_length binding)]

theorem headerPayload_fields (binding : U32) :
    field (headerPayload binding) 0 2 = 1 ∧ field (headerPayload binding) 2 4 = binding.toNat ∧
    field (headerPayload binding) 6 4 = 67 ∧
    field (headerPayload binding) 10 4 = (crc32 (headerBody binding)).toNat := by
  generalize hcheck : crc32 (headerBody binding) = check
  rw [headerPayload, hcheck, headerBody, padTo]
  simp only [List.append_assoc]
  refine ⟨?_, ?_, ?_, ?_⟩ <;>
    simp only [field_after_leBytes, field_leBytes_first, toNat_mod_256_pow_four, Nat.reduceLeDiff, Nat.reduceSub,
      Nat.le_refl, Nat.sub_self] <;> rfl

theorem parseHeader_headerPayload {binding : U32} {i : Identity} (hb : binding ≠ 0) (hv : i.versions.getLsbD 0 = true) :
    parseHeader (some i) false (headerPayload binding) = ⟨1, binding, 67, true⟩ := by
  obtain ⟨hversion, hbinding, hhome, hcrc⟩ := headerPayload_fields binding
  have hne : binding.toNat ≠ 0 := fun e => hb (BitVec.eq_of_toNat_eq e)
  rw [parseHeader, hversion, hbinding, hhome, hcrc, headerPayload_take, BitVec.ofNat_toNat, BitVec.setWidth_eq]
  simp [hv, hne, Config.formatVersion, Config.homeStart]

/-! ### Homes (R85, R106, R127) -/

theorem homeTag_length (id : BlockId) (batch : Nat) (payload : Payload) : (homeTag id batch payload).length = 16 := by
  simp [homeTag, leBytes_length, zeros]

theorem homeTag_fields (id : BlockId) (batch : Nat) (payload : Payload) (h : id.index < 65536) :
    field (homeTag id batch payload) 0 1 = id.region.val ∧ field (homeTag id batch payload) 1 2 = id.index ∧
    field (homeTag id batch payload) 7 4 = (crc32 payload).toNat := by
  have hregion : id.region.val % 256 ^ 1 = id.region.val := Nat.mod_eq_of_lt (by omega)
  have hindex : id.index % 256 ^ 2 = id.index := Nat.mod_eq_of_lt h
  rw [homeTag]
  simp only [List.append_assoc]
  refine ⟨?_, ?_, ?_⟩ <;>
    simp only [field_after_leBytes, field_leBytes_first, toNat_mod_256_pow_four, hregion, hindex, Nat.reduceLeDiff,
      Nat.reduceSub, Nat.le_refl, Nat.sub_self]

/-- Settles O58: each field of a written layout reads back as the number it was written from, so its check passes. -/
theorem writtenRecordsReadBack : Obligations.WrittenRecordsReadBack := by
  refine ⟨fun r h => ⟨?_, statusPayload_length r, fun other hne => ?_⟩, parseStatus_blank,
    fun binding i hb hv => ⟨parseHeader_headerPayload hb hv, headerPayload_length binding⟩,
    fun id batch payload check stop h => ⟨homeTag_length id batch payload, ?_⟩⟩
  · rw [parseStatus_statusPayload h, if_pos rfl]
  · rw [parseStatus_statusPayload h, if_neg hne.symm]
  · obtain ⟨hregion, hindex, hcrc⟩ := homeTag_fields id batch payload h
    have hcases := homeCheck_cases id ⟨0, payload, homeTag id batch payload, check, stop⟩
    obtain ⟨-, -, hchecked⟩ := hcases
    exact (hchecked rfl hcrc).2 hregion hindex

end Sys2Proof.Machine
end

section
/-! PROOFS. FORMAT (O55): its acceptance, its writes, and its ends. -/

namespace Sys2Proof.Machine

/-! ### What FORMAT asks before it is accepted (R197) -/

theorem formatMode_of_ge {b : Byte} (h : 2 ≤ b.toNat) : formatMode b = none := by
  obtain ⟨n, hn⟩ : ∃ n, b.toNat = n + 2 := ⟨b.toNat - 2, by omega⟩
  rw [formatMode, hn]
  rfl

theorem formatMode_of_lt {b : Byte} (h : b.toNat < 2) : formatMode b = some (decide (b.toNat = 1)) := by
  obtain h0 | h1 : b.toNat = 0 ∨ b.toNat = 1 := by omega
  · rw [formatMode, h0]; rfl
  · rw [formatMode, h1]; rfl

theorem homesFit_iff (s : Part) : homesFit s = true ↔
    ∀ (r : Fin 8) i, s.pres.identity = some i → i.passes = true → (s.regs[r]).size ≠ 0 →
      (s.regs[r]).homeBase + (s.regs[r]).size ≤ i.capacity := by
  simp only [homesFit, List.all_eq_true, List.mem_finRange, true_imp_iff, Bool.or_eq_true, beq_iff_eq]
  refine forall_congr' fun r => ?_
  rw [withinCapacity_iff]
  constructor
  · intro h i hi hp hs
    exact (h.resolve_left hs) i hi hp
  · intro h
    by_cases hs : (s.regs[r]).size = 0
    · exact Or.inl hs
    · exact Or.inr fun i hi hp => h i hi hp hs

theorem engineBars_iff (st : EngineState) : engineBars st = true ↔ st = .inDoubt ∨ (∃ why, st = .halted why) ∨ st = .apply ∨
    st = .retire ∨ st = .paused .applyStart ∨ st = .paused .applyNext := by
  cases st with
  | paused pt => cases pt <;> simp [engineBars]
  | _ => simp [engineBars]

theorem formattable_iff (st : ModStatus) : formattable st = true ↔
    st ∈ [.unformatted, .mismatched, .unverified, .ready] := by
  cases st <;> simp [formattable]

section Checks

variable {s : Part} {mode : Byte}

theorem format_badMode (h : 2 ≤ mode.toNat) : format mode s = refuse .badArgument s := by
  rw [format, formatMode_of_ge h]

theorem format_of_mode (h : mode.toNat < 2) : format mode s =
    if longRunning s then refuse .busy s
    else if s.pres.binding = 0 then refuse .notBound s
    else if s.pres.status = .none then refuse .noModule s
    else if !formattable s.pres.status then refuse .wrongState s
    else if s.link.state = .identifying ∨ s.link.state = .lost then refuse .wrongState s
    else if engineBars s.eng.state then refuse .wrongState s
    else if decide (mode.toNat = 1) && !homesFit s then refuse .capacity s
    else acceptFormat (if decide (mode.toNat = 1) then homeList s else []) s := by
  rw [format, formatMode_of_lt h]

theorem format_busy (h : mode.toNat < 2) (hl : longRunning s = true) : format mode s = refuse .busy s := by
  rw [format_of_mode h, if_pos hl]

variable (h : mode.toNat < 2) (hl : ¬ longRunning s = true)

include h hl

theorem format_notBound (hb : s.pres.binding = 0) : format mode s = refuse .notBound s := by
  rw [format_of_mode h, if_neg hl, if_pos hb]

variable (hb : s.pres.binding ≠ 0)

include hb

theorem format_noModule (hs : s.pres.status = .none) : format mode s = refuse .noModule s := by
  rw [format_of_mode h, if_neg hl, if_neg hb, if_pos hs]

theorem format_notFormattable (hs : s.pres.status = .identifying ∨ s.pres.status = .failed) :
    format mode s = refuse .wrongState s := by
  have hnone : s.pres.status ≠ .none := by rcases hs with hs | hs <;> rw [hs] <;> decide
  have hnot : (!formattable s.pres.status) = true := by rcases hs with hs | hs <;> rw [hs] <;> rfl
  rw [format_of_mode h, if_neg hl, if_neg hb, if_neg hnone, if_pos hnot]

variable (hs : formattable s.pres.status = true)

include hs

theorem format_of_status : format mode s =
    if s.link.state = .identifying ∨ s.link.state = .lost then refuse .wrongState s
    else if engineBars s.eng.state then refuse .wrongState s
    else if decide (mode.toNat = 1) && !homesFit s then refuse .capacity s
    else acceptFormat (if decide (mode.toNat = 1) then homeList s else []) s := by
  have hnone : s.pres.status ≠ .none := fun e => by rw [e] at hs; exact absurd hs (by decide)
  rw [format_of_mode h, if_neg hl, if_neg hb, if_neg hnone, if_neg (by rw [hs]; decide)]

theorem format_barred
    (hbar : s.link.state = .identifying ∨ s.link.state = .lost ∨ engineBars s.eng.state = true) :
    format mode s = refuse .wrongState s := by
  rw [format_of_status h hl hb hs]
  by_cases hlink : s.link.state = .identifying ∨ s.link.state = .lost
  · exact if_pos hlink
  · have hengine : engineBars s.eng.state = true := (or_assoc.mpr hbar).resolve_left hlink
    exact (if_neg hlink).trans (if_pos hengine)

variable (hi : s.link.state ≠ .identifying) (hlost : s.link.state ≠ .lost) (he : engineBars s.eng.state = false)

include hi hlost he

theorem format_capacity (hm : mode.toNat = 1) (hf : ¬ homesFit s = true) : format mode s = refuse .capacity s := by
  rw [format_of_status h hl hb hs, if_neg (not_or.mpr ⟨hi, hlost⟩), if_neg (by rw [he]; decide),
    if_pos (by simp [hm, hf])]

theorem format_accepted (hf : mode.toNat = 0 ∨ homesFit s = true) :
    format mode s = acceptFormat (if mode.toNat = 1 then homeList s else []) s := by
  have hfits : ¬ (decide (mode.toNat = 1) && !homesFit s) = true := by
    rcases hf with hf | hf <;> simp [hf]
  rw [format_of_status h hl hb hs, if_neg (not_or.mpr ⟨hi, hlost⟩), if_neg (by rw [he]; decide), if_neg hfits]
  simp only [decide_eq_true_eq]

end Checks

/-! ### The home list (R197, R198) -/

theorem mem_regionHomes {s : Part} {r : Fin 8} {x : HomeTarget} : x ∈ regionHomes s r ↔
    ∃ i, i < (s.regs[r]).size ∧ x = ⟨(s.regs[r]).homeBase + i, ⟨r, i⟩⟩ := by
  simp only [regionHomes, List.mem_map, List.mem_range, eq_comm (a := x)]

theorem mem_homeList (s : Part) (x : HomeTarget) : x ∈ homeList s ↔
    ∃ (r : Fin 8) (i : Nat), i < (s.regs[r]).size ∧ x = ⟨(s.regs[r]).homeBase + i, ⟨r, i⟩⟩ := by
  simp only [homeList, List.mem_flatMap, (sortHomes_perm _ _).mem_iff, List.mem_finRange, true_and, mem_regionHomes]

theorem regionHomes_sorted (s : Part) (r : Fin 8) : (regionHomes s r).Pairwise fun a b => a.home < b.home := by
  rw [regionHomes, List.pairwise_map]
  exact List.pairwise_lt_range.imp fun h => Nat.add_lt_add_left h _

/-- Regions taken by home base, their home ranges disjoint: the homes of an earlier one lie below those of a later. -/
theorem homeList_sorted (s : Part) (hdisjoint : ∀ r x : Fin 8, r ≠ x → (s.regs[r]).size ≠ 0 → (s.regs[x]).size ≠ 0 →
      (s.regs[r]).homeBase + (s.regs[r]).size ≤ (s.regs[x]).homeBase ∨
      (s.regs[x]).homeBase + (s.regs[x]).size ≤ (s.regs[r]).homeBase) :
    (homeList s).Pairwise fun a b => a.home < b.home := by
  have hsorted := sortHomes_sorted (fun r => (s.regs[r]).homeBase) (List.finRange 8)
  have hnodup : (sortHomes (fun r => (s.regs[r]).homeBase) (List.finRange 8)).Nodup :=
    (sortHomes_perm _ _).nodup_iff.mpr (List.nodup_finRange 8)
  rw [homeList, List.pairwise_flatMap]
  refine ⟨fun r _ => regionHomes_sorted s r, (hsorted.and hnodup).imp ?_⟩
  rintro r x ⟨hle, hne⟩ a ha b hb
  obtain ⟨i, hi, rfl⟩ := mem_regionHomes.mp ha
  obtain ⟨j, hj, rfl⟩ := mem_regionHomes.mp hb
  have hcases := hdisjoint r x hne (by omega) (by omega)
  show (s.regs[r]).homeBase + i < (s.regs[x]).homeBase + j
  omega

/-! ### A write of FORMAT ends (R198) -/

theorem busyEnded_write {p : Part} {q : LinkReq} (hq : p.link.current = some q) (hw : q.withdrawn = false)
    (hc : q.code = .writeBlock ∨ q.code = .writeRun ∧ p.link.close = some .last) :
    busyEnded p = deliver q .done (endRequest p) := by
  obtain hc | ⟨hc, hclose⟩ := hc
  · exact busyEnded_single hq (by rw [hc]; rfl) hw
  · rw [busyEnded_run hq (by rw [hc]; rfl), runClosed_last hq hclose]

theorem setFormatStep_of {s : Part} {f : FormatRun} (st : FormatStep) (h : s.mbox.format = some f) :
    setFormatStep st s = { s with mbox.format := some { f with step := st } } := by
  rw [setFormatStep, h]
  rfl

section Written

variable {s : Part} {f : FormatRun} (n : Nat) (h : s.mbox.format = some f)

include h

theorem formatWritten_step : formatWritten n s =
    match f.step with
    | .clearA => { s with mbox.format := some { f with step := .clearB } }
    | .clearB => { s with mbox.format := some { f with step := if f.homes = [] then .header else .homes 0 } }
    | .homes sent => { s with
        mbox.format := some { f with step := if f.homes.length ≤ sent + n then .header else .homes (sent + n) } }
    | .header => { s with mbox.format := some { f with step := .slotA } }
    | .slotA => { s with mbox.format := some { f with step := .slotB } }
    | .slotB => formatDone f s := by
  rw [formatWritten, h]
  cases hs : f.step <;> simp only [hs, setFormatStep_of _ h, List.isEmpty_iff]

end Written

/-! ### The ends of FORMAT (R199) -/

/-- READY at the end of FORMAT is a change of status to the engine: a recovery entered meanwhile ends, anything else stands. -/
theorem engineStatus_ready (old : ModStatus) (s : Part) : engineStatus old .ready s =
    if s.eng.state = .recover then leaveRecovery (disown .recovery s) else s := by
  rw [engineStatus]
  by_cases h : s.eng.state = .recover
  · rw [if_pos h, if_pos h, if_neg (by decide), recoveryLoss]
  · rw [if_neg h, if_neg h, if_neg (fun k => k.2 rfl)]

/-- The part with FORMAT's results recorded, before the module becomes READY. -/
def formatRecorded (f : FormatRun) (s : Part) : Part := { s with
  mbox.format := none
  pres.header := some ⟨Config.formatVersion, f.binding, Config.homeStart, true⟩
  pres.summary := some (some ⟨.b, .empty, 0⟩)
  eng.lastCommitted := some 0
  eng.knowledge := some (1, .b) }

theorem formatDone_eq (f : FormatRun) (s : Part) : formatDone f s =
    endLong .format .done none (engineStatus s.pres.status .ready (becomeReady (formatRecorded f s))) := rfl

theorem becomeReady_formatRecorded_state (f : FormatRun) {s : Part} {i : Identity} (hi : s.pres.identity = some i) :
    (becomeReady (formatRecorded f s)).eng.state = s.eng.state := by
  rw [(becomeReady_keeps (s := formatRecorded f s) hi).2.2]
  rfl

theorem becomeReady_formatRecorded (f : FormatRun) {s : Part} {i : Identity} (hi : s.pres.identity = some i)
    (hs : s.pres.status ≠ .ready) : becomeReady (formatRecorded f s) = evalAll { formatRecorded f s with
      pres.status := .ready
      pres.serial := some i.serial
      evq := s.evq.post (.moduleStatus .ready (some (serialDetail s))) s.now } :=
  becomeReady_of_new (s := formatRecorded f s) hi hs

theorem formatFailed_ready {s : Part} {f : FormatRun} (code : ReqCode) (cause : FormatCause) (h : s.mbox.format = some f)
    (hl : s.link.state = .ready) : formatFailed code cause s =
      (let t := endLong .format .failed (some (code, cause)) { s with mbox.format := none }
      { startIdent (setStatus .unformatted none t) with link.state := .identifying }) := by
  rw [formatFailed, h]
  exact if_pos hl

/-! ### FORMAT whole -/

theorem formatRequestOf_at (p : Part) {f : FormatRun} {st : FormatStep} (hs : f.step = st) :
    formatRequestOf p f = formatRequestOf p { f with step := st } := by
  subst hs
  rfl

theorem formatBurst_at {p : Part} {f : FormatRun} {st : FormatStep} (hf : p.mbox.format = some f) (hs : f.step = st)
    (pos : Nat) : formatBurst p pos = formatBurst { p with mbox.format := some { f with step := st } } pos := by
  subst hs
  rw [formatBurst, hf]
  rfl

/-- Settles O55: acceptance check by check, the home list, each step's write and what follows it, and both ends. -/
theorem format_spec : Obligations.Format := by
  refine ⟨fun p rest mode hc => ?accepted,
    fun p f hf => ?writes, fun p rest q f hp hq hr hw hd hcode hf => ?written, fun p f i hi hs => ?done,
    fun cmd o failure s => rfl, fun p f code cause hf => ⟨fun hl => ?failedReady, formatFailed_away code cause hf⟩⟩
  case accepted =>
    intro q refused fits homes u
    have hexec : exec (.format mode) ⟨p, rest⟩ = .next ⟨format mode q, rest⟩ :=
      exec_taken (code := 0x13#8) (args := [mode]) (effect := format mode) rfl hc (by simp)
    have hrefused {c : RefusalCode} (h : format mode q = refuse c q) : refused c := exec_refused hexec h
    refine ⟨fun h => hrefused (format_badMode h), fun h => ⟨fun hl => ?busy, fun hl => ?idle⟩, engineBars_iff,
      mem_homeList p, homeList_sorted p⟩
    case busy => exact hrefused (format_busy h ((longRunning_iff q).mpr hl))
    case idle =>
      have hidle : ¬ longRunning q = true := fun k => ((longRunning_iff q).mp k).elim hl
      refine ⟨fun hb => hrefused (format_notBound h hidle hb), fun hb =>
        ⟨fun hs => hrefused (format_noModule h hidle hb hs), fun hs => hrefused (format_notFormattable h hidle hb hs),
          fun hs => ?_⟩⟩
      have hformattable : formattable q.pres.status = true := (formattable_iff _).mpr hs
      refine ⟨fun hbar => hrefused (format_barred h hidle hb hformattable hbar), fun hi hlost he => ⟨fun hm hfit => ?_,
        fun hfit => ?_⟩⟩
      · exact hrefused (format_capacity h hidle hb hformattable hi hlost he hm fun k => hfit ((homesFit_iff q).mp k))
      · have haccepted := format_accepted h hidle hb hformattable hi hlost he (hfit.imp_right (homesFit_iff q).mpr)
        exact answersNext_congr (hexec.trans (by rw [haccepted]; rfl)) rfl
  case writes =>
    intro write empty
    refine ⟨fun hs => ⟨formatRequestOf_at p hs, formatBurst_at hf hs 0⟩,
      fun hs => ⟨formatRequestOf_at p hs, formatBurst_at hf hs 0⟩,
      fun sent hs => ⟨formatRequestOf_at p hs, fun pos h hh => (formatBurst_at hf hs pos).trans ?_⟩,
      fun hs => ⟨formatRequestOf_at p hs, formatBurst_at hf hs 0⟩,
      fun hs => ⟨formatRequestOf_at p hs, formatBurst_at hf hs 0⟩,
      fun hs => ⟨formatRequestOf_at p hs, formatBurst_at hf hs 0⟩, fun q hq => ?_⟩
    · simp only [formatBurst, hh]
    · rw [writeContent, hq]
  case written =>
    intro s goes
    have hformat : s.mbox.format = some f := hf
    have hend : busyEnded p = formatWritten q.count s := by
      rw [busyEnded_write hq hw hcode, deliver_of_wanted .done hw hd, hr]
      rfl
    have hnext {t : Part} (h : formatWritten q.count s = t) : AnswersNext .busyEnd p rest t :=
      answersNext_congr (exec_busyEnd rest hp) (hend.trans h)
    rw [formatWritten_step q.count hformat] at hnext
    refine ⟨fun hs => hnext ?_, fun hs => hnext ?_, fun sent hs => hnext ?_, fun hs => hnext ?_, fun hs => hnext ?_,
      fun hs => hnext ?_⟩ <;> rw [hs]
  case done =>
    intro detail t
    have hready : becomeReady (formatRecorded f p) = t := by
      rw [becomeReady_formatRecorded f hi hs, serialDetail_of hi]
      rfl
    have hstate : t.eng.state = p.eng.state := by rw [← hready, becomeReady_formatRecorded_state f hi]
    rw [formatDone_eq, hready, engineStatus_ready, hstate]
    exact ⟨fun h => congrArg _ (if_neg h), fun h => congrArg _ (if_pos h)⟩
  case failedReady => exact formatFailed_ready code cause hf hl

end Sys2Proof.Machine
end
